-- ==== Sys2Proof/Word.lean ====
section
/-! DEFINITION. The word and byte types of the block (00_scope.md R8: ADDR_BITS = WORD_BITS = 32). -/

namespace Sys2Proof

/-- A register, a descriptor word or a physical address: 32 bits (R8, R50, R56). -/
abbrev Word := BitVec 32

/-- One byte of memory (R50). -/
abbrev Byte := BitVec 8

end Sys2Proof
end

