-- ==== Sys2Proof/Syntax.lean ====
section
/-! DEFINITION. The syntax of the command packets: planes, register names and the instructions, one constructor
for each row of spec/opcode_table.json (30_encoding.md R65 to R84). -/

namespace Sys2Proof

/-- The planes: p = 0 is Y (luma), p = 1 is U, p = 2 is V (00_scope.md R13). -/
inductive Plane where
  | y | u | v
deriving DecidableEq, Repr

/-- The sixteen configuration fields in the order of R78 (f = 0 to 15). -/
inductive CfgField where
  | mode | xpos | ypos | xsize | ysize | xmemsize | ymemsize | xfactor
  | yfactor | coeff | xstrideY | pstrideY | xstrideU | pstrideU | xstrideV | pstrideV
deriving DecidableEq, Repr

/-- The registers a WR may name: access W or RW in R74. -/
inductive WReg where
  /-- channel enable / update enable (R75, R86) -/
  | cher
  /-- channel disable (R75, R87) -/
  | chdr
  /-- interrupt enable (R77, R88) -/
  | ier
  /-- interrupt disable (R77, R89) -/
  | idr
  /-- head-descriptor pointer of a plane (R36, R90) -/
  | head (p : Plane)
  /-- shadow configuration field (R41, R91) -/
  | cfg (f : CfgField)
deriving DecidableEq, Repr

/-- The registers an RD may name: access R or RW in R74, and SYNCSR of the global block (R81). -/
inductive RReg where
  /-- channel status (R76, R97) -/
  | chsr
  /-- interrupt mask (R95) -/
  | imr
  /-- interrupt status, clear on read (R96) -/
  | isr
  /-- head-descriptor pointer (R98) -/
  | head (p : Plane)
  /-- DMA address register (R99) -/
  | addr (p : Plane)
  /-- control word of the loaded descriptor (R100) -/
  | ctrl (p : Plane)
  /-- next-descriptor pointer (R101) -/
  | next (p : Plane)
  /-- shadow configuration field (R103) -/
  | cfg (f : CfgField)
  /-- global status register, bit 0 SIPSTS (R104) -/
  | syncsr
deriving DecidableEq, Repr

/-- The instructions, one constructor for each row of the opcode table (R84). An s32 operand is the signed integer
its word stands for, a u32 operand is its word (R69). -/
inductive Instr where
  /-- SFMT, w0 = 0x00000101 (R143) -/
  | sfmt (tag : Word) (w h : Int)
  /-- SWIN, w0 = 0x00000102 (R145) -/
  | swin (l t ww wh : Int)
  /-- SROT, w0 = 0x00000103 (R148) -/
  | srot (deg : Int)
  /-- QBUF, w0 = 0x00000104 (R152) -/
  | qbuf (id base0 base1 base2 : Word)
  /-- STREAMON, w0 = 0x00000105 (R162) -/
  | streamon
  /-- STREAMOFF, w0 = 0x00000106 (R163) -/
  | streamoff
  /-- IRQ, w0 = 0x00000107 (R166) -/
  | irq
  /-- BARRIER, w0 = 0x00000112 (R170) -/
  | barrier
  /-- WR_CHER, w0 = 0x00000110 (R86) -/
  | wrCher (v : Word)
  /-- WR_CHDR, w0 = 0x00010110 (R87) -/
  | wrChdr (v : Word)
  /-- WR_IER, w0 = 0x00030110 (R88) -/
  | wrIer (v : Word)
  /-- WR_IDR, w0 = 0x00040110 (R89) -/
  | wrIdr (v : Word)
  /-- WR_HEAD_Y, w0 = 0x00100110 (R90) -/
  | wrHeadY (v : Word)
  /-- WR_HEAD_U, w0 = 0x00140110 (R90) -/
  | wrHeadU (v : Word)
  /-- WR_HEAD_V, w0 = 0x00180110 (R90) -/
  | wrHeadV (v : Word)
  /-- WR_CFG_MODE, w0 = 0x00400110 (R91) -/
  | wrCfgMode (v : Word)
  /-- WR_CFG_XPOS, w0 = 0x00410110 (R91) -/
  | wrCfgXpos (v : Word)
  /-- WR_CFG_YPOS, w0 = 0x00420110 (R91) -/
  | wrCfgYpos (v : Word)
  /-- WR_CFG_XSIZE, w0 = 0x00430110 (R91) -/
  | wrCfgXsize (v : Word)
  /-- WR_CFG_YSIZE, w0 = 0x00440110 (R91) -/
  | wrCfgYsize (v : Word)
  /-- WR_CFG_XMEMSIZE, w0 = 0x00450110 (R91) -/
  | wrCfgXmemsize (v : Word)
  /-- WR_CFG_YMEMSIZE, w0 = 0x00460110 (R91) -/
  | wrCfgYmemsize (v : Word)
  /-- WR_CFG_XFACTOR, w0 = 0x00470110 (R91) -/
  | wrCfgXfactor (v : Word)
  /-- WR_CFG_YFACTOR, w0 = 0x00480110 (R91) -/
  | wrCfgYfactor (v : Word)
  /-- WR_CFG_COEFF, w0 = 0x00490110 (R91) -/
  | wrCfgCoeff (v : Word)
  /-- WR_CFG_XSTRIDE_Y, w0 = 0x004A0110 (R91) -/
  | wrCfgXstrideY (v : Word)
  /-- WR_CFG_PSTRIDE_Y, w0 = 0x004B0110 (R91) -/
  | wrCfgPstrideY (v : Word)
  /-- WR_CFG_XSTRIDE_U, w0 = 0x004C0110 (R91) -/
  | wrCfgXstrideU (v : Word)
  /-- WR_CFG_PSTRIDE_U, w0 = 0x004D0110 (R91) -/
  | wrCfgPstrideU (v : Word)
  /-- WR_CFG_XSTRIDE_V, w0 = 0x004E0110 (R91) -/
  | wrCfgXstrideV (v : Word)
  /-- WR_CFG_PSTRIDE_V, w0 = 0x004F0110 (R91) -/
  | wrCfgPstrideV (v : Word)
  /-- RD_CHSR, w0 = 0x00020111 (R97) -/
  | rdChsr
  /-- RD_IMR, w0 = 0x00050111 (R95) -/
  | rdImr
  /-- RD_ISR, w0 = 0x00060111 (R96) -/
  | rdIsr
  /-- RD_HEAD_Y, w0 = 0x00100111 (R98) -/
  | rdHeadY
  /-- RD_HEAD_U, w0 = 0x00140111 (R98) -/
  | rdHeadU
  /-- RD_HEAD_V, w0 = 0x00180111 (R98) -/
  | rdHeadV
  /-- RD_ADDR_Y, w0 = 0x00110111 (R99) -/
  | rdAddrY
  /-- RD_ADDR_U, w0 = 0x00150111 (R99) -/
  | rdAddrU
  /-- RD_ADDR_V, w0 = 0x00190111 (R99) -/
  | rdAddrV
  /-- RD_CTRL_Y, w0 = 0x00120111 (R100) -/
  | rdCtrlY
  /-- RD_CTRL_U, w0 = 0x00160111 (R100) -/
  | rdCtrlU
  /-- RD_CTRL_V, w0 = 0x001A0111 (R100) -/
  | rdCtrlV
  /-- RD_NEXT_Y, w0 = 0x00130111 (R101) -/
  | rdNextY
  /-- RD_NEXT_U, w0 = 0x00170111 (R101) -/
  | rdNextU
  /-- RD_NEXT_V, w0 = 0x001B0111 (R101) -/
  | rdNextV
  /-- RD_CFG_MODE, w0 = 0x00400111 (R103) -/
  | rdCfgMode
  /-- RD_CFG_XPOS, w0 = 0x00410111 (R103) -/
  | rdCfgXpos
  /-- RD_CFG_YPOS, w0 = 0x00420111 (R103) -/
  | rdCfgYpos
  /-- RD_CFG_XSIZE, w0 = 0x00430111 (R103) -/
  | rdCfgXsize
  /-- RD_CFG_YSIZE, w0 = 0x00440111 (R103) -/
  | rdCfgYsize
  /-- RD_CFG_XMEMSIZE, w0 = 0x00450111 (R103) -/
  | rdCfgXmemsize
  /-- RD_CFG_YMEMSIZE, w0 = 0x00460111 (R103) -/
  | rdCfgYmemsize
  /-- RD_CFG_XFACTOR, w0 = 0x00470111 (R103) -/
  | rdCfgXfactor
  /-- RD_CFG_YFACTOR, w0 = 0x00480111 (R103) -/
  | rdCfgYfactor
  /-- RD_CFG_COEFF, w0 = 0x00490111 (R103) -/
  | rdCfgCoeff
  /-- RD_CFG_XSTRIDE_Y, w0 = 0x004A0111 (R103) -/
  | rdCfgXstrideY
  /-- RD_CFG_PSTRIDE_Y, w0 = 0x004B0111 (R103) -/
  | rdCfgPstrideY
  /-- RD_CFG_XSTRIDE_U, w0 = 0x004C0111 (R103) -/
  | rdCfgXstrideU
  /-- RD_CFG_PSTRIDE_U, w0 = 0x004D0111 (R103) -/
  | rdCfgPstrideU
  /-- RD_CFG_XSTRIDE_V, w0 = 0x004E0111 (R103) -/
  | rdCfgXstrideV
  /-- RD_CFG_PSTRIDE_V, w0 = 0x004F0111 (R103) -/
  | rdCfgPstrideV
  /-- RD_SYNCSR, w0 = 0x00000F11 (R104) -/
  | rdSyncsr
  /-- E_FSTART, w0 = 0x00000120 (R175) -/
  | eFstart
  /-- E_FETCH_Y, w0 = 0x00000121 (R179) -/
  | eFetchY (a : Word)
  /-- E_FETCH_U, w0 = 0x00010121 (R179) -/
  | eFetchU (a : Word)
  /-- E_FETCH_V, w0 = 0x00020121 (R179) -/
  | eFetchV (a : Word)
  /-- E_FEND, w0 = 0x00000122 (R181) -/
  | eFend
  /-- E_OVR_Y, w0 = 0x00000123 (R184) -/
  | eOvrY
  /-- E_OVR_U, w0 = 0x00010123 (R184) -/
  | eOvrU
  /-- E_OVR_V, w0 = 0x00020123 (R184) -/
  | eOvrV
  /-- E_SYNC, w0 = 0x00000F24 (R185) -/
  | eSync
deriving DecidableEq, Repr

/-- The write instruction of each writable register and value (R84: one WR row per member of a register group). -/
def Instr.ofWr (r : WReg) (x : Word) : Instr :=
  match r with
  | .cher => .wrCher x
  | .chdr => .wrChdr x
  | .ier => .wrIer x
  | .idr => .wrIdr x
  | .head .y => .wrHeadY x
  | .head .u => .wrHeadU x
  | .head .v => .wrHeadV x
  | .cfg .mode => .wrCfgMode x
  | .cfg .xpos => .wrCfgXpos x
  | .cfg .ypos => .wrCfgYpos x
  | .cfg .xsize => .wrCfgXsize x
  | .cfg .ysize => .wrCfgYsize x
  | .cfg .xmemsize => .wrCfgXmemsize x
  | .cfg .ymemsize => .wrCfgYmemsize x
  | .cfg .xfactor => .wrCfgXfactor x
  | .cfg .yfactor => .wrCfgYfactor x
  | .cfg .coeff => .wrCfgCoeff x
  | .cfg .xstrideY => .wrCfgXstrideY x
  | .cfg .pstrideY => .wrCfgPstrideY x
  | .cfg .xstrideU => .wrCfgXstrideU x
  | .cfg .pstrideU => .wrCfgPstrideU x
  | .cfg .xstrideV => .wrCfgXstrideV x
  | .cfg .pstrideV => .wrCfgPstrideV x

/-- The read instruction of each readable register (R84). -/
def Instr.ofRd (r : RReg) : Instr :=
  match r with
  | .chsr => .rdChsr
  | .imr => .rdImr
  | .isr => .rdIsr
  | .head .y => .rdHeadY
  | .head .u => .rdHeadU
  | .head .v => .rdHeadV
  | .addr .y => .rdAddrY
  | .addr .u => .rdAddrU
  | .addr .v => .rdAddrV
  | .ctrl .y => .rdCtrlY
  | .ctrl .u => .rdCtrlU
  | .ctrl .v => .rdCtrlV
  | .next .y => .rdNextY
  | .next .u => .rdNextU
  | .next .v => .rdNextV
  | .cfg .mode => .rdCfgMode
  | .cfg .xpos => .rdCfgXpos
  | .cfg .ypos => .rdCfgYpos
  | .cfg .xsize => .rdCfgXsize
  | .cfg .ysize => .rdCfgYsize
  | .cfg .xmemsize => .rdCfgXmemsize
  | .cfg .ymemsize => .rdCfgYmemsize
  | .cfg .xfactor => .rdCfgXfactor
  | .cfg .yfactor => .rdCfgYfactor
  | .cfg .coeff => .rdCfgCoeff
  | .cfg .xstrideY => .rdCfgXstrideY
  | .cfg .pstrideY => .rdCfgPstrideY
  | .cfg .xstrideU => .rdCfgXstrideU
  | .cfg .pstrideU => .rdCfgPstrideU
  | .cfg .xstrideV => .rdCfgXstrideV
  | .cfg .pstrideV => .rdCfgPstrideV
  | .syncsr => .rdSyncsr

/-- E_FETCH of a plane at an address (R179). -/
def Instr.ofFetch (p : Plane) (a : Word) : Instr :=
  match p with
  | .y => .eFetchY a
  | .u => .eFetchU a
  | .v => .eFetchV a

/-- E_OVR of a plane (R184). -/
def Instr.ofOvr (p : Plane) : Instr :=
  match p with
  | .y => .eOvrY
  | .u => .eOvrU
  | .v => .eOvrV

end Sys2Proof
end

