-- ==== Sys2Proof/WellFormed.lean ====
section
/-! DEFINITION. Which instructions stand for a packet: an s32 operand lies in the range of a signed 32-bit word
(00_scope.md R10, 30_encoding.md R69). Every other operand is a whole word, so nothing else needs a check. -/

namespace Sys2Proof

/-- The range of `s32` (R10): [-2^31, 2^31). -/
def inS32 (x : Int) : Bool := decide (-2147483648 ≤ x) && decide (x < 2147483648)

/-- The well-formed instructions: those a packet of R68 can spell. -/
def Instr.wf (i : Instr) : Bool :=
  match i with
  | .sfmt _ w h => inS32 w && inS32 h
  | .swin l t ww wh => inS32 l && inS32 t && inS32 ww && inS32 wh
  | .srot deg => inS32 deg
  | .qbuf _ _ _ _ => true
  | .streamon => true
  | .streamoff => true
  | .irq => true
  | .barrier => true
  | .wrCher _ => true
  | .wrChdr _ => true
  | .wrIer _ => true
  | .wrIdr _ => true
  | .wrHeadY _ => true
  | .wrHeadU _ => true
  | .wrHeadV _ => true
  | .wrCfgMode _ => true
  | .wrCfgXpos _ => true
  | .wrCfgYpos _ => true
  | .wrCfgXsize _ => true
  | .wrCfgYsize _ => true
  | .wrCfgXmemsize _ => true
  | .wrCfgYmemsize _ => true
  | .wrCfgXfactor _ => true
  | .wrCfgYfactor _ => true
  | .wrCfgCoeff _ => true
  | .wrCfgXstrideY _ => true
  | .wrCfgPstrideY _ => true
  | .wrCfgXstrideU _ => true
  | .wrCfgPstrideU _ => true
  | .wrCfgXstrideV _ => true
  | .wrCfgPstrideV _ => true
  | .rdChsr => true
  | .rdImr => true
  | .rdIsr => true
  | .rdHeadY => true
  | .rdHeadU => true
  | .rdHeadV => true
  | .rdAddrY => true
  | .rdAddrU => true
  | .rdAddrV => true
  | .rdCtrlY => true
  | .rdCtrlU => true
  | .rdCtrlV => true
  | .rdNextY => true
  | .rdNextU => true
  | .rdNextV => true
  | .rdCfgMode => true
  | .rdCfgXpos => true
  | .rdCfgYpos => true
  | .rdCfgXsize => true
  | .rdCfgYsize => true
  | .rdCfgXmemsize => true
  | .rdCfgYmemsize => true
  | .rdCfgXfactor => true
  | .rdCfgYfactor => true
  | .rdCfgCoeff => true
  | .rdCfgXstrideY => true
  | .rdCfgPstrideY => true
  | .rdCfgXstrideU => true
  | .rdCfgPstrideU => true
  | .rdCfgXstrideV => true
  | .rdCfgPstrideV => true
  | .rdSyncsr => true
  | .eFstart => true
  | .eFetchY _ => true
  | .eFetchU _ => true
  | .eFetchV _ => true
  | .eFend => true
  | .eOvrY => true
  | .eOvrU => true
  | .eOvrV => true
  | .eSync => true

end Sys2Proof
end

