-- ==== Sys2Proof/Decode.lean ====
section
/-! DEFINITION. The decoder of R83, total on every sequence of words, and the encoder of the same tables
(30_encoding.md R65 to R71, R74, R82 to R84). The words of a packet are 32-bit units; nothing lies below them, so no
byte order enters here (log 18). -/

namespace Sys2Proof

/-! ## Numbers and words (R10) -/

/-- `u32(v) = v mod 2^32` (R10). -/
def u32 (x : Int) : Word := BitVec.ofInt 32 x

/-- `s32(w)`: the word read as a signed integer in [-2^31, 2^31) (R10). -/
def s32 (w : Word) : Int := w.toInt

/-! ## The verdicts of the decoder -/

/-- Why a word sequence is no packet (R70, R71, R83 step 6). -/
inductive DecodeError where
  | invalidEncoding
  | baseLayerUnspecified
deriving DecidableEq, Repr

/-- What the decoder answers: the first packet's instruction with the words after it, or the verdict. -/
inductive Decoded where
  | ok (i : Instr) (rest : List Word)
  | bad (e : DecodeError)
deriving DecidableEq, Repr

/-! ## The operation map (R68) -/

/-- The op values of R68. -/
inductive Op where
  | sfmt
  | swin
  | srot
  | qbuf
  | streamon
  | streamoff
  | irq
  | wr
  | rd
  | barrier
  | eFstart
  | eFetch
  | eFend
  | eOvr
  | eSync
deriving DecidableEq, Repr

/-- The op field of w0 (R68). -/
def Op.code (o : Op) : Nat :=
  match o with
  | .sfmt => 0x01
  | .swin => 0x02
  | .srot => 0x03
  | .qbuf => 0x04
  | .streamon => 0x05
  | .streamoff => 0x06
  | .irq => 0x07
  | .wr => 0x10
  | .rd => 0x11
  | .barrier => 0x12
  | .eFstart => 0x20
  | .eFetch => 0x21
  | .eFend => 0x22
  | .eOvr => 0x23
  | .eSync => 0x24

/-- The op a value of w0[7:0] names; none where R68 lists none (R83 step 2). -/
def Op.ofCode (n : Nat) : Option Op :=
  match n with
  | 0x01 => some .sfmt
  | 0x02 => some .swin
  | 0x03 => some .srot
  | 0x04 => some .qbuf
  | 0x05 => some .streamon
  | 0x06 => some .streamoff
  | 0x07 => some .irq
  | 0x10 => some .wr
  | 0x11 => some .rd
  | 0x12 => some .barrier
  | 0x20 => some .eFstart
  | 0x21 => some .eFetch
  | 0x22 => some .eFend
  | 0x23 => some .eOvr
  | 0x24 => some .eSync
  | _ => none

/-- The operand words after w0 (R67, R68). -/
def Op.nops (o : Op) : Nat :=
  match o with
  | .sfmt => 3
  | .swin => 4
  | .srot => 1
  | .qbuf => 4
  | .streamon => 0
  | .streamoff => 0
  | .irq => 0
  | .wr => 1
  | .rd => 0
  | .barrier => 0
  | .eFstart => 0
  | .eFetch => 1
  | .eFend => 0
  | .eOvr => 0
  | .eSync => 0

/-- The chan values an op takes (R70): RD takes 1 and 0xF, E_SYNC takes 0xF, every other op takes 1. -/
def Op.chanOk (o : Op) (chan : Nat) : Bool :=
  match o with
  | .rd => chan == 1 || chan == 0xF
  | .eSync => chan == 0xF
  | _ => chan == 1

/-! ## Register and plane indices (R74) -/

/-- The plane's index p (R13). -/
def Plane.index (p : Plane) : Nat :=
  match p with
  | .y => 0
  | .u => 1
  | .v => 2

/-- The plane a reg field names for E_FETCH and E_OVR (R83 step 4). -/
def Plane.ofIndex (n : Nat) : Option Plane :=
  match n with
  | 0 => some .y
  | 1 => some .u
  | 2 => some .v
  | _ => none

/-- The field's number f (R78). -/
def CfgField.index (f : CfgField) : Nat :=
  match f with
  | .mode => 0
  | .xpos => 1
  | .ypos => 2
  | .xsize => 3
  | .ysize => 4
  | .xmemsize => 5
  | .ymemsize => 6
  | .xfactor => 7
  | .yfactor => 8
  | .coeff => 9
  | .xstrideY => 10
  | .pstrideY => 11
  | .xstrideU => 12
  | .pstrideU => 13
  | .xstrideV => 14
  | .pstrideV => 15

/-- The index of a writable register (R74). -/
def WReg.index (r : WReg) : Nat :=
  match r with
  | .cher => 0x00
  | .chdr => 0x01
  | .ier => 0x03
  | .idr => 0x04
  | .head p => 0x10 + 4 * p.index
  | .cfg f => 0x40 + f.index

/-- The index of a readable register (R74; SYNCSR has index 0 in the global block, R81). -/
def RReg.index (r : RReg) : Nat :=
  match r with
  | .chsr => 0x02
  | .imr => 0x05
  | .isr => 0x06
  | .head p => 0x10 + 4 * p.index
  | .addr p => 0x11 + 4 * p.index
  | .ctrl p => 0x12 + 4 * p.index
  | .next p => 0x13 + 4 * p.index
  | .cfg f => 0x40 + f.index
  | .syncsr => 0x00

/-- The register a WR's reg field names: access W or RW in R74. -/
def WReg.ofIndex (n : Nat) : Option WReg :=
  match n with
  | 0x00 => some .cher
  | 0x01 => some .chdr
  | 0x03 => some .ier
  | 0x04 => some .idr
  | 0x10 => some (.head .y)
  | 0x14 => some (.head .u)
  | 0x18 => some (.head .v)
  | 0x40 => some (.cfg .mode)
  | 0x41 => some (.cfg .xpos)
  | 0x42 => some (.cfg .ypos)
  | 0x43 => some (.cfg .xsize)
  | 0x44 => some (.cfg .ysize)
  | 0x45 => some (.cfg .xmemsize)
  | 0x46 => some (.cfg .ymemsize)
  | 0x47 => some (.cfg .xfactor)
  | 0x48 => some (.cfg .yfactor)
  | 0x49 => some (.cfg .coeff)
  | 0x4A => some (.cfg .xstrideY)
  | 0x4B => some (.cfg .pstrideY)
  | 0x4C => some (.cfg .xstrideU)
  | 0x4D => some (.cfg .pstrideU)
  | 0x4E => some (.cfg .xstrideV)
  | 0x4F => some (.cfg .pstrideV)
  | _ => none

/-- The register an RD of chan 1 names: access R or RW in R74. -/
def RReg.ofIndex (n : Nat) : Option RReg :=
  match n with
  | 0x02 => some .chsr
  | 0x05 => some .imr
  | 0x06 => some .isr
  | 0x10 => some (.head .y)
  | 0x11 => some (.addr .y)
  | 0x12 => some (.ctrl .y)
  | 0x13 => some (.next .y)
  | 0x14 => some (.head .u)
  | 0x15 => some (.addr .u)
  | 0x16 => some (.ctrl .u)
  | 0x17 => some (.next .u)
  | 0x18 => some (.head .v)
  | 0x19 => some (.addr .v)
  | 0x1A => some (.ctrl .v)
  | 0x1B => some (.next .v)
  | 0x40 => some (.cfg .mode)
  | 0x41 => some (.cfg .xpos)
  | 0x42 => some (.cfg .ypos)
  | 0x43 => some (.cfg .xsize)
  | 0x44 => some (.cfg .ysize)
  | 0x45 => some (.cfg .xmemsize)
  | 0x46 => some (.cfg .ymemsize)
  | 0x47 => some (.cfg .xfactor)
  | 0x48 => some (.cfg .yfactor)
  | 0x49 => some (.cfg .coeff)
  | 0x4A => some (.cfg .xstrideY)
  | 0x4B => some (.cfg .pstrideY)
  | 0x4C => some (.cfg .xstrideU)
  | 0x4D => some (.cfg .pstrideU)
  | 0x4E => some (.cfg .xstrideV)
  | 0x4F => some (.cfg .pstrideV)
  | _ => none

/-! ## The header word (R66) -/

/-- What a valid header word names: an operation with its register, field or plane. -/
inductive Head where
  | sfmt | swin | srot | qbuf | streamon | streamoff | irq | barrier
  | wr (r : WReg)
  | rd (r : RReg)
  | eFstart
  | eFetch (p : Plane)
  | eFend
  | eOvr (p : Plane)
  | eSync
deriving DecidableEq, Repr

/-- The op, chan and reg fields of a header (R66, R68, R70, R74). -/
def Head.fields (h : Head) : Op × Nat × Nat :=
  match h with
  | .sfmt => (.sfmt, 1, 0)
  | .swin => (.swin, 1, 0)
  | .srot => (.srot, 1, 0)
  | .qbuf => (.qbuf, 1, 0)
  | .streamon => (.streamon, 1, 0)
  | .streamoff => (.streamoff, 1, 0)
  | .irq => (.irq, 1, 0)
  | .barrier => (.barrier, 1, 0)
  | .wr r => (.wr, 1, r.index)
  | .rd .syncsr => (.rd, 0xF, 0)
  | .rd r => (.rd, 1, r.index)
  | .eFstart => (.eFstart, 1, 0)
  | .eFetch p => (.eFetch, 1, p.index)
  | .eFend => (.eFend, 1, 0)
  | .eOvr p => (.eOvr, 1, p.index)
  | .eSync => (.eSync, 0xF, 0)

/-- The header word: op in bits 7:0, chan in 11:8, reg in 23:16, the other bits 0 (R66). -/
def Head.word (h : Head) : Word :=
  let (op, chan, reg) := h.fields
  BitVec.ofNat 32 (op.code + chan * 256 + reg * 65536)

/-- Steps 1 to 4 of R83, in that order: the first check that fails gives the verdict, and only a step 3 failure with
chan = 0 gives BaseLayerUnspecified. -/
def decodeHeader (w : Word) : Except DecodeError Head :=
  if w.extractLsb' 12 4 ≠ 0#4 ∨ w.extractLsb' 24 8 ≠ 0#8 then .error .invalidEncoding
  else
    match Op.ofCode (w.extractLsb' 0 8).toNat with
    | none => .error .invalidEncoding
    | some op =>
      let chan := (w.extractLsb' 8 4).toNat
      let reg := (w.extractLsb' 16 8).toNat
      if chan = 0 then .error .baseLayerUnspecified
      else if op.chanOk chan = false then .error .invalidEncoding
      else
        match headOf op chan reg with
        | none => .error .invalidEncoding
        | some h => .ok h
where
  /-- A header of an op that takes no reg field (R71). -/
  plain (reg : Nat) (h : Head) : Option Head := if reg = 0 then some h else none
  /-- Step 4 of R83. -/
  headOf (op : Op) (chan reg : Nat) : Option Head :=
    match op with
    | .sfmt => plain reg .sfmt
    | .swin => plain reg .swin
    | .srot => plain reg .srot
    | .qbuf => plain reg .qbuf
    | .streamon => plain reg .streamon
    | .streamoff => plain reg .streamoff
    | .irq => plain reg .irq
    | .wr => (WReg.ofIndex reg).map .wr
    | .rd => if chan = 0xF then plain reg (.rd .syncsr) else (RReg.ofIndex reg).map .rd
    | .barrier => plain reg .barrier
    | .eFstart => plain reg .eFstart
    | .eFetch => (Plane.ofIndex reg).map .eFetch
    | .eFend => plain reg .eFend
    | .eOvr => (Plane.ofIndex reg).map .eOvr
    | .eSync => plain reg .eSync

/-- Step 5 of R83: the operand words of the packet and what follows it; none where the packet is shorter than its
length (R71). Operands are assembled as R69 says. -/
def assemble (h : Head) (ws : List Word) : Option (Instr × List Word) :=
  match h, ws with
  | .sfmt, tag :: w :: hh :: rest => some (.sfmt tag (s32 w) (s32 hh), rest)
  | .swin, l :: t :: ww :: wh :: rest => some (.swin (s32 l) (s32 t) (s32 ww) (s32 wh), rest)
  | .srot, d :: rest => some (.srot (s32 d), rest)
  | .qbuf, id :: b0 :: b1 :: b2 :: rest => some (.qbuf id b0 b1 b2, rest)
  | .streamon, rest => some (.streamon, rest)
  | .streamoff, rest => some (.streamoff, rest)
  | .irq, rest => some (.irq, rest)
  | .barrier, rest => some (.barrier, rest)
  | .wr r, x :: rest => some (Instr.ofWr r x, rest)
  | .rd r, rest => some (Instr.ofRd r, rest)
  | .eFstart, rest => some (.eFstart, rest)
  | .eFetch p, a :: rest => some (Instr.ofFetch p a, rest)
  | .eFend, rest => some (.eFend, rest)
  | .eOvr p, rest => some (Instr.ofOvr p, rest)
  | .eSync, rest => some (.eSync, rest)
  | _, _ => none

/-- The decoder (R83): total, every word sequence decodes to a packet or to a verdict. An empty sequence is shorter
than any packet (R71). -/
def decode (ws : List Word) : Decoded :=
  match ws with
  | [] => .bad .invalidEncoding
  | w0 :: operands =>
    match decodeHeader w0 with
    | .error e => .bad e
    | .ok h =>
      match assemble h operands with
      | none => .bad .invalidEncoding
      | some (i, rest) => .ok i rest

/-! ## The encoder, from the same tables -/

/-- The header of an instruction (R84). -/
def Instr.head (i : Instr) : Head :=
  match i with
  | .sfmt _ _ _ => .sfmt
  | .swin _ _ _ _ => .swin
  | .srot _ => .srot
  | .qbuf _ _ _ _ => .qbuf
  | .streamon => .streamon
  | .streamoff => .streamoff
  | .irq => .irq
  | .barrier => .barrier
  | .wrCher _ => .wr .cher
  | .wrChdr _ => .wr .chdr
  | .wrIer _ => .wr .ier
  | .wrIdr _ => .wr .idr
  | .wrHeadY _ => .wr (.head .y)
  | .wrHeadU _ => .wr (.head .u)
  | .wrHeadV _ => .wr (.head .v)
  | .wrCfgMode _ => .wr (.cfg .mode)
  | .wrCfgXpos _ => .wr (.cfg .xpos)
  | .wrCfgYpos _ => .wr (.cfg .ypos)
  | .wrCfgXsize _ => .wr (.cfg .xsize)
  | .wrCfgYsize _ => .wr (.cfg .ysize)
  | .wrCfgXmemsize _ => .wr (.cfg .xmemsize)
  | .wrCfgYmemsize _ => .wr (.cfg .ymemsize)
  | .wrCfgXfactor _ => .wr (.cfg .xfactor)
  | .wrCfgYfactor _ => .wr (.cfg .yfactor)
  | .wrCfgCoeff _ => .wr (.cfg .coeff)
  | .wrCfgXstrideY _ => .wr (.cfg .xstrideY)
  | .wrCfgPstrideY _ => .wr (.cfg .pstrideY)
  | .wrCfgXstrideU _ => .wr (.cfg .xstrideU)
  | .wrCfgPstrideU _ => .wr (.cfg .pstrideU)
  | .wrCfgXstrideV _ => .wr (.cfg .xstrideV)
  | .wrCfgPstrideV _ => .wr (.cfg .pstrideV)
  | .rdChsr => .rd .chsr
  | .rdImr => .rd .imr
  | .rdIsr => .rd .isr
  | .rdHeadY => .rd (.head .y)
  | .rdHeadU => .rd (.head .u)
  | .rdHeadV => .rd (.head .v)
  | .rdAddrY => .rd (.addr .y)
  | .rdAddrU => .rd (.addr .u)
  | .rdAddrV => .rd (.addr .v)
  | .rdCtrlY => .rd (.ctrl .y)
  | .rdCtrlU => .rd (.ctrl .u)
  | .rdCtrlV => .rd (.ctrl .v)
  | .rdNextY => .rd (.next .y)
  | .rdNextU => .rd (.next .u)
  | .rdNextV => .rd (.next .v)
  | .rdCfgMode => .rd (.cfg .mode)
  | .rdCfgXpos => .rd (.cfg .xpos)
  | .rdCfgYpos => .rd (.cfg .ypos)
  | .rdCfgXsize => .rd (.cfg .xsize)
  | .rdCfgYsize => .rd (.cfg .ysize)
  | .rdCfgXmemsize => .rd (.cfg .xmemsize)
  | .rdCfgYmemsize => .rd (.cfg .ymemsize)
  | .rdCfgXfactor => .rd (.cfg .xfactor)
  | .rdCfgYfactor => .rd (.cfg .yfactor)
  | .rdCfgCoeff => .rd (.cfg .coeff)
  | .rdCfgXstrideY => .rd (.cfg .xstrideY)
  | .rdCfgPstrideY => .rd (.cfg .pstrideY)
  | .rdCfgXstrideU => .rd (.cfg .xstrideU)
  | .rdCfgPstrideU => .rd (.cfg .pstrideU)
  | .rdCfgXstrideV => .rd (.cfg .xstrideV)
  | .rdCfgPstrideV => .rd (.cfg .pstrideV)
  | .rdSyncsr => .rd .syncsr
  | .eFstart => .eFstart
  | .eFetchY _ => .eFetch .y
  | .eFetchU _ => .eFetch .u
  | .eFetchV _ => .eFetch .v
  | .eFend => .eFend
  | .eOvrY => .eOvr .y
  | .eOvrU => .eOvr .u
  | .eOvrV => .eOvr .v
  | .eSync => .eSync

/-- The operand words of an instruction (R68, R69). -/
def Instr.operands (i : Instr) : List Word :=
  match i with
  | .sfmt tag w h => [tag, u32 w, u32 h]
  | .swin l t ww wh => [u32 l, u32 t, u32 ww, u32 wh]
  | .srot deg => [u32 deg]
  | .qbuf id b0 b1 b2 => [id, b0, b1, b2]
  | .streamon => []
  | .streamoff => []
  | .irq => []
  | .barrier => []
  | .wrCher x => [x]
  | .wrChdr x => [x]
  | .wrIer x => [x]
  | .wrIdr x => [x]
  | .wrHeadY x => [x]
  | .wrHeadU x => [x]
  | .wrHeadV x => [x]
  | .wrCfgMode x => [x]
  | .wrCfgXpos x => [x]
  | .wrCfgYpos x => [x]
  | .wrCfgXsize x => [x]
  | .wrCfgYsize x => [x]
  | .wrCfgXmemsize x => [x]
  | .wrCfgYmemsize x => [x]
  | .wrCfgXfactor x => [x]
  | .wrCfgYfactor x => [x]
  | .wrCfgCoeff x => [x]
  | .wrCfgXstrideY x => [x]
  | .wrCfgPstrideY x => [x]
  | .wrCfgXstrideU x => [x]
  | .wrCfgPstrideU x => [x]
  | .wrCfgXstrideV x => [x]
  | .wrCfgPstrideV x => [x]
  | .rdChsr => []
  | .rdImr => []
  | .rdIsr => []
  | .rdHeadY => []
  | .rdHeadU => []
  | .rdHeadV => []
  | .rdAddrY => []
  | .rdAddrU => []
  | .rdAddrV => []
  | .rdCtrlY => []
  | .rdCtrlU => []
  | .rdCtrlV => []
  | .rdNextY => []
  | .rdNextU => []
  | .rdNextV => []
  | .rdCfgMode => []
  | .rdCfgXpos => []
  | .rdCfgYpos => []
  | .rdCfgXsize => []
  | .rdCfgYsize => []
  | .rdCfgXmemsize => []
  | .rdCfgYmemsize => []
  | .rdCfgXfactor => []
  | .rdCfgYfactor => []
  | .rdCfgCoeff => []
  | .rdCfgXstrideY => []
  | .rdCfgPstrideY => []
  | .rdCfgXstrideU => []
  | .rdCfgPstrideU => []
  | .rdCfgXstrideV => []
  | .rdCfgPstrideV => []
  | .rdSyncsr => []
  | .eFstart => []
  | .eFetchY a => [a]
  | .eFetchU a => [a]
  | .eFetchV a => [a]
  | .eFend => []
  | .eOvrY => []
  | .eOvrU => []
  | .eOvrV => []
  | .eSync => []

/-- The words of an instruction's packet (R65, R66, R68). -/
def encode (i : Instr) : List Word := i.head.word :: i.operands

/-! ## The opcode table's numbering -/

/-- The first five words of the instruction whose bits are w: word k is bits 32k+31..32k. No packet is longer than
five words (R68). The bits at and above nbits are 0. -/
def tableWords (nbits w : Nat) : List Word :=
  let v := w % 2 ^ nbits
  [BitVec.ofNat 32 v, BitVec.ofNat 32 (v / 2 ^ 32), BitVec.ofNat 32 (v / 2 ^ 64),
    BitVec.ofNat 32 (v / 2 ^ 96), BitVec.ofNat 32 (v / 2 ^ 128)]

/-- The instruction the decoder reads from an opcode-table word. -/
def decodeTableWord (nbits w : Nat) : Option Instr :=
  match decode (tableWords nbits w) with
  | .ok i _ => some i
  | .bad _ => none

/-- The packet at the head of an opcode-table word: its words and no more (all five where they are no packet). -/
def tablePacket (nbits w : Nat) : List Word :=
  match decode (tableWords nbits w) with
  | .ok _ rest => (tableWords nbits w).take (5 - rest.length)
  | .bad _ => tableWords nbits w

end Sys2Proof
end

