-- ==== Sys2Proof/Config.lean ====
section
/-! DEFINITION. The implementation parameters of 00_scope.md R8, and the free values: opaque constants of which nothing
can be proved, for what the spec leaves open. -/

namespace Sys2Proof

/-- SYNC_WAIT: whether the synchronisation wait is bounded by a number of polls (R8, R102). -/
inductive SyncWait where
  /-- the source's behaviour: no timeout -/
  | unbounded
  /-- the k-th poll that still reads 1 ends the operation with HardwareTimeout; k is at least 1 (R8) -/
  | bounded (k : Nat)
deriving DecidableEq, Repr

/-- OVERSHOOT: the correction predicate of the scale factor (R131): the stated default, or the chip's own,
which no rule states (log 7). -/
inductive Overshoot where
  | stated
  | chip
deriving DecidableEq, Repr

/-- The parameters a model takes as an argument (R8). They stand in the state so that a statement about every state
speaks of every value of them; no step writes them (log 6). COEFF_TABLES is not modelled (R133). -/
structure Params where
  /-- DISPLAY_W in pixels -/
  displayW : Nat
  /-- DISPLAY_H in pixels -/
  displayH : Nat
  /-- LAYER_BASE: byte address of the HEO register block (R51) -/
  layerBase : Word
  /-- GLOBAL_BASE: byte address of the block that holds SYNCSR (R51) -/
  globalBase : Word
  /-- PHASE_X (R130) -/
  phaseX : Int
  /-- PHASE_Y (R130) -/
  phaseY : Int
  /-- OVERSHOOT (R131) -/
  overshoot : Overshoot
  /-- RGB_FORMATS: (tag, bytes per pixel) with tag at least 3 and 1 to 4 bytes (R73) -/
  rgbFormats : List (Nat × Nat)
  /-- SYNC_REGS: the registers whose writes wait for SIPSTS = 0 (R102) -/
  syncRegs : List WReg
  /-- SYNC_WAIT (R102) -/
  syncWait : SyncWait
  /-- ATOMIC_OPS: engine steps fall inside a controller operation only at its wait points (R190) -/
  atomicOps : Bool
deriving DecidableEq, Repr

/-- The example and default column of R8. LAYER_BASE and GLOBAL_BASE have neither: DESIGN CHOICE, unsafe (log 6). -/
def Params.example : Params where
  displayW := 640
  displayH := 480
  layerBase := 0x0#32
  globalBase := 0x1000#32
  phaseX := 4
  phaseY := 4
  overshoot := .stated
  rgbFormats := [(3, 2), (4, 3), (5, 4)]
  syncRegs := []
  syncWait := .unbounded
  atomicOps := false

/-- The ranges R8 and R73 give the parameters. -/
def Params.wf (p : Params) : Bool :=
  decide (0 < p.displayW) && decide (0 < p.displayH)
    && p.rgbFormats.all (fun f => decide (3 ≤ f.1) && decide (1 ≤ f.2) && decide (f.2 ≤ 4))
    && (match p.syncWait with
        | .unbounded => true
        | .bounded k => decide (1 ≤ k))

/-- The n-th free word: any value (93_implementation_defined.md I7; log 8, log 9). -/
opaque Config.freeWord : Nat → Word

/-- The chip's own overshoot predicate, of f, mem, hw and phase: any predicate (R131, D21; log 7). -/
opaque Config.chipOvershoot : Int → Int → Int → Int → Bool

end Sys2Proof
end

