-- ==== Sys2Proof/Machine/State.lean ====
section
/-! DEFINITION. The state of the machine, whole, as plain data (10_state.md R20 to R49, 60_exceptions.md R194, R195),
the reasons a step can stop, and the state after reset (R48, R216, R217). -/

namespace Sys2Proof.Machine

/-! ## Small data -/

/-- One value for each plane (R13). -/
structure Planes (α : Type) where
  y : α
  u : α
  v : α
deriving DecidableEq, Repr

/-- ConfigState (R21). -/
inductive ConfigState where
  | good
  | goodNeedsLatch
  | bad
deriving DecidableEq, Repr

/-- ChannelState (R22). -/
inductive ChannelState where
  | idle
  | running
deriving DecidableEq, Repr

/-- The engine's phase (R35). -/
inductive Phase where
  | between
  | fetching
deriving DecidableEq, Repr

/-- The rotation in degrees (R27). -/
inductive Rotation where
  | r0
  | r90
  | r180
  | r270
deriving DecidableEq, Repr

/-- A FrameFormat `(tag, w, h)` (R24). -/
structure FrameFormat where
  tag : Word
  w : Nat
  h : Nat
deriving DecidableEq, Repr

/-- The OverlayWindow: four signed integers (R26). -/
structure Window where
  left : Int
  top : Int
  width : Int
  height : Int
deriving DecidableEq, Repr

/-- A completion status (R28, R193). -/
inductive Status where
  | done
  | error
deriving DecidableEq, Repr

/-- A host operation's result (R192). -/
inductive Result where
  | ok
  | configurationError
  | hardwareTimeout
deriving DecidableEq, Repr

/-- A buffer record (R29). The base and desc words of planes at or beyond np are 0 (log 21). -/
structure Buffer where
  id : Word
  base : Planes Word
  fmt : FrameFormat
  desc : Planes Word
deriving DecidableEq, Repr

/-- The sixteen configuration words (R41, R78). -/
structure Cfg where
  mode : Word
  xpos : Word
  ypos : Word
  xsize : Word
  ysize : Word
  xmemsize : Word
  ymemsize : Word
  xfactor : Word
  yfactor : Word
  coeff : Word
  xstrideY : Word
  pstrideY : Word
  xstrideU : Word
  pstrideU : Word
  xstrideV : Word
  pstrideV : Word
deriving DecidableEq, Repr

/-- Memory: the bytes that differ from what an unlisted address reads as, addresses strictly rising (log 5). -/
abbrev Memory := List Host.Cell

/-! ## Refusals and faults of the spec -/

/-- The reasons of the refusal mark (R194). Setting the mark is a next state; the step after it stops. -/
inductive RefuseReason where
  /-- the decoder: a packet outside R68 to R71 -/
  | invalidEncoding
  /-- the decoder: chan = 0 (R70) -/
  | baseLayerUnspecified
  /-- WR_CHER, WR_CHDR, WR_IER, WR_IDR: a reserved bit set (R86 to R89) -/
  | reservedBit
  /-- WR_HEAD: a value that is not a multiple of 4 (R90) -/
  | misalignedHead
  /-- WR_CHER: CHEN written while a disable is pending (R86) -/
  | enableWhileDisabling
  /-- QBUF: not streaming (R151) -/
  | qbufNotStreaming
  /-- QBUF: no format (R151) -/
  | qbufNoFormat
  /-- QBUF: a plane base that is not a multiple of 4 (R151) -/
  | qbufMisaligned
  /-- QBUF: a plane region that passes 2^32 (R151) -/
  | qbufWrap
  /-- QBUF: overlapping regions (R151) -/
  | qbufOverlap
  /-- QBUF: the id of a held buffer (R151) -/
  | qbufDuplicateId
deriving DecidableEq, Repr

/-- The reasons of the engine fault record (R177, R195). -/
inductive EngineFault where
  | misaligned
  | badMode
deriving DecidableEq, Repr

/-! ## The position inside a controller operation (R46) -/

/-- The controller operations: the six host operations, the interrupt service, and a micro-operation that stands alone
in the packet stream (log 13). -/
inductive OpName where
  | sfmt | swin | srot | qbuf | streamon | streamoff | irq | micro
deriving DecidableEq, Repr

/-- What an operation in progress has still to do: its micro-operations, its memory writes, and its own decisions
between them. -/
inductive Act where
  /-- a plain WR micro-operation (R85) -/
  | wr (r : WReg) (x : Word)
  /-- a poll of SYNCSR before a synchronised write, after n polls that read 1 (R102): a wait point (R190) -/
  | poll (r : WReg) (x : Word) (n : Nat)
  /-- the write that ends a synchronised write, which sets SIPSTS in the same event (R102) -/
  | wrs (r : WReg) (x : Word)
  /-- an RD whose word the operation does not use (R94) -/
  | rd (r : RReg)
  /-- one word of a descriptor (R113) -/
  | memWrite (a x : Word)
  /-- BARRIER (R170) -/
  | barrier
  /-- `C.cfg <- x` -/
  | setCfg (x : ConfigState)
  /-- `C.chan <- x` -/
  | setChan (x : ChannelState)
  /-- RD(CHSR) of the Bad path of Recompute (R139) -/
  | badChsr
  /-- RD(CHSR) of the recovery test of Recompute (R141) -/
  | recoverChsr
  /-- QBUF after its lazy Recompute (R152) -/
  | qbufGo (b : Buffer)
  /-- RD(CHSR) of QBUF (R152) -/
  | qbufChsr (b : Buffer)
  /-- RD(ADDR_0) of QBUF, after CHSR read as s (R152) -/
  | qbufAddr (b : Buffer) (s : Word)
  /-- Advance(B, inuse) (R158) -/
  | advance (b : Buffer) (inuse : Bool)
  /-- the first RD(CHSR) of STREAMOFF (R163) -/
  | offChsr
  /-- a poll of the quiesce loop of STREAMOFF (R164): a wait point (R190) -/
  | offPoll
  /-- STREAMOFF retires both slots (R163) -/
  | offFlush
  /-- STREAMOFF sets ChannelState and streaming (R163) -/
  | offEnd
  /-- RD(CHSR) of IRQ (R166) -/
  | irqChsr
  /-- RD(ADDR_0) of IRQ (R168) -/
  | irqAddr
  /-- `result(c)` (R192) -/
  | finish (c : Result)
deriving DecidableEq, Repr

/-- `C.busy` when an operation is in progress (R46). -/
structure Busy where
  op : OpName
  acts : List Act
  /-- at a wait point: the engine has had its turn since the last poll (log 3) -/
  yielded : Bool
deriving DecidableEq, Repr

/-! ## Controller, engine, machine -/

/-- The controller state `C` (R21 to R30, R46). -/
structure Controller where
  cfg : ConfigState
  chan : ChannelState
  streaming : Bool
  fmt : Option FrameFormat
  dirty : Bool
  win : Window
  rot : Rotation
  log : List (Word × Status)
  cur : Option Buffer
  nxt : Option Buffer
  busy : Option Busy
deriving DecidableEq, Repr

/-- The engine state `E` (R32 to R45, R195). -/
structure Engine where
  chen : Bool
  updpend : Bool
  dispend : Bool
  phase : Phase
  head : Planes Word
  addr : Planes Word
  ctrl : Planes Word
  next : Planes Word
  addr0 : Planes Word
  dload : Planes Word
  shadow : Cfg
  active : Cfg
  imr : Word
  isr : Word
  sipsts : Bool
  fault : Option EngineFault
deriving DecidableEq, Repr

/-- Which agent moves at an event boundary inside a controller operation (R190; log 2). -/
inductive Turn where
  | controller
  | engine
deriving DecidableEq, Repr

/-- An event the controller has issued, with the word a read returned (R11, R58, R164; log 16). -/
inductive MicroEvent where
  | wr (r : WReg) (x : Word)
  | rd (r : RReg) (x : Word)
  | memWrite (a x : Word)
  | barrier
deriving DecidableEq, Repr

/-- The whole machine. -/
structure State where
  /-- the parameters of R8; no step writes them (log 6) -/
  prm : Params
  /-- controller state -/
  c : Controller
  /-- engine state -/
  e : Engine
  /-- physical memory (R50) -/
  mem : Memory
  /-- the refusal mark (R194) -/
  refused : Option RefuseReason
  /-- the results of the host operations so far, oldest first (R18, R192) -/
  results : List Result
  /-- the controller's events so far, oldest first (log 16) -/
  trace : List MicroEvent
  /-- the model's own: the packets still to be taken (log 1) -/
  stream : List Word
  /-- the model's own: who moves at the next event boundaries (log 2) -/
  turns : List Turn
  /-- the model's own: addresses of descriptor words written since the last BARRIER (log 8) -/
  unpub : List Word
  /-- the model's own: free values drawn so far (log 19) -/
  fresh : Nat
deriving DecidableEq, Repr

/-! ## Why a step stops -/

/-- The machine's faults. -/
inductive Fault where
  /-- An engine step asked of an engine whose fault record is set: it has no enabled step (R177, R195).
  Raised by every engine event. Safe: nothing is proved of a step that does not exist. -/
  | engineStuck (f : EngineFault)
deriving DecidableEq, Repr

/-- The refusals of a step. -/
inductive Refusal where
  /-- An instruction without a meaning: raised by no arm. Safe. -/
  | notModelled (mnemonic : String)
  /-- The refusal mark is set: no agent has an enabled step (R194). Raised by the step and by every meaning. Safe. -/
  | halted (r : RefuseReason)
  /-- A controller operation asked for while another holds the lock: it starts only when `C.busy = none` (R46, R199).
  Raised by every controller meaning. Safe: the step never asks for one then. -/
  | lockHeld
  /-- An engine event, or an interrupt start, asked for in a state in which it is not enabled (R173, R199).
  Raised by the engine events and IRQ. Safe: the run the packets describe does not exist. -/
  | notEnabled
deriving DecidableEq, Repr

/-! ## Reset (R48, R216, R217) -/

/-- The values R48 leaves to a draw at reset. -/
structure Draws where
  head : Planes Word
  addr : Planes Word
  ctrl : Planes Word
  next : Planes Word
  addr0 : Planes Word
  dload : Planes Word
  shadow : Cfg
  active : Cfg
  mem : Memory
deriving DecidableEq, Repr

/-- Zero for each plane. -/
def Planes.zero : Planes Word := { y := 0#32, u := 0#32, v := 0#32 }

/-- Sixteen zero words. -/
def Cfg.zero : Cfg where
  mode := 0#32
  xpos := 0#32
  ypos := 0#32
  xsize := 0#32
  ysize := 0#32
  xmemsize := 0#32
  ymemsize := 0#32
  xfactor := 0#32
  yfactor := 0#32
  coeff := 0#32
  xstrideY := 0#32
  pstrideY := 0#32
  xstrideU := 0#32
  pstrideU := 0#32
  xstrideV := 0#32
  pstrideV := 0#32

/-- The draw `State.reset` takes: every register 0, memory with nothing listed. DESIGN CHOICE, unsafe (log 4, log 5). -/
def Draws.zero : Draws where
  head := .zero
  addr := .zero
  ctrl := .zero
  next := .zero
  addr0 := .zero
  dload := .zero
  shadow := .zero
  active := .zero
  mem := []

/-- The machine after reset for each value of the parameters and each draw (R48): "a model draws the value freely at
reset and admits every draw". -/
def State.afterReset (p : Params) (d : Draws) : State where
  prm := p
  c :=
    { cfg := .good, chan := .idle, streaming := false, fmt := none, dirty := false,
      win := { left := 0, top := 0, width := p.displayW, height := p.displayH },
      rot := .r0, log := [], cur := none, nxt := none, busy := none }
  e :=
    { chen := false, updpend := false, dispend := false, phase := .between,
      head := d.head, addr := d.addr, ctrl := d.ctrl, next := d.next, addr0 := d.addr0, dload := d.dload,
      shadow := d.shadow, active := d.active, imr := 0#32, isr := 0#32, sipsts := false, fault := none }
  mem := d.mem
  refused := none
  results := []
  trace := []
  stream := []
  turns := []
  unpub := []
  fresh := 0

/-- The machine right after reset: R48, with the example parameters (log 6) and the zero draw (log 4, log 5). -/
def State.reset : State := State.afterReset Params.example Draws.zero

end Sys2Proof.Machine
end

