-- ==== Sys2Proof/Machine/Operands.lean ====
section
/-! DEFINITION. How operands, planes, fields, formats and rotations are read (30_encoding.md R69, R73, R74, R78, R82;
10_state.md R24, R27). -/

namespace Sys2Proof.Machine

/-! ## Planes -/

/-- The value of plane p. -/
def Planes.get {α : Type} (x : Planes α) (p : Plane) : α :=
  match p with
  | .y => x.y
  | .u => x.u
  | .v => x.v

/-- The value of plane p replaced. -/
def Planes.set {α : Type} (x : Planes α) (p : Plane) (a : α) : Planes α :=
  match p with
  | .y => { x with y := a }
  | .u => { x with u := a }
  | .v => { x with v := a }

/-- The planes 0 to n - 1, in that order (R13). -/
def planesBelow (n : Nat) : List Plane := [Plane.y, Plane.u, Plane.v].take n

/-! ## Configuration fields (R78) -/

/-- The fields in the order f = 0 to 15. -/
def allFields : List CfgField :=
  [.mode, .xpos, .ypos, .xsize, .ysize, .xmemsize, .ymemsize, .xfactor,
    .yfactor, .coeff, .xstrideY, .pstrideY, .xstrideU, .pstrideU, .xstrideV, .pstrideV]

/-- The word of field f. -/
def Cfg.get (c : Cfg) (f : CfgField) : Word :=
  match f with
  | .mode => c.mode
  | .xpos => c.xpos
  | .ypos => c.ypos
  | .xsize => c.xsize
  | .ysize => c.ysize
  | .xmemsize => c.xmemsize
  | .ymemsize => c.ymemsize
  | .xfactor => c.xfactor
  | .yfactor => c.yfactor
  | .coeff => c.coeff
  | .xstrideY => c.xstrideY
  | .pstrideY => c.pstrideY
  | .xstrideU => c.xstrideU
  | .pstrideU => c.pstrideU
  | .xstrideV => c.xstrideV
  | .pstrideV => c.pstrideV

/-- The word of field f replaced. -/
def Cfg.set (c : Cfg) (f : CfgField) (x : Word) : Cfg :=
  match f with
  | .mode => { c with mode := x }
  | .xpos => { c with xpos := x }
  | .ypos => { c with ypos := x }
  | .xsize => { c with xsize := x }
  | .ysize => { c with ysize := x }
  | .xmemsize => { c with xmemsize := x }
  | .ymemsize => { c with ymemsize := x }
  | .xfactor => { c with xfactor := x }
  | .yfactor => { c with yfactor := x }
  | .coeff => { c with coeff := x }
  | .xstrideY => { c with xstrideY := x }
  | .pstrideY => { c with pstrideY := x }
  | .xstrideU => { c with xstrideU := x }
  | .pstrideU => { c with pstrideU := x }
  | .xstrideV => { c with xstrideV := x }
  | .pstrideV => { c with pstrideV := x }

/-- XSTRIDE_p (R78). -/
def xstrideField (p : Plane) : CfgField :=
  match p with
  | .y => .xstrideY
  | .u => .xstrideU
  | .v => .xstrideV

/-- PSTRIDE_p (R78). -/
def pstrideField (p : Plane) : CfgField :=
  match p with
  | .y => .pstrideY
  | .u => .pstrideU
  | .v => .pstrideV

/-! ## Arithmetic of R10 -/

/-- `align4(n) = 4 * ((n + 3) div 4)` (R10). -/
def align4 (n : Nat) : Nat := 4 * ((n + 3) / 4)

/-- `ceil2(n) = (n + 1) div 2` (R10). Lean's division of integers floors for a positive divisor, as R10 asks. -/
def ceil2 (n : Int) : Int := (n + 1) / 2

/-! ## Formats (R73) -/

/-- The plane count np and the bytes per pixel b of a supported tag; none for an unsupported one (R73). -/
def formatOf (prm : Params) (tag : Word) : Option (Nat × Nat) :=
  match tag.toNat with
  | 0 => some (3, 1)
  | 1 => some (1, 2)
  | 2 => some (1, 2)
  | t => (prm.rgbFormats.find? (fun f => f.1 == t)).map (fun f => (1, f.2))

/-- np of a tag, 0 for an unsupported tag (R73, R176; log 14). -/
def np (prm : Params) (tag : Word) : Nat :=
  match formatOf prm tag with
  | some (n, _) => n
  | none => 0

/-- b of a tag, the bytes per pixel of each of its planes; 0 for an unsupported tag (R73). -/
def bytesPerPixel (prm : Params) (tag : Word) : Nat :=
  match formatOf prm tag with
  | some (_, b) => b
  | none => 0

/-- One dimension of a plane: whole for Y, ceil2 for the chroma planes of tag 0 (R73). -/
def planeDim (p : Plane) (n : Nat) : Nat :=
  match p with
  | .y => n
  | .u => (n + 1) / 2
  | .v => (n + 1) / 2

/-- `pbytes(p) = pw(p) * ph(p) * b(p)` (R73). -/
def pbytes (prm : Params) (f : FrameFormat) (p : Plane) : Nat :=
  planeDim p f.w * planeDim p f.h * bytesPerPixel prm f.tag

/-! ## Rotations (R27, R148) -/

/-- The rotation a number of degrees names; none outside 0, 90, 180, 270 (R148). -/
def Rotation.ofDegrees (d : Int) : Option Rotation :=
  if d = 0 then some .r0
  else if d = 90 then some .r90
  else if d = 180 then some .r180
  else if d = 270 then some .r270
  else none

/-- The rotation in degrees (R27). -/
def Rotation.degrees (r : Rotation) : Int :=
  match r with
  | .r0 => 0
  | .r90 => 90
  | .r180 => 180
  | .r270 => 270

/-- Whether the rotation swaps width and height (R119, R125). -/
def Rotation.swaps (r : Rotation) : Bool :=
  match r with
  | .r0 => false
  | .r90 => true
  | .r180 => false
  | .r270 => true

/-! ## Codes (R82) and addresses (R51, R74) -/

/-- The result codes: 0 = OK, 1 = ConfigurationError, 2 = HardwareTimeout (R82). -/
def Result.code (r : Result) : Word :=
  match r with
  | .ok => 0#32
  | .configurationError => 1#32
  | .hardwareTimeout => 2#32

/-- The completion statuses: 0 = Done, 1 = Error (R82). -/
def Status.code (s : Status) : Word :=
  match s with
  | .done => 0#32
  | .error => 1#32

/-- The byte address of a writable register: LAYER_BASE + 4 * index (R51, R74). -/
def WReg.byteAddr (prm : Params) (r : WReg) : Word := prm.layerBase + BitVec.ofNat 32 (4 * r.index)

/-- The byte address of a readable register; SYNCSR stands at GLOBAL_BASE (R51, R74, R81). -/
def RReg.byteAddr (prm : Params) (r : RReg) : Word :=
  match r with
  | .syncsr => prm.globalBase
  | r => prm.layerBase + BitVec.ofNat 32 (4 * r.index)

end Sys2Proof.Machine
end

