-- ==== Sys2Proof/Machine/Flags.lean ====
section
/-! DEFINITION. The bit layouts of the status, interrupt and control words, and every flag computation
(30_encoding.md R75 to R77, R79, R81; 60_exceptions.md R197, R198). -/

namespace Sys2Proof.Machine

/-! ## Constants -/

/-- The valid bits of IER, IDR, IMR and ISR (R77). -/
def imask : Word := 0x007C7C7C#32

/-- `IRQ_ON`: Y ADD and Y DONE (R77). -/
def irqOn : Word := 0x00000030#32

/-- `IRQ_DMA`: Y DMA, DSCR, ADD and DONE (R77). -/
def irqDma : Word := 0x0000003C#32

/-- The bits a WR of CHER may set: CHEN and UPDATEEN (R75). -/
def cherMask : Word := 0x3#32

/-- The bit a WR of CHDR may set: CHDIS (R75). -/
def chdrMask : Word := 0x1#32

/-- `CTRL_LUMA` for plane Y and `CTRL_CHROMA` for U and V (R79, R114). -/
def ctrlWord (p : Plane) : Word :=
  match p with
  | .y => 0x31#32
  | .u => 0x1#32
  | .v => 0x1#32

/-! ## Interrupt status bits (R77, R198) -/

/-- The five event kinds of a plane (R77). -/
inductive EventKind where
  | dma
  | dscr
  | add
  | done
  | ovr
deriving DecidableEq, Repr

/-- The kind's bit k within its plane (R77). -/
def EventKind.bit (k : EventKind) : Nat :=
  match k with
  | .dma => 2
  | .dscr => 3
  | .add => 4
  | .done => 5
  | .ovr => 6

/-- The status word with the one bit `k + 8p` set (R77). -/
def eventMask (k : EventKind) (p : Plane) : Word := 1#32 <<< (k.bit + 8 * p.index)

/-- `ISR[k + 8p] <- 1` if the condition holds (R175, R176, R181, R184). -/
def setEvent (isr : Word) (cond : Bool) (k : EventKind) (p : Plane) : Word :=
  if cond then isr ||| eventMask k p else isr

/-! ## Control word bits (R79) -/

/-- DFETCH, bit 0 (R79). -/
def ctrlDfetch (w : Word) : Bool := w.getLsbD 0

/-- DMAIEN, bit 2 (R79). -/
def ctrlDmaien (w : Word) : Bool := w.getLsbD 2

/-- DSCRIEN, bit 3 (R79). -/
def ctrlDscrien (w : Word) : Bool := w.getLsbD 3

/-- ADDIEN, bit 4 (R79). -/
def ctrlAddien (w : Word) : Bool := w.getLsbD 4

/-- DONEIEN, bit 5 (R79). -/
def ctrlDoneien (w : Word) : Bool := w.getLsbD 5

/-! ## Status words -/

/-- One bit as a word. -/
def bitWord (b : Bool) : Word := if b then 1#32 else 0#32

/-- CHSR: `E.CHEN | (E.UPDPEND << 1)`, bits 31:2 read 0 (R76, R97). -/
def Engine.chsr (e : Engine) : Word := bitWord e.chen ||| (bitWord e.updpend <<< 1)

/-- SYNCSR: SIPSTS in bit 0, bits 31:1 read 0 (R81, R104). -/
def Engine.syncsr (e : Engine) : Word := bitWord e.sipsts

/-- `CHSR.CHEN`, bit 0 of a CHSR value (R12, R76). -/
def chsrEnabled (s : Word) : Bool := s.getLsbD 0

/-- The interrupt line: asserted exactly when `(E.ISR & E.IMR) ≠ 0` (R197). -/
def Engine.line (e : Engine) : Bool := e.isr &&& e.imr != 0#32

/-- No bit of x outside the mask. -/
def within (x mask : Word) : Bool := x &&& ~~~mask == 0#32

/-- A multiple of 4 (R55). -/
def wordAligned (a : Word) : Bool := a &&& 3#32 == 0#32

end Sys2Proof.Machine
end

