-- ==== Sys2Proof/Machine/Ops.lean ====
section
/-! DEFINITION. The named operations over memory and state: byte and word accesses (20_memory.md R50 to R60), the
records of what happened, and how a controller operation, the interrupt service among them, is entered and left
(10_state.md R46, 60_exceptions.md R191 to R203). -/

namespace Sys2Proof.Machine

/-! ## Memory (R50, R53) -/

/-- What a byte that no write has reached reads as. DESIGN CHOICE, unsafe: R48 leaves memory unspecified (log 5). -/
def unlistedByte : Byte := 0#8

/-- The byte at an address. -/
def Memory.read (m : Memory) (a : Nat) : Byte :=
  match m with
  | [] => unlistedByte
  | (k, b) :: rest => if k = a then b else Memory.read rest a

/-- One byte written, in canonical form: addresses stay strictly rising, and a byte that equals what an unlisted address
reads as is not listed. -/
def Memory.write (m : Memory) (a : Nat) (x : Byte) : Memory :=
  match m with
  | [] => if x = unlistedByte then [] else [(a, x)]
  | (k, b) :: rest =>
    if a < k then (if x = unlistedByte then (k, b) :: rest else (a, x) :: (k, b) :: rest)
    else if a = k then (if x = unlistedByte then rest else (a, x) :: rest)
    else (k, b) :: Memory.write rest a x

/-- The canonical form from a lower bound on: addresses strictly rising and below 2^32, no byte that an unlisted
address reads as. -/
def Memory.wfFrom (lo : Nat) (m : Memory) : Bool :=
  match m with
  | [] => true
  | (k, b) :: rest => decide (lo ≤ k) && decide (k < 2 ^ 32) && decide (b ≠ unlistedByte) && Memory.wfFrom (k + 1) rest

/-- The canonical form. -/
def Memory.wf (m : Memory) : Bool := Memory.wfFrom 0 m

/-- The key of the k-th byte of an access at a: addresses are taken mod 2^32 (R50, R175). -/
def byteKey (a : Word) (k : Nat) : Nat := (a + BitVec.ofNat 32 k).toNat

/-- `MemRead(a, 4)`: little-endian (R53). -/
def Memory.readWord (m : Memory) (a : Word) : Word :=
  Memory.read m (byteKey a 3) ++ Memory.read m (byteKey a 2) ++ Memory.read m (byteKey a 1) ++ Memory.read m (byteKey a 0)

/-- `MemWrite(a, 4, v)`: little-endian (R53). -/
def Memory.writeWord (m : Memory) (a x : Word) : Memory :=
  Memory.write
    (Memory.write
      (Memory.write
        (Memory.write m (byteKey a 0) (x.extractLsb' 0 8))
        (byteKey a 1) (x.extractLsb' 8 8))
      (byteKey a 2) (x.extractLsb' 16 8))
    (byteKey a 3) (x.extractLsb' 24 8)

/-- Whether the word at a shares a byte with a descriptor word written since the last BARRIER (R59, R223). Compared
around the end of the address space too: the distance of the two addresses mod 2^32 is below 4. -/
def unpublished (unpub : List Word) (a : Word) : Bool :=
  unpub.any (fun b => decide ((a - b).toNat < 4) || decide ((b - a).toNat < 4))

/-! ## Records -/

/-- An event of the controller, recorded (log 16). -/
def State.record (s : State) (ev : MicroEvent) : State := { s with trace := s.trace ++ [ev] }

/-- The engine state replaced. -/
def State.setE (s : State) (e : Engine) : State := { s with e := e }

/-- The controller state replaced. -/
def State.setC (s : State) (c : Controller) : State := { s with c := c }

/-- `complete(id, st)` appends the pair to the completion log (R11, R28, R159). -/
def Controller.complete (c : Controller) (id : Word) (st : Status) : Controller := { c with log := c.log ++ [(id, st)] }

/-- `result(c)` of a host operation (R192). -/
def State.report (s : State) (r : Result) : State := { s with results := s.results ++ [r] }

/-- `refuse(reason)`: ends the operation without meaning and marks the state refused for good (R11, R194). -/
def State.refuse (s : State) (r : RefuseReason) : State :=
  { s with refused := some r, c := { s.c with busy := none } }

/-- `fault(reason)`: records the engine fault for good (R11, R195). -/
def State.engineFault (s : State) (f : EngineFault) : State := { s with e := { s.e with fault := some f } }

/-! ## Memory events -/

/-- A `MemWrite` of the controller: one word, not yet published to the engine (R58, R113). -/
def State.memWrite (s : State) (a x : Word) : State :=
  { s with mem := Memory.writeWord s.mem a x, unpub := a :: s.unpub, trace := s.trace ++ [.memWrite a x] }

/-- BARRIER: every descriptor word written before it is visible to the engine from here on (R58, R170). C, E and memory
do not change. -/
def State.publish (s : State) : State := { s with unpub := [], trace := s.trace ++ [.barrier] }

/-- The engine's `MemRead` of a descriptor word: the last word written there (R59), or a free value where it was written
after the last BARRIER (R59, I7; log 8). -/
def State.engineRead (s : State) (a : Word) : Word × State :=
  if unpublished s.unpub a then (Config.freeWord s.fresh, { s with fresh := s.fresh + 1 })
  else (Memory.readWord s.mem a, s)

/-! ## Controller operations: entry and return (R46, R202, R203) -/

/-- The start of a controller operation: `C.busy` becomes the operation. For IRQ this is the interrupt entry: it saves
nothing, changes no mode, and has no vector (R202). -/
def State.startOp (s : State) (op : OpName) (acts : List Act) : State :=
  { s with c := { s.c with busy := some { op := op, acts := acts, yielded := false } } }

/-- The end of a controller operation: `C.busy` becomes none, the release of the lock. For IRQ this is the return: there
is nothing to restore (R203). -/
def State.endOp (s : State) : State := { s with c := { s.c with busy := none } }

/-- What the operation in progress has still to do, replaced. -/
def State.setActs (s : State) (acts : List Act) : State :=
  match s.c.busy with
  | none => s
  | some b => { s with c := { s.c with busy := some { b with acts := acts, yielded := false } } }

/-- Actions put before those that remain. -/
def State.push (s : State) (acts : List Act) : State :=
  match s.c.busy with
  | none => s
  | some b => { s with c := { s.c with busy := some { b with acts := acts ++ b.acts } } }

/-- Whether an operation is a host operation: it ends with a result code (R192). -/
def OpName.isHost (o : OpName) : Bool :=
  match o with
  | .sfmt => true
  | .swin => true
  | .srot => true
  | .qbuf => true
  | .streamon => true
  | .streamoff => true
  | .irq => false
  | .micro => false

/-- HardwareTimeout ends the operation at the failing poll; what was done stays done (R102, R192). An interrupt service
and a micro-operation that stands alone have no result code (R203; log 13). -/
def State.timeout (s : State) : State :=
  match s.c.busy with
  | none => s
  | some b => if b.op.isHost then (s.report .hardwareTimeout).endOp else s.endOp

/-! ## Who may step -/

/-- A controller operation may start only when no refusal mark is set (R194) and the lock is free (R46). -/
def controllerStep (s t : State) : Host.Outcome State Fault Refusal :=
  match s.refused with
  | some r => .refused (.halted r)
  | none =>
    match s.c.busy with
    | some _ => .refused .lockHeld
    | none => .next t

/-- An engine event is taken only when no refusal mark is set (R194), no engine fault is recorded (R195), and the event is
enabled (R173). -/
def engineStep (s : State) (enabled : Bool) (t : State) : Host.Outcome State Fault Refusal :=
  match s.refused with
  | some r => .refused (.halted r)
  | none =>
    match s.e.fault with
    | some f => .fault (.engineStuck f)
    | none => if enabled then .next t else .refused .notEnabled

end Sys2Proof.Machine
end

