-- ==== Sys2Proof/Machine/Fetch.lean ====
section
/-! DEFINITION. The fetch-address generator of a frame (45_engine.md R178). -/

namespace Sys2Proof.Machine

/-! ## The walk (R178) -/

/-- W, the line length of plane p in the active configuration (R178). -/
def Engine.fetchW (e : Engine) (p : Plane) : Int :=
  match p with
  | .y => s32 e.active.xmemsize
  | .u => ceil2 (s32 e.active.xmemsize)
  | .v => ceil2 (s32 e.active.xmemsize)

/-- H, the line count of plane p in the active configuration (R178). -/
def Engine.fetchH (e : Engine) (p : Plane) : Int :=
  match p with
  | .y => s32 e.active.ymemsize
  | .u => ceil2 (s32 e.active.ymemsize)
  | .v => ceil2 (s32 e.active.ymemsize)

/-- `b + ps`: the step from a pixel to the next of its line (R178). -/
def Engine.pixelStep (prm : Params) (e : Engine) (p : Plane) : Int :=
  bytesPerPixel prm e.active.mode + s32 (e.active.get (pstrideField p))

/-- `(W - 1)*(b + ps) + b + xs`: the step from a line to the next (R178). -/
def Engine.lineStep (prm : Params) (e : Engine) (p : Plane) : Int :=
  (e.fetchW p - 1) * e.pixelStep prm p + bytesPerPixel prm e.active.mode + s32 (e.active.get (xstrideField p))

/-- `Addr_p(i, j)` (R178). -/
def Engine.fetchAddr (prm : Params) (e : Engine) (p : Plane) (i j : Int) : Word :=
  u32 ((e.addr0.get p).toNat + i * e.pixelStep prm p + j * e.lineStep prm p)

/-- `a ∈ FetchSet_p` (R178). -/
def Engine.inFetchSet (prm : Params) (e : Engine) (p : Plane) (a : Word) : Prop :=
  ∃ i j : Int, 0 ≤ i ∧ i < e.fetchW p ∧ 0 ≤ j ∧ j < e.fetchH p ∧ e.fetchAddr prm p i j = a

/-- `Last_p` (R178). -/
def Engine.lastAddr (prm : Params) (e : Engine) (p : Plane) : Word :=
  if 1 ≤ e.fetchW p ∧ 1 ≤ e.fetchH p then e.fetchAddr prm p (e.fetchW p - 1) (e.fetchH p - 1) else e.addr0.get p

/-! ## Membership, line by line

A frame has too many pixels to try each. A line is an arithmetic progression mod 2^32, so whether it meets an address is
one linear congruence. Sys2Proof/Laws/Fetch.lean proves that the answer is `inFetchSet`. -/

/-- How often 2 divides n, at most `fuel` times. -/
def twos (fuel n : Nat) : Nat :=
  match fuel with
  | 0 => 0
  | k + 1 => if n % 2 = 0 then 1 + twos k (n / 2) else 0

/-- The inverse of an odd word mod 2^32, by Newton's iteration from 3 correct bits to 48. -/
def oddInverse (d : Word) : Word :=
  let x1 := d * (2#32 - d * d)
  let x2 := x1 * (2#32 - d * x1)
  let x3 := x2 * (2#32 - d * x2)
  x3 * (2#32 - d * x3)

/-- The least i with i * d = c mod 2^32, if there is one. -/
def leastSolution (d c : Word) : Option Nat :=
  if d = 0#32 then (if c = 0#32 then some 0 else none)
  else
    let k := twos 32 d.toNat
    if c.toNat % 2 ^ k = 0 then
      some ((BitVec.ofNat 32 (c.toNat / 2 ^ k) * oddInverse (BitVec.ofNat 32 (d.toNat / 2 ^ k))).toNat % 2 ^ (32 - k))
    else none

/-- Whether one of `start, start + step, …`, n of them, is a. -/
def onLine (start step a : Word) (n : Nat) : Bool :=
  match leastSolution step (a - start) with
  | none => false
  | some i => decide (i < n)

/-- Whether an address is in the frame's fetch set (R178, R179). -/
def Engine.fetchable (prm : Params) (e : Engine) (p : Plane) (a : Word) : Bool :=
  (List.range (e.fetchH p).toNat).any
    (fun j => onLine (e.fetchAddr prm p 0 j) (u32 (e.pixelStep prm p)) a (e.fetchW p).toNat)

end Sys2Proof.Machine
end

