-- ==== Sys2Proof/Machine/EngineSteps.lean ====
section
/-! DEFINITION. The engine steps (45_engine.md R173 to R188). Each is one atomic event (R190). -/

namespace Sys2Proof.Machine

/-! ## Stopping the channel (R176) -/

/-- The ISR after `ISR[5 + 8p] <- 1` for each plane whose DONEIEN is set and that the active format has (R176). -/
def Engine.doneEvents (prm : Params) (e : Engine) : Word :=
  (planesBelow (np prm e.active.mode)).foldl (fun isr p => setEvent isr (ctrlDoneien (e.ctrl.get p)) .done p) e.isr

/-- StopChannel, the completion of a disable: a pending update is discarded (R176). -/
def Engine.stopChannel (prm : Params) (e : Engine) : Engine :=
  { e with chen := false, dispend := false, updpend := false, phase := .between, isr := e.doneEvents prm }

/-! ## Frame start (R174, R175, R177) -/

/-- One descriptor of plane p loaded from D: three words at D, D + 4, D + 8 mod 2^32, and the DSCR and ADD status bits its
control word asks for (R175). -/
def State.loadDescriptor (s : State) (fromHead : Bool) (p : Plane) (d : Word) : State :=
  let (a, s1) := s.engineRead d
  let (c, s2) := s1.engineRead (d + 4#32)
  let (n, s3) := s2.engineRead (d + 8#32)
  let e := s3.e
  s3.setE
    { e with
      addr := e.addr.set p a
      ctrl := e.ctrl.set p c
      next := e.next.set p n
      addr0 := e.addr0.set p a
      dload := e.dload.set p d
      isr := setEvent (setEvent e.isr (ctrlDscrien c) .dscr p) (fromHead && ctrlAddien c) .add p }

/-- The planes loaded in order; a pointer that is not a multiple of 4 ends the step with EngineMisaligned, what was
loaded before it standing (R175, R177; log 12). At the end UPDPEND is cleared and the frame is Fetching. -/
def State.loadPlanes (s : State) (fromHead : Bool) (src : Planes Word) (ps : List Plane) : State :=
  match ps with
  | [] => s.setE { s.e with updpend := false, phase := .fetching }
  | p :: rest =>
    if wordAligned (src.get p) then (s.loadDescriptor fromHead p (src.get p)).loadPlanes fromHead src rest
    else s.engineFault .misaligned

/-- The latch of a latched update: all sixteen fields in one event (R42, R175, R182). -/
def Engine.latch (e : Engine) : Engine := if e.updpend then { e with active := e.shadow } else e

/-- E_FSTART's effect where no disable is pending (R175). -/
def State.startFrame (s : State) : State :=
  let src := if s.e.updpend then s.e.head else s.e.next
  let t := s.setE s.e.latch
  match formatOf s.prm t.e.active.mode with
  | none => t.engineFault .badMode
  | some (n, _) => t.loadPlanes s.e.updpend src (planesBelow n)

/-- E_FSTART (R175): enabled when CHEN = 1 between frames. -/
def execEFstart (s : State) : Host.Outcome State Fault Refusal :=
  engineStep s (s.e.chen && s.e.phase == .between)
    (if s.e.dispend then s.setE (s.e.stopChannel s.prm) else s.startFrame)

/-! ## Frame fetch (R179) -/

/-- When E_FETCH p, a is enabled (R173, R179). -/
def State.fetchEnabled (s : State) (p : Plane) (a : Word) : Bool :=
  s.e.phase == .fetching && decide (p.index < np s.prm s.e.active.mode) && ctrlDfetch (s.e.ctrl.get p)
    && s.e.fetchable s.prm p a

/-- `E.ADDR_p <- a` (R179). -/
def State.fetchAt (s : State) (p : Plane) (a : Word) : State := s.setE { s.e with addr := s.e.addr.set p a }

/-- E_FETCH Y, a (R179). -/
def execEFetchY (a : Word) (s : State) : Host.Outcome State Fault Refusal :=
  engineStep s (s.fetchEnabled .y a) (s.fetchAt .y a)

/-- E_FETCH U, a (R179). -/
def execEFetchU (a : Word) (s : State) : Host.Outcome State Fault Refusal :=
  engineStep s (s.fetchEnabled .u a) (s.fetchAt .u a)

/-- E_FETCH V, a (R179). -/
def execEFetchV (a : Word) (s : State) : Host.Outcome State Fault Refusal :=
  engineStep s (s.fetchEnabled .v a) (s.fetchAt .v a)

/-! ## Frame end (R181) -/

/-- What E_FEND does for one plane: ADDR_p to Last_p where DFETCH is set, and the DMA status bit where DMAIEN is (R181). -/
def Engine.endPlane (prm : Params) (e : Engine) (p : Plane) : Engine :=
  { e with
    addr := if ctrlDfetch (e.ctrl.get p) then e.addr.set p (e.lastAddr prm p) else e.addr
    isr := setEvent e.isr (ctrlDmaien (e.ctrl.get p)) .dma p }

/-- E_FEND's effect (R181): the frame ends, and a pending disable completes. -/
def Engine.endFrame (prm : Params) (e : Engine) : Engine :=
  let t := { (planesBelow (np prm e.active.mode)).foldl (fun x p => x.endPlane prm p) e with phase := .between }
  if e.dispend then t.stopChannel prm else t

/-- E_FEND (R181): enabled during a frame. -/
def execEFend (s : State) : Host.Outcome State Fault Refusal :=
  engineStep s (s.e.phase == .fetching) (s.setE (s.e.endFrame s.prm))

/-! ## Status events (R184, R185) -/

/-- When E_OVR p is enabled (R173, R184). -/
def State.ovrEnabled (s : State) (p : Plane) : Bool :=
  s.e.phase == .fetching && decide (p.index < np s.prm s.e.active.mode)

/-- `E.ISR[6 + 8p] <- 1` (R184). -/
def State.overflow (s : State) (p : Plane) : State := s.setE { s.e with isr := setEvent s.e.isr true .ovr p }

/-- E_OVR Y (R184). -/
def execEOvrY (s : State) : Host.Outcome State Fault Refusal := engineStep s (s.ovrEnabled .y) (s.overflow .y)

/-- E_OVR U (R184). -/
def execEOvrU (s : State) : Host.Outcome State Fault Refusal := engineStep s (s.ovrEnabled .u) (s.overflow .u)

/-- E_OVR V (R184). -/
def execEOvrV (s : State) : Host.Outcome State Fault Refusal := engineStep s (s.ovrEnabled .v) (s.overflow .v)

/-- E_SYNC (R185): enabled while SIPSTS = 1. -/
def execESync (s : State) : Host.Outcome State Fault Refusal :=
  engineStep s s.e.sipsts (s.setE { s.e with sipsts := false })

end Sys2Proof.Machine
end

