-- ==== Sys2Proof/Machine/Geometry.lean ====
section
/-! DEFINITION. The stride computation (41_descriptor_builder.md R117 to R121) and the scaling and geometry calculator
(42_geometry.md R123 to R136). All arithmetic is on integers; only the final words are reduced with u32 (R10). -/

namespace Sys2Proof.Machine

/-! ## Scan mapping and strides (R117, R118) -/

/-- `P(x, y) = (y * w + x) * b`: the byte offset of a pixel of a plane of width w (R118). -/
def pixelOffset (w b x y : Int) : Int := (y * w + x) * b

/-- The output line length W and line count H (R118). -/
def scanSize (w h : Int) (r : Rotation) : Int × Int :=
  match r with
  | .r0 => (w, h)
  | .r90 => (h, w)
  | .r180 => (w, h)
  | .r270 => (h, w)

/-- `S_r(i, j)`: the source pixel of output pixel i of output line j (R118). -/
def scanSource (w h : Int) (r : Rotation) (i j : Int) : Int × Int :=
  match r with
  | .r0 => (i, j)
  | .r90 => (j, h - 1 - i)
  | .r180 => (w - 1 - i, h - 1 - j)
  | .r270 => (w - 1 - j, i)

/-- `P(S_r(i, j))`. -/
def scanOffset (w h b : Int) (r : Rotation) (i j : Int) : Int :=
  pixelOffset w b (scanSource w h r i j).1 (scanSource w h r i j).2

/-- The three outputs of `params` (R117). -/
structure ScanParams where
  off : Int
  xs : Int
  ps : Int
deriving DecidableEq, Repr

/-- `params(w, h, b, r)` (R117). -/
def scanParams (w h b : Int) (r : Rotation) : ScanParams where
  off := scanOffset w h b r 0 0
  xs := scanOffset w h b r 0 1 - scanOffset w h b r ((scanSize w h r).1 - 1) 0 - b
  ps := scanOffset w h b r 1 0 - scanOffset w h b r 0 0 - b

/-- The parameters of plane p of a format (R120); 0 for a plane at or beyond np (R134). -/
def planeParams (prm : Params) (f : FrameFormat) (r : Rotation) (p : Plane) : ScanParams :=
  if p.index < np prm f.tag then
    scanParams (planeDim p f.w) (planeDim p f.h) (bytesPerPixel prm f.tag) r
  else { off := 0, xs := 0, ps := 0 }

/-! ## Window clamp (R124) -/

/-- The clamped destination rectangle (R124). -/
structure Rect where
  x0 : Int
  y0 : Int
  hwX : Int
  hwY : Int
deriving DecidableEq, Repr

/-- The clamp of a window to the display surface (R123, R124). -/
def clampWindow (prm : Params) (w : Window) : Rect where
  x0 := max w.left 0
  y0 := max w.top 0
  hwX := min (w.left + w.width) prm.displayW - max w.left 0
  hwY := min (w.top + w.height) prm.displayH - max w.top 0

/-- The rotated source dimensions, which are also the memory window (R125, R128). -/
def rotatedSize (f : FrameFormat) (r : Rotation) : Int × Int :=
  if r.swaps then (f.h, f.w) else (f.w, f.h)

/-- The four checks (R126). -/
def windowValid (prm : Params) (f : FrameFormat) (w : Window) (r : Rotation) : Bool :=
  decide (0 < (rotatedSize f r).1) && decide (0 < (rotatedSize f r).2)
    && decide (0 < (clampWindow prm w).hwX) && decide (0 < (clampWindow prm w).hwY)

/-! ## Scale factors (R129 to R133) -/

/-- OVERSHOOT (R131): the stated default, or the chip's own predicate, of which nothing is known (log 7). -/
def overshoot (prm : Params) (f mem hw phase : Int) : Bool :=
  match prm.overshoot with
  | .stated => decide ((f * (hw - 1) + 256 * phase) / 2048 > mem - 1)
  | .chip => Config.chipOvershoot f mem hw phase

/-- `factor(mem, hw, phase)` (R130), computed only where hw is at least 1 (R129), where Lean's division floors. For a
negative numerator this is the value R132 gives the model (log 17). -/
def factor (prm : Params) (mem hw phase : Int) : Int :=
  let f := (8 * 256 * mem - 256 * phase) / hw + 1
  if overshoot prm f mem hw phase then f - 1 else f

/-- The coefficient table choice, by the X axis alone: DOWN (1) when mem_x is at least hw_x (R133). -/
def coeffChoice (memX hwX : Int) : Word := if memX ≥ hwX then 1#32 else 0#32

/-! ## The result (R134) -/

/-- The seven words that depend on the window: the destination rectangle and the scaling into it (R78). -/
structure WindowWords where
  xpos : Word
  ypos : Word
  xsize : Word
  ysize : Word
  xfactor : Word
  yfactor : Word
  coeff : Word
deriving DecidableEq, Repr

/-- The window's words, where the window is valid (R124, R129, R133, R134). -/
def windowWords (prm : Params) (f : FrameFormat) (w : Window) (r : Rotation) : WindowWords :=
  let rect := clampWindow prm w
  let (memX, memY) := rotatedSize f r
  { xpos := u32 rect.x0
    ypos := u32 rect.y0
    xsize := u32 rect.hwX
    ysize := u32 rect.hwY
    xfactor := u32 (factor prm memX rect.hwX prm.phaseX)
    yfactor := u32 (factor prm memY rect.hwY prm.phaseY)
    coeff := coeffChoice memX rect.hwX }

/-- The sixteen words: the window's, and those that format and rotation alone give, which are MODE, the memory window and the
strides (R78, R119, R120, R128, R134). -/
def channelConfig (prm : Params) (f : FrameFormat) (r : Rotation) (v : WindowWords) : Cfg where
  mode := f.tag
  xpos := v.xpos
  ypos := v.ypos
  xsize := v.xsize
  ysize := v.ysize
  xmemsize := u32 (rotatedSize f r).1
  ymemsize := u32 (rotatedSize f r).2
  xfactor := v.xfactor
  yfactor := v.yfactor
  coeff := v.coeff
  xstrideY := u32 (planeParams prm f r .y).xs
  pstrideY := u32 (planeParams prm f r .y).ps
  xstrideU := u32 (planeParams prm f r .u).xs
  pstrideU := u32 (planeParams prm f r .u).ps
  xstrideV := u32 (planeParams prm f r .v).xs
  pstrideV := u32 (planeParams prm f r .v).ps

/-- `Geometry(C.fmt, C.win, C.rot)`: none for Invalid, else the sixteen words (R134). -/
def geometry (prm : Params) (f : FrameFormat) (w : Window) (r : Rotation) : Option Cfg :=
  if windowValid prm f w r then some (channelConfig prm f r (windowWords prm f w r)) else none

end Sys2Proof.Machine
end

