-- ==== Sys2Proof/Machine/Descriptor.lean ====
section
/-! DEFINITION. Buffers, their regions, and the descriptor builder (41_descriptor_builder.md R110 to R116;
44_buffer_queue_irq.md R151, R155, R156). -/

namespace Sys2Proof.Machine

/-! ## Placement (R111) -/

/-- The active planes of a buffer (R13, R29). -/
def Buffer.planes (prm : Params) (b : Buffer) : List Plane := planesBelow (np prm b.fmt.tag)

/-- `B.base[p] + align4(pbytes(p))`: where plane p's descriptor lies (R111). -/
def Buffer.descAddr (prm : Params) (b : Buffer) (p : Plane) : Word :=
  b.base.get p + BitVec.ofNat 32 (align4 (pbytes prm b.fmt p))

/-- `ADDRW_p = u32(B.base[p] + off(p))` (R112). -/
def Buffer.addrWord (prm : Params) (rot : Rotation) (b : Buffer) (p : Plane) : Word :=
  u32 ((b.base.get p).toNat + (planeParams prm b.fmt rot p).off)

/-- The buffer with `B.desc[p]` set for its active planes (R113). -/
def Buffer.withDesc (prm : Params) (b : Buffer) : Buffer :=
  { b with desc := (b.planes prm).foldl (fun d p => d.set p (b.descAddr prm p)) b.desc }

/-- The three memory writes of plane p: ADDRW, CTRLW, NEXTW, the last a link to the descriptor itself (R113 to R115). -/
def descriptorWrites (prm : Params) (rot : Rotation) (b : Buffer) (p : Plane) : List Act :=
  let d := b.descAddr prm p
  [.memWrite d (b.addrWord prm rot p), .memWrite (d + 4#32) (ctrlWord p), .memWrite (d + 8#32) d]

/-- BuildDescriptors(B): Y before U before V (R113). -/
def buildDescriptors (prm : Params) (rot : Rotation) (b : Buffer) : List Act :=
  (b.planes prm).flatMap (descriptorWrites prm rot b)

/-! ## Regions and admission (R52, R151) -/

/-- A plane region with its trailer: from base_p up to but not including base_p + align4(pbytes(p)) + 12 (R151). -/
structure Region where
  lo : Nat
  hi : Nat
deriving DecidableEq, Repr

/-- The region of plane p of a buffer (R151). -/
def Buffer.region (prm : Params) (b : Buffer) (p : Plane) : Region where
  lo := (b.base.get p).toNat
  hi := (b.base.get p).toNat + align4 (pbytes prm b.fmt p) + 12

/-- The regions of a buffer's active planes. -/
def Buffer.regions (prm : Params) (b : Buffer) : List Region := (b.planes prm).map (b.region prm)

/-- The regions of a slot. -/
def slotRegions (prm : Params) (slot : Option Buffer) : List Region :=
  match slot with
  | none => []
  | some b => b.regions prm

/-- Two regions that share an address. -/
def Region.overlaps (a b : Region) : Bool := decide (a.lo < b.hi) && decide (b.lo < a.hi)

/-- Whether some two regions of a list overlap (R151). -/
def anyOverlap (rs : List Region) : Bool :=
  match rs with
  | [] => false
  | r :: rest => rest.any (fun t => r.overlaps t) || anyOverlap rest

/-- The id in a slot. -/
def slotHas (slot : Option Buffer) (id : Word) : Bool :=
  match slot with
  | none => false
  | some b => b.id == id

/-- The buffer record QBUF makes: the base words of the active planes, the format in force (R29, R152). -/
def newBuffer (prm : Params) (f : FrameFormat) (id base0 base1 base2 : Word) : Buffer where
  id := id
  base := { y := base0, u := if np prm f.tag ≤ 1 then 0#32 else base1, v := if np prm f.tag ≤ 2 then 0#32 else base2 }
  fmt := f
  desc := .zero

/-- The admission checks that need a format, in the order of R151: the first that fails gives the reason (R200 (d)). -/
def admissionProblem (prm : Params) (c : Controller) (b : Buffer) : Option RefuseReason :=
  if (b.planes prm).any (fun p => !wordAligned (b.base.get p)) then some .qbufMisaligned
  else if (b.planes prm).any (fun p => decide ((b.region prm p).hi > 2 ^ 32)) then some .qbufWrap
  else if anyOverlap (b.regions prm ++ slotRegions prm c.cur ++ slotRegions prm c.nxt) then some .qbufOverlap
  else if slotHas c.cur b.id || slotHas c.nxt b.id then some .qbufDuplicateId
  else none

/-! ## The in-use test (R155, R156) -/

/-- `PlaneHit(B, a)`: a lies in B's luma plane, compared unsigned (R155). -/
def planeHit (prm : Params) (b : Buffer) (a : Word) : Bool :=
  decide ((b.base.get .y).toNat ≤ a.toNat) && decide (a.toNat < (b.base.get .y).toNat + pbytes prm b.fmt .y)

/-- `InUse(s, a)` (R156). -/
def inUse (prm : Params) (cur : Option Buffer) (s a : Word) : Bool :=
  match cur with
  | none => false
  | some b => chsrEnabled s && planeHit prm b a

end Sys2Proof.Machine
end

