-- ==== Sys2Proof/Machine/Registers.lean ====
section
/-! DEFINITION. The register file's write and read rules (40_register_access.md R85 to R105), shared by the register
micro-operations and by the controller operations that issue them. -/

namespace Sys2Proof.Machine

/-! ## Writes -/

/-- The write rule of CHER (R86). -/
def Engine.writeCher (e : Engine) (x : Word) : Except RefuseReason Engine :=
  if within x cherMask = false then .error .reservedBit
  else if x.getLsbD 0 && e.chen && e.dispend then .error .enableWhileDisabling
  else .ok { e with chen := e.chen || x.getLsbD 0, updpend := e.updpend || x.getLsbD 1 }

/-- The write rule of CHDR (R87). -/
def Engine.writeChdr (e : Engine) (x : Word) : Except RefuseReason Engine :=
  if within x chdrMask = false then .error .reservedBit
  else .ok { e with dispend := e.dispend || (x.getLsbD 0 && e.chen) }

/-- The write rule of IER (R88). -/
def Engine.writeIer (e : Engine) (x : Word) : Except RefuseReason Engine :=
  if within x imask = false then .error .reservedBit
  else .ok { e with imr := e.imr ||| x }

/-- The write rule of IDR (R89). -/
def Engine.writeIdr (e : Engine) (x : Word) : Except RefuseReason Engine :=
  if within x imask = false then .error .reservedBit
  else .ok { e with imr := e.imr &&& ~~~x }

/-- The write rule of HEAD_p (R90). -/
def Engine.writeHead (e : Engine) (p : Plane) (x : Word) : Except RefuseReason Engine :=
  if wordAligned x = false then .error .misalignedHead
  else .ok { e with head := e.head.set p x }

/-- The write rule of CFG_f: SHADOW alone changes (R91). -/
def Engine.writeCfg (e : Engine) (f : CfgField) (x : Word) : Except RefuseReason Engine :=
  .ok { e with shadow := e.shadow.set f x }

/-- The write rule of each register (R85). -/
def Engine.write (e : Engine) (r : WReg) (x : Word) : Except RefuseReason Engine :=
  match r with
  | .cher => e.writeCher x
  | .chdr => e.writeChdr x
  | .ier => e.writeIer x
  | .idr => e.writeIdr x
  | .head p => e.writeHead p x
  | .cfg f => e.writeCfg f x

/-- A WR as one event of the register file (R56, R92). With `sync`, it is the write that ends a synchronised write and
sets SIPSTS in the same event (R102). A refused write has no effect but the mark (log 15). -/
def State.writeEvent (s : State) (r : WReg) (x : Word) (sync : Bool) : State :=
  match s.e.write r x with
  | .error reason => s.refuse reason
  | .ok e => (s.setE { e with sipsts := e.sipsts || sync }).record (.wr r x)

/-! ## Reads -/

/-- The word a read returns (R95 to R104). -/
def Engine.readValue (e : Engine) (r : RReg) : Word :=
  match r with
  | .chsr => e.chsr
  | .imr => e.imr
  | .isr => e.isr
  | .head p => e.head.get p
  | .addr p => e.addr.get p
  | .ctrl p => e.ctrl.get p
  | .next p => e.next.get p
  | .cfg f => e.shadow.get f
  | .syncsr => e.syncsr

/-- What a read does to the engine: ISR is cleared by its read, every other read does nothing (R57, R96). -/
def Engine.afterRead (e : Engine) (r : RReg) : Engine :=
  match r with
  | .isr => { e with isr := 0#32 }
  | .chsr => e
  | .imr => e
  | .head _ => e
  | .addr _ => e
  | .ctrl _ => e
  | .next _ => e
  | .cfg _ => e
  | .syncsr => e

/-- An RD as one event (R94): the controller receives the word. -/
def State.readEvent (s : State) (r : RReg) : State :=
  (s.setE (s.e.afterRead r)).record (.rd r (s.e.readValue r))

/-! ## Synchronised writes (R102) -/

/-- How a WR is issued: as a synchronised write when its register is in SYNC_REGS (R85). -/
def wrAct (prm : Params) (r : WReg) (x : Word) : Act :=
  if r ∈ prm.syncRegs then .poll r x 0 else .wr r x

/-- Whether the n-th poll that still reads 1 ends the operation (R102). -/
def SyncWait.expired (w : SyncWait) (n : Nat) : Bool :=
  match w with
  | .unbounded => false
  | .bounded k => decide (k ≤ n)

/-- One poll of a synchronised write (R102): SYNCSR is read; at 0 the write follows; at 1 the poll count goes up, and the
operation ends with HardwareTimeout when the bound is reached, or polls again. -/
def State.pollEvent (s : State) (r : WReg) (x : Word) (n : Nat) : State :=
  let t := s.readEvent .syncsr
  if (s.e.readValue .syncsr).getLsbD 0 = false then t.push [.wrs r x]
  else if SyncWait.expired s.prm.syncWait (n + 1) then t.timeout
  else t.push [.poll r x (n + 1)]

end Sys2Proof.Machine
end

