-- ==== Sys2Proof/Machine/Controller.lean ====
section
/-! DEFINITION. How a controller operation runs: the shared procedures Recompute, WriteShadowAll, WriteHeads, Show and
Advance as the actions they issue, what one action does, and the burst that performs actions until the operation ends,
reaches a wait point, or yields to the engine (43_config_state_machine.md R137 to R142; 44_buffer_queue_irq.md R151 to
R172; 45_engine.md R190). -/

namespace Sys2Proof.Machine

/-! ## Sequences of register writes (R155) -/

/-- WR of the sixteen CFG fields in field order (R138, R155). -/
def cfgWrites (prm : Params) (g : Cfg) : List Act := allFields.map (fun f => wrAct prm (.cfg f) (g.get f))

/-- `WriteHeads(B)` (R155). -/
def writeHeads (prm : Params) (b : Buffer) : List Act :=
  (b.planes prm).map (fun p => wrAct prm (.head p) (b.desc.get p))

/-- Seven free words from the n-th on: the window's words where the window in force is not valid (log 9). -/
def freeWindowWords (n : Nat) : WindowWords where
  xpos := Config.freeWord n
  ypos := Config.freeWord (n + 1)
  xsize := Config.freeWord (n + 2)
  ysize := Config.freeWord (n + 3)
  xfactor := Config.freeWord (n + 4)
  yfactor := Config.freeWord (n + 5)
  coeff := Config.freeWord (n + 6)

/-- The geometry of the configuration in force: none when it is Invalid or no format is set (R134). -/
def State.geometry (s : State) : Option Cfg :=
  match s.c.fmt with
  | none => none
  | some f => Machine.geometry s.prm f s.c.win s.c.rot

/-- `WriteShadowAll()` (R155), with the state after any free values it draws. Geometry is Invalid here, although `C.cfg` is not
Bad, only where a Recompute timed out on its Bad path: the window's words are then free (log 9), while MODE, a supported tag
as R177 says of every MODE the controller writes, the memory window and the strides are still those of format and rotation
(log 27).
With no format, which no QBUF is admitted with (R151), there is nothing to write. -/
def State.writeShadowAll (s : State) : State × List Act :=
  match s.c.fmt with
  | none => (s, [])
  | some f =>
    match Machine.geometry s.prm f s.c.win s.c.rot with
    | some g => (s, cfgWrites s.prm g)
    | none => ({ s with fresh := s.fresh + 7 }, cfgWrites s.prm (channelConfig s.prm f s.c.rot (freeWindowWords s.fresh)))

/-! ## Recompute (R138 to R141) -/

/-- The part of the recovery condition that needs no register read (R141). -/
def Controller.mayRecover (c : Controller) : Bool :=
  match c.cfg, c.cur with
  | .bad, some b => c.fmt == some b.fmt
  | _, _ => false

/-- Recompute up to its first register access: `C.dirty` is cleared, and the actions are those of the path taken (R138).
Its precondition is a set format (R137). -/
def State.recompute (s : State) : State × List Act :=
  let t := s.setC { s.c with dirty := false }
  match s.geometry with
  | none => (t, [.badChsr])
  | some g => (t, cfgWrites s.prm g ++ (if s.c.mayRecover then [.recoverChsr] else [.setCfg .goodNeedsLatch]))

/-- The Bad path after its RD(CHSR) (R139). -/
def State.badChsr (s : State) : State :=
  let t := s.readEvent .chsr
  if chsrEnabled s.e.chsr then t.push [wrAct s.prm .chdr 1#32, .setCfg .bad] else t.push [.setCfg .bad]

/-- The recovery test after its RD(CHSR): at CHEN = 0 the current buffer's descriptors are built again and the channel is
enabled, else the new configuration waits for a latch (R138, R141). -/
def State.recoverChsr (s : State) : State :=
  let t := s.readEvent .chsr
  match s.c.cur with
  | none => t.push [.setCfg .goodNeedsLatch]
  | some b =>
    if chsrEnabled s.e.chsr then t.push [.setCfg .goodNeedsLatch]
    else
      let b' := b.withDesc s.prm
      (t.setC { t.c with cur := some b' }).push
        (buildDescriptors s.prm s.c.rot b ++ [.barrier] ++ writeHeads s.prm b'
          ++ [wrAct s.prm .cher 3#32, wrAct s.prm .ier irqOn, .setCfg .good])

/-! ## Buffer submit (R152, R153, R158) -/

/-- `Show(B, s)` (R153). -/
def State.showActs (t : State) (b : Buffer) (s : Word) : State × List Act :=
  if chsrEnabled s = false then
    let (t', shadow) := t.writeShadowAll
    (t', shadow ++ writeHeads t.prm b
      ++ [wrAct t.prm .cher 3#32, wrAct t.prm .ier irqOn, .setChan .running, .setCfg .good])
  else if t.c.cfg = .goodNeedsLatch then
    let (t', shadow) := t.writeShadowAll
    (t', shadow ++ writeHeads t.prm b ++ [wrAct t.prm .cher 2#32, .setCfg .good])
  else (t, writeHeads t.prm b ++ [wrAct t.prm .cher 2#32, .setCfg .good])

/-- Show, then Advance, then result(OK) (R152). -/
def State.showThenAdvance (t : State) (b : Buffer) (s a : Word) : State :=
  let (t', acts) := t.showActs b s
  t'.push (acts ++ [.advance b (inUse t.prm t.c.cur s a), .finish .ok])

/-- QBUF after its lazy Recompute: at Bad the buffer is completed Done at once (R157), else its descriptors are built and
published (R152). -/
def State.qbufGo (s : State) (b : Buffer) : State :=
  if s.c.cfg = .bad then (s.setC (s.c.complete b.id .done)).push [.finish .ok]
  else
    let b' := b.withDesc s.prm
    s.push (buildDescriptors s.prm s.c.rot b ++ [.barrier, .qbufChsr b'])

/-- QBUF's RD(CHSR); ADDR_0 is read next only when it can matter (R152). -/
def State.qbufChsr (s : State) (b : Buffer) : State :=
  let v := s.e.chsr
  let t := s.readEvent .chsr
  if s.c.cur.isSome && chsrEnabled v then t.push [.qbufAddr b v] else t.showThenAdvance b v 0#32

/-- QBUF's RD(ADDR_0) (R152). -/
def State.qbufAddr (s : State) (b : Buffer) (v : Word) : State :=
  (s.readEvent (.addr .y)).showThenAdvance b v (s.e.addr.get .y)

/-- `complete` of the buffer in a slot, if there is one. -/
def Controller.retire (c : Controller) (slot : Option Buffer) (st : Status) : Controller :=
  match slot with
  | none => c
  | some b => c.complete b.id st

/-- `Advance(B, inuse)` (R158). -/
def Controller.advance (c : Controller) (b : Buffer) (inuse : Bool) : Controller :=
  if inuse then { c.retire c.nxt .error with nxt := some b }
  else { c.retire c.cur .done with cur := c.nxt, nxt := some b }

/-- Both slots retired Done, `C.cur` first (R160, R163, R166). -/
def Controller.flush (c : Controller) : Controller :=
  { (c.retire c.cur .done).retire c.nxt .done with cur := none, nxt := none }

/-! ## Stream-off (R163, R164) -/

/-- What follows the quiesce: both slots retired, the interrupts masked, the stale status discarded (R163). -/
def offTail (prm : Params) : List Act := [.offFlush, wrAct prm .idr irqDma, .rd .isr, .offEnd, .finish .ok]

/-- STREAMOFF's first RD(CHSR) (R163). -/
def State.offChsr (s : State) : State :=
  let t := s.readEvent .chsr
  if chsrEnabled s.e.chsr then t.push (wrAct s.prm .chdr 1#32 :: .offPoll :: offTail s.prm) else t.push (offTail s.prm)

/-- One poll of the quiesce loop (R164): it repeats until CHSR bit 0 reads 0. -/
def State.offPoll (s : State) : State :=
  let t := s.readEvent .chsr
  if chsrEnabled s.e.chsr then t.push [.offPoll] else t

/-! ## Interrupt service (R166 to R168) -/

/-- IRQ's first promotion: an empty current slot takes the next buffer (R166). -/
def Controller.promote (c : Controller) : Controller :=
  match c.cur with
  | some _ => c
  | none => { c with cur := c.nxt, nxt := none }

/-- IRQ after its RD(CHSR) (R166, R167). -/
def State.irqChsr (s : State) : State :=
  let t := s.readEvent .chsr
  let c := t.c.promote
  if chsrEnabled s.e.chsr = false then (t.setC c.flush).push [wrAct s.prm .idr irqDma]
  else if c.cur.isSome && c.nxt.isSome then (t.setC c).push [.irqAddr]
  else t.setC c

/-- IRQ's advance branch after its RD(ADDR_0) (R168). -/
def State.irqAddr (s : State) : State :=
  let t := s.readEvent (.addr .y)
  match t.c.cur with
  | none => t
  | some b =>
    if planeHit s.prm b (s.e.addr.get .y) then t
    else t.setC { t.c.complete b.id .done with cur := t.c.nxt, nxt := none }

/-! ## One action -/

/-- Whether the action is an event of its own: a micro-operation or a memory write (R15, R59). The others are the
controller's own bookkeeping, which no other agent sees. -/
def Act.isEvent (a : Act) : Bool :=
  match a with
  | .wr _ _ => true
  | .poll _ _ _ => true
  | .wrs _ _ => true
  | .rd _ => true
  | .memWrite _ _ => true
  | .barrier => true
  | .setCfg _ => false
  | .setChan _ => false
  | .badChsr => true
  | .recoverChsr => true
  | .qbufGo _ => false
  | .qbufChsr _ => true
  | .qbufAddr _ _ => true
  | .advance _ _ => false
  | .offChsr => true
  | .offPoll => true
  | .offFlush => false
  | .offEnd => false
  | .irqChsr => true
  | .irqAddr => true
  | .finish _ => false

/-- The wait points: the polls that wait for the engine (R190). -/
def Act.isWait (a : Act) : Bool :=
  match a with
  | .poll _ _ _ => true
  | .offPoll => true
  | _ => false

/-- What one action does, the action itself already taken off `C.busy`. -/
def perform (a : Act) (s : State) : State :=
  match a with
  | .wr r x => s.writeEvent r x false
  | .poll r x n => s.pollEvent r x n
  | .wrs r x => s.writeEvent r x true
  | .rd r => s.readEvent r
  | .memWrite d x => s.memWrite d x
  | .barrier => s.publish
  | .setCfg x => s.setC { s.c with cfg := x }
  | .setChan x => s.setC { s.c with chan := x }
  | .badChsr => s.badChsr
  | .recoverChsr => s.recoverChsr
  | .qbufGo b => s.qbufGo b
  | .qbufChsr b => s.qbufChsr b
  | .qbufAddr b v => s.qbufAddr b v
  | .advance b inuse => s.setC (s.c.advance b inuse)
  | .offChsr => s.offChsr
  | .offPoll => s.offPoll
  | .offFlush => s.setC s.c.flush
  | .offEnd => s.setC { s.c with chan := .idle, streaming := false }
  | .irqChsr => s.irqChsr
  | .irqAddr => s.irqAddr
  | .finish c => s.report c

/-! ## Bursts (R190, R224; log 2) -/

/-- Whether the operation stops before an event that nothing has granted it: always at a wait point; elsewhere only where
ATOMIC_OPS is false and the turns say that the engine moves. -/
def State.yieldsBefore (s : State) (a : Act) : Bool :=
  a.isWait || (!s.prm.atomicOps && s.turns.head? == some .engine)

/-- The turns after an event that was not granted: a controller turn is used up where ATOMIC_OPS is false. -/
def State.useTurn (s : State) : State := if s.prm.atomicOps then s else { s with turns := s.turns.tail }

/-- The operation in progress runs on: `granted` says that its next event may be taken whatever the turns say. It stops
at its end (the lock is released), at a refusal, before an event at which it yields, and after `fuel` actions, where it
simply waits for the next step. -/
def burst (fuel : Nat) (granted : Bool) (s : State) : State :=
  match fuel with
  | 0 => s
  | n + 1 =>
    match s.c.busy with
    | none => s
    | some b =>
      match b.acts with
      | [] => s.endOp
      | a :: rest =>
        if a.isEvent = false then burst n granted (perform a (s.setActs rest))
        else if granted then burst n false (perform a (s.setActs rest))
        else if s.yieldsBefore a then s
        else burst n false (perform a (s.useTurn.setActs rest))

/-- More actions than any operation of this block takes without a wait: QBUF with a recovering Recompute takes fewer than
100 (log 2). -/
def burstFuel : Nat := 256

/-- A controller operation entered and run: its first event follows at once (log 2). -/
def State.runOp (s : State) (op : OpName) (acts : List Act) : State := burst burstFuel true (s.startOp op acts)

/-- An operation in progress resumed: its next event is granted. -/
def State.resume (s : State) : State := burst burstFuel true s

end Sys2Proof.Machine
end

