-- ==== Sys2Proof/Machine/HostOps.lean ====
section
/-! DEFINITION. The six host operations (43_config_state_machine.md R143 to R149; 44_buffer_queue_irq.md R151 to R165). -/

namespace Sys2Proof.Machine

/-- SFMT, format negotiation (R143). -/
def execSfmt (tag : Word) (w h : Int) (s : State) : Host.Outcome State Fault Refusal :=
  controllerStep s
    (if (formatOf s.prm tag).isNone || decide (w ≤ 0) || decide (h ≤ 0) then s.report .configurationError
     else (s.setC { s.c with fmt := some { tag := tag, w := w.toNat, h := h.toNat }, dirty := true }).report .ok)

/-- SWIN, overlay window set (R145, R146). -/
def execSwin (l t ww wh : Int) (s : State) : Host.Outcome State Fault Refusal :=
  controllerStep s
    (let win : Window := { left := l, top := t, width := ww, height := wh }
     if s.c.win = win ∧ s.c.dirty = false then s.report .ok
     else if s.c.fmt.isNone then (s.setC { s.c with win := win, dirty := true }).report .ok
     else
       let (s', acts) := (s.setC { s.c with win := win }).recompute
       s'.runOp .swin (acts ++ [.finish .ok]))

/-- SROT, rotation control (R148). -/
def execSrot (deg : Int) (s : State) : Host.Outcome State Fault Refusal :=
  controllerStep s
    (match Rotation.ofDegrees deg with
     | none => s.report .configurationError
     | some r =>
       if r = s.c.rot then s.report .ok
       else (s.setC { s.c with rot := r, dirty := true }).report .ok)

/-- QBUF, buffer submit (R151, R152): the admission checks in the order of R151, then the lazy Recompute, then the rest of
the operation. -/
def execQbuf (id base0 base1 base2 : Word) (s : State) : Host.Outcome State Fault Refusal :=
  controllerStep s
    (if s.c.streaming = false then s.refuse .qbufNotStreaming
     else
       match s.c.fmt with
       | none => s.refuse .qbufNoFormat
       | some f =>
         let b := newBuffer s.prm f id base0 base1 base2
         match admissionProblem s.prm s.c b with
         | some reason => s.refuse reason
         | none =>
           if s.c.dirty then
             let (s', acts) := s.recompute
             s'.runOp .qbuf (acts ++ [.qbufGo b])
           else s.runOp .qbuf [.qbufGo b])

/-- STREAMON (R162). -/
def execStreamon (s : State) : Host.Outcome State Fault Refusal :=
  controllerStep s ((s.setC { s.c with streaming := true }).report .ok)

/-- STREAMOFF (R163, R164). -/
def execStreamoff (s : State) : Host.Outcome State Fault Refusal :=
  controllerStep s (if s.c.streaming = false then s.report .ok else s.runOp .streamoff [.offChsr])

end Sys2Proof.Machine
end

