-- ==== Sys2Proof/Machine/Interrupt.lean ====
section
/-! DEFINITION. The interrupt service and the barrier (44_buffer_queue_irq.md R166 to R170; 60_exceptions.md R197 to R203). -/

namespace Sys2Proof.Machine

/-- IRQ, the completion interrupt service (R166): it may start when the line is asserted and the lock is free (R199). Its
entry and return are those of every controller operation (R202, R203). -/
def execIrq (s : State) : Host.Outcome State Fault Refusal :=
  if s.refused = none ∧ s.c.busy = none ∧ s.e.line = false then .refused .notEnabled
  else controllerStep s (s.runOp .irq [.rd .isr, .irqChsr])

/-- BARRIER as a micro-operation that stands alone (R170; log 13). -/
def execBarrier (s : State) : Host.Outcome State Fault Refusal :=
  controllerStep s (s.runOp .micro [.barrier])

end Sys2Proof.Machine
end

