-- ==== Sys2Proof/Machine/RegisterReads.lean ====
section
/-! DEFINITION. The register read micro-operations as they stand alone in the packet stream (40_register_access.md R94 to
R104): the controller receives the word, which the trace records (log 13, log 16). -/

namespace Sys2Proof.Machine

/-- An RD that stands alone (R94). -/
def readMicro (r : RReg) (s : State) : Host.Outcome State Fault Refusal := controllerStep s (s.runOp .micro [.rd r])

/-- RD_CHSR (R97). -/
def execRdChsr (s : State) : Host.Outcome State Fault Refusal := readMicro .chsr s

/-- RD_IMR (R95). -/
def execRdImr (s : State) : Host.Outcome State Fault Refusal := readMicro .imr s

/-- RD_ISR (R96). -/
def execRdIsr (s : State) : Host.Outcome State Fault Refusal := readMicro .isr s

/-- RD_HEAD_Y (R98). -/
def execRdHeadY (s : State) : Host.Outcome State Fault Refusal := readMicro (.head .y) s

/-- RD_HEAD_U (R98). -/
def execRdHeadU (s : State) : Host.Outcome State Fault Refusal := readMicro (.head .u) s

/-- RD_HEAD_V (R98). -/
def execRdHeadV (s : State) : Host.Outcome State Fault Refusal := readMicro (.head .v) s

/-- RD_ADDR_Y (R99). -/
def execRdAddrY (s : State) : Host.Outcome State Fault Refusal := readMicro (.addr .y) s

/-- RD_ADDR_U (R99). -/
def execRdAddrU (s : State) : Host.Outcome State Fault Refusal := readMicro (.addr .u) s

/-- RD_ADDR_V (R99). -/
def execRdAddrV (s : State) : Host.Outcome State Fault Refusal := readMicro (.addr .v) s

/-- RD_CTRL_Y (R100). -/
def execRdCtrlY (s : State) : Host.Outcome State Fault Refusal := readMicro (.ctrl .y) s

/-- RD_CTRL_U (R100). -/
def execRdCtrlU (s : State) : Host.Outcome State Fault Refusal := readMicro (.ctrl .u) s

/-- RD_CTRL_V (R100). -/
def execRdCtrlV (s : State) : Host.Outcome State Fault Refusal := readMicro (.ctrl .v) s

/-- RD_NEXT_Y (R101). -/
def execRdNextY (s : State) : Host.Outcome State Fault Refusal := readMicro (.next .y) s

/-- RD_NEXT_U (R101). -/
def execRdNextU (s : State) : Host.Outcome State Fault Refusal := readMicro (.next .u) s

/-- RD_NEXT_V (R101). -/
def execRdNextV (s : State) : Host.Outcome State Fault Refusal := readMicro (.next .v) s

/-- RD_CFG_MODE (R103). -/
def execRdCfgMode (s : State) : Host.Outcome State Fault Refusal := readMicro (.cfg .mode) s

/-- RD_CFG_XPOS (R103). -/
def execRdCfgXpos (s : State) : Host.Outcome State Fault Refusal := readMicro (.cfg .xpos) s

/-- RD_CFG_YPOS (R103). -/
def execRdCfgYpos (s : State) : Host.Outcome State Fault Refusal := readMicro (.cfg .ypos) s

/-- RD_CFG_XSIZE (R103). -/
def execRdCfgXsize (s : State) : Host.Outcome State Fault Refusal := readMicro (.cfg .xsize) s

/-- RD_CFG_YSIZE (R103). -/
def execRdCfgYsize (s : State) : Host.Outcome State Fault Refusal := readMicro (.cfg .ysize) s

/-- RD_CFG_XMEMSIZE (R103). -/
def execRdCfgXmemsize (s : State) : Host.Outcome State Fault Refusal := readMicro (.cfg .xmemsize) s

/-- RD_CFG_YMEMSIZE (R103). -/
def execRdCfgYmemsize (s : State) : Host.Outcome State Fault Refusal := readMicro (.cfg .ymemsize) s

/-- RD_CFG_XFACTOR (R103). -/
def execRdCfgXfactor (s : State) : Host.Outcome State Fault Refusal := readMicro (.cfg .xfactor) s

/-- RD_CFG_YFACTOR (R103). -/
def execRdCfgYfactor (s : State) : Host.Outcome State Fault Refusal := readMicro (.cfg .yfactor) s

/-- RD_CFG_COEFF (R103). -/
def execRdCfgCoeff (s : State) : Host.Outcome State Fault Refusal := readMicro (.cfg .coeff) s

/-- RD_CFG_XSTRIDE_Y (R103). -/
def execRdCfgXstrideY (s : State) : Host.Outcome State Fault Refusal := readMicro (.cfg .xstrideY) s

/-- RD_CFG_PSTRIDE_Y (R103). -/
def execRdCfgPstrideY (s : State) : Host.Outcome State Fault Refusal := readMicro (.cfg .pstrideY) s

/-- RD_CFG_XSTRIDE_U (R103). -/
def execRdCfgXstrideU (s : State) : Host.Outcome State Fault Refusal := readMicro (.cfg .xstrideU) s

/-- RD_CFG_PSTRIDE_U (R103). -/
def execRdCfgPstrideU (s : State) : Host.Outcome State Fault Refusal := readMicro (.cfg .pstrideU) s

/-- RD_CFG_XSTRIDE_V (R103). -/
def execRdCfgXstrideV (s : State) : Host.Outcome State Fault Refusal := readMicro (.cfg .xstrideV) s

/-- RD_CFG_PSTRIDE_V (R103). -/
def execRdCfgPstrideV (s : State) : Host.Outcome State Fault Refusal := readMicro (.cfg .pstrideV) s

/-- RD_SYNCSR (R104). -/
def execRdSyncsr (s : State) : Host.Outcome State Fault Refusal := readMicro .syncsr s

end Sys2Proof.Machine
end

