-- ==== Sys2Proof/Machine/RegisterWrites.lean ====
section
/-! DEFINITION. The register write micro-operations as they stand alone in the packet stream (40_register_access.md R85 to
R92, R102): each is issued as every WR of a controller operation is, and has no result code (log 13). -/

namespace Sys2Proof.Machine

/-- A WR that stands alone: plain, or synchronised when its register is in SYNC_REGS (R85, R102). -/
def writeMicro (r : WReg) (x : Word) (s : State) : Host.Outcome State Fault Refusal :=
  controllerStep s (s.runOp .micro [wrAct s.prm r x])

/-- WR_CHER (R86). -/
def execWrCher (x : Word) (s : State) : Host.Outcome State Fault Refusal := writeMicro .cher x s

/-- WR_CHDR (R87). -/
def execWrChdr (x : Word) (s : State) : Host.Outcome State Fault Refusal := writeMicro .chdr x s

/-- WR_IER (R88). -/
def execWrIer (x : Word) (s : State) : Host.Outcome State Fault Refusal := writeMicro .ier x s

/-- WR_IDR (R89). -/
def execWrIdr (x : Word) (s : State) : Host.Outcome State Fault Refusal := writeMicro .idr x s

/-- WR_HEAD_Y (R90). -/
def execWrHeadY (x : Word) (s : State) : Host.Outcome State Fault Refusal := writeMicro (.head .y) x s

/-- WR_HEAD_U (R90). -/
def execWrHeadU (x : Word) (s : State) : Host.Outcome State Fault Refusal := writeMicro (.head .u) x s

/-- WR_HEAD_V (R90). -/
def execWrHeadV (x : Word) (s : State) : Host.Outcome State Fault Refusal := writeMicro (.head .v) x s

/-- WR_CFG_MODE (R91). -/
def execWrCfgMode (x : Word) (s : State) : Host.Outcome State Fault Refusal := writeMicro (.cfg .mode) x s

/-- WR_CFG_XPOS (R91). -/
def execWrCfgXpos (x : Word) (s : State) : Host.Outcome State Fault Refusal := writeMicro (.cfg .xpos) x s

/-- WR_CFG_YPOS (R91). -/
def execWrCfgYpos (x : Word) (s : State) : Host.Outcome State Fault Refusal := writeMicro (.cfg .ypos) x s

/-- WR_CFG_XSIZE (R91). -/
def execWrCfgXsize (x : Word) (s : State) : Host.Outcome State Fault Refusal := writeMicro (.cfg .xsize) x s

/-- WR_CFG_YSIZE (R91). -/
def execWrCfgYsize (x : Word) (s : State) : Host.Outcome State Fault Refusal := writeMicro (.cfg .ysize) x s

/-- WR_CFG_XMEMSIZE (R91). -/
def execWrCfgXmemsize (x : Word) (s : State) : Host.Outcome State Fault Refusal := writeMicro (.cfg .xmemsize) x s

/-- WR_CFG_YMEMSIZE (R91). -/
def execWrCfgYmemsize (x : Word) (s : State) : Host.Outcome State Fault Refusal := writeMicro (.cfg .ymemsize) x s

/-- WR_CFG_XFACTOR (R91). -/
def execWrCfgXfactor (x : Word) (s : State) : Host.Outcome State Fault Refusal := writeMicro (.cfg .xfactor) x s

/-- WR_CFG_YFACTOR (R91). -/
def execWrCfgYfactor (x : Word) (s : State) : Host.Outcome State Fault Refusal := writeMicro (.cfg .yfactor) x s

/-- WR_CFG_COEFF (R91). -/
def execWrCfgCoeff (x : Word) (s : State) : Host.Outcome State Fault Refusal := writeMicro (.cfg .coeff) x s

/-- WR_CFG_XSTRIDE_Y (R91). -/
def execWrCfgXstrideY (x : Word) (s : State) : Host.Outcome State Fault Refusal := writeMicro (.cfg .xstrideY) x s

/-- WR_CFG_PSTRIDE_Y (R91). -/
def execWrCfgPstrideY (x : Word) (s : State) : Host.Outcome State Fault Refusal := writeMicro (.cfg .pstrideY) x s

/-- WR_CFG_XSTRIDE_U (R91). -/
def execWrCfgXstrideU (x : Word) (s : State) : Host.Outcome State Fault Refusal := writeMicro (.cfg .xstrideU) x s

/-- WR_CFG_PSTRIDE_U (R91). -/
def execWrCfgPstrideU (x : Word) (s : State) : Host.Outcome State Fault Refusal := writeMicro (.cfg .pstrideU) x s

/-- WR_CFG_XSTRIDE_V (R91). -/
def execWrCfgXstrideV (x : Word) (s : State) : Host.Outcome State Fault Refusal := writeMicro (.cfg .xstrideV) x s

/-- WR_CFG_PSTRIDE_V (R91). -/
def execWrCfgPstrideV (x : Word) (s : State) : Host.Outcome State Fault Refusal := writeMicro (.cfg .pstrideV) x s

end Sys2Proof.Machine
end

