-- ==== Sys2Proof/Machine/Dispatch.lean ====
section
/-! DEFINITION. One arm per instruction: the meaning it calls. -/

namespace Sys2Proof.Machine

def exec (i : Instr) (s : State) : Host.Outcome State Fault Refusal :=
  match i with
  | .sfmt tag w h => Sys2Proof.Machine.execSfmt tag w h s
  | .swin l t ww wh => Sys2Proof.Machine.execSwin l t ww wh s
  | .srot deg => Sys2Proof.Machine.execSrot deg s
  | .qbuf id base0 base1 base2 => Sys2Proof.Machine.execQbuf id base0 base1 base2 s
  | .streamon => Sys2Proof.Machine.execStreamon s
  | .streamoff => Sys2Proof.Machine.execStreamoff s
  | .irq => Sys2Proof.Machine.execIrq s
  | .barrier => Sys2Proof.Machine.execBarrier s
  | .wrCher x => Sys2Proof.Machine.execWrCher x s
  | .wrChdr x => Sys2Proof.Machine.execWrChdr x s
  | .wrIer x => Sys2Proof.Machine.execWrIer x s
  | .wrIdr x => Sys2Proof.Machine.execWrIdr x s
  | .wrHeadY x => Sys2Proof.Machine.execWrHeadY x s
  | .wrHeadU x => Sys2Proof.Machine.execWrHeadU x s
  | .wrHeadV x => Sys2Proof.Machine.execWrHeadV x s
  | .wrCfgMode x => Sys2Proof.Machine.execWrCfgMode x s
  | .wrCfgXpos x => Sys2Proof.Machine.execWrCfgXpos x s
  | .wrCfgYpos x => Sys2Proof.Machine.execWrCfgYpos x s
  | .wrCfgXsize x => Sys2Proof.Machine.execWrCfgXsize x s
  | .wrCfgYsize x => Sys2Proof.Machine.execWrCfgYsize x s
  | .wrCfgXmemsize x => Sys2Proof.Machine.execWrCfgXmemsize x s
  | .wrCfgYmemsize x => Sys2Proof.Machine.execWrCfgYmemsize x s
  | .wrCfgXfactor x => Sys2Proof.Machine.execWrCfgXfactor x s
  | .wrCfgYfactor x => Sys2Proof.Machine.execWrCfgYfactor x s
  | .wrCfgCoeff x => Sys2Proof.Machine.execWrCfgCoeff x s
  | .wrCfgXstrideY x => Sys2Proof.Machine.execWrCfgXstrideY x s
  | .wrCfgPstrideY x => Sys2Proof.Machine.execWrCfgPstrideY x s
  | .wrCfgXstrideU x => Sys2Proof.Machine.execWrCfgXstrideU x s
  | .wrCfgPstrideU x => Sys2Proof.Machine.execWrCfgPstrideU x s
  | .wrCfgXstrideV x => Sys2Proof.Machine.execWrCfgXstrideV x s
  | .wrCfgPstrideV x => Sys2Proof.Machine.execWrCfgPstrideV x s
  | .rdChsr => Sys2Proof.Machine.execRdChsr s
  | .rdImr => Sys2Proof.Machine.execRdImr s
  | .rdIsr => Sys2Proof.Machine.execRdIsr s
  | .rdHeadY => Sys2Proof.Machine.execRdHeadY s
  | .rdHeadU => Sys2Proof.Machine.execRdHeadU s
  | .rdHeadV => Sys2Proof.Machine.execRdHeadV s
  | .rdAddrY => Sys2Proof.Machine.execRdAddrY s
  | .rdAddrU => Sys2Proof.Machine.execRdAddrU s
  | .rdAddrV => Sys2Proof.Machine.execRdAddrV s
  | .rdCtrlY => Sys2Proof.Machine.execRdCtrlY s
  | .rdCtrlU => Sys2Proof.Machine.execRdCtrlU s
  | .rdCtrlV => Sys2Proof.Machine.execRdCtrlV s
  | .rdNextY => Sys2Proof.Machine.execRdNextY s
  | .rdNextU => Sys2Proof.Machine.execRdNextU s
  | .rdNextV => Sys2Proof.Machine.execRdNextV s
  | .rdCfgMode => Sys2Proof.Machine.execRdCfgMode s
  | .rdCfgXpos => Sys2Proof.Machine.execRdCfgXpos s
  | .rdCfgYpos => Sys2Proof.Machine.execRdCfgYpos s
  | .rdCfgXsize => Sys2Proof.Machine.execRdCfgXsize s
  | .rdCfgYsize => Sys2Proof.Machine.execRdCfgYsize s
  | .rdCfgXmemsize => Sys2Proof.Machine.execRdCfgXmemsize s
  | .rdCfgYmemsize => Sys2Proof.Machine.execRdCfgYmemsize s
  | .rdCfgXfactor => Sys2Proof.Machine.execRdCfgXfactor s
  | .rdCfgYfactor => Sys2Proof.Machine.execRdCfgYfactor s
  | .rdCfgCoeff => Sys2Proof.Machine.execRdCfgCoeff s
  | .rdCfgXstrideY => Sys2Proof.Machine.execRdCfgXstrideY s
  | .rdCfgPstrideY => Sys2Proof.Machine.execRdCfgPstrideY s
  | .rdCfgXstrideU => Sys2Proof.Machine.execRdCfgXstrideU s
  | .rdCfgPstrideU => Sys2Proof.Machine.execRdCfgPstrideU s
  | .rdCfgXstrideV => Sys2Proof.Machine.execRdCfgXstrideV s
  | .rdCfgPstrideV => Sys2Proof.Machine.execRdCfgPstrideV s
  | .rdSyncsr => Sys2Proof.Machine.execRdSyncsr s
  | .eFstart => Sys2Proof.Machine.execEFstart s
  | .eFetchY a => Sys2Proof.Machine.execEFetchY a s
  | .eFetchU a => Sys2Proof.Machine.execEFetchU a s
  | .eFetchV a => Sys2Proof.Machine.execEFetchV a s
  | .eFend => Sys2Proof.Machine.execEFend s
  | .eOvrY => Sys2Proof.Machine.execEOvrY s
  | .eOvrU => Sys2Proof.Machine.execEOvrU s
  | .eOvrV => Sys2Proof.Machine.execEOvrV s
  | .eSync => Sys2Proof.Machine.execESync s

end Sys2Proof.Machine
end

