-- ==== Sys2Proof/Machine/Schedule.lean ====
section
/-! DEFINITION. Which agent moves next, and how a packet is taken from the stream (00_scope.md R4; 45_engine.md R189, R190;
60_exceptions.md R199, R200; log 1, log 2, log 3). -/

namespace Sys2Proof.Machine

/-- Whether an instruction is an engine event (R68, R173). -/
def isEngineEvent (i : Instr) : Bool :=
  match i.head with
  | .eFstart => true
  | .eFetch _ => true
  | .eFend => true
  | .eOvr _ => true
  | .eSync => true
  | _ => false

/-- The frame step fairness obliges the engine to take, if one is enabled (R173, R189 (a)). -/
def State.frameStep (s : State) : Option Instr :=
  if s.e.fault.isSome then none
  else
    match s.e.phase with
    | .between => if s.e.chen then some .eFstart else none
    | .fetching => some .eFend

/-- What the engine does when it is its turn: the engine event at the head of the stream, or else the frame step it is
obliged to take (log 3). -/
def State.engineOffer (s : State) : Option (Instr × State) :=
  match decode s.stream with
  | .ok i rest =>
    if isEngineEvent i then some (i, { s with stream := rest }) else s.frameStep.map (fun j => (j, s))
  | .bad _ => s.frameStep.map (fun j => (j, s))

/-- What a step does next. -/
inductive Move where
  /-- run an instruction at a state -/
  | run (i : Instr) (s : State)
  /-- the controller operation in progress goes on -/
  | goOn (s : State)
  /-- the state is reached without running an instruction -/
  | settle (s : State)
  /-- the refusal mark is set: no agent has an enabled step (R194) -/
  | halt (r : RefuseReason)
deriving DecidableEq, Repr

/-- The refusal reason of a decoder verdict (R71, R194). -/
def DecodeError.reason (e : DecodeError) : RefuseReason :=
  match e with
  | .invalidEncoding => .invalidEncoding
  | .baseLayerUnspecified => .baseLayerUnspecified

/-- With the lock free: the packet at the head of the stream is taken; an invalid one is refused (R71). Where there is no
packet, an asserted interrupt line starts IRQ, else the engine takes its frame step, else nothing happens (R189; log 3). -/
def State.freeMove (s : State) : Move :=
  match s.stream with
  | [] =>
    if s.e.line then .run .irq s
    else
      match s.frameStep with
      | some i => .run i s
      | none => .settle s
  | w :: ws =>
    match decode (w :: ws) with
    | .ok i rest => .run i { s with stream := rest }
    | .bad e => .settle (s.refuse (DecodeError.reason e))

/-- Whether the operation in progress is at a wait point (R190). -/
def Busy.atWait (b : Busy) : Bool :=
  match b.acts with
  | [] => false
  | a :: _ => a.isWait

/-- The engine has had its turn since the last poll. -/
def State.markYielded (s : State) : State :=
  match s.c.busy with
  | none => s
  | some b => s.setC { s.c with busy := some { b with yielded := true } }

/-- With an operation in progress: the turns say who moves, and an engine turn counts only at a wait point where ATOMIC_OPS
is true (R190). Where the turns are used up, the engine moves once before each poll of a wait point, if it has anything
to do, and the controller moves otherwise (log 3). -/
def State.busyMove (s : State) (b : Busy) : Move :=
  match s.turns with
  | .controller :: rest => .goOn { s with turns := rest }
  | .engine :: rest =>
    let t := { s with turns := rest }
    if s.prm.atomicOps && !b.atWait then .goOn t
    else
      match t.engineOffer with
      | some (i, u) => .run i u.markYielded
      | none => .goOn t
  | [] =>
    if b.atWait && !b.yielded then
      match s.engineOffer with
      | some (i, u) => .run i u.markYielded
      | none => .goOn s
    else .goOn s

/-- What the next step does. -/
def nextMove (s : State) : Move :=
  match s.refused with
  | some r => .halt r
  | none =>
    match s.c.busy with
    | none => s.freeMove
    | some b => s.busyMove b

/-- The state with a packet where the next step takes it: it stands alone in the stream, no operation holds the lock and no
refusal mark is set (log 1). -/
def State.withPacket (s : State) (ws : List Word) : State :=
  { s with stream := ws, refused := none, c := { s.c with busy := none } }

end Sys2Proof.Machine
end

