-- ==== Sys2Proof/Machine/Step.lean ====
section
/-! DEFINITION. One step of the machine: the agent whose move is next moves (00_scope.md R4). -/

namespace Sys2Proof.Machine

/-- One step. -/
def step (s : State) : Host.Outcome State Fault Refusal :=
  match nextMove s with
  | .run i t => exec i t
  | .goOn t => .next t.resume
  | .settle t => .next t
  | .halt r => .refused (.halted r)

/-- The state whose next step takes the packet that stands at the head of an opcode-table word, and nothing else
(log 1). -/
def State.withFetchWord (s : State) (nbits w : Nat) : State := s.withPacket (tablePacket nbits w)

end Sys2Proof.Machine
end

