-- ==== Sys2Proof/Safety.lean ====
section
/-! DEFINITION. What counts as a safe run and a good end (00_scope.md R19; 60_exceptions.md R194, R195), the duties a program
keeps (70_reset_and_hazards.md R223, R237), the invariants, and the premises the statements share. -/

namespace Sys2Proof.Machine

/-! ## Premises -/

/-- The controller may start an operation: no refusal mark, the lock free (R46, R194). -/
def State.ready (s : State) : Prop := s.refused = none ∧ s.c.busy = none

/-- The engine may step: no refusal mark, no fault recorded (R194, R195). -/
def State.engineReady (s : State) : Prop := s.refused = none ∧ s.e.fault = none

/-- Every event of an operation follows at once, wait points apart: the turns place no engine step inside it, or ATOMIC_OPS
lets none be placed (R190, R224; log 2). -/
def State.unsplit (s : State) : Prop := s.prm.atomicOps = true ∨ s.turns = []

/-- No register waits for synchronisation, R8's example set, and operations are not split: the only wait point left is
STREAMOFF's (R190). -/
def State.plain (s : State) : Prop := s.prm.syncRegs = [] ∧ s.unsplit

/-! ## Good ends (R19) -/

/-- The premise of every claim: `refused = none` and `E.fault = none` (R194, R195). -/
def State.sound (s : State) : Prop := s.refused = none ∧ s.e.fault = none

/-- Quiescent: no operation in progress, no interrupt pending, the engine stopped (R19). -/
def State.quiescent (s : State) : Prop := s.c.busy = none ∧ s.e.line = false ∧ s.e.chen = false

/-- A good end of a run: no packet left, quiescent, neither refused nor faulted (R19). -/
def State.goodEnd (s : State) : Prop := s.stream = [] ∧ s.quiescent ∧ s.sound

/-! ## Duties -/

/-- The barrier duty: no HEAD of a plane the next latched frame loads points at a descriptor with a word written after the
last BARRIER (R223). -/
def State.barrierKept (s : State) : Prop :=
  ∀ p : Plane, p.index < np s.prm s.e.shadow.mode →
    unpublished s.unpub (s.e.head.get p) = false
      ∧ unpublished s.unpub (s.e.head.get p + 4#32) = false
      ∧ unpublished s.unpub (s.e.head.get p + 8#32) = false

/-- No plane region of a buffer overlaps a register block: the host duty of R51, which no check enforces (log 22). R51 gives
the bases and an index map with reserved holes, and not how far a block extends: here a block is the words of the named
registers alone, so a region in reserved indices (0x1C to 0x3F, say) counts as clear. DESIGN CHOICE (log 26). -/
def Buffer.clearOfRegisters (prm : Params) (b : Buffer) : Prop :=
  ∀ g ∈ b.regions prm,
    (∀ r : WReg, ¬ (g.lo < (WReg.byteAddr prm r).toNat + 4 ∧ (WReg.byteAddr prm r).toNat < g.hi))
      ∧ ∀ r : RReg, ¬ (g.lo < (RReg.byteAddr prm r).toNat + 4 ∧ (RReg.byteAddr prm r).toNat < g.hi)

/-! ## Invariants -/

/-- What the engine's registers keep: IMR and ISR hold bits of IMASK only (R43, R44), and a stopped channel has no disable
pending and is between frames (R154, R173, R176). -/
def Engine.inv (e : Engine) : Prop :=
  within e.imr imask = true ∧ within e.isr imask = true
    ∧ (e.chen = false → e.dispend = false ∧ e.phase = .between)

/-- The word an action writes, or waits to write, to MODE. -/
def Act.modeWord (a : Act) : Option Word :=
  match a with
  | .wr (.cfg .mode) x => some x
  | .poll (.cfg .mode) x _ => some x
  | .wrs (.cfg .mode) x => some x
  | _ => none

/-- What the controller's fields keep: a format has positive sizes and a supported tag (R24, R143), the window's four fields
are signed 32-bit integers (R26), and an operation in progress, but a WR that stands alone (log 13), writes only supported
tags to MODE (R134, R177). -/
def Controller.inv (prm : Params) (c : Controller) : Prop :=
  (∀ f, c.fmt = some f → 0 < f.w ∧ 0 < f.h ∧ formatOf prm f.tag ≠ none)
    ∧ (inS32 c.win.left = true ∧ inS32 c.win.top = true ∧ inS32 c.win.width = true ∧ inS32 c.win.height = true)
    ∧ ∀ o, c.busy = some o → o.op ≠ .micro → ∀ a ∈ o.acts, ∀ x, a.modeWord = some x → formatOf prm x ≠ none

/-- The invariant every step keeps: memory in canonical form, the engine's and the controller's fields as above. -/
def State.inv (s : State) : Prop := Memory.wf s.mem = true ∧ s.e.inv ∧ s.c.inv s.prm

/-- The id of the buffer an action of QBUF still carries (R152). -/
def Act.pendingId (a : Act) : Option Word :=
  match a with
  | .qbufGo b => some b.id
  | .qbufChsr b => some b.id
  | .qbufAddr b _ => some b.id
  | .advance b _ => some b.id
  | _ => none

/-- The ids of the buffers an operation in progress has admitted and not yet placed. -/
def Controller.pendingIds (c : Controller) : List Word :=
  match c.busy with
  | none => []
  | some b => b.acts.filterMap Act.pendingId

/-- The ids in the two slots. -/
def Controller.heldIds (c : Controller) : List Word := (c.cur.map Buffer.id).toList ++ (c.nxt.map Buffer.id).toList

/-- The ids of every buffer QBUF has admitted and that is still known: in the completion log, carried by the operation in
progress, or in a slot (R30 (b)). -/
def Controller.knownIds (c : Controller) : List Word := c.log.map Prod.fst ++ c.pendingIds ++ c.heldIds

/-- Held and admitted buffers have distinct ids (R30 (a), R151). -/
def Controller.idsDistinct (c : Controller) : Prop := (c.pendingIds ++ c.heldIds).Nodup

/-- Each active plane's DMA address register is in the last frame's fetch set, or holds the frame's start address where
that set is empty (R180). -/
def State.addrsInFrame (s : State) : Prop :=
  ∀ p : Plane, p.index < np s.prm s.e.active.mode →
    s.e.inFetchSet s.prm p (s.e.addr.get p)
      ∨ ((∀ a, ¬ s.e.inFetchSet s.prm p a) ∧ s.e.addr.get p = s.e.addr0.get p)

/-- Which operation an action belongs to: only QBUF shows, advances and sets ChannelState to Running, only STREAMOFF
quiesces and sets it to Idle, only IRQ takes the interrupt's decisions (R152, R163, R165, R166). -/
def Act.fits (op : OpName) (a : Act) : Bool :=
  match a with
  | .wr _ _ => true
  | .poll _ _ _ => true
  | .wrs _ _ => true
  | .rd _ => true
  | .memWrite _ _ => true
  | .barrier => true
  | .setCfg _ => op == .qbuf || op == .swin
  | .setChan x => op == .qbuf && x == .running
  | .badChsr => op == .qbuf || op == .swin
  | .recoverChsr => op == .qbuf || op == .swin
  | .qbufGo _ => op == .qbuf
  | .qbufChsr _ => op == .qbuf
  | .qbufAddr _ _ => op == .qbuf
  | .advance _ _ => op == .qbuf
  | .offChsr => op == .streamoff
  | .offPoll => op == .streamoff
  | .offFlush => op == .streamoff
  | .offEnd => op == .streamoff
  | .irqChsr => op == .irq
  | .irqAddr => op == .irq
  | .finish _ => op.isHost

/-- The operation in progress holds only actions of its own. -/
def Controller.actsFit (c : Controller) : Prop := ∀ b, c.busy = some b → ∀ a ∈ b.acts, a.fits b.op = true

/-! ## Where descriptors are stored (R111, R113) -/

/-- Byte k belongs to the twelve of a descriptor of buffer b: those from `descAddr` of an active plane on (R80, R111). -/
def Buffer.inTrailer (prm : Params) (b : Buffer) (k : Nat) : Prop :=
  ∃ p : Plane, p.index < np prm b.fmt.tag ∧ ∃ j < 12, k = byteKey (b.descAddr prm p) j

/-- The buffer an action still carries. -/
def Act.carries (a : Act) : Option Buffer :=
  match a with
  | .qbufGo b => some b
  | .qbufChsr b => some b
  | .qbufAddr b _ => some b
  | .advance b _ => some b
  | _ => none

/-- The buffers whose descriptors an instruction may build: the current one (R141) and, for a QBUF, its own (R152). -/
def State.mayBuild (s : State) (i : Instr) (b : Buffer) : Prop :=
  s.c.cur = some b
    ∨ ∃ id base0 base1 base2 f,
        i = .qbuf id base0 base1 base2 ∧ s.c.fmt = some f ∧ b = newBuffer s.prm f id base0 base1 base2

/-- The buffers whose descriptors the operation in progress may build: the current one and those it carries. -/
def Controller.mayBuild (c : Controller) (b : Buffer) : Prop :=
  c.cur = some b ∨ ∃ o, c.busy = some o ∧ ∃ a ∈ o.acts, a.carries = some b

/-- An action of Recompute before its recovery test: a register write or its poll (R138). -/
def Act.isWrite (a : Act) : Bool :=
  match a with
  | .wr _ _ => true
  | .poll _ _ _ => true
  | .wrs _ _ => true
  | _ => false

/-- An action that stores to memory, or that builds the current buffer's descriptors: the recovery test (R141). -/
def Act.isStore (a : Act) : Bool :=
  match a with
  | .memWrite _ _ => true
  | .recoverChsr => true
  | _ => false

/-- The stores of the operation in progress come first, each into a descriptor of the current buffer or of one that it
carries (R113); or the operation is before the recovery test of a Recompute and has none (R141). -/
def Controller.storesFit (prm : Params) (c : Controller) : Prop :=
  ∀ o, c.busy = some o → ∃ first rest, o.acts = first ++ rest ∧ (∀ a ∈ rest, a.isStore = false)
    ∧ ((∃ ws, first = ws ++ [.recoverChsr] ∧ ∀ a ∈ ws, a.isWrite = true)
      ∨ ∀ a ∈ first, ∃ b d x, c.mayBuild b ∧ a = .memWrite d x ∧ ∀ j < 4, b.inTrailer prm (byteKey d j))

/-! ## What a retirement leaves in the log (R159) -/

/-- The entry of the buffer in a slot, if there is one. -/
def slotEntry (slot : Option Buffer) (st : Status) : List (Word × Status) :=
  match slot with
  | none => []
  | some b => [(b.id, st)]

/-! ## What a build leaves in memory (R113) -/

/-- One descriptor in memory: three words (R80, R113). -/
def storeDescriptor (prm : Params) (rot : Rotation) (b : Buffer) (m : Memory) (p : Plane) : Memory :=
  let d := b.descAddr prm p
  Memory.writeWord (Memory.writeWord (Memory.writeWord m d (b.addrWord prm rot p)) (d + 4#32) (ctrlWord p)) (d + 8#32) d

/-- BuildDescriptors as a change of memory: the active planes in order (R113). -/
def storeDescriptors (prm : Params) (rot : Rotation) (b : Buffer) (m : Memory) : Memory :=
  (b.planes prm).foldl (storeDescriptor prm rot b) m

/-- The events of BuildDescriptors, in the order of R113. -/
def buildEvents (prm : Params) (rot : Rotation) (b : Buffer) : List MicroEvent :=
  (b.planes prm).flatMap
    (fun p => [.memWrite (b.descAddr prm p) (b.addrWord prm rot p), .memWrite (b.descAddr prm p + 4#32) (ctrlWord p),
      .memWrite (b.descAddr prm p + 8#32) (b.descAddr prm p)])

/-- The events of the sixteen CFG writes, in field order (R155). -/
def cfgEvents (g : Cfg) : List MicroEvent := allFields.map (fun f => .wr (.cfg f) (g.get f))

/-- The events of WriteHeads (R155). -/
def headEvents (prm : Params) (b : Buffer) : List MicroEvent := (b.planes prm).map (fun p => .wr (.head p) (b.desc.get p))

/-- The HEAD registers after WriteHeads (R155). -/
def headsOf (prm : Params) (b : Buffer) (h : Planes Word) : Planes Word :=
  (b.planes prm).foldl (fun x p => x.set p (b.desc.get p)) h

end Sys2Proof.Machine
end

