-- ==== Sys2Proof/Certificates/Slice0/Obligations.lean ====
section
/-! DEFINITION. The statements for the provers. Each docstring names the rule of spec/ it formalises; a clause that rests on a
choice of the model names its log entry. In every statement the fields `stream`, `turns`, `unpub` and `fresh` are the model's
own (log 1, log 2, log 8, log 19), and `results` and `trace` are its records of what R18 lets one observe (log 16). -/

open Sys2Proof Sys2Proof.Machine

/-! ## Encoding (30_encoding.md) -/

/-- R65 to R69, R83: the packet of a well-formed instruction decodes to it, whatever follows. -/
def Obligations.EncodedPacketDecodesToItself : Prop :=
  ∀ (i : Instr) (rest : List Word), i.wf = true → decode (encode i ++ rest) = .ok i rest

/-- R65 to R69, R83: words that decode are the packet of a well-formed instruction and what follows it, so every packet has
one spelling. -/
def Obligations.DecodedWordsAreThePacket : Prop :=
  ∀ (ws : List Word) (i : Instr) (rest : List Word), decode ws = .ok i rest → i.wf = true ∧ ws = encode i ++ rest

/-- R70, R71, R83: the verdict BaseLayerUnspecified is that of a header whose zero bits are zero, whose op is listed and whose
chan is 0; every other sequence that is no packet is InvalidEncoding. -/
def Obligations.DecoderVerdicts : Prop :=
  let base : List Word → Prop := fun ws =>
    ∃ w0 operands, ws = w0 :: operands ∧ w0.extractLsb' 12 4 = 0#4 ∧ w0.extractLsb' 24 8 = 0#8
      ∧ w0.extractLsb' 8 4 = 0#4
      ∧ (w0.extractLsb' 0 8).toNat ∈ [0x01, 0x02, 0x03, 0x04, 0x05, 0x06, 0x07, 0x10, 0x11, 0x12, 0x20, 0x21, 0x22, 0x23, 0x24]
  ∀ ws : List Word,
    (decode ws = .bad .baseLayerUnspecified ↔ base ws)
      ∧ (decode ws = .bad .invalidEncoding ↔ ¬ base ws ∧ ¬ ∃ i rest, i.wf = true ∧ ws = encode i ++ rest)

/-- R66, R68, R69, R84: words written out from the tables, one per family, and what they stand for. -/
def Obligations.WrittenWordsDecode : Prop :=
  decode [0x00000101#32, 0#32, 640#32, 480#32] = .ok (.sfmt 0#32 640 480) []
    ∧ decode [0x00000102#32, 0xFFFFFFF6#32, 0#32, 100#32, 50#32] = .ok (.swin (-10) 0 100 50) []
    ∧ decode [0x00000104#32, 7#32, 0x20000000#32, 0x20050000#32, 0x20070000#32]
        = .ok (.qbuf 7#32 0x20000000#32 0x20050000#32 0x20070000#32) []
    ∧ decode [0x00000107#32] = .ok .irq []
    ∧ decode [0x00000112#32] = .ok .barrier []
    ∧ decode [0x00180110#32, 0x1000#32] = .ok (.wrHeadV 0x1000#32) []
    ∧ decode [0x004A0110#32, 5#32] = .ok (.wrCfgXstrideY 5#32) []
    ∧ decode [0x00150111#32] = .ok .rdAddrU []
    ∧ decode [0x00000F11#32] = .ok .rdSyncsr []
    ∧ decode [0x00020121#32, 0x20000010#32] = .ok (.eFetchV 0x20000010#32) []
    ∧ decode [0x00000F24#32] = .ok .eSync []

/-! ## Reset (10_state.md R48, 70_reset_and_hazards.md R217) -/

/-- R48: every field after reset, for each value of the parameters and each draw of the unspecified ones. -/
def Obligations.ResetLeavesTheStatedValues : Prop :=
  ∀ (prm : Params) (d : Draws),
    let s := State.afterReset prm d
    s.c.cfg = .good ∧ s.c.chan = .idle ∧ s.c.streaming = false ∧ s.c.fmt = none ∧ s.c.dirty = false
      ∧ s.c.win = { left := 0, top := 0, width := prm.displayW, height := prm.displayH } ∧ s.c.rot.degrees = 0
      ∧ s.c.log = [] ∧ s.c.cur = none ∧ s.c.nxt = none ∧ s.c.busy = none
      ∧ s.e.chen = false ∧ s.e.updpend = false ∧ s.e.dispend = false ∧ s.e.phase = .between
      ∧ s.e.imr = 0#32 ∧ s.e.isr = 0#32 ∧ s.e.sipsts = false
      ∧ s.e.head = d.head ∧ s.e.addr = d.addr ∧ s.e.ctrl = d.ctrl ∧ s.e.next = d.next ∧ s.e.addr0 = d.addr0
      ∧ s.e.dload = d.dload ∧ s.e.shadow = d.shadow ∧ s.e.active = d.active ∧ s.mem = d.mem
      ∧ s.refused = none ∧ s.e.fault = none

/-- R217: after reset nothing is in progress, the line is low, no engine event is enabled, and neither is IRQ. -/
def Obligations.NothingIsEnabledAfterReset : Prop :=
  ∀ (prm : Params) (d : Draws) (i : Instr), isEngineEvent i = true ∨ i = .irq →
    (State.afterReset prm d).c.busy = none ∧ (State.afterReset prm d).e.line = false
      ∧ exec i (State.afterReset prm d) = .refused .notEnabled

/-! ## The step (00_scope.md R4, 45_engine.md R190, 60_exceptions.md R194, R195, R199) -/

/-- R4, R65: with the lock free, a step runs the packet at the head of the stream at the state with that packet taken. That
packets stand in a stream is the model's choice (log 1). -/
def Obligations.StepRunsTheDecodedPacket : Prop :=
  ∀ (s : State) (i : Instr) (rest : List Word), s.ready → decode s.stream = .ok i rest →
    step s = exec i { s with stream := rest }

/-- R190, R224: inside an operation, where ATOMIC_OPS is false or at a wait point, an engine turn runs the engine event at the
head of the stream. The turns are the model's choice (log 2). -/
def Obligations.StepRunsAnEngineEventInsideAnOperation : Prop :=
  ∀ (s : State) (b : Busy) (i : Instr) (rest : List Word) (ts : List Turn),
    s.refused = none → s.c.busy = some b → s.turns = .engine :: ts → decode s.stream = .ok i rest →
    isEngineEvent i = true → (s.prm.atomicOps = false ∨ b.atWait = true) →
    step s
      = exec i
          { s with
            stream := rest
            turns := ts
            c := { s.c with busy := some { b with yielded := true } } }

/-- R70, R71, R194: words that are no packet are refused with the decoder's reason, and nothing else changes; after a refusal
no agent has an enabled step, which the model answers as refused with `halted` (log 10). -/
def Obligations.RefusalEndsTheRun : Prop :=
  (∀ s : State, s.ready → s.stream ≠ [] →
      (decode s.stream = .bad .invalidEncoding → step s = .next { s with refused := some .invalidEncoding })
        ∧ (decode s.stream = .bad .baseLayerUnspecified →
            step s = .next { s with refused := some .baseLayerUnspecified }))
    ∧ ∀ (s : State) (r : RefuseReason), s.refused = some r →
        step s = .refused (.halted r) ∧ ∀ i : Instr, exec i s = .refused (.halted r)

/-- R46, R199: while an operation holds the lock no other host operation starts, and no IRQ. That a BARRIER, WR or RD packet that
stands alone is a controller operation under the lock too is the model's choice (log 13, DESIGN CHOICE), and that an operation
asked for then is refused with `lockHeld` its reading of R46 (log 11, DEDUCED). -/
def Obligations.LockExcludesControllerOperations : Prop :=
  ∀ (s : State) (i : Instr), s.refused = none → s.c.busy ≠ none → isEngineEvent i = false →
    exec i s = .refused .lockHeld

/-- R195: after an engine fault no engine event is taken, and the fault record stays. -/
def Obligations.FaultedEngineIsStuck : Prop :=
  (∀ (s : State) (f : EngineFault) (i : Instr), s.refused = none → s.e.fault = some f → isEngineEvent i = true →
      exec i s = .fault (.engineStuck f))
    ∧ ∀ (s t : State) (f : EngineFault), s.e.fault = some f → step s = .next t → t.e.fault = some f

/-- R173, R199: when each engine step is enabled, and that none is in any other state; and that IRQ starts exactly when the line
is asserted, the lock being free. One asked for where it is not enabled is refused with `notEnabled` (log 11). -/
def Obligations.EventsAreEnabledExactly : Prop :=
  (∀ s : State, s.ready →
      (s.e.isr &&& s.e.imr = 0#32 → exec .irq s = .refused .notEnabled)
        ∧ (s.e.isr &&& s.e.imr ≠ 0#32 → ∃ t, exec .irq s = .next t))
    ∧ ∀ s : State, s.engineReady →
    (if s.e.chen = true ∧ s.e.phase = .between then ∃ t, exec .eFstart s = .next t
      else exec .eFstart s = .refused .notEnabled)
    ∧ (∀ (p : Plane) (a : Word),
        ((s.e.phase = .fetching ∧ p.index < np s.prm s.e.active.mode ∧ (s.e.ctrl.get p).getLsbD 0 = true
            ∧ s.e.inFetchSet s.prm p a) →
          ∃ t, exec (Instr.ofFetch p a) s = .next t)
        ∧ (¬ (s.e.phase = .fetching ∧ p.index < np s.prm s.e.active.mode ∧ (s.e.ctrl.get p).getLsbD 0 = true
            ∧ s.e.inFetchSet s.prm p a) →
          exec (Instr.ofFetch p a) s = .refused .notEnabled))
    ∧ (if s.e.phase = .fetching then ∃ t, exec .eFend s = .next t else exec .eFend s = .refused .notEnabled)
    ∧ (∀ p : Plane,
        if s.e.phase = .fetching ∧ p.index < np s.prm s.e.active.mode then ∃ t, exec (Instr.ofOvr p) s = .next t
        else exec (Instr.ofOvr p) s = .refused .notEnabled)
    ∧ (if s.e.sipsts = true then ∃ t, exec .eSync s = .next t else exec .eSync s = .refused .notEnabled)

/-! ## What every step keeps -/

/-- R24, R26, R43, R44, R154, R173, R177: the invariant of memory, engine and controller fields, and of what operations write
to MODE: supported tags only. -/
def Obligations.StepKeepsTheStateInvariant : Prop :=
  ∀ s t : State, s.inv → step s = .next t → t.inv

/-- R48: reset meets the invariants, for parameters and draws that fit. -/
def Obligations.ResetMeetsTheInvariants : Prop :=
  ∀ (prm : Params) (d : Draws), prm.displayW < 2 ^ 31 → prm.displayH < 2 ^ 31 → Memory.wf d.mem = true →
    (State.afterReset prm d).inv ∧ (State.afterReset prm d).c.idsDistinct ∧ (State.afterReset prm d).c.actsFit
      ∧ (State.afterReset prm d).c.storesFit prm

/-- R30 (a), R151: held and admitted buffers keep distinct ids. -/
def Obligations.StepKeepsBufferIdsDistinct : Prop :=
  ∀ s t : State, s.c.idsDistinct → step s = .next t → t.c.idsDistinct

/-- R30 (b), R193: without timeouts and refusals no buffer is lost or doubled: a step that runs a QBUF adds that QBUF's buffer
to those known, and every other step only moves buffers between the operation in progress, the slots and the log. -/
def Obligations.NoBufferIsLostOrDoubled : Prop :=
  ∀ s t : State, s.prm.syncWait = .unbounded → step s = .next t → t.refused = none →
    (∀ id base0 base1 base2 u, nextMove s = .run (.qbuf id base0 base1 base2) u →
        t.c.knownIds.Perm (id :: s.c.knownIds))
      ∧ ((∀ id base0 base1 base2 u, nextMove s ≠ .run (.qbuf id base0 base1 base2) u) →
        t.c.knownIds.Perm s.c.knownIds)

/-- R180: every step that records no engine fault keeps each active plane's ADDR in the last frame's fetch set, and a frame
start that enters a frame puts it there. -/
def Obligations.AddressesStayInTheFrame : Prop :=
  (∀ s t : State, s.addrsInFrame → step s = .next t → t.e.fault = none → t.addrsInFrame)
    ∧ ∀ s t : State, exec .eFstart s = .next t → t.e.phase = .fetching → t.addrsInFrame

/-- R28: the completion log only grows, at its end. -/
def Obligations.CompletionLogOnlyGrows : Prop :=
  ∀ s t : State, step s = .next t → s.c.log <+: t.c.log

/-- R42, R182: ACTIVE changes only at an E_FSTART with UPDPEND set, to the whole of SHADOW; and no step during a frame changes
ACTIVE or a plane's loaded descriptor. -/
def Obligations.ActiveChangesOnlyAtALatch : Prop :=
  ∀ s t : State, step s = .next t →
    (t.e.active ≠ s.e.active →
        (∃ u, nextMove s = .run .eFstart u) ∧ s.e.updpend = true ∧ s.e.phase = .between ∧ t.e.active = s.e.shadow)
      ∧ (s.e.phase = .fetching →
          t.e.active = s.e.active ∧ t.e.ctrl = s.e.ctrl ∧ t.e.next = s.e.next ∧ t.e.addr0 = s.e.addr0
            ∧ t.e.dload = s.e.dload)

/-- R183, R186, R187: an engine event changes no memory, no controller state, no HEAD, SHADOW, IMR or fault-free mark of
another agent, and clears no ISR bit. -/
def Obligations.EngineEventsKeepWhatIsNotTheirs : Prop :=
  ∀ (s t : State) (i : Instr), isEngineEvent i = true → exec i s = .next t →
    t.mem = s.mem ∧ t.c = s.c ∧ t.prm = s.prm ∧ t.refused = s.refused ∧ t.results = s.results ∧ t.trace = s.trace
      ∧ t.stream = s.stream ∧ t.turns = s.turns ∧ t.unpub = s.unpub
      ∧ t.e.head = s.e.head ∧ t.e.shadow = s.e.shadow ∧ t.e.imr = s.e.imr ∧ s.e.isr &&& t.e.isr = s.e.isr

/-- R62, R187: no controller operation changes ACTIVE, ADDR, CTRL, NEXT, ADDR0, DLOAD, the phase or the fault record, clears
CHEN, DISPEND, UPDPEND or SIPSTS, or sets an ISR bit; none but QBUF and SWIN changes memory; and every byte outside the
descriptors of the current buffer and of a QBUF's own buffer (R80, R111, R113) reads as before. The same holds, over every
state whose pending stores fit, of every step, one in which an operation goes on among them, and such states are kept. -/
def Obligations.ControllerOperationsKeepWhatIsNotTheirs : Prop :=
  (∀ (s t : State) (i : Instr), isEngineEvent i = false → exec i s = .next t →
    t.prm = s.prm ∧ t.e.active = s.e.active ∧ t.e.addr = s.e.addr ∧ t.e.ctrl = s.e.ctrl ∧ t.e.next = s.e.next
      ∧ t.e.addr0 = s.e.addr0 ∧ t.e.dload = s.e.dload ∧ t.e.phase = s.e.phase ∧ t.e.fault = s.e.fault
      ∧ (s.e.chen = true → t.e.chen = true) ∧ (s.e.dispend = true → t.e.dispend = true)
      ∧ (s.e.updpend = true → t.e.updpend = true) ∧ (s.e.sipsts = true → t.e.sipsts = true)
      ∧ (t.e.isr = s.e.isr ∨ t.e.isr = 0#32)
      ∧ ((∀ id base0 base1 base2, i ≠ .qbuf id base0 base1 base2) → (∀ l tp ww wh, i ≠ .swin l tp ww wh) →
          t.mem = s.mem)
      ∧ ∀ k, (∀ b, s.mayBuild i b → ¬ b.inTrailer s.prm k) → Memory.read t.mem k = Memory.read s.mem k)
    ∧ ∀ s t : State, s.c.storesFit s.prm → step s = .next t →
        t.c.storesFit t.prm
          ∧ ∀ k, (∀ b, (s.c.mayBuild b ∨ ∃ i u, nextMove s = .run i u ∧ s.mayBuild i b) → ¬ b.inTrailer s.prm k) →
              Memory.read t.mem k = Memory.read s.mem k

/-- R22, R165: ChannelState changes only to Running in a QBUF and to Idle in a STREAMOFF, whatever step of theirs it is. -/
def Obligations.OnlyQbufAndStreamoffChangeChannelState : Prop :=
  ∀ s t : State, s.c.actsFit → step s = .next t →
    t.c.actsFit
      ∧ (t.c.chan ≠ s.c.chan →
          (t.c.chan = .running
              ∧ ((∃ id base0 base1 base2 u, nextMove s = .run (.qbuf id base0 base1 base2) u)
                ∨ ∃ b, s.c.busy = some b ∧ b.op = .qbuf))
            ∨ (t.c.chan = .idle
                ∧ ((∃ u, nextMove s = .run .streamoff u) ∨ ∃ b, s.c.busy = some b ∧ b.op = .streamoff)))

/-! ## Register writes (40_register_access.md) -/

/-- R86: WR_CHER. -/
def Obligations.ChannelEnableWrite : Prop :=
  (∀ x : Word, encode (.wrCher x) = [0x00000110#32, x])
    ∧ ∀ (s : State) (x : Word), s.ready → .cher ∉ s.prm.syncRegs →
      (x &&& ~~~0x3#32 ≠ 0#32 → exec (.wrCher x) s = .next { s with refused := some .reservedBit })
        ∧ (x &&& ~~~0x3#32 = 0#32 → x.getLsbD 0 = true → s.e.chen = true → s.e.dispend = true →
            exec (.wrCher x) s = .next { s with refused := some .enableWhileDisabling })
        ∧ (x &&& ~~~0x3#32 = 0#32 → ¬ (x.getLsbD 0 = true ∧ s.e.chen = true ∧ s.e.dispend = true) →
            exec (.wrCher x) s
              = .next
                  { s with
                    e := { s.e with chen := s.e.chen || x.getLsbD 0, updpend := s.e.updpend || x.getLsbD 1 }
                    trace := s.trace ++ [.wr .cher x] })

/-- R87: WR_CHDR. -/
def Obligations.ChannelDisableWrite : Prop :=
  (∀ x : Word, encode (.wrChdr x) = [0x00010110#32, x])
    ∧ ∀ (s : State) (x : Word), s.ready → .chdr ∉ s.prm.syncRegs →
      (x &&& ~~~0x1#32 ≠ 0#32 → exec (.wrChdr x) s = .next { s with refused := some .reservedBit })
        ∧ (x &&& ~~~0x1#32 = 0#32 →
            exec (.wrChdr x) s
              = .next
                  { s with
                    e := { s.e with dispend := s.e.dispend || (x.getLsbD 0 && s.e.chen) }
                    trace := s.trace ++ [.wr .chdr x] })

/-- R88, R89: WR_IER and WR_IDR. -/
def Obligations.InterruptMaskWrites : Prop :=
  (∀ x : Word, encode (.wrIer x) = [0x00030110#32, x] ∧ encode (.wrIdr x) = [0x00040110#32, x])
    ∧ ∀ (s : State) (x : Word), s.ready →
      (.ier ∉ s.prm.syncRegs → x &&& ~~~0x007C7C7C#32 ≠ 0#32 →
          exec (.wrIer x) s = .next { s with refused := some .reservedBit })
        ∧ (.ier ∉ s.prm.syncRegs → x &&& ~~~0x007C7C7C#32 = 0#32 →
            exec (.wrIer x) s
              = .next { s with e := { s.e with imr := s.e.imr ||| x }, trace := s.trace ++ [.wr .ier x] })
        ∧ (.idr ∉ s.prm.syncRegs → x &&& ~~~0x007C7C7C#32 ≠ 0#32 →
            exec (.wrIdr x) s = .next { s with refused := some .reservedBit })
        ∧ (.idr ∉ s.prm.syncRegs → x &&& ~~~0x007C7C7C#32 = 0#32 →
            exec (.wrIdr x) s
              = .next { s with e := { s.e with imr := s.e.imr &&& ~~~x }, trace := s.trace ++ [.wr .idr x] })

/-- R90, R91: WR_HEAD of each plane and WR_CFG of each field. -/
def Obligations.HeadAndShadowWrites : Prop :=
  (∀ x : Word, encode (.wrHeadY x) = [0x00100110#32, x] ∧ encode (.wrHeadU x) = [0x00140110#32, x]
      ∧ encode (.wrHeadV x) = [0x00180110#32, x])
    ∧ (∀ (f : CfgField) (x : Word),
        encode (Instr.ofWr (.cfg f) x) = [0x00400110#32 + (BitVec.ofNat 32 f.index <<< 16), x])
    ∧ (∀ (s : State) (p : Plane) (x : Word), s.ready → .head p ∉ s.prm.syncRegs →
        (x.toNat % 4 ≠ 0 → exec (Instr.ofWr (.head p) x) s = .next { s with refused := some .misalignedHead })
          ∧ (x.toNat % 4 = 0 →
              exec (Instr.ofWr (.head p) x) s
                = .next { s with e := { s.e with head := s.e.head.set p x }, trace := s.trace ++ [.wr (.head p) x] }))
    ∧ ∀ (s : State) (f : CfgField) (x : Word), s.ready → .cfg f ∉ s.prm.syncRegs →
        exec (Instr.ofWr (.cfg f) x) s
          = .next { s with e := { s.e with shadow := s.e.shadow.set f x }, trace := s.trace ++ [.wr (.cfg f) x] }

/-- R85, R102: a WR of a register of SYNC_REGS. SIPSTS = 0: one poll, then the write, which sets SIPSTS, or the refusal of the
register's rule. SIPSTS = 1: one poll, and the operation waits for the next, or ends where the bound is reached; a WR that
stands alone has no result code (log 13). -/
def Obligations.SynchronisedWrite : Prop :=
  ∀ (s : State) (r : WReg) (x : Word), s.ready → s.unsplit → r ∈ s.prm.syncRegs →
    (∀ e : Engine, s.e.sipsts = false → s.e.write r x = .ok e →
        exec (Instr.ofWr r x) s
          = .next { s with e := { e with sipsts := true }, trace := s.trace ++ [.rd .syncsr 0#32, .wr r x] })
      ∧ (∀ reason : RefuseReason, s.e.sipsts = false → s.e.write r x = .error reason →
          exec (Instr.ofWr r x) s = .next { s with refused := some reason, trace := s.trace ++ [.rd .syncsr 0#32] })
      ∧ (s.e.sipsts = true → (s.prm.syncWait = .unbounded ∨ ∃ k, s.prm.syncWait = .bounded k ∧ 1 < k) →
          exec (Instr.ofWr r x) s
            = .next
                { s with
                  c := { s.c with busy := some { op := .micro, acts := [.poll r x 1], yielded := false } }
                  trace := s.trace ++ [.rd .syncsr 1#32] })
      ∧ (s.e.sipsts = true → (∃ k, s.prm.syncWait = .bounded k ∧ k ≤ 1) →
          exec (Instr.ofWr r x) s = .next { s with trace := s.trace ++ [.rd .syncsr 1#32] })

/-- R102, R192: a poll that still reads 1 polls again, and the k-th one ends a host operation with HardwareTimeout, leaving
what was done; an interrupt service or a WR that stands alone ends without a result code (R203; log 13). That a step with no
turn left is the controller's poll, the engine having had its turn, is the model's choice of schedule (log 3). -/
def Obligations.SynchronisationPolls : Prop :=
  ∀ (s : State) (op : OpName) (r : WReg) (x : Word) (n : Nat) (acts : List Act), s.refused = none →
    s.c.busy = some { op := op, acts := .poll r x n :: acts, yielded := true } → s.turns = [] → s.e.sipsts = true →
    ((s.prm.syncWait = .unbounded ∨ ∃ k, s.prm.syncWait = .bounded k ∧ n + 1 < k) →
        step s
          = .next
              { s with
                c := { s.c with busy := some { op := op, acts := .poll r x (n + 1) :: acts, yielded := false } }
                trace := s.trace ++ [.rd .syncsr 1#32] })
      ∧ ((∃ k, s.prm.syncWait = .bounded k ∧ k ≤ n + 1) → op.isHost = true →
          step s
            = .next
                { s with
                  c := { s.c with busy := none }
                  results := s.results ++ [.hardwareTimeout]
                  trace := s.trace ++ [.rd .syncsr 1#32] })
      ∧ ((∃ k, s.prm.syncWait = .bounded k ∧ k ≤ n + 1) → op.isHost = false →
          step s = .next { s with c := { s.c with busy := none }, trace := s.trace ++ [.rd .syncsr 1#32] })

/-- R226: with SYNC_WAIT unbounded, a synchronised write whose SIPSTS no E_SYNC clears holds the lock for as many steps as one
likes. The schedule where stream and turns are empty is the model's choice (log 3). -/
def Obligations.SynchronisationHangIsAdmitted : Prop :=
  ∀ (s : State) (b : Busy) (r : WReg) (x : Word) (m : Nat) (acts : List Act) (n : Nat), s.refused = none →
    s.c.busy = some b → b.acts = .poll r x m :: acts → s.prm.syncWait = .unbounded → s.e.sipsts = true →
    s.e.chen = false → s.e.phase = .between → s.stream = [] → s.turns = [] →
    ∃ t, Sys2Proof.core.run n s = .next t ∧ t.c.busy ≠ none ∧ t.e.sipsts = true

/-! ## Register reads (40_register_access.md) -/

/-- R95, R96, R97, R104: RD_IMR, RD_CHSR and RD_SYNCSR return their words and change nothing; RD_ISR returns the status and
clears it in the same event. -/
def Obligations.StatusReads : Prop :=
  encode .rdImr = [0x00050111#32] ∧ encode .rdIsr = [0x00060111#32] ∧ encode .rdChsr = [0x00020111#32]
    ∧ encode .rdSyncsr = [0x00000F11#32]
    ∧ ∀ s : State, s.ready →
      exec .rdImr s = .next { s with trace := s.trace ++ [.rd .imr s.e.imr] }
        ∧ exec .rdIsr s = .next { s with e := { s.e with isr := 0#32 }, trace := s.trace ++ [.rd .isr s.e.isr] }
        ∧ exec .rdChsr s
            = .next
                { s with
                  trace :=
                    s.trace ++ [.rd .chsr ((if s.e.chen then 1#32 else 0#32) ||| ((if s.e.updpend then 1#32 else 0#32) <<< 1))] }
        ∧ exec .rdSyncsr s = .next { s with trace := s.trace ++ [.rd .syncsr (if s.e.sipsts then 1#32 else 0#32)] }

/-- R98 to R101, R103: the reads of a plane's HEAD, ADDR, CTRL and NEXT, and of a field of SHADOW. -/
def Obligations.PlaneAndShadowReads : Prop :=
  (∀ p : Plane,
      encode (Instr.ofRd (.head p)) = [0x00100111#32 + (BitVec.ofNat 32 (4 * p.index) <<< 16)]
        ∧ encode (Instr.ofRd (.addr p)) = [0x00110111#32 + (BitVec.ofNat 32 (4 * p.index) <<< 16)]
        ∧ encode (Instr.ofRd (.ctrl p)) = [0x00120111#32 + (BitVec.ofNat 32 (4 * p.index) <<< 16)]
        ∧ encode (Instr.ofRd (.next p)) = [0x00130111#32 + (BitVec.ofNat 32 (4 * p.index) <<< 16)])
    ∧ (∀ f : CfgField, encode (Instr.ofRd (.cfg f)) = [0x00400111#32 + (BitVec.ofNat 32 f.index <<< 16)])
    ∧ ∀ s : State, s.ready →
      (∀ p : Plane,
          exec (Instr.ofRd (.head p)) s = .next { s with trace := s.trace ++ [.rd (.head p) (s.e.head.get p)] }
            ∧ exec (Instr.ofRd (.addr p)) s = .next { s with trace := s.trace ++ [.rd (.addr p) (s.e.addr.get p)] }
            ∧ exec (Instr.ofRd (.ctrl p)) s = .next { s with trace := s.trace ++ [.rd (.ctrl p) (s.e.ctrl.get p)] }
            ∧ exec (Instr.ofRd (.next p)) s = .next { s with trace := s.trace ++ [.rd (.next p) (s.e.next.get p)] })
        ∧ ∀ f : CfgField,
            exec (Instr.ofRd (.cfg f)) s = .next { s with trace := s.trace ++ [.rd (.cfg f) (s.e.shadow.get f)] }

/-- R58, R170: BARRIER changes no state of the spec's; in the model it publishes the descriptor words written before it
(log 8). -/
def Obligations.BarrierPublishes : Prop :=
  encode .barrier = [0x00000112#32]
    ∧ ∀ s : State, s.ready → exec .barrier s = .next { s with unpub := [], trace := s.trace ++ [.barrier] }

/-! ## Formats, strides and geometry -/

/-- R73: the format table, with the default RGB list: plane counts, bytes per pixel, and the bytes of every plane of every
tag. -/
def Obligations.FormatTable : Prop :=
  formatOf Params.example 0#32 = some (3, 1) ∧ formatOf Params.example 1#32 = some (1, 2)
    ∧ formatOf Params.example 2#32 = some (1, 2) ∧ formatOf Params.example 3#32 = some (1, 2)
    ∧ formatOf Params.example 4#32 = some (1, 3) ∧ formatOf Params.example 5#32 = some (1, 4)
    ∧ (∀ tag : Word, 5 < tag.toNat → formatOf Params.example tag = none)
    ∧ ∀ w h : Nat,
      pbytes Params.example { tag := 0#32, w := w, h := h } .y = w * h
        ∧ pbytes Params.example { tag := 0#32, w := w, h := h } .u = (w + 1) / 2 * ((h + 1) / 2)
        ∧ pbytes Params.example { tag := 0#32, w := w, h := h } .v = (w + 1) / 2 * ((h + 1) / 2)
        ∧ pbytes Params.example { tag := 1#32, w := w, h := h } .y = w * h * 2
        ∧ pbytes Params.example { tag := 2#32, w := w, h := h } .y = w * h * 2
        ∧ pbytes Params.example { tag := 3#32, w := w, h := h } .y = w * h * 2
        ∧ pbytes Params.example { tag := 4#32, w := w, h := h } .y = w * h * 3
        ∧ pbytes Params.example { tag := 5#32, w := w, h := h } .y = w * h * 4

/-- R121: the closed forms of the scan parameters, for each rotation. -/
def Obligations.StrideClosedForms : Prop :=
  ∀ w h b : Int,
    scanParams w h b .r0 = { off := 0, xs := 0, ps := 0 }
      ∧ scanParams w h b .r90 = { off := (h - 1) * w * b, xs := (h - 1) * w * b, ps := -(w + 1) * b }
      ∧ scanParams w h b .r180 = { off := (w * h - 1) * b, xs := -2 * b, ps := -2 * b }
      ∧ scanParams w h b .r270 = { off := (w - 1) * b, xs := -(2 + (h - 1) * w) * b, ps := (w - 1) * b }

/-- R124, R125, R126, R134: Geometry is Invalid exactly where one of the four checks on the clamped window and the rotated
source fails; a partly outside window that keeps a positive extent is valid (R127). -/
def Obligations.GeometryIsInvalidExactlyAtTheFourChecks : Prop :=
  ∀ (prm : Params) (f : FrameFormat) (w : Window) (r : Rotation),
    let rw : Int := if r = .r90 ∨ r = .r270 then f.h else f.w
    let rh : Int := if r = .r90 ∨ r = .r270 then f.w else f.h
    let hwX := min (w.left + w.width) prm.displayW - max w.left 0
    let hwY := min (w.top + w.height) prm.displayH - max w.top 0
    geometry prm f w r = none ↔ ¬ (rw > 0 ∧ rh > 0 ∧ hwX > 0 ∧ hwY > 0)

/-- R129 to R131, R133, R134, R121: the words of a valid geometry, with OVERSHOOT at its stated default, and the factors where
their numerators are not negative: beyond that the chip's value is open (R132; log 17). -/
def Obligations.GeometryWords : Prop :=
  ∀ (prm : Params) (f : FrameFormat) (w : Window) (r : Rotation) (g : Cfg), prm.overshoot = .stated →
    geometry prm f w r = some g →
    let rw : Int := if r = .r90 ∨ r = .r270 then f.h else f.w
    let rh : Int := if r = .r90 ∨ r = .r270 then f.w else f.h
    let hwX := min (w.left + w.width) prm.displayW - max w.left 0
    let hwY := min (w.top + w.height) prm.displayH - max w.top 0
    let fac : Int → Int → Int → Int := fun mem hw phase =>
      let x := (8 * 256 * mem - 256 * phase).fdiv hw + 1
      if (x * (hw - 1) + 256 * phase).fdiv 2048 > mem - 1 then x - 1 else x
    g.mode = f.tag ∧ g.xpos = BitVec.ofInt 32 (max w.left 0) ∧ g.ypos = BitVec.ofInt 32 (max w.top 0)
      ∧ g.xsize = BitVec.ofInt 32 hwX ∧ g.ysize = BitVec.ofInt 32 hwY
      ∧ g.xmemsize = BitVec.ofInt 32 rw ∧ g.ymemsize = BitVec.ofInt 32 rh
      ∧ (prm.phaseX ≤ 8 * rw → g.xfactor = BitVec.ofInt 32 (fac rw hwX prm.phaseX))
      ∧ (prm.phaseY ≤ 8 * rh → g.yfactor = BitVec.ofInt 32 (fac rh hwY prm.phaseY))
      ∧ g.coeff = (if rw ≥ hwX then 1#32 else 0#32)
      ∧ ∀ p : Plane,
          (p.index < np prm f.tag →
              g.get (xstrideField p)
                  = BitVec.ofInt 32 (scanParams (planeDim p f.w) (planeDim p f.h) (bytesPerPixel prm f.tag) r).xs
                ∧ g.get (pstrideField p)
                    = BitVec.ofInt 32 (scanParams (planeDim p f.w) (planeDim p f.h) (bytesPerPixel prm f.tag) r).ps)
            ∧ (¬ p.index < np prm f.tag → g.get (xstrideField p) = 0#32 ∧ g.get (pstrideField p) = 0#32)

/-- R122: with ACTIVE as Geometry gives it and the start address as the builder writes it, the engine's walk visits the pixels
of the plane: every fetch address is the byte of the source pixel and lies in the plane, and every pixel of the plane is
visited. -/
def Obligations.FetchAddressesAreThePlanesPixels : Prop :=
  ∀ (prm : Params) (e : Engine) (b : Buffer) (w : Window) (r : Rotation) (g : Cfg) (p : Plane),
    b.fmt.w < 2 ^ 31 → b.fmt.h < 2 ^ 31 → geometry prm b.fmt w r = some g → p.index < np prm b.fmt.tag →
    e.active = g → e.addr0.get p = b.addrWord prm r p →
    (b.base.get p).toNat + pbytes prm b.fmt p ≤ 2 ^ 32 →
    ∀ a : Word,
      e.inFetchSet prm p a
        ↔ ∃ x y : Nat, x < planeDim p b.fmt.w ∧ y < planeDim p b.fmt.h
            ∧ a.toNat = (b.base.get p).toNat + (y * planeDim p b.fmt.w + x) * bytesPerPixel prm b.fmt.tag

/-! ## Configuration operations (43_config_state_machine.md) -/

/-- R143: SFMT. -/
def Obligations.FormatNegotiation : Prop :=
  (∀ (tag : Word) (w h : Int), encode (.sfmt tag w h) = [0x00000101#32, tag, BitVec.ofInt 32 w, BitVec.ofInt 32 h])
    ∧ ∀ (s : State) (tag : Word) (w h : Int), s.ready →
      (formatOf s.prm tag = none ∨ w ≤ 0 ∨ h ≤ 0 →
          exec (.sfmt tag w h) s = .next { s with results := s.results ++ [.configurationError] })
        ∧ (formatOf s.prm tag ≠ none → 0 < w → 0 < h →
            exec (.sfmt tag w h) s
              = .next
                  { s with
                    c := { s.c with fmt := some { tag := tag, w := w.toNat, h := h.toNat }, dirty := true }
                    results := s.results ++ [.ok] })

/-- R148: SROT. -/
def Obligations.RotationControl : Prop :=
  (∀ deg : Int, encode (.srot deg) = [0x00000103#32, BitVec.ofInt 32 deg])
    ∧ ∀ (s : State) (deg : Int), s.ready →
      (deg ∉ [0, 90, 180, 270] → exec (.srot deg) s = .next { s with results := s.results ++ [.configurationError] })
        ∧ (deg = s.c.rot.degrees → exec (.srot deg) s = .next { s with results := s.results ++ [.ok] })
        ∧ ∀ r : Rotation, deg = r.degrees → r ≠ s.c.rot →
            exec (.srot deg) s
              = .next { s with c := { s.c with rot := r, dirty := true }, results := s.results ++ [.ok] }

/-- R145, R146: SWIN of an unchanged window does nothing when nothing is pending, and with no format it only stores. -/
def Obligations.WindowSetWithoutRecompute : Prop :=
  (∀ l t ww wh : Int,
      encode (.swin l t ww wh)
        = [0x00000102#32, BitVec.ofInt 32 l, BitVec.ofInt 32 t, BitVec.ofInt 32 ww, BitVec.ofInt 32 wh])
    ∧ ∀ (s : State) (l t ww wh : Int), s.ready →
      let win : Window := { left := l, top := t, width := ww, height := wh }
      (win = s.c.win → s.c.dirty = false → exec (.swin l t ww wh) s = .next { s with results := s.results ++ [.ok] })
        ∧ (¬ (win = s.c.win ∧ s.c.dirty = false) → s.c.fmt = none →
            exec (.swin l t ww wh) s
              = .next { s with c := { s.c with win := win, dirty := true }, results := s.results ++ [.ok] })

/-- R138, R140, R145: SWIN of a valid window writes the sixteen fields and waits for a latch, where the recovery path does not
apply: the prior ConfigState is not Bad, or no current buffer has the format in force. -/
def Obligations.WindowSetNeedsLatch : Prop :=
  ∀ (s : State) (l t ww wh : Int) (f : FrameFormat) (g : Cfg), s.ready → s.plain →
    let win : Window := { left := l, top := t, width := ww, height := wh }
    ¬ (win = s.c.win ∧ s.c.dirty = false) → s.c.fmt = some f → geometry s.prm f win s.c.rot = some g →
    (s.c.cfg ≠ .bad ∨ s.c.cur.map Buffer.fmt ≠ some f) →
    exec (.swin l t ww wh) s
      = .next
          { s with
            c := { s.c with win := win, dirty := false, cfg := .goodNeedsLatch }
            e := { s.e with shadow := g }
            results := s.results ++ [.ok]
            trace := s.trace ++ cfgEvents g }

/-- R138, R139, R145, R196: SWIN of an invalid window gives Bad and OK; a channel that reads enabled is disabled, one that does
not is left. -/
def Obligations.WindowSetInvalid : Prop :=
  ∀ (s : State) (l t ww wh : Int) (f : FrameFormat), s.ready → s.plain →
    let win : Window := { left := l, top := t, width := ww, height := wh }
    ¬ (win = s.c.win ∧ s.c.dirty = false) → s.c.fmt = some f → geometry s.prm f win s.c.rot = none →
    exec (.swin l t ww wh) s
      = .next
          { s with
            c := { s.c with win := win, dirty := false, cfg := .bad }
            e := { s.e with dispend := s.e.dispend || s.e.chen }
            results := s.results ++ [.ok]
            trace := s.trace ++ .rd .chsr s.e.chsr :: (if s.e.chen then [.wr .chdr 1#32] else []) }

/-- R138, R141: SWIN of a valid window from Bad with a current buffer of the format in force: on a disabled channel the
recovery path shows that buffer again, on an enabled one the new configuration waits for a latch. -/
def Obligations.WindowSetRecovers : Prop :=
  ∀ (s : State) (l t ww wh : Int) (f : FrameFormat) (g : Cfg) (b : Buffer), s.ready → s.plain →
    let win : Window := { left := l, top := t, width := ww, height := wh }
    let b' := b.withDesc s.prm
    ¬ (win = s.c.win ∧ s.c.dirty = false) → s.c.fmt = some f → geometry s.prm f win s.c.rot = some g →
    s.c.cfg = .bad → s.c.cur = some b → b.fmt = f →
    (∀ p : Plane, p.index < np s.prm f.tag → (b.base.get p).toNat % 4 = 0) →
    (s.e.chen = true →
        exec (.swin l t ww wh) s
          = .next
              { s with
                c := { s.c with win := win, dirty := false, cfg := .goodNeedsLatch }
                e := { s.e with shadow := g }
                results := s.results ++ [.ok]
                trace := s.trace ++ cfgEvents g ++ [.rd .chsr s.e.chsr] })
      ∧ (s.e.chen = false →
          exec (.swin l t ww wh) s
            = .next
                { s with
                  c := { s.c with win := win, dirty := false, cfg := .good, cur := some b' }
                  e :=
                    { s.e with
                      shadow := g
                      head := headsOf s.prm b' s.e.head
                      chen := true
                      updpend := true
                      imr := s.e.imr ||| 0x30#32 }
                  mem := storeDescriptors s.prm s.c.rot b s.mem
                  unpub := []
                  results := s.results ++ [.ok]
                  trace :=
                    s.trace ++ cfgEvents g ++ [.rd .chsr s.e.chsr] ++ buildEvents s.prm s.c.rot b ++ [.barrier]
                      ++ headEvents s.prm b' ++ [.wr .cher 0x3#32, .wr .ier 0x30#32] })

/-! ## Buffer submit (44_buffer_queue_irq.md) -/

/-- R151, R200 (d): the six refusals of QBUF, each with no change but the mark; where several hold, the first in their order
gives the reason. That the overlap check also covers a pair of held buffers is the model's reading (log 25, DEDUCED). -/
def Obligations.QbufAdmission : Prop :=
  ∀ (s : State) (id base0 base1 base2 : Word), s.ready →
    (s.c.streaming = false → exec (.qbuf id base0 base1 base2) s = .next { s with refused := some .qbufNotStreaming })
      ∧ (s.c.streaming = true → s.c.fmt = none →
          exec (.qbuf id base0 base1 base2) s = .next { s with refused := some .qbufNoFormat })
      ∧ ∀ f : FrameFormat, s.c.streaming = true → s.c.fmt = some f →
          let b := newBuffer s.prm f id base0 base1 base2
          let base : Plane → Nat := fun p => (({ y := base0, u := base1, v := base2 } : Planes Word).get p).toNat
          let misaligned := ∃ p : Plane, p.index < np s.prm f.tag ∧ base p % 4 ≠ 0
          let wraps := ∃ p : Plane, p.index < np s.prm f.tag ∧ base p + align4 (pbytes s.prm f p) + 12 > 2 ^ 32
          let apart := (b.regions s.prm ++ slotRegions s.prm s.c.cur ++ slotRegions s.prm s.c.nxt).Pairwise
            (fun x y => ¬ ∃ a : Nat, x.lo ≤ a ∧ a < x.hi ∧ y.lo ≤ a ∧ a < y.hi)
          let held := s.c.cur.map Buffer.id = some id ∨ s.c.nxt.map Buffer.id = some id
          (misaligned → exec (.qbuf id base0 base1 base2) s = .next { s with refused := some .qbufMisaligned })
            ∧ (¬ misaligned → wraps → exec (.qbuf id base0 base1 base2) s = .next { s with refused := some .qbufWrap })
            ∧ (¬ misaligned → ¬ wraps → ¬ apart →
                exec (.qbuf id base0 base1 base2) s = .next { s with refused := some .qbufOverlap })
            ∧ (¬ misaligned → ¬ wraps → apart → held →
                exec (.qbuf id base0 base1 base2) s = .next { s with refused := some .qbufDuplicateId })
            ∧ (¬ misaligned → ¬ wraps → apart → ¬ held → admissionProblem s.prm s.c b = none)

/-- R157: a buffer submitted while the configuration is Bad is completed Done at once; its descriptors are not built, the slots
are unchanged and no register is accessed. -/
def Obligations.QbufWhileBad : Prop :=
  ∀ (s : State) (id base0 base1 base2 : Word) (f : FrameFormat), s.ready → s.c.streaming = true → s.c.fmt = some f →
    admissionProblem s.prm s.c (newBuffer s.prm f id base0 base1 base2) = none → s.c.dirty = false → s.c.cfg = .bad →
    exec (.qbuf id base0 base1 base2) s
      = .next { s with c := { s.c with log := s.c.log ++ [(id, .done)] }, results := s.results ++ [.ok] }

/-- R137, R138, R152: a QBUF with a change pending is a SWIN of the window in force, which recomputes, and then a QBUF with
nothing pending. -/
def Obligations.DirtyQbufRecomputesFirst : Prop :=
  ∀ (s u : State) (id base0 base1 base2 : Word) (f : FrameFormat), s.ready → s.plain → s.c.streaming = true →
    s.c.fmt = some f → admissionProblem s.prm s.c (newBuffer s.prm f id base0 base1 base2) = none → s.c.dirty = true →
    exec (.swin s.c.win.left s.c.win.top s.c.win.width s.c.win.height) s = .next u → u.refused = none →
    u.c.dirty = false
      ∧ exec (.qbuf id base0 base1 base2) s = exec (.qbuf id base0 base1 base2) { u with results := s.results }

/-- R152, R153, R154, R158: a show on a disabled channel builds and publishes the descriptors, writes the whole shadow
configuration, HEAD, CHER = 3 and IER = 0x30, sets Running and Good, and advances the pipeline; nothing else changes, memory
outside the descriptors included. -/
def Obligations.QbufEnablesTheChannel : Prop :=
  ∀ (s : State) (id base0 base1 base2 : Word) (f : FrameFormat) (g : Cfg), s.ready → s.plain → s.c.streaming = true →
    s.c.fmt = some f → s.c.dirty = false → s.c.cfg ≠ .bad → geometry s.prm f s.c.win s.c.rot = some g →
    admissionProblem s.prm s.c (newBuffer s.prm f id base0 base1 base2) = none → s.e.chen = false →
    let b := (newBuffer s.prm f id base0 base1 base2).withDesc s.prm
    exec (.qbuf id base0 base1 base2) s
      = .next
          { s with
            c :=
              { s.c with
                cfg := .good
                chan := .running
                log := s.c.log ++ slotEntry s.c.cur .done
                cur := s.c.nxt
                nxt := some b }
            e :=
              { s.e with
                shadow := g
                head := headsOf s.prm b s.e.head
                chen := true
                updpend := true
                imr := s.e.imr ||| 0x30#32 }
            mem := storeDescriptors s.prm s.c.rot b s.mem
            unpub := []
            results := s.results ++ [.ok]
            trace :=
              s.trace ++ buildEvents s.prm s.c.rot b ++ [.barrier, .rd .chsr s.e.chsr] ++ cfgEvents g ++ headEvents s.prm b
                ++ [.wr .cher 0x3#32, .wr .ier 0x30#32] }

/-- R152, R153, R156, R158: a show on an enabled channel writes HEAD and CHER = 2, preceded by the whole shadow configuration
where it waits for a latch; a current buffer in use keeps its slot and the next one is superseded with Error, else the
pipeline advances. -/
def Obligations.QbufOnAnEnabledChannel : Prop :=
  ∀ (s : State) (id base0 base1 base2 : Word) (f : FrameFormat) (g : Cfg), s.ready → s.plain → s.c.streaming = true →
    s.c.fmt = some f → s.c.dirty = false → s.c.cfg ≠ .bad →
    (s.c.cfg = .goodNeedsLatch → geometry s.prm f s.c.win s.c.rot = some g) →
    admissionProblem s.prm s.c (newBuffer s.prm f id base0 base1 base2) = none → s.e.chen = true →
    let b := (newBuffer s.prm f id base0 base1 base2).withDesc s.prm
    let inUse := ∃ b0, s.c.cur = some b0 ∧ (b0.base.get .y).toNat ≤ (s.e.addr.get .y).toNat
      ∧ (s.e.addr.get .y).toNat < (b0.base.get .y).toNat + pbytes s.prm b0.fmt .y
    let shown : Controller → State := fun c =>
      { s with
        c := c
        e :=
          { s.e with
            shadow := if s.c.cfg = .goodNeedsLatch then g else s.e.shadow
            head := headsOf s.prm b s.e.head
            updpend := true }
        mem := storeDescriptors s.prm s.c.rot b s.mem
        unpub := []
        results := s.results ++ [.ok]
        trace :=
          s.trace ++ buildEvents s.prm s.c.rot b ++ [.barrier, .rd .chsr s.e.chsr]
            ++ (if s.c.cur.isSome then [.rd (.addr .y) (s.e.addr.get .y)] else [])
            ++ (if s.c.cfg = .goodNeedsLatch then cfgEvents g else [])
            ++ headEvents s.prm b ++ [.wr .cher 0x2#32] }
    (inUse →
        exec (.qbuf id base0 base1 base2) s
          = .next (shown { s.c with cfg := .good, log := s.c.log ++ slotEntry s.c.nxt .error, nxt := some b }))
      ∧ (¬ inUse →
          exec (.qbuf id base0 base1 base2) s
            = .next
                (shown
                  { s.c with cfg := .good, log := s.c.log ++ slotEntry s.c.cur .done, cur := s.c.nxt, nxt := some b }))

/-- R53, R111 to R115: after a build of an admitted buffer each active plane's trailer reads as its descriptor, at a
word-aligned address, linked to itself; and no byte outside the trailers changes. -/
def Obligations.DescriptorsReadBack : Prop :=
  ∀ (prm : Params) (c : Controller) (rot : Rotation) (b : Buffer) (m : Memory), Memory.wf m = true →
    admissionProblem prm c b = none →
    (∀ p : Plane, p.index < np prm b.fmt.tag →
        (b.descAddr prm p).toNat = (b.base.get p).toNat + 4 * ((pbytes prm b.fmt p + 3) / 4)
          ∧ (b.descAddr prm p).toNat % 4 = 0
          ∧ Memory.readWord (storeDescriptors prm rot b m) (b.descAddr prm p)
              = BitVec.ofInt 32
                  ((b.base.get p).toNat
                    + (scanParams (planeDim p b.fmt.w) (planeDim p b.fmt.h) (bytesPerPixel prm b.fmt.tag) rot).off)
          ∧ Memory.readWord (storeDescriptors prm rot b m) (b.descAddr prm p + 4#32)
              = (if p = .y then 0x31#32 else 0x1#32)
          ∧ Memory.readWord (storeDescriptors prm rot b m) (b.descAddr prm p + 8#32) = b.descAddr prm p)
      ∧ ∀ k : Nat,
          (∀ p : Plane, p.index < np prm b.fmt.tag →
            ¬ ((b.descAddr prm p).toNat ≤ k ∧ k < (b.descAddr prm p).toNat + 12)) →
          Memory.read (storeDescriptors prm rot b m) k = Memory.read m k

/-- R58, R113, R153, R175, R218: the first frame after an enabling show latches that show's configuration and loads that
buffer's descriptors, linked to themselves, and raises ADD_Y. -/
def Obligations.FirstFrameLoadsTheShownBuffer : Prop :=
  ∀ (s t : State) (id base0 base1 base2 : Word) (f : FrameFormat) (g : Cfg), s.ready → s.plain → s.c.streaming = true →
    s.c.fmt = some f → formatOf s.prm f.tag ≠ none → s.c.dirty = false → s.c.cfg ≠ .bad →
    geometry s.prm f s.c.win s.c.rot = some g → Memory.wf s.mem = true →
    admissionProblem s.prm s.c (newBuffer s.prm f id base0 base1 base2) = none →
    s.e.chen = false → s.e.dispend = false → s.e.phase = .between → s.e.fault = none →
    exec (.qbuf id base0 base1 base2) s = .next t →
    let b := newBuffer s.prm f id base0 base1 base2
    ∃ u, exec .eFstart t = .next u ∧ u.e.phase = .fetching ∧ u.e.fault = none ∧ u.e.updpend = false ∧ u.e.active = g
      ∧ u.e.isr.getLsbD 4 = true
      ∧ ∀ p : Plane, p.index < np s.prm f.tag →
          u.e.addr.get p = b.addrWord s.prm s.c.rot p ∧ u.e.addr0.get p = b.addrWord s.prm s.c.rot p
            ∧ u.e.ctrl.get p = (if p = .y then 0x31#32 else 0x1#32)
            ∧ u.e.dload.get p = b.descAddr s.prm p ∧ u.e.next.get p = b.descAddr s.prm p

/-! ## Stream on and off, interrupt service (44_buffer_queue_irq.md) -/

/-- R162, R163: STREAMON; and STREAMOFF when not streaming does nothing; with the channel disabled it retires both slots Done, masks the DMA
interrupts, discards the status, and ends Idle. -/
def Obligations.StreamOnAndOffOnAStoppedChannel : Prop :=
  encode .streamon = [0x00000105#32] ∧ encode .streamoff = [0x00000106#32]
    ∧ ∀ s : State, s.ready →
      exec .streamon s = .next { s with c := { s.c with streaming := true }, results := s.results ++ [.ok] }
        ∧ (s.c.streaming = false → exec .streamoff s = .next { s with results := s.results ++ [.ok] })
        ∧ (s.plain → s.c.streaming = true → s.e.chen = false →
            exec .streamoff s
              = .next
                  { s with
                    c :=
                      { s.c with
                        log := s.c.log ++ slotEntry s.c.cur .done ++ slotEntry s.c.nxt .done
                        cur := none
                        nxt := none
                        chan := .idle
                        streaming := false }
                    e := { s.e with imr := s.e.imr &&& ~~~0x3C#32, isr := 0#32 }
                    results := s.results ++ [.ok]
                    trace := s.trace ++ [.rd .chsr s.e.chsr, .wr .idr 0x3C#32, .rd .isr s.e.isr] })

/-- R163, R164, R176, R181, R190, R220, R227: with the channel enabled, STREAMOFF writes CHDIS and waits, holding the lock, before
its first quiesce poll; once the engine takes its frame step it ends: the block is quiescent, both slots are retired Done, the
configuration and memory are kept. The engine moving before the poll is the model's schedule (log 3). -/
def Obligations.StreamOffQuiesces : Prop :=
  (∀ s : State, s.ready → s.plain → s.c.streaming = true → s.e.chen = true →
      ∃ acts,
        exec .streamoff s
          = .next
              { s with
                c := { s.c with busy := some { op := .streamoff, acts := .offPoll :: acts, yielded := false } }
                e := { s.e with dispend := true }
                trace := s.trace ++ [.rd .chsr s.e.chsr, .wr .chdr 1#32] })
    ∧ ∀ s : State, s.ready → s.plain → s.turns = [] → s.stream = [] → s.e.fault = none → s.c.streaming = true →
      s.e.chen = true →
      ∃ t u, exec .streamoff s = .next t ∧ Sys2Proof.core.run 2 t = .next u ∧ u.goodEnd ∧ u.c.chan = .idle
        ∧ u.c.streaming = false ∧ u.c.cur = none ∧ u.c.nxt = none
        ∧ u.c.log = s.c.log ++ slotEntry s.c.cur .done ++ slotEntry s.c.nxt .done
        ∧ u.results = s.results ++ [.ok] ∧ u.c.cfg = s.c.cfg ∧ u.c.fmt = s.c.fmt ∧ u.c.win = s.c.win
        ∧ u.c.rot = s.c.rot ∧ u.e.shadow = s.e.shadow ∧ u.mem = s.mem

/-- R166, R167: IRQ with the channel disabled: status acknowledged, both slots retired Done, current first, the DMA interrupts
masked. -/
def Obligations.InterruptServiceOnAStoppedChannel : Prop :=
  encode .irq = [0x00000107#32]
    ∧ ∀ s : State, s.ready → s.plain → s.e.isr &&& s.e.imr ≠ 0#32 → s.e.chen = false →
      exec .irq s
        = .next
            { s with
              c :=
                { s.c with
                  log := s.c.log ++ slotEntry s.c.cur .done ++ slotEntry s.c.nxt .done
                  cur := none
                  nxt := none }
              e := { s.e with isr := 0#32, imr := s.e.imr &&& ~~~0x3C#32 }
              trace := s.trace ++ [.rd .isr s.e.isr, .rd .chsr s.e.chsr, .wr .idr 0x3C#32] }

/-- R166, R168, R169: IRQ with the channel enabled: status acknowledged, a lone next buffer promoted, and with both slots full
the current one retired Done and the next promoted exactly when ADDR_Y has left the current buffer's luma plane. -/
def Obligations.InterruptServiceOnARunningChannel : Prop :=
  ∀ s : State, s.ready → s.plain → s.e.isr &&& s.e.imr ≠ 0#32 → s.e.chen = true →
    let e' : Engine := { s.e with isr := 0#32 }
    let reads : List MicroEvent := [.rd .isr s.e.isr, .rd .chsr s.e.chsr]
    (s.c.cur = none →
        exec .irq s = .next { s with c := { s.c with cur := s.c.nxt, nxt := none }, e := e', trace := s.trace ++ reads })
      ∧ (s.c.cur ≠ none → s.c.nxt = none → exec .irq s = .next { s with e := e', trace := s.trace ++ reads })
      ∧ ∀ b n : Buffer, s.c.cur = some b → s.c.nxt = some n →
          let a := s.e.addr.get .y
          let hit := (b.base.get .y).toNat ≤ a.toNat ∧ a.toNat < (b.base.get .y).toNat + pbytes s.prm b.fmt .y
          (hit → exec .irq s = .next { s with e := e', trace := s.trace ++ reads ++ [.rd (.addr .y) a] })
            ∧ (¬ hit →
                exec .irq s
                  = .next
                      { s with
                        c := { s.c with log := s.c.log ++ [(b.id, .done)], cur := some n, nxt := none }
                        e := e'
                        trace := s.trace ++ reads ++ [.rd (.addr .y) a] })

/-! ## Engine events (45_engine.md) -/

/-- R175, R176: E_FSTART with a disable pending completes the disable: CHEN, DISPEND and UPDPEND clear, DONE_p set for each
active plane whose DONEIEN is set, no descriptor loaded. -/
def Obligations.FrameStartCompletesADisable : Prop :=
  encode .eFstart = [0x00000120#32]
    ∧ ∀ s : State, s.engineReady → s.e.chen = true → s.e.phase = .between → s.e.dispend = true →
      ∃ isr : Word,
        exec .eFstart s
            = .next { s with e := { s.e with chen := false, dispend := false, updpend := false, isr := isr } }
          ∧ ∀ n : Nat,
              isr.getLsbD n = true
                ↔ s.e.isr.getLsbD n = true
                  ∨ ∃ p : Plane, p.index < np s.prm s.e.active.mode ∧ (s.e.ctrl.get p).getLsbD 5 = true ∧ n = 5 + 8 * p.index

/-- R174, R175: E_FSTART with no disable pending, a supported MODE and aligned pointers: SHADOW latched where an update is
pending, and each active plane's descriptor loaded from HEAD at a latched update, from NEXT otherwise; where its words are
published they are the words in memory; planes beyond keep their registers; DSCR and ADD bits as the control words ask. -/
def Obligations.FrameStartLoadsDescriptors : Prop :=
  ∀ s : State, s.engineReady → s.e.chen = true → s.e.phase = .between → s.e.dispend = false →
    let active := if s.e.updpend then s.e.shadow else s.e.active
    let src := if s.e.updpend then s.e.head else s.e.next
    formatOf s.prm active.mode ≠ none →
    (∀ p : Plane, p.index < np s.prm active.mode → (src.get p).toNat % 4 = 0) →
    ∃ (addr ctrl next addr0 dload : Planes Word) (isr : Word) (fresh : Nat),
      exec .eFstart s
          = .next
              { s with
                e :=
                  { s.e with
                    active := active
                    addr := addr
                    ctrl := ctrl
                    next := next
                    addr0 := addr0
                    dload := dload
                    isr := isr
                    updpend := false
                    phase := .fetching }
                fresh := fresh }
        ∧ (∀ p : Plane, p.index < np s.prm active.mode →
            addr0.get p = addr.get p ∧ dload.get p = src.get p
              ∧ (unpublished s.unpub (src.get p) = false → addr.get p = Memory.readWord s.mem (src.get p))
              ∧ (unpublished s.unpub (src.get p + 4#32) = false →
                  ctrl.get p = Memory.readWord s.mem (src.get p + 4#32))
              ∧ (unpublished s.unpub (src.get p + 8#32) = false →
                  next.get p = Memory.readWord s.mem (src.get p + 8#32)))
        ∧ (∀ p : Plane, ¬ p.index < np s.prm active.mode →
            addr.get p = s.e.addr.get p ∧ ctrl.get p = s.e.ctrl.get p ∧ next.get p = s.e.next.get p
              ∧ addr0.get p = s.e.addr0.get p ∧ dload.get p = s.e.dload.get p)
        ∧ ∀ n : Nat,
            isr.getLsbD n = true
              ↔ s.e.isr.getLsbD n = true
                ∨ ∃ p : Plane, p.index < np s.prm active.mode
                    ∧ ((n = 3 + 8 * p.index ∧ (ctrl.get p).getLsbD 3 = true)
                      ∨ (n = 4 + 8 * p.index ∧ (ctrl.get p).getLsbD 4 = true ∧ s.e.updpend = true))

/-- R177, R195: E_FSTART with no disable pending faults with EngineBadMode exactly where MODE after the optional latch is not
supported, and with EngineMisaligned exactly where it is supported and an active plane's pointer is not a multiple of 4; no
frame starts then. That what was done before the fault stands is the model's choice (log 12). -/
def Obligations.FrameStartFaults : Prop :=
  ∀ s : State, s.engineReady → s.e.chen = true → s.e.phase = .between → s.e.dispend = false →
    let active := if s.e.updpend then s.e.shadow else s.e.active
    let src := if s.e.updpend then s.e.head else s.e.next
    ∃ t, exec .eFstart s = .next t
      ∧ (t.e.fault = some .badMode ↔ formatOf s.prm active.mode = none)
      ∧ (t.e.fault = some .misaligned
          ↔ formatOf s.prm active.mode ≠ none
            ∧ ∃ p : Plane, p.index < np s.prm active.mode ∧ (src.get p).toNat % 4 ≠ 0)
      ∧ (t.e.fault ≠ none → t.e.phase = .between ∧ t.e.active = active ∧ t.e.chen = true)

/-- R179: E_FETCH moves ADDR_p and nothing else. -/
def Obligations.FetchMovesTheAddress : Prop :=
  (∀ a : Word, encode (.eFetchY a) = [0x00000121#32, a] ∧ encode (.eFetchU a) = [0x00010121#32, a]
      ∧ encode (.eFetchV a) = [0x00020121#32, a])
    ∧ ∀ (s : State) (p : Plane) (a : Word), s.engineReady → s.e.phase = .fetching →
      p.index < np s.prm s.e.active.mode → (s.e.ctrl.get p).getLsbD 0 = true → s.e.inFetchSet s.prm p a →
      exec (Instr.ofFetch p a) s = .next { s with e := { s.e with addr := s.e.addr.set p a } }

/-- R178, R181, R176: E_FEND: each active plane's ADDR goes to the last fetch address where DFETCH is set, DMA_p is set where
DMAIEN is, the phase is Between, and a pending disable completes. -/
def Obligations.FrameEnd : Prop :=
  encode .eFend = [0x00000122#32]
    ∧ ∀ s : State, s.engineReady → s.e.phase = .fetching →
      ∃ (addr : Planes Word) (isr : Word),
        exec .eFend s
            = .next
                { s with
                  e :=
                    { s.e with
                      addr := addr
                      isr := isr
                      phase := .between
                      chen := s.e.chen && !s.e.dispend
                      updpend := s.e.updpend && !s.e.dispend
                      dispend := false } }
          ∧ (∀ p : Plane,
              (p.index < np s.prm s.e.active.mode → (s.e.ctrl.get p).getLsbD 0 = true →
                  addr.get p
                    = if 1 ≤ s.e.fetchW p ∧ 1 ≤ s.e.fetchH p then
                        s.e.fetchAddr s.prm p (s.e.fetchW p - 1) (s.e.fetchH p - 1)
                      else s.e.addr0.get p)
                ∧ (¬ (p.index < np s.prm s.e.active.mode ∧ (s.e.ctrl.get p).getLsbD 0 = true) →
                    addr.get p = s.e.addr.get p))
          ∧ ∀ n : Nat,
              isr.getLsbD n = true
                ↔ s.e.isr.getLsbD n = true
                  ∨ ∃ p : Plane, p.index < np s.prm s.e.active.mode
                      ∧ ((n = 2 + 8 * p.index ∧ (s.e.ctrl.get p).getLsbD 2 = true)
                        ∨ (n = 5 + 8 * p.index ∧ (s.e.ctrl.get p).getLsbD 5 = true ∧ s.e.dispend = true))

/-- R184, R185: E_OVR sets OVR_p and nothing else; E_SYNC clears SIPSTS and nothing else. -/
def Obligations.StatusEvents : Prop :=
  (encode .eOvrY = [0x00000123#32] ∧ encode .eOvrU = [0x00010123#32] ∧ encode .eOvrV = [0x00020123#32]
      ∧ encode .eSync = [0x00000F24#32])
    ∧ ∀ s : State, s.engineReady →
      (∀ p : Plane, s.e.phase = .fetching → p.index < np s.prm s.e.active.mode →
          exec (Instr.ofOvr p) s = .next { s with e := { s.e with isr := s.e.isr ||| (1#32 <<< (6 + 8 * p.index)) } })
        ∧ (s.e.sipsts = true → exec .eSync s = .next { s with e := { s.e with sipsts := false } })
end

