-- ==== Sys2Proof/Laws/State.lean ====
section
/-! SUPPORT. One lemma for each field of the state and each named update, true by rfl, so that no proof unfolds a record
update. -/

namespace Sys2Proof.Machine

/-! ## `State.record` -/

@[simp] theorem State.record_prm (s : State) (ev : MicroEvent) : (s.record ev).prm = s.prm := rfl
@[simp] theorem State.record_c (s : State) (ev : MicroEvent) : (s.record ev).c = s.c := rfl
@[simp] theorem State.record_e (s : State) (ev : MicroEvent) : (s.record ev).e = s.e := rfl
@[simp] theorem State.record_mem (s : State) (ev : MicroEvent) : (s.record ev).mem = s.mem := rfl
@[simp] theorem State.record_refused (s : State) (ev : MicroEvent) : (s.record ev).refused = s.refused := rfl
@[simp] theorem State.record_results (s : State) (ev : MicroEvent) : (s.record ev).results = s.results := rfl
@[simp] theorem State.record_trace (s : State) (ev : MicroEvent) : (s.record ev).trace = s.trace ++ [ev] := rfl
@[simp] theorem State.record_stream (s : State) (ev : MicroEvent) : (s.record ev).stream = s.stream := rfl
@[simp] theorem State.record_turns (s : State) (ev : MicroEvent) : (s.record ev).turns = s.turns := rfl
@[simp] theorem State.record_unpub (s : State) (ev : MicroEvent) : (s.record ev).unpub = s.unpub := rfl
@[simp] theorem State.record_fresh (s : State) (ev : MicroEvent) : (s.record ev).fresh = s.fresh := rfl

/-! ## `State.setE` -/

@[simp] theorem State.setE_prm (s : State) (x : Engine) : (s.setE x).prm = s.prm := rfl
@[simp] theorem State.setE_c (s : State) (x : Engine) : (s.setE x).c = s.c := rfl
@[simp] theorem State.setE_e (s : State) (x : Engine) : (s.setE x).e = x := rfl
@[simp] theorem State.setE_mem (s : State) (x : Engine) : (s.setE x).mem = s.mem := rfl
@[simp] theorem State.setE_refused (s : State) (x : Engine) : (s.setE x).refused = s.refused := rfl
@[simp] theorem State.setE_results (s : State) (x : Engine) : (s.setE x).results = s.results := rfl
@[simp] theorem State.setE_trace (s : State) (x : Engine) : (s.setE x).trace = s.trace := rfl
@[simp] theorem State.setE_stream (s : State) (x : Engine) : (s.setE x).stream = s.stream := rfl
@[simp] theorem State.setE_turns (s : State) (x : Engine) : (s.setE x).turns = s.turns := rfl
@[simp] theorem State.setE_unpub (s : State) (x : Engine) : (s.setE x).unpub = s.unpub := rfl
@[simp] theorem State.setE_fresh (s : State) (x : Engine) : (s.setE x).fresh = s.fresh := rfl

/-! ## `State.setC` -/

@[simp] theorem State.setC_prm (s : State) (x : Controller) : (s.setC x).prm = s.prm := rfl
@[simp] theorem State.setC_c (s : State) (x : Controller) : (s.setC x).c = x := rfl
@[simp] theorem State.setC_e (s : State) (x : Controller) : (s.setC x).e = s.e := rfl
@[simp] theorem State.setC_mem (s : State) (x : Controller) : (s.setC x).mem = s.mem := rfl
@[simp] theorem State.setC_refused (s : State) (x : Controller) : (s.setC x).refused = s.refused := rfl
@[simp] theorem State.setC_results (s : State) (x : Controller) : (s.setC x).results = s.results := rfl
@[simp] theorem State.setC_trace (s : State) (x : Controller) : (s.setC x).trace = s.trace := rfl
@[simp] theorem State.setC_stream (s : State) (x : Controller) : (s.setC x).stream = s.stream := rfl
@[simp] theorem State.setC_turns (s : State) (x : Controller) : (s.setC x).turns = s.turns := rfl
@[simp] theorem State.setC_unpub (s : State) (x : Controller) : (s.setC x).unpub = s.unpub := rfl
@[simp] theorem State.setC_fresh (s : State) (x : Controller) : (s.setC x).fresh = s.fresh := rfl

/-! ## `State.report` -/

@[simp] theorem State.report_prm (s : State) (r : Result) : (s.report r).prm = s.prm := rfl
@[simp] theorem State.report_c (s : State) (r : Result) : (s.report r).c = s.c := rfl
@[simp] theorem State.report_e (s : State) (r : Result) : (s.report r).e = s.e := rfl
@[simp] theorem State.report_mem (s : State) (r : Result) : (s.report r).mem = s.mem := rfl
@[simp] theorem State.report_refused (s : State) (r : Result) : (s.report r).refused = s.refused := rfl
@[simp] theorem State.report_results (s : State) (r : Result) : (s.report r).results = s.results ++ [r] := rfl
@[simp] theorem State.report_trace (s : State) (r : Result) : (s.report r).trace = s.trace := rfl
@[simp] theorem State.report_stream (s : State) (r : Result) : (s.report r).stream = s.stream := rfl
@[simp] theorem State.report_turns (s : State) (r : Result) : (s.report r).turns = s.turns := rfl
@[simp] theorem State.report_unpub (s : State) (r : Result) : (s.report r).unpub = s.unpub := rfl
@[simp] theorem State.report_fresh (s : State) (r : Result) : (s.report r).fresh = s.fresh := rfl

/-! ## `State.refuse` -/

@[simp] theorem State.refuse_prm (s : State) (r : RefuseReason) : (s.refuse r).prm = s.prm := rfl
@[simp] theorem State.refuse_c (s : State) (r : RefuseReason) : (s.refuse r).c = { s.c with busy := none } := rfl
@[simp] theorem State.refuse_e (s : State) (r : RefuseReason) : (s.refuse r).e = s.e := rfl
@[simp] theorem State.refuse_mem (s : State) (r : RefuseReason) : (s.refuse r).mem = s.mem := rfl
@[simp] theorem State.refuse_refused (s : State) (r : RefuseReason) : (s.refuse r).refused = some r := rfl
@[simp] theorem State.refuse_results (s : State) (r : RefuseReason) : (s.refuse r).results = s.results := rfl
@[simp] theorem State.refuse_trace (s : State) (r : RefuseReason) : (s.refuse r).trace = s.trace := rfl
@[simp] theorem State.refuse_stream (s : State) (r : RefuseReason) : (s.refuse r).stream = s.stream := rfl
@[simp] theorem State.refuse_turns (s : State) (r : RefuseReason) : (s.refuse r).turns = s.turns := rfl
@[simp] theorem State.refuse_unpub (s : State) (r : RefuseReason) : (s.refuse r).unpub = s.unpub := rfl
@[simp] theorem State.refuse_fresh (s : State) (r : RefuseReason) : (s.refuse r).fresh = s.fresh := rfl

/-! ## `State.engineFault` -/

@[simp] theorem State.engineFault_prm (s : State) (f : EngineFault) : (s.engineFault f).prm = s.prm := rfl
@[simp] theorem State.engineFault_c (s : State) (f : EngineFault) : (s.engineFault f).c = s.c := rfl
@[simp] theorem State.engineFault_e (s : State) (f : EngineFault) : (s.engineFault f).e = { s.e with fault := some f } := rfl
@[simp] theorem State.engineFault_mem (s : State) (f : EngineFault) : (s.engineFault f).mem = s.mem := rfl
@[simp] theorem State.engineFault_refused (s : State) (f : EngineFault) : (s.engineFault f).refused = s.refused := rfl
@[simp] theorem State.engineFault_results (s : State) (f : EngineFault) : (s.engineFault f).results = s.results := rfl
@[simp] theorem State.engineFault_trace (s : State) (f : EngineFault) : (s.engineFault f).trace = s.trace := rfl
@[simp] theorem State.engineFault_stream (s : State) (f : EngineFault) : (s.engineFault f).stream = s.stream := rfl
@[simp] theorem State.engineFault_turns (s : State) (f : EngineFault) : (s.engineFault f).turns = s.turns := rfl
@[simp] theorem State.engineFault_unpub (s : State) (f : EngineFault) : (s.engineFault f).unpub = s.unpub := rfl
@[simp] theorem State.engineFault_fresh (s : State) (f : EngineFault) : (s.engineFault f).fresh = s.fresh := rfl

/-! ## `State.memWrite` -/

@[simp] theorem State.memWrite_prm (s : State) (a x : Word) : (s.memWrite a x).prm = s.prm := rfl
@[simp] theorem State.memWrite_c (s : State) (a x : Word) : (s.memWrite a x).c = s.c := rfl
@[simp] theorem State.memWrite_e (s : State) (a x : Word) : (s.memWrite a x).e = s.e := rfl
@[simp] theorem State.memWrite_mem (s : State) (a x : Word) : (s.memWrite a x).mem = Memory.writeWord s.mem a x := rfl
@[simp] theorem State.memWrite_refused (s : State) (a x : Word) : (s.memWrite a x).refused = s.refused := rfl
@[simp] theorem State.memWrite_results (s : State) (a x : Word) : (s.memWrite a x).results = s.results := rfl
@[simp] theorem State.memWrite_trace (s : State) (a x : Word) : (s.memWrite a x).trace = s.trace ++ [.memWrite a x] := rfl
@[simp] theorem State.memWrite_stream (s : State) (a x : Word) : (s.memWrite a x).stream = s.stream := rfl
@[simp] theorem State.memWrite_turns (s : State) (a x : Word) : (s.memWrite a x).turns = s.turns := rfl
@[simp] theorem State.memWrite_unpub (s : State) (a x : Word) : (s.memWrite a x).unpub = a :: s.unpub := rfl
@[simp] theorem State.memWrite_fresh (s : State) (a x : Word) : (s.memWrite a x).fresh = s.fresh := rfl

/-! ## `State.publish` -/

@[simp] theorem State.publish_prm (s : State) : (s.publish).prm = s.prm := rfl
@[simp] theorem State.publish_c (s : State) : (s.publish).c = s.c := rfl
@[simp] theorem State.publish_e (s : State) : (s.publish).e = s.e := rfl
@[simp] theorem State.publish_mem (s : State) : (s.publish).mem = s.mem := rfl
@[simp] theorem State.publish_refused (s : State) : (s.publish).refused = s.refused := rfl
@[simp] theorem State.publish_results (s : State) : (s.publish).results = s.results := rfl
@[simp] theorem State.publish_trace (s : State) : (s.publish).trace = s.trace ++ [.barrier] := rfl
@[simp] theorem State.publish_stream (s : State) : (s.publish).stream = s.stream := rfl
@[simp] theorem State.publish_turns (s : State) : (s.publish).turns = s.turns := rfl
@[simp] theorem State.publish_unpub (s : State) : (s.publish).unpub = [] := rfl
@[simp] theorem State.publish_fresh (s : State) : (s.publish).fresh = s.fresh := rfl

/-! ## `State.startOp` -/

@[simp] theorem State.startOp_prm (s : State) (o : OpName) (as : List Act) : (s.startOp o as).prm = s.prm := rfl
@[simp] theorem State.startOp_c (s : State) (o : OpName) (as : List Act) : (s.startOp o as).c = { s.c with busy := some { op := o, acts := as, yielded := false } } := rfl
@[simp] theorem State.startOp_e (s : State) (o : OpName) (as : List Act) : (s.startOp o as).e = s.e := rfl
@[simp] theorem State.startOp_mem (s : State) (o : OpName) (as : List Act) : (s.startOp o as).mem = s.mem := rfl
@[simp] theorem State.startOp_refused (s : State) (o : OpName) (as : List Act) : (s.startOp o as).refused = s.refused := rfl
@[simp] theorem State.startOp_results (s : State) (o : OpName) (as : List Act) : (s.startOp o as).results = s.results := rfl
@[simp] theorem State.startOp_trace (s : State) (o : OpName) (as : List Act) : (s.startOp o as).trace = s.trace := rfl
@[simp] theorem State.startOp_stream (s : State) (o : OpName) (as : List Act) : (s.startOp o as).stream = s.stream := rfl
@[simp] theorem State.startOp_turns (s : State) (o : OpName) (as : List Act) : (s.startOp o as).turns = s.turns := rfl
@[simp] theorem State.startOp_unpub (s : State) (o : OpName) (as : List Act) : (s.startOp o as).unpub = s.unpub := rfl
@[simp] theorem State.startOp_fresh (s : State) (o : OpName) (as : List Act) : (s.startOp o as).fresh = s.fresh := rfl

/-! ## `State.endOp` -/

@[simp] theorem State.endOp_prm (s : State) : (s.endOp).prm = s.prm := rfl
@[simp] theorem State.endOp_c (s : State) : (s.endOp).c = { s.c with busy := none } := rfl
@[simp] theorem State.endOp_e (s : State) : (s.endOp).e = s.e := rfl
@[simp] theorem State.endOp_mem (s : State) : (s.endOp).mem = s.mem := rfl
@[simp] theorem State.endOp_refused (s : State) : (s.endOp).refused = s.refused := rfl
@[simp] theorem State.endOp_results (s : State) : (s.endOp).results = s.results := rfl
@[simp] theorem State.endOp_trace (s : State) : (s.endOp).trace = s.trace := rfl
@[simp] theorem State.endOp_stream (s : State) : (s.endOp).stream = s.stream := rfl
@[simp] theorem State.endOp_turns (s : State) : (s.endOp).turns = s.turns := rfl
@[simp] theorem State.endOp_unpub (s : State) : (s.endOp).unpub = s.unpub := rfl
@[simp] theorem State.endOp_fresh (s : State) : (s.endOp).fresh = s.fresh := rfl

/-! ## `State.readEvent` -/

@[simp] theorem State.readEvent_prm (s : State) (r : RReg) : (s.readEvent r).prm = s.prm := rfl
@[simp] theorem State.readEvent_c (s : State) (r : RReg) : (s.readEvent r).c = s.c := rfl
@[simp] theorem State.readEvent_e (s : State) (r : RReg) : (s.readEvent r).e = s.e.afterRead r := rfl
@[simp] theorem State.readEvent_mem (s : State) (r : RReg) : (s.readEvent r).mem = s.mem := rfl
@[simp] theorem State.readEvent_refused (s : State) (r : RReg) : (s.readEvent r).refused = s.refused := rfl
@[simp] theorem State.readEvent_results (s : State) (r : RReg) : (s.readEvent r).results = s.results := rfl
@[simp] theorem State.readEvent_trace (s : State) (r : RReg) : (s.readEvent r).trace = s.trace ++ [.rd r (s.e.readValue r)] := rfl
@[simp] theorem State.readEvent_stream (s : State) (r : RReg) : (s.readEvent r).stream = s.stream := rfl
@[simp] theorem State.readEvent_turns (s : State) (r : RReg) : (s.readEvent r).turns = s.turns := rfl
@[simp] theorem State.readEvent_unpub (s : State) (r : RReg) : (s.readEvent r).unpub = s.unpub := rfl
@[simp] theorem State.readEvent_fresh (s : State) (r : RReg) : (s.readEvent r).fresh = s.fresh := rfl

/-! ## `State.setActs`: only `C.busy` changes -/

@[simp] theorem State.setActs_prm (s : State) (as : List Act) : (s.setActs as).prm = s.prm := by
  unfold State.setActs; split <;> rfl
@[simp] theorem State.setActs_e (s : State) (as : List Act) : (s.setActs as).e = s.e := by
  unfold State.setActs; split <;> rfl
@[simp] theorem State.setActs_mem (s : State) (as : List Act) : (s.setActs as).mem = s.mem := by
  unfold State.setActs; split <;> rfl
@[simp] theorem State.setActs_refused (s : State) (as : List Act) : (s.setActs as).refused = s.refused := by
  unfold State.setActs; split <;> rfl
@[simp] theorem State.setActs_results (s : State) (as : List Act) : (s.setActs as).results = s.results := by
  unfold State.setActs; split <;> rfl
@[simp] theorem State.setActs_trace (s : State) (as : List Act) : (s.setActs as).trace = s.trace := by
  unfold State.setActs; split <;> rfl
@[simp] theorem State.setActs_stream (s : State) (as : List Act) : (s.setActs as).stream = s.stream := by
  unfold State.setActs; split <;> rfl
@[simp] theorem State.setActs_turns (s : State) (as : List Act) : (s.setActs as).turns = s.turns := by
  unfold State.setActs; split <;> rfl
@[simp] theorem State.setActs_unpub (s : State) (as : List Act) : (s.setActs as).unpub = s.unpub := by
  unfold State.setActs; split <;> rfl
@[simp] theorem State.setActs_fresh (s : State) (as : List Act) : (s.setActs as).fresh = s.fresh := by
  unfold State.setActs; split <;> rfl
@[simp] theorem State.setActs_c_cfg (s : State) (as : List Act) : (s.setActs as).c.cfg = s.c.cfg := by
  unfold State.setActs; split <;> rfl
@[simp] theorem State.setActs_c_chan (s : State) (as : List Act) : (s.setActs as).c.chan = s.c.chan := by
  unfold State.setActs; split <;> rfl
@[simp] theorem State.setActs_c_streaming (s : State) (as : List Act) : (s.setActs as).c.streaming = s.c.streaming := by
  unfold State.setActs; split <;> rfl
@[simp] theorem State.setActs_c_fmt (s : State) (as : List Act) : (s.setActs as).c.fmt = s.c.fmt := by
  unfold State.setActs; split <;> rfl
@[simp] theorem State.setActs_c_dirty (s : State) (as : List Act) : (s.setActs as).c.dirty = s.c.dirty := by
  unfold State.setActs; split <;> rfl
@[simp] theorem State.setActs_c_win (s : State) (as : List Act) : (s.setActs as).c.win = s.c.win := by
  unfold State.setActs; split <;> rfl
@[simp] theorem State.setActs_c_rot (s : State) (as : List Act) : (s.setActs as).c.rot = s.c.rot := by
  unfold State.setActs; split <;> rfl
@[simp] theorem State.setActs_c_log (s : State) (as : List Act) : (s.setActs as).c.log = s.c.log := by
  unfold State.setActs; split <;> rfl
@[simp] theorem State.setActs_c_cur (s : State) (as : List Act) : (s.setActs as).c.cur = s.c.cur := by
  unfold State.setActs; split <;> rfl
@[simp] theorem State.setActs_c_nxt (s : State) (as : List Act) : (s.setActs as).c.nxt = s.c.nxt := by
  unfold State.setActs; split <;> rfl

/-! ## `State.push`: only `C.busy` changes -/

@[simp] theorem State.push_prm (s : State) (as : List Act) : (s.push as).prm = s.prm := by
  unfold State.push; split <;> rfl
@[simp] theorem State.push_e (s : State) (as : List Act) : (s.push as).e = s.e := by
  unfold State.push; split <;> rfl
@[simp] theorem State.push_mem (s : State) (as : List Act) : (s.push as).mem = s.mem := by
  unfold State.push; split <;> rfl
@[simp] theorem State.push_refused (s : State) (as : List Act) : (s.push as).refused = s.refused := by
  unfold State.push; split <;> rfl
@[simp] theorem State.push_results (s : State) (as : List Act) : (s.push as).results = s.results := by
  unfold State.push; split <;> rfl
@[simp] theorem State.push_trace (s : State) (as : List Act) : (s.push as).trace = s.trace := by
  unfold State.push; split <;> rfl
@[simp] theorem State.push_stream (s : State) (as : List Act) : (s.push as).stream = s.stream := by
  unfold State.push; split <;> rfl
@[simp] theorem State.push_turns (s : State) (as : List Act) : (s.push as).turns = s.turns := by
  unfold State.push; split <;> rfl
@[simp] theorem State.push_unpub (s : State) (as : List Act) : (s.push as).unpub = s.unpub := by
  unfold State.push; split <;> rfl
@[simp] theorem State.push_fresh (s : State) (as : List Act) : (s.push as).fresh = s.fresh := by
  unfold State.push; split <;> rfl
@[simp] theorem State.push_c_cfg (s : State) (as : List Act) : (s.push as).c.cfg = s.c.cfg := by
  unfold State.push; split <;> rfl
@[simp] theorem State.push_c_chan (s : State) (as : List Act) : (s.push as).c.chan = s.c.chan := by
  unfold State.push; split <;> rfl
@[simp] theorem State.push_c_streaming (s : State) (as : List Act) : (s.push as).c.streaming = s.c.streaming := by
  unfold State.push; split <;> rfl
@[simp] theorem State.push_c_fmt (s : State) (as : List Act) : (s.push as).c.fmt = s.c.fmt := by
  unfold State.push; split <;> rfl
@[simp] theorem State.push_c_dirty (s : State) (as : List Act) : (s.push as).c.dirty = s.c.dirty := by
  unfold State.push; split <;> rfl
@[simp] theorem State.push_c_win (s : State) (as : List Act) : (s.push as).c.win = s.c.win := by
  unfold State.push; split <;> rfl
@[simp] theorem State.push_c_rot (s : State) (as : List Act) : (s.push as).c.rot = s.c.rot := by
  unfold State.push; split <;> rfl
@[simp] theorem State.push_c_log (s : State) (as : List Act) : (s.push as).c.log = s.c.log := by
  unfold State.push; split <;> rfl
@[simp] theorem State.push_c_cur (s : State) (as : List Act) : (s.push as).c.cur = s.c.cur := by
  unfold State.push; split <;> rfl
@[simp] theorem State.push_c_nxt (s : State) (as : List Act) : (s.push as).c.nxt = s.c.nxt := by
  unfold State.push; split <;> rfl

theorem State.setActs_busy (s : State) (b : Busy) (as : List Act) (h : s.c.busy = some b) :
    (s.setActs as).c.busy = some { op := b.op, acts := as, yielded := false } := by
  simp [State.setActs, h]

theorem State.push_busy (s : State) (b : Busy) (as : List Act) (h : s.c.busy = some b) :
    (s.push as).c.busy = some { op := b.op, acts := as ++ b.acts, yielded := b.yielded } := by
  simp [State.push, h]

/-! ## `State.useTurn`: only the turns change -/

@[simp] theorem State.useTurn_prm (s : State) : s.useTurn.prm = s.prm := by
  unfold State.useTurn; split <;> rfl
@[simp] theorem State.useTurn_c (s : State) : s.useTurn.c = s.c := by
  unfold State.useTurn; split <;> rfl
@[simp] theorem State.useTurn_e (s : State) : s.useTurn.e = s.e := by
  unfold State.useTurn; split <;> rfl
@[simp] theorem State.useTurn_mem (s : State) : s.useTurn.mem = s.mem := by
  unfold State.useTurn; split <;> rfl
@[simp] theorem State.useTurn_refused (s : State) : s.useTurn.refused = s.refused := by
  unfold State.useTurn; split <;> rfl
@[simp] theorem State.useTurn_results (s : State) : s.useTurn.results = s.results := by
  unfold State.useTurn; split <;> rfl
@[simp] theorem State.useTurn_trace (s : State) : s.useTurn.trace = s.trace := by
  unfold State.useTurn; split <;> rfl
@[simp] theorem State.useTurn_stream (s : State) : s.useTurn.stream = s.stream := by
  unfold State.useTurn; split <;> rfl
@[simp] theorem State.useTurn_unpub (s : State) : s.useTurn.unpub = s.unpub := by
  unfold State.useTurn; split <;> rfl
@[simp] theorem State.useTurn_fresh (s : State) : s.useTurn.fresh = s.fresh := by
  unfold State.useTurn; split <;> rfl

/-! ## `State.timeout`: only `C.busy` and the results change -/

@[simp] theorem State.timeout_prm (s : State) : s.timeout.prm = s.prm := by
  unfold State.timeout; split <;> [rfl; (split <;> rfl)]
@[simp] theorem State.timeout_e (s : State) : s.timeout.e = s.e := by
  unfold State.timeout; split <;> [rfl; (split <;> rfl)]
@[simp] theorem State.timeout_mem (s : State) : s.timeout.mem = s.mem := by
  unfold State.timeout; split <;> [rfl; (split <;> rfl)]
@[simp] theorem State.timeout_refused (s : State) : s.timeout.refused = s.refused := by
  unfold State.timeout; split <;> [rfl; (split <;> rfl)]
@[simp] theorem State.timeout_trace (s : State) : s.timeout.trace = s.trace := by
  unfold State.timeout; split <;> [rfl; (split <;> rfl)]
@[simp] theorem State.timeout_stream (s : State) : s.timeout.stream = s.stream := by
  unfold State.timeout; split <;> [rfl; (split <;> rfl)]
@[simp] theorem State.timeout_turns (s : State) : s.timeout.turns = s.turns := by
  unfold State.timeout; split <;> [rfl; (split <;> rfl)]
@[simp] theorem State.timeout_unpub (s : State) : s.timeout.unpub = s.unpub := by
  unfold State.timeout; split <;> [rfl; (split <;> rfl)]
@[simp] theorem State.timeout_fresh (s : State) : s.timeout.fresh = s.fresh := by
  unfold State.timeout; split <;> [rfl; (split <;> rfl)]
@[simp] theorem State.timeout_c_cfg (s : State) : s.timeout.c.cfg = s.c.cfg := by
  unfold State.timeout; split <;> [rfl; (split <;> rfl)]
@[simp] theorem State.timeout_c_chan (s : State) : s.timeout.c.chan = s.c.chan := by
  unfold State.timeout; split <;> [rfl; (split <;> rfl)]
@[simp] theorem State.timeout_c_streaming (s : State) : s.timeout.c.streaming = s.c.streaming := by
  unfold State.timeout; split <;> [rfl; (split <;> rfl)]
@[simp] theorem State.timeout_c_fmt (s : State) : s.timeout.c.fmt = s.c.fmt := by
  unfold State.timeout; split <;> [rfl; (split <;> rfl)]
@[simp] theorem State.timeout_c_dirty (s : State) : s.timeout.c.dirty = s.c.dirty := by
  unfold State.timeout; split <;> [rfl; (split <;> rfl)]
@[simp] theorem State.timeout_c_win (s : State) : s.timeout.c.win = s.c.win := by
  unfold State.timeout; split <;> [rfl; (split <;> rfl)]
@[simp] theorem State.timeout_c_rot (s : State) : s.timeout.c.rot = s.c.rot := by
  unfold State.timeout; split <;> [rfl; (split <;> rfl)]
@[simp] theorem State.timeout_c_log (s : State) : s.timeout.c.log = s.c.log := by
  unfold State.timeout; split <;> [rfl; (split <;> rfl)]
@[simp] theorem State.timeout_c_cur (s : State) : s.timeout.c.cur = s.c.cur := by
  unfold State.timeout; split <;> [rfl; (split <;> rfl)]
@[simp] theorem State.timeout_c_nxt (s : State) : s.timeout.c.nxt = s.c.nxt := by
  unfold State.timeout; split <;> [rfl; (split <;> rfl)]

/-! ## Register files of planes and fields -/

@[simp] theorem Planes.get_set_same {α : Type} (x : Planes α) (p : Plane) (a : α) : (x.set p a).get p = a := by
  cases p <;> rfl

theorem Planes.get_set_other {α : Type} (x : Planes α) (p q : Plane) (a : α) (h : q ≠ p) :
    (x.set p a).get q = x.get q := by
  cases p <;> cases q <;> simp_all [Planes.set, Planes.get]

theorem Planes.ext_get {α : Type} (x y : Planes α) (h : ∀ p, x.get p = y.get p) : x = y := by
  cases x; cases y
  have h0 := h .y
  have h1 := h .u
  have h2 := h .v
  simp_all [Planes.get]

@[simp] theorem Cfg.get_set_same (c : Cfg) (f : CfgField) (x : Word) : (c.set f x).get f = x := by
  cases f <;> rfl

theorem Cfg.get_set_other (c : Cfg) (f g : CfgField) (x : Word) (h : g ≠ f) : (c.set f x).get g = c.get g := by
  cases f <;> cases g <;> first | rfl | exact absurd rfl h

end Sys2Proof.Machine
end

