-- ==== Sys2Proof/Laws/Memory.lean ====
section
/-! SUPPORT. The laws of memory: a read after a write, the canonical form under every memory operation, and equal reads
mean equal memories. -/

namespace Sys2Proof.Machine

/-! ## One byte -/

/-- A canonical memory lists nothing below its lower bound. -/
theorem Memory.read_below {lo : Nat} {m : Memory} (h : Memory.wfFrom lo m = true) {a : Nat} (ha : a < lo) :
    Memory.read m a = unlistedByte := by
  induction m generalizing lo with
  | nil => rfl
  | cons c rest ih =>
    obtain ⟨k, b⟩ := c
    simp only [Memory.wfFrom, Bool.and_eq_true, decide_eq_true_eq] at h
    simp only [Memory.read]
    rw [if_neg (by omega)]
    exact ih h.2 (by omega)

/-- The canonical form from a bound is the canonical form from any lower one. -/
theorem Memory.wfFrom_mono {lo lo' : Nat} {m : Memory} (h : Memory.wfFrom lo m = true) (hl : lo' ≤ lo) :
    Memory.wfFrom lo' m = true := by
  cases m with
  | nil => rfl
  | cons c rest =>
    obtain ⟨k, b⟩ := c
    simp only [Memory.wfFrom, Bool.and_eq_true, decide_eq_true_eq] at h ⊢
    exact ⟨⟨⟨by omega, h.1.1.2⟩, h.1.2⟩, h.2⟩

/-- A write keeps the canonical form. -/
theorem Memory.wfFrom_write {lo : Nat} {m : Memory} (h : Memory.wfFrom lo m = true) {a : Nat} (hlo : lo ≤ a)
    (ha : a < 2 ^ 32) (x : Byte) : Memory.wfFrom lo (Memory.write m a x) = true := by
  induction m generalizing lo with
  | nil =>
    by_cases hx : x = unlistedByte
    · simp [Memory.write, hx, Memory.wfFrom]
    · simp only [Memory.write, if_neg hx, Memory.wfFrom, Bool.and_eq_true, decide_eq_true_eq]
      exact ⟨⟨⟨hlo, ha⟩, hx⟩, trivial⟩
  | cons c rest ih =>
    obtain ⟨k, b⟩ := c
    have h' := h
    simp only [Memory.wfFrom, Bool.and_eq_true, decide_eq_true_eq] at h'
    obtain ⟨⟨⟨h1, h2⟩, h3⟩, h4⟩ := h'
    simp only [Memory.write]
    split
    · split
      · exact h
      · simp only [Memory.wfFrom, Bool.and_eq_true, decide_eq_true_eq]
        exact ⟨⟨⟨hlo, ha⟩, ‹_›⟩, ⟨⟨by omega, h2⟩, h3⟩, h4⟩
    · split
      · subst_vars
        split
        · exact Memory.wfFrom_mono h4 (by omega)
        · simp only [Memory.wfFrom, Bool.and_eq_true, decide_eq_true_eq]
          exact ⟨⟨⟨hlo, ha⟩, ‹_›⟩, h4⟩
      · simp only [Memory.wfFrom, Bool.and_eq_true, decide_eq_true_eq]
        exact ⟨⟨⟨h1, h2⟩, h3⟩, ih h4 (by omega)⟩

/-- A write leaves every other byte alone. -/
theorem Memory.read_write_other (m : Memory) {a a' : Nat} (h : a' ≠ a) (x : Byte) :
    Memory.read (Memory.write m a x) a' = Memory.read m a' := by
  induction m with
  | nil =>
    by_cases hx : x = unlistedByte <;> simp [Memory.write, hx, Memory.read, Ne.symm h]
  | cons c rest ih =>
    obtain ⟨k, b⟩ := c
    simp only [Memory.write]
    split
    · split
      · rfl
      · simp [Memory.read, Ne.symm h]
    · split
      · subst_vars
        split <;> simp [Memory.read, Ne.symm h]
      · simp only [Memory.read, ih]

/-- A read after a write to the same byte gives the value written. -/
theorem Memory.read_write_same {lo : Nat} {m : Memory} (h : Memory.wfFrom lo m = true) (a : Nat) (x : Byte) :
    Memory.read (Memory.write m a x) a = x := by
  induction m generalizing lo with
  | nil =>
    by_cases hx : x = unlistedByte <;> simp [Memory.write, hx, Memory.read]
  | cons c rest ih =>
    obtain ⟨k, b⟩ := c
    have h' := h
    simp only [Memory.wfFrom, Bool.and_eq_true, decide_eq_true_eq] at h'
    simp only [Memory.write]
    split
    · split
      · subst_vars
        simp only [Memory.read]
        rw [if_neg (by omega)]
        exact Memory.read_below h'.2 (by omega)
      · simp [Memory.read]
    · split
      · subst_vars
        split
        · subst_vars
          exact Memory.read_below h'.2 (by omega)
        · simp [Memory.read]
      · simp only [Memory.read]
        rw [if_neg (by omega)]
        exact ih h'.2

/-- Canonical memories that read alike everywhere are equal. -/
theorem Memory.ext_of_wf {lo : Nat} {m m' : Memory} (h : Memory.wfFrom lo m = true) (h' : Memory.wfFrom lo m' = true)
    (hr : ∀ a, Memory.read m a = Memory.read m' a) : m = m' := by
  induction m generalizing lo m' with
  | nil =>
    cases m' with
    | nil => rfl
    | cons c rest =>
      obtain ⟨k, b⟩ := c
      simp only [Memory.wfFrom, Bool.and_eq_true, decide_eq_true_eq] at h'
      have := hr k
      simp only [Memory.read, if_true] at this
      exact absurd this.symm h'.1.2
  | cons c rest ih =>
    obtain ⟨k, b⟩ := c
    have w := h
    simp only [Memory.wfFrom, Bool.and_eq_true, decide_eq_true_eq] at w
    cases m' with
    | nil =>
      have := hr k
      simp only [Memory.read, if_true] at this
      exact absurd this w.1.2
    | cons c' rest' =>
      obtain ⟨k', b'⟩ := c'
      have w' := h'
      simp only [Memory.wfFrom, Bool.and_eq_true, decide_eq_true_eq] at w'
      have hk : k = k' := by
        rcases Nat.lt_trichotomy k k' with hlt | heq | hgt
        · have := hr k
          simp only [Memory.read, if_true] at this
          rw [if_neg (by omega), Memory.read_below w'.2 (by omega)] at this
          exact absurd this w.1.2
        · exact heq
        · have := hr k'
          simp only [Memory.read, if_true] at this
          rw [if_neg (by omega), Memory.read_below w.2 (by omega)] at this
          exact absurd this.symm w'.1.2
      subst hk
      have hb : b = b' := by simpa [Memory.read] using hr k
      subst hb
      have hrest : rest = rest' := ih w.2 w'.2 (fun a => by
        by_cases hak : k = a
        · subst hak
          rw [Memory.read_below w.2 (by omega), Memory.read_below w'.2 (by omega)]
        · simpa [Memory.read, hak] using hr a)
      rw [hrest]

/-! ## One word (R53) -/

/-- The bytes of an address n bytes on. -/
theorem byteKey_add (a : Word) (n k : Nat) : byteKey (a + BitVec.ofNat 32 n) k = byteKey a (n + k) := by
  unfold byteKey
  rw [BitVec.add_assoc, ← BitVec.ofNat_add]

/-- The key of a byte of an access is an address. -/
theorem byteKey_lt (a : Word) (k : Nat) : byteKey a k < 2 ^ 32 := (a + BitVec.ofNat 32 k).isLt

/-- The four bytes of an access are four bytes. -/
theorem byteKey_inj (a : Word) {i j : Nat} (hi : i < 4) (hj : j < 4) (h : i ≠ j) : byteKey a i ≠ byteKey a j := by
  simp only [byteKey, BitVec.toNat_add, BitVec.toNat_ofNat]
  have := a.isLt
  omega

/-- A word write leaves every byte outside its four alone. -/
theorem Memory.read_writeWord_other (m : Memory) (a x : Word) {k : Nat} (h0 : k ≠ byteKey a 0) (h1 : k ≠ byteKey a 1)
    (h2 : k ≠ byteKey a 2) (h3 : k ≠ byteKey a 3) : Memory.read (Memory.writeWord m a x) k = Memory.read m k := by
  unfold Memory.writeWord
  rw [Memory.read_write_other _ h3, Memory.read_write_other _ h2, Memory.read_write_other _ h1,
    Memory.read_write_other _ h0]

/-- A word write keeps the canonical form. -/
theorem Memory.wf_writeWord {m : Memory} (h : Memory.wf m = true) (a x : Word) :
    Memory.wf (Memory.writeWord m a x) = true := by
  unfold Memory.writeWord Memory.wf
  refine Memory.wfFrom_write (Memory.wfFrom_write (Memory.wfFrom_write (Memory.wfFrom_write h ?_ ?_ _) ?_ ?_ _)
    ?_ ?_ _) ?_ ?_ _ <;> first | exact Nat.zero_le _ | exact byteKey_lt _ _

/-- The four bytes a word write leaves. -/
theorem Memory.read_writeWord_same {m : Memory} (h : Memory.wf m = true) (a x : Word) :
    Memory.read (Memory.writeWord m a x) (byteKey a 0) = x.extractLsb' 0 8
      ∧ Memory.read (Memory.writeWord m a x) (byteKey a 1) = x.extractLsb' 8 8
      ∧ Memory.read (Memory.writeWord m a x) (byteKey a 2) = x.extractLsb' 16 8
      ∧ Memory.read (Memory.writeWord m a x) (byteKey a 3) = x.extractLsb' 24 8 := by
  have w0 := Memory.wfFrom_write h (Nat.zero_le _) (byteKey_lt a 0) (x.extractLsb' 0 8)
  have w1 := Memory.wfFrom_write w0 (Nat.zero_le _) (byteKey_lt a 1) (x.extractLsb' 8 8)
  have w2 := Memory.wfFrom_write w1 (Nat.zero_le _) (byteKey_lt a 2) (x.extractLsb' 16 8)
  have ne : ∀ i j, i < 4 → j < 4 → i ≠ j → byteKey a i ≠ byteKey a j := fun i j => byteKey_inj a
  unfold Memory.writeWord
  refine ⟨?_, ?_, ?_, ?_⟩
  · rw [Memory.read_write_other _ (ne 0 3 (by decide) (by decide) (by decide)),
      Memory.read_write_other _ (ne 0 2 (by decide) (by decide) (by decide)),
      Memory.read_write_other _ (ne 0 1 (by decide) (by decide) (by decide)), Memory.read_write_same h]
  · rw [Memory.read_write_other _ (ne 1 3 (by decide) (by decide) (by decide)),
      Memory.read_write_other _ (ne 1 2 (by decide) (by decide) (by decide)), Memory.read_write_same w0]
  · rw [Memory.read_write_other _ (ne 2 3 (by decide) (by decide) (by decide)), Memory.read_write_same w1]
  · rw [Memory.read_write_same w2]

/-- Four bytes of a word, joined again. -/
theorem word_of_bytes (x : Word) :
    x.extractLsb' 24 8 ++ x.extractLsb' 16 8 ++ x.extractLsb' 8 8 ++ x.extractLsb' 0 8 = x := by
  ext i hi
  simp only [BitVec.getElem_append, BitVec.getElem_extractLsb']
  split
  · simp [BitVec.getLsbD_eq_getElem hi]
  · split
    · rw [← BitVec.getLsbD_eq_getElem hi]; congr 1; omega
    · split
      · rw [← BitVec.getLsbD_eq_getElem hi]; congr 1; omega
      · rw [← BitVec.getLsbD_eq_getElem hi]; congr 1; omega

/-- A word read after a word write to the same address gives the word written (R53). -/
theorem Memory.readWord_writeWord_same {m : Memory} (h : Memory.wf m = true) (a x : Word) :
    Memory.readWord (Memory.writeWord m a x) a = x := by
  obtain ⟨h0, h1, h2, h3⟩ := Memory.read_writeWord_same h a x
  unfold Memory.readWord
  rw [h0, h1, h2, h3]
  exact word_of_bytes x

/-- A word read at an address whose four bytes the write does not touch gives what it gave before. -/
theorem Memory.readWord_writeWord_other (m : Memory) {a a' : Word} (x : Word)
    (h : ∀ i j, i < 4 → j < 4 → byteKey a' i ≠ byteKey a j) :
    Memory.readWord (Memory.writeWord m a x) a' = Memory.readWord m a' := by
  unfold Memory.readWord
  rw [Memory.read_writeWord_other _ _ _ (h 0 0 (by decide) (by decide)) (h 0 1 (by decide) (by decide))
      (h 0 2 (by decide) (by decide)) (h 0 3 (by decide) (by decide)),
    Memory.read_writeWord_other _ _ _ (h 1 0 (by decide) (by decide)) (h 1 1 (by decide) (by decide))
      (h 1 2 (by decide) (by decide)) (h 1 3 (by decide) (by decide)),
    Memory.read_writeWord_other _ _ _ (h 2 0 (by decide) (by decide)) (h 2 1 (by decide) (by decide))
      (h 2 2 (by decide) (by decide)) (h 2 3 (by decide) (by decide)),
    Memory.read_writeWord_other _ _ _ (h 3 0 (by decide) (by decide)) (h 3 1 (by decide) (by decide))
      (h 3 2 (by decide) (by decide)) (h 3 3 (by decide) (by decide))]

/-- Reset memory is in canonical form. -/
theorem reset_mem_wf : Memory.wf State.reset.mem = true := rfl

/-- The controller's memory write keeps the canonical form. -/
theorem State.memWrite_wf {s : State} (h : Memory.wf s.mem = true) (a x : Word) :
    Memory.wf (s.memWrite a x).mem = true := Memory.wf_writeWord h a x

end Sys2Proof.Machine
end

