-- ==== Sys2Proof/Laws/Ops.lean ====
section
/-! SUPPORT. What each shared operation can do, said once: who may step, the register file's writes and reads, the events of
an operation, and how a burst runs an operation (R46, R85 to R104, R190, R194, R195). -/

namespace Sys2Proof.Machine

/-! ## Who may step -/

/-- A controller operation runs when the controller is ready. -/
theorem controllerStep_ready {s : State} (h : s.ready) (t : State) : controllerStep s t = .next t := by
  unfold controllerStep
  rw [h.1, h.2]

/-- A controller operation answers a next state only when the controller is ready, and that one. -/
theorem controllerStep_next {s t u : State} (h : controllerStep s t = .next u) : s.ready ∧ u = t := by
  unfold controllerStep at h
  split at h
  · cases h
  · split at h
    · cases h
    · cases h
      exact ⟨⟨‹_›, ‹_›⟩, rfl⟩

/-- An enabled engine event runs when the engine is ready. -/
theorem engineStep_ready {s : State} (h : s.engineReady) {en : Bool} (he : en = true) (t : State) :
    engineStep s en t = .next t := by
  unfold engineStep
  rw [h.1, h.2, he]
  rfl

/-- An engine event answers a next state only when the engine is ready and the event enabled, and that one. -/
theorem engineStep_next {s t u : State} {en : Bool} (h : engineStep s en t = .next u) :
    s.engineReady ∧ en = true ∧ u = t := by
  unfold engineStep at h
  split at h
  · cases h
  · split at h
    · cases h
    · split at h
      · cases h
        exact ⟨⟨‹_›, ‹_›⟩, ‹_›, rfl⟩
      · cases h

/-! ## Register writes and reads -/

/-- All a register write can do to the engine. -/
theorem Engine.write_ok {e e' : Engine} {r : WReg} {x : Word} (h : e.write r x = .ok e') :
    (r = .cher ∧ within x cherMask = true ∧ (x.getLsbD 0 && e.chen && e.dispend) = false
        ∧ e' = { e with chen := e.chen || x.getLsbD 0, updpend := e.updpend || x.getLsbD 1 })
      ∨ (r = .chdr ∧ within x chdrMask = true ∧ e' = { e with dispend := e.dispend || (x.getLsbD 0 && e.chen) })
      ∨ (r = .ier ∧ within x imask = true ∧ e' = { e with imr := e.imr ||| x })
      ∨ (r = .idr ∧ within x imask = true ∧ e' = { e with imr := e.imr &&& ~~~x })
      ∨ (∃ p, r = .head p ∧ wordAligned x = true ∧ e' = { e with head := e.head.set p x })
      ∨ (∃ f, r = .cfg f ∧ e' = { e with shadow := e.shadow.set f x }) := by
  cases r with
  | cher =>
    simp only [Engine.write, Engine.writeCher] at h
    split at h
    · cases h
    · split at h
      · cases h
      · cases h; simp_all
  | chdr =>
    simp only [Engine.write, Engine.writeChdr] at h
    split at h
    · cases h
    · cases h; simp_all
  | ier =>
    simp only [Engine.write, Engine.writeIer] at h
    split at h
    · cases h
    · cases h; simp_all
  | idr =>
    simp only [Engine.write, Engine.writeIdr] at h
    split at h
    · cases h
    · cases h; simp_all
  | head p =>
    simp only [Engine.write, Engine.writeHead] at h
    split at h
    · cases h
    · cases h; simp_all
  | cfg f =>
    simp only [Engine.write, Engine.writeCfg] at h
    cases h; simp

/-- A write event is refused, or it changes the engine as the write rule says and is recorded. -/
theorem State.writeEvent_cases (s : State) (r : WReg) (x : Word) (sync : Bool) :
    (∃ reason, s.e.write r x = .error reason ∧ s.writeEvent r x sync = s.refuse reason)
      ∨ ∃ e, s.e.write r x = .ok e
          ∧ s.writeEvent r x sync = (s.setE { e with sipsts := e.sipsts || sync }).record (.wr r x) := by
  unfold State.writeEvent
  cases h : s.e.write r x with
  | error reason => exact .inl ⟨reason, rfl, rfl⟩
  | ok e => exact .inr ⟨e, rfl, rfl⟩

/-- All a read can do to the engine: ISR is cleared by its read. -/
theorem Engine.afterRead_cases (e : Engine) (r : RReg) :
    (r = .isr ∧ e.afterRead r = { e with isr := 0#32 }) ∨ (r ≠ .isr ∧ e.afterRead r = e) := by
  cases r <;> simp [Engine.afterRead]

/-- One poll of a synchronised write: the read, then the write, a timeout, or another poll. -/
theorem State.pollEvent_cases (s : State) (r : WReg) (x : Word) (n : Nat) :
    (s.e.sipsts = false ∧ s.pollEvent r x n = (s.readEvent .syncsr).push [.wrs r x])
      ∨ (s.e.sipsts = true ∧ SyncWait.expired s.prm.syncWait (n + 1) = true
          ∧ s.pollEvent r x n = (s.readEvent .syncsr).timeout)
      ∨ (s.e.sipsts = true ∧ SyncWait.expired s.prm.syncWait (n + 1) = false
          ∧ s.pollEvent r x n = (s.readEvent .syncsr).push [.poll r x (n + 1)]) := by
  unfold State.pollEvent
  cases hs : s.e.sipsts
  · left
    refine ⟨rfl, ?_⟩
    simp [Engine.readValue, Engine.syncsr, bitWord, hs]
  · right
    cases hx : SyncWait.expired s.prm.syncWait (n + 1)
    · right
      refine ⟨rfl, rfl, ?_⟩
      simp [Engine.readValue, Engine.syncsr, bitWord, hs]
    · left
      refine ⟨rfl, rfl, ?_⟩
      simp [Engine.readValue, Engine.syncsr, bitWord, hs]

/-- The engine's read of a descriptor word: the word in memory, or a free value where it is not yet published. -/
theorem State.engineRead_cases (s : State) (a : Word) :
    (unpublished s.unpub a = false ∧ s.engineRead a = (Memory.readWord s.mem a, s))
      ∨ (unpublished s.unpub a = true ∧ s.engineRead a = (Config.freeWord s.fresh, { s with fresh := s.fresh + 1 })) := by
  unfold State.engineRead
  cases h : unpublished s.unpub a
  · exact .inl ⟨rfl, rfl⟩
  · exact .inr ⟨rfl, rfl⟩

/-- With every descriptor word published, the engine reads memory. -/
theorem State.engineRead_published {s : State} (h : s.unpub = []) (a : Word) :
    s.engineRead a = (Memory.readWord s.mem a, s) := by
  unfold State.engineRead
  rw [h]
  rfl

/-! ## The position in an operation -/

@[simp] theorem State.startOp_setActs (s : State) (op : OpName) (acts rest : List Act) :
    (s.startOp op acts).setActs rest = s.startOp op rest := rfl

@[simp] theorem State.startOp_push (s : State) (op : OpName) (acts more : List Act) :
    (s.startOp op acts).push more = s.startOp op (more ++ acts) := rfl

@[simp] theorem State.startOp_endOp (s : State) (op : OpName) (acts : List Act) :
    (s.startOp op acts).endOp = s.endOp := rfl

@[simp] theorem State.startOp_refuse (s : State) (op : OpName) (acts : List Act) (r : RefuseReason) :
    (s.startOp op acts).refuse r = s.refuse r := rfl

@[simp] theorem State.startOp_unsplit (s : State) (op : OpName) (acts : List Act) :
    (s.startOp op acts).unsplit ↔ s.unsplit := Iff.rfl

/-- A state without an operation in progress is as it is after one ends. -/
theorem State.endOp_of_free {s : State} (h : s.c.busy = none) : s.endOp = s := by
  obtain ⟨prm, c, e, mem, rf, rs, tr, st, tu, un, fr⟩ := s
  obtain ⟨a, b, d, f, g, i, j, k, l, m, n⟩ := c
  cases h
  rfl

/-- Where operations are not split, no turn is used. -/
theorem State.useTurn_of_unsplit {s : State} (h : s.unsplit) : s.useTurn = s := by
  unfold State.useTurn
  split
  · rfl
  · rename_i ha
    rcases h with h | h
    · exact absurd h ha
    · obtain ⟨prm, c, e, mem, rf, rs, tr, st, tu, un, fr⟩ := s
      cases h
      rfl

/-! ## Bursts -/

/-- Whatever each action, each used turn and the end of an operation keep, a burst keeps. -/
theorem burst_ind (P : State → Prop)
    (hend : ∀ s b, s.c.busy = some b → b.acts = [] → P s → P s.endOp) (hturn : ∀ s, P s → P s.useTurn)
    (hact : ∀ s b a rest, s.c.busy = some b → b.acts = a :: rest → P s → P (perform a (s.setActs rest)))
    (n : Nat) (g : Bool) (s : State) (h : P s) : P (burst n g s) := by
  induction n generalizing g s with
  | zero => exact h
  | succ n ih =>
    unfold burst
    split
    · exact h
    · rename_i b hb
      split
      · exact hend s b hb ‹_› h
      · rename_i a rest hacts
        split
        · exact ih _ _ (hact s b a rest hb hacts h)
        · split
          · exact ih _ _ (hact s b a rest hb hacts h)
          · split
            · exact h
            · refine ih _ _ (hact s.useTurn b a rest ?_ hacts (hturn s h))
              unfold State.useTurn
              split <;> exact hb

/-- The end of an operation. -/
theorem burst_nil (n : Nat) (g : Bool) (s : State) (op : OpName) : burst (n + 1) g (s.startOp op []) = s.endOp := rfl

/-- A state without an operation in progress stays. -/
theorem burst_free (n : Nat) (g : Bool) {s : State} (h : s.c.busy = none) : burst n g s = s := by
  cases n with
  | zero => rfl
  | succ n => unfold burst; rw [h]

/-- A granted event is taken. -/
theorem burst_granted (n : Nat) (s : State) (op : OpName) {a : Act} (ha : a.isEvent = true) (rest : List Act) :
    burst (n + 1) true (s.startOp op (a :: rest)) = burst n false (perform a (s.startOp op rest)) := by
  simp [burst, State.startOp, State.setActs, ha]

/-- An event that is no wait point follows at once where operations are not split. -/
theorem burst_event (n : Nat) {s : State} (hs : s.unsplit) (op : OpName) {a : Act} (ha : a.isEvent = true)
    (hw : a.isWait = false) (rest : List Act) :
    burst (n + 1) false (s.startOp op (a :: rest)) = burst n false (perform a (s.startOp op rest)) := by
  have hy : (s.startOp op (a :: rest)).yieldsBefore a = false := by
    unfold State.yieldsBefore
    rw [hw]
    rcases hs with h | h
    · simp [h]
    · simp [State.startOp, h]
  have hu : (s.startOp op (a :: rest)).useTurn = s.startOp op (a :: rest) :=
    State.useTurn_of_unsplit ((State.startOp_unsplit s op _).mpr hs)
  have hb : (s.startOp op (a :: rest)).c.busy = some { op := op, acts := a :: rest, yielded := false } := rfl
  rw [burst.eq_def]
  simp only [hb]
  simp [ha, hy, hu]

/-- The controller's own bookkeeping is done at once. -/
theorem burst_local (n : Nat) (g : Bool) (s : State) (op : OpName) {a : Act} (ha : a.isEvent = false) (rest : List Act) :
    burst (n + 1) g (s.startOp op (a :: rest)) = burst n g (perform a (s.startOp op rest)) := by
  simp [burst, State.startOp, State.setActs, ha]

/-- An operation stops before a wait point that nothing has granted. -/
theorem burst_wait (n : Nat) (s : State) (op : OpName) {a : Act} (ha : a.isEvent = true) (hw : a.isWait = true)
    (rest : List Act) : burst (n + 1) false (s.startOp op (a :: rest)) = s.startOp op (a :: rest) := by
  simp [burst, State.startOp, ha, State.yieldsBefore, hw]

/-! ## What one action does to an operation in progress -/

/-- A plain write that the register accepts. -/
theorem perform_wr {s : State} {r : WReg} {x : Word} {e : Engine} (h : s.e.write r x = .ok e) (op : OpName)
    (acts : List Act) : perform (.wr r x) (s.startOp op acts) = ((s.setE e).record (.wr r x)).startOp op acts := by
  simp [perform, State.writeEvent, h, State.startOp, State.setE, State.record]

/-- The write that ends a synchronised write. -/
theorem perform_wrs {s : State} {r : WReg} {x : Word} {e : Engine} (h : s.e.write r x = .ok e) (op : OpName)
    (acts : List Act) :
    perform (.wrs r x) (s.startOp op acts) = ((s.setE { e with sipsts := true }).record (.wr r x)).startOp op acts := by
  simp [perform, State.writeEvent, h, State.startOp, State.setE, State.record]

/-- A write that the register refuses. -/
theorem perform_wr_refused {s : State} {r : WReg} {x : Word} {reason : RefuseReason}
    (h : s.e.write r x = .error reason) (op : OpName) (acts : List Act) :
    perform (.wr r x) (s.startOp op acts) = s.refuse reason := by
  simp [perform, State.writeEvent, h]

/-- A read. -/
theorem perform_rd (s : State) (r : RReg) (op : OpName) (acts : List Act) :
    perform (.rd r) (s.startOp op acts) = (s.readEvent r).startOp op acts := rfl

/-- A memory write. -/
theorem perform_memWrite (s : State) (a x : Word) (op : OpName) (acts : List Act) :
    perform (.memWrite a x) (s.startOp op acts) = (s.memWrite a x).startOp op acts := rfl

/-- A barrier. -/
theorem perform_barrier (s : State) (op : OpName) (acts : List Act) :
    perform .barrier (s.startOp op acts) = s.publish.startOp op acts := rfl

/-- A result. -/
theorem perform_finish (s : State) (r : Result) (op : OpName) (acts : List Act) :
    perform (.finish r) (s.startOp op acts) = (s.report r).startOp op acts := rfl

/-- A change of ConfigState. -/
theorem perform_setCfg (s : State) (x : ConfigState) (op : OpName) (acts : List Act) :
    perform (.setCfg x) (s.startOp op acts) = (s.setC { s.c with cfg := x }).startOp op acts := rfl

/-- A change of ChannelState. -/
theorem perform_setChan (s : State) (x : ChannelState) (op : OpName) (acts : List Act) :
    perform (.setChan x) (s.startOp op acts) = (s.setC { s.c with chan := x }).startOp op acts := rfl

/-- The pipeline update of a show. -/
theorem perform_advance (s : State) (b : Buffer) (u : Bool) (op : OpName) (acts : List Act) :
    perform (.advance b u) (s.startOp op acts) = (s.setC (s.c.advance b u)).startOp op acts := by
  unfold perform Controller.advance
  cases u
  · cases h : s.c.cur <;> simp [State.startOp, State.setC, Controller.retire, Controller.complete, h]
  · cases h : s.c.nxt <;> simp [State.startOp, State.setC, Controller.retire, Controller.complete, h]

/-! ## A micro-operation that stands alone -/

/-- A plain write that stands alone: one event, whatever the turns. -/
theorem writeMicro_ok {s : State} (h : s.ready) {r : WReg} (hr : r ∉ s.prm.syncRegs) {x : Word} {e : Engine}
    (he : s.e.write r x = .ok e) : writeMicro r x s = .next ((s.setE e).record (.wr r x)) := by
  unfold writeMicro
  rw [controllerStep_ready h]
  congr 1
  unfold State.runOp wrAct burstFuel
  rw [if_neg hr, burst_granted _ _ _ rfl, perform_wr he, burst_nil]
  exact State.endOp_of_free h.2

/-- A plain write that stands alone and is refused: the mark, and nothing else. -/
theorem writeMicro_refused {s : State} (h : s.ready) {r : WReg} (hr : r ∉ s.prm.syncRegs) {x : Word}
    {reason : RefuseReason} (he : s.e.write r x = .error reason) : writeMicro r x s = .next (s.refuse reason) := by
  unfold writeMicro
  rw [controllerStep_ready h]
  congr 1
  unfold State.runOp wrAct burstFuel
  rw [if_neg hr, burst_granted _ _ _ rfl, perform_wr_refused he]
  exact burst_free _ _ rfl

/-- A read that stands alone: one event, whatever the turns. -/
theorem readMicro_ok {s : State} (h : s.ready) (r : RReg) : readMicro r s = .next (s.readEvent r) := by
  unfold readMicro
  rw [controllerStep_ready h]
  congr 1
  unfold State.runOp burstFuel
  rw [burst_granted _ _ _ rfl, perform_rd, burst_nil]
  exact State.endOp_of_free h.2

/-! ## What no action of an operation does -/

/-- A read event changes the engine only in ISR. -/
theorem State.readEvent_engine (s : State) (r : RReg) :
    (s.readEvent r).e = s.e ∨ (s.readEvent r).e = { s.e with isr := 0#32 } := by
  rcases s.e.afterRead_cases r with ⟨-, h⟩ | ⟨-, h⟩
  · exact .inr h
  · exact .inl h

/-- What an event of the controller may do to the engine (R187). -/
def Engine.controllerReaches (e e' : Engine) : Prop :=
  e'.active = e.active ∧ e'.addr = e.addr ∧ e'.ctrl = e.ctrl ∧ e'.next = e.next ∧ e'.addr0 = e.addr0
    ∧ e'.dload = e.dload ∧ e'.phase = e.phase ∧ e'.fault = e.fault
    ∧ (e.chen = true → e'.chen = true) ∧ (e.dispend = true → e'.dispend = true)
    ∧ (e.updpend = true → e'.updpend = true) ∧ (e.sipsts = true → e'.sipsts = true)
    ∧ (e'.isr = e.isr ∨ e'.isr = 0#32)

theorem Engine.controllerReaches_refl (e : Engine) : e.controllerReaches e := by
  simp [Engine.controllerReaches]

theorem Engine.controllerReaches_trans {e f g : Engine} (h : e.controllerReaches f) (h' : f.controllerReaches g) :
    e.controllerReaches g := by
  obtain ⟨a1, a2, a3, a4, a5, a6, a7, a8, a9, a10, a11, a12, a13⟩ := h
  obtain ⟨b1, b2, b3, b4, b5, b6, b7, b8, b9, b10, b11, b12, b13⟩ := h'
  refine ⟨b1.trans a1, b2.trans a2, b3.trans a3, b4.trans a4, b5.trans a5, b6.trans a6, b7.trans a7, b8.trans a8,
    fun h => b9 (a9 h), fun h => b10 (a10 h), fun h => b11 (a11 h), fun h => b12 (a12 h), ?_⟩
  rcases b13 with h | h
  · rw [h]; exact a13
  · exact .inr h

/-- A write event of the controller reaches no further. -/
theorem State.writeEvent_reaches (s : State) (r : WReg) (x : Word) (sync : Bool) :
    s.e.controllerReaches (s.writeEvent r x sync).e := by
  rcases s.writeEvent_cases r x sync with ⟨reason, -, h⟩ | ⟨e, he, h⟩
  · rw [h]; exact Engine.controllerReaches_refl _
  · rw [h]
    simp only [State.record_e, State.setE_e]
    rcases Engine.write_ok he with ⟨-, -, -, rfl⟩ | ⟨-, -, rfl⟩ | ⟨-, -, rfl⟩ | ⟨-, -, rfl⟩ | ⟨p, -, -, rfl⟩ | ⟨f, -, rfl⟩
      <;> simp +contextual [Engine.controllerReaches]

/-- A read event of the controller reaches no further. -/
theorem State.readEvent_reaches (s : State) (r : RReg) : s.e.controllerReaches (s.readEvent r).e := by
  rcases s.readEvent_engine r with h | h <;> rw [h] <;> simp [Engine.controllerReaches]

end Sys2Proof.Machine
end

