-- ==== Sys2Proof/Laws/Dispatch.lean ====
section
/-! SUPPORT. The instructions by kind: what exec runs for a register group, and the kinds there are. -/

namespace Sys2Proof.Machine

/-! ## The groups of the opcode table (R84) -/

/-- Every WR is one write micro-operation. -/
theorem exec_ofWr (r : WReg) (x : Word) (s : State) : exec (Instr.ofWr r x) s = writeMicro r x s := by
  cases r with
  | head p => cases p <;> rfl
  | cfg f => cases f <;> rfl
  | _ => rfl

/-- Every RD is one read micro-operation. -/
theorem exec_ofRd (r : RReg) (s : State) : exec (Instr.ofRd r) s = readMicro r s := by
  cases r with
  | head p => cases p <;> rfl
  | addr p => cases p <;> rfl
  | ctrl p => cases p <;> rfl
  | next p => cases p <;> rfl
  | cfg f => cases f <;> rfl
  | _ => rfl

/-- Every E_FETCH is one engine event. -/
theorem exec_ofFetch (p : Plane) (a : Word) (s : State) :
    exec (Instr.ofFetch p a) s = engineStep s (s.fetchEnabled p a) (s.fetchAt p a) := by
  cases p <;> rfl

/-- Every E_OVR is one engine event. -/
theorem exec_ofOvr (p : Plane) (s : State) :
    exec (Instr.ofOvr p) s = engineStep s (s.ovrEnabled p) (s.overflow p) := by
  cases p <;> rfl

/-- The kinds of instruction that are controller operations. -/
inductive ControllerKind : Instr → Prop
  | sfmt (tag : Word) (w h : Int) : ControllerKind (.sfmt tag w h)
  | swin (l t ww wh : Int) : ControllerKind (.swin l t ww wh)
  | srot (deg : Int) : ControllerKind (.srot deg)
  | qbuf (id base0 base1 base2 : Word) : ControllerKind (.qbuf id base0 base1 base2)
  | streamon : ControllerKind .streamon
  | streamoff : ControllerKind .streamoff
  | irq : ControllerKind .irq
  | barrier : ControllerKind .barrier
  | wr (r : WReg) (x : Word) : ControllerKind (Instr.ofWr r x)
  | rd (r : RReg) : ControllerKind (Instr.ofRd r)

/-- The kinds of instruction that are engine events. -/
inductive EngineKind : Instr → Prop
  | fstart : EngineKind .eFstart
  | fetch (p : Plane) (a : Word) : EngineKind (Instr.ofFetch p a)
  | fend : EngineKind .eFend
  | ovr (p : Plane) : EngineKind (Instr.ofOvr p)
  | sync : EngineKind .eSync

/-- An instruction that is no engine event is a controller operation of one of the kinds. -/
theorem controllerKind_of {i : Instr} (h : isEngineEvent i = false) : ControllerKind i := by
  cases i with
  | sfmt tag w hh => exact .sfmt tag w hh
  | swin l t ww wh => exact .swin l t ww wh
  | srot deg => exact .srot deg
  | qbuf id base0 base1 base2 => exact .qbuf id base0 base1 base2
  | streamon => exact .streamon
  | streamoff => exact .streamoff
  | irq => exact .irq
  | barrier => exact .barrier
  | wrCher x => exact .wr .cher x
  | wrChdr x => exact .wr .chdr x
  | wrIer x => exact .wr .ier x
  | wrIdr x => exact .wr .idr x
  | wrHeadY x => exact .wr (.head .y) x
  | wrHeadU x => exact .wr (.head .u) x
  | wrHeadV x => exact .wr (.head .v) x
  | wrCfgMode x => exact .wr (.cfg .mode) x
  | wrCfgXpos x => exact .wr (.cfg .xpos) x
  | wrCfgYpos x => exact .wr (.cfg .ypos) x
  | wrCfgXsize x => exact .wr (.cfg .xsize) x
  | wrCfgYsize x => exact .wr (.cfg .ysize) x
  | wrCfgXmemsize x => exact .wr (.cfg .xmemsize) x
  | wrCfgYmemsize x => exact .wr (.cfg .ymemsize) x
  | wrCfgXfactor x => exact .wr (.cfg .xfactor) x
  | wrCfgYfactor x => exact .wr (.cfg .yfactor) x
  | wrCfgCoeff x => exact .wr (.cfg .coeff) x
  | wrCfgXstrideY x => exact .wr (.cfg .xstrideY) x
  | wrCfgPstrideY x => exact .wr (.cfg .pstrideY) x
  | wrCfgXstrideU x => exact .wr (.cfg .xstrideU) x
  | wrCfgPstrideU x => exact .wr (.cfg .pstrideU) x
  | wrCfgXstrideV x => exact .wr (.cfg .xstrideV) x
  | wrCfgPstrideV x => exact .wr (.cfg .pstrideV) x
  | rdChsr => exact .rd .chsr
  | rdImr => exact .rd .imr
  | rdIsr => exact .rd .isr
  | rdHeadY => exact .rd (.head .y)
  | rdHeadU => exact .rd (.head .u)
  | rdHeadV => exact .rd (.head .v)
  | rdAddrY => exact .rd (.addr .y)
  | rdAddrU => exact .rd (.addr .u)
  | rdAddrV => exact .rd (.addr .v)
  | rdCtrlY => exact .rd (.ctrl .y)
  | rdCtrlU => exact .rd (.ctrl .u)
  | rdCtrlV => exact .rd (.ctrl .v)
  | rdNextY => exact .rd (.next .y)
  | rdNextU => exact .rd (.next .u)
  | rdNextV => exact .rd (.next .v)
  | rdCfgMode => exact .rd (.cfg .mode)
  | rdCfgXpos => exact .rd (.cfg .xpos)
  | rdCfgYpos => exact .rd (.cfg .ypos)
  | rdCfgXsize => exact .rd (.cfg .xsize)
  | rdCfgYsize => exact .rd (.cfg .ysize)
  | rdCfgXmemsize => exact .rd (.cfg .xmemsize)
  | rdCfgYmemsize => exact .rd (.cfg .ymemsize)
  | rdCfgXfactor => exact .rd (.cfg .xfactor)
  | rdCfgYfactor => exact .rd (.cfg .yfactor)
  | rdCfgCoeff => exact .rd (.cfg .coeff)
  | rdCfgXstrideY => exact .rd (.cfg .xstrideY)
  | rdCfgPstrideY => exact .rd (.cfg .pstrideY)
  | rdCfgXstrideU => exact .rd (.cfg .xstrideU)
  | rdCfgPstrideU => exact .rd (.cfg .pstrideU)
  | rdCfgXstrideV => exact .rd (.cfg .xstrideV)
  | rdCfgPstrideV => exact .rd (.cfg .pstrideV)
  | rdSyncsr => exact .rd .syncsr
  | eFstart => cases h
  | eFetchY a => cases h
  | eFetchU a => cases h
  | eFetchV a => cases h
  | eFend => cases h
  | eOvrY => cases h
  | eOvrU => cases h
  | eOvrV => cases h
  | eSync => cases h

/-- An engine event is of one of the kinds. -/
theorem engineKind_of {i : Instr} (h : isEngineEvent i = true) : EngineKind i := by
  cases i with
  | eFstart => exact .fstart
  | eFetchY a => exact .fetch .y a
  | eFetchU a => exact .fetch .u a
  | eFetchV a => exact .fetch .v a
  | eFend => exact .fend
  | eOvrY => exact .ovr .y
  | eOvrU => exact .ovr .u
  | eOvrV => exact .ovr .v
  | eSync => exact .sync
  | _ => cases h

/-! ## How a controller operation answers -/

/-- A controller operation answers a next state only when the controller is ready. -/
theorem ready_of_controller {i : Instr} {s t : State} (hi : isEngineEvent i = false) (h : exec i s = .next t) :
    s.ready := by
  have k := controllerKind_of hi
  cases k with
  | wr r x => rw [exec_ofWr] at h; exact (controllerStep_next h).1
  | rd r => rw [exec_ofRd] at h; exact (controllerStep_next h).1
  | irq =>
    change execIrq s = .next t at h
    unfold execIrq at h
    split at h
    · cases h
    · exact (controllerStep_next h).1
  | _ => exact (controllerStep_next h).1

/-- An engine event answers a next state only when the engine is ready. -/
theorem engineReady_of_event {i : Instr} {s t : State} (hi : isEngineEvent i = true) (h : exec i s = .next t) :
    s.engineReady := by
  have k := engineKind_of hi
  cases k with
  | fetch p a => rw [exec_ofFetch] at h; exact (engineStep_next h).1
  | ovr p => rw [exec_ofOvr] at h; exact (engineStep_next h).1
  | _ => exact (engineStep_next h).1

end Sys2Proof.Machine
end

