-- ==== Sys2Proof/Laws/Step.lean ====
section
/-! SUPPORT. What a step can do, said once. -/

namespace Sys2Proof.Machine

/-- What a step leaves as it was before the instruction it runs sees the state: only the stream, the turns and, at a wait
point, the mark that the engine has had its turn. -/
structure SameBut (s u : State) : Prop where
  prm : u.prm = s.prm
  e : u.e = s.e
  mem : u.mem = s.mem
  refused : u.refused = s.refused
  results : u.results = s.results
  trace : u.trace = s.trace
  unpub : u.unpub = s.unpub
  fresh : u.fresh = s.fresh

/-- The engine's offer is an engine event, at a state that differs in the stream alone. -/
theorem State.engineOffer_some {v u : State} {i : Instr} (h : v.engineOffer = some (i, u)) :
    isEngineEvent i = true ∧ u.c = v.c ∧ SameBut v u := by
  have fs : ∀ w : State, ∀ j, w.frameStep = some j → isEngineEvent j = true := by
    intro w j hj
    unfold State.frameStep at hj
    split at hj
    · cases hj
    · split at hj
      · split at hj <;> cases hj
        rfl
      · cases hj
        rfl
  unfold State.engineOffer at h
  split at h
  · split at h
    · cases h
      exact ⟨‹_›, rfl, rfl, rfl, rfl, rfl, rfl, rfl, rfl, rfl⟩
    · simp at h
      obtain ⟨hf, rfl⟩ := h
      exact ⟨fs _ _ hf, rfl, rfl, rfl, rfl, rfl, rfl, rfl, rfl, rfl⟩
  · simp at h
    obtain ⟨hf, rfl⟩ := h
    exact ⟨fs _ _ hf, rfl, rfl, rfl, rfl, rfl, rfl, rfl, rfl, rfl⟩

/-- What the next move can be. -/
theorem nextMove_cases {s : State} (hr : s.refused = none) :
    (∃ i u, nextMove s = .run i u ∧ SameBut s u
        ∧ ((s.c.busy = none ∧ u.c = s.c)
          ∨ (isEngineEvent i = true
              ∧ ∃ b, s.c.busy = some b ∧ u.c = { s.c with busy := some { b with yielded := true } })))
      ∨ (∃ u, nextMove s = .goOn u ∧ u.c = s.c ∧ SameBut s u ∧ s.c.busy ≠ none)
      ∨ ∃ u, nextMove s = .settle u ∧ s.c.busy = none ∧ (u = s ∨ ∃ r, u = s.refuse r) := by
  unfold nextMove
  rw [hr]
  simp only
  cases hb : s.c.busy with
  | none =>
    simp only
    unfold State.freeMove
    split
    · split
      · exact .inl ⟨_, _, rfl, ⟨rfl, rfl, rfl, rfl, rfl, rfl, rfl, rfl⟩, .inl ⟨by simp, rfl⟩⟩
      · split
        · exact .inl ⟨_, _, rfl, ⟨rfl, rfl, rfl, rfl, rfl, rfl, rfl, rfl⟩, .inl ⟨by simp, rfl⟩⟩
        · exact .inr (.inr ⟨_, rfl, by simp, .inl rfl⟩)
    · split
      · exact .inl ⟨_, _, rfl, ⟨rfl, rfl, rfl, rfl, rfl, rfl, rfl, rfl⟩, .inl ⟨by simp, rfl⟩⟩
      · exact .inr (.inr ⟨_, rfl, by simp, .inr ⟨_, rfl⟩⟩)
  | some b =>
    simp only
    have onOffer : ∀ (v u : State) (i : Instr), v.c = s.c → SameBut s v → v.engineOffer = some (i, u) →
        SameBut s u.markYielded ∧ isEngineEvent i = true
          ∧ u.markYielded.c = { s.c with busy := some { b with yielded := true } } := by
      intro v u i hc hv ho
      obtain ⟨h1, h2, h3⟩ := State.engineOffer_some ho
      have hub : u.c.busy = some b := by rw [h2, hc, hb]
      unfold State.markYielded
      rw [hub]
      exact ⟨⟨h3.prm.trans hv.prm, h3.e.trans hv.e, h3.mem.trans hv.mem, h3.refused.trans hv.refused,
        h3.results.trans hv.results, h3.trace.trans hv.trace, h3.unpub.trans hv.unpub, h3.fresh.trans hv.fresh⟩, h1,
        by simp [h2, hc]⟩
    unfold State.busyMove
    split
    · exact .inr (.inl ⟨_, rfl, rfl, ⟨rfl, rfl, rfl, rfl, rfl, rfl, rfl, rfl⟩, by simp⟩)
    · simp only
      split
      · exact .inr (.inl ⟨_, rfl, rfl, ⟨rfl, rfl, rfl, rfl, rfl, rfl, rfl, rfl⟩, by simp⟩)
      · split
        · rename_i i u ho
          have hoff := fun h1 h2 => onOffer _ u i h1 h2 ho
          obtain ⟨a1, a2, a3⟩ := hoff rfl ⟨rfl, rfl, rfl, rfl, rfl, rfl, rfl, rfl⟩
          exact .inl ⟨_, _, rfl, a1, .inr ⟨a2, b, rfl, a3⟩⟩
        · exact .inr (.inl ⟨_, rfl, rfl, ⟨rfl, rfl, rfl, rfl, rfl, rfl, rfl, rfl⟩, by simp⟩)
    · split
      · split
        · rename_i i u ho
          have hoff := fun h1 h2 => onOffer _ u i h1 h2 ho
          obtain ⟨a1, a2, a3⟩ := hoff rfl ⟨rfl, rfl, rfl, rfl, rfl, rfl, rfl, rfl⟩
          exact .inl ⟨_, _, rfl, a1, .inr ⟨a2, b, rfl, a3⟩⟩
        · exact .inr (.inl ⟨_, rfl, rfl, ⟨rfl, rfl, rfl, rfl, rfl, rfl, rfl, rfl⟩, by simp⟩)
      · exact .inr (.inl ⟨_, rfl, rfl, ⟨rfl, rfl, rfl, rfl, rfl, rfl, rfl, rfl⟩, by simp⟩)

/-- A step that answers a next state ran an instruction, let the operation in progress go on, did nothing, or refused an
invalid packet. -/
theorem step_cases {s t : State} (h : step s = .next t) :
    s.refused = none
      ∧ ((∃ i u, nextMove s = .run i u ∧ exec i u = .next t ∧ SameBut s u
            ∧ ((s.c.busy = none ∧ u.c = s.c)
              ∨ (isEngineEvent i = true
                  ∧ ∃ b, s.c.busy = some b ∧ u.c = { s.c with busy := some { b with yielded := true } })))
        ∨ (∃ u, nextMove s = .goOn u ∧ t = u.resume ∧ u.c = s.c ∧ SameBut s u ∧ s.c.busy ≠ none)
        ∨ (nextMove s = .settle t ∧ s.c.busy = none ∧ (t = s ∨ ∃ r, t = s.refuse r))) := by
  have hrn : s.refused = none := by
    cases hr : s.refused with
    | none => rfl
    | some r => unfold step nextMove at h; rw [hr] at h; cases h
  refine ⟨hrn, ?_⟩
  unfold step at h
  rcases nextMove_cases hrn with ⟨i, u, hm, h1, h2⟩ | ⟨u, hm, h1, h2, h3⟩ | ⟨u, hm, h1, h2⟩
  · rw [hm] at h
    exact .inl ⟨i, u, hm, h, h1, h2⟩
  · rw [hm] at h
    cases h
    exact .inr (.inl ⟨u, hm, rfl, h1, h2, h3⟩)
  · rw [hm] at h
    cases h
    exact .inr (.inr ⟨hm, h1, h2⟩)

end Sys2Proof.Machine
end

