-- ==== Sys2Proof/Laws/Controller.lean ====
section
/-! SUPPORT. What one action, a burst and a whole controller operation can never do. -/

namespace Sys2Proof.Machine

/-- What no controller event touches: the parameters, the stream, the format, the window, the rotation; what it can only
extend: the log; and its reach into the engine. -/
structure Keeps (s t : State) : Prop where
  prm : t.prm = s.prm
  stream : t.stream = s.stream
  fmt : t.c.fmt = s.c.fmt
  win : t.c.win = s.c.win
  rot : t.c.rot = s.c.rot
  log : s.c.log <+: t.c.log
  e : s.e.controllerReaches t.e

theorem Keeps.refl (s : State) : Keeps s s :=
  ⟨rfl, rfl, rfl, rfl, rfl, List.prefix_refl _, Engine.controllerReaches_refl _⟩

theorem Keeps.trans {s t u : State} (h : Keeps s t) (h' : Keeps t u) : Keeps s u :=
  ⟨h'.prm.trans h.prm, h'.stream.trans h.stream, h'.fmt.trans h.fmt, h'.win.trans h.win, h'.rot.trans h.rot,
    h.log.trans h'.log, Engine.controllerReaches_trans h.e h'.e⟩

theorem State.push_keeps (s : State) (acts : List Act) : Keeps s (s.push acts) := by
  unfold State.push
  split
  · exact Keeps.refl s
  · exact ⟨rfl, rfl, rfl, rfl, rfl, List.prefix_refl _, Engine.controllerReaches_refl _⟩

theorem State.setActs_keeps (s : State) (acts : List Act) : Keeps s (s.setActs acts) := by
  unfold State.setActs
  split
  · exact Keeps.refl s
  · exact ⟨rfl, rfl, rfl, rfl, rfl, List.prefix_refl _, Engine.controllerReaches_refl _⟩

theorem State.readEvent_keeps (s : State) (r : RReg) : Keeps s (s.readEvent r) :=
  ⟨rfl, rfl, rfl, rfl, rfl, List.prefix_refl _, s.readEvent_reaches r⟩

theorem State.writeEvent_keeps (s : State) (r : WReg) (x : Word) (b : Bool) : Keeps s (s.writeEvent r x b) := by
  have he := s.writeEvent_reaches r x b
  rcases s.writeEvent_cases r x b with ⟨reason, -, h⟩ | ⟨e, -, h⟩ <;> rw [h] at he ⊢ <;>
    exact ⟨rfl, rfl, rfl, rfl, rfl, List.prefix_refl _, he⟩

theorem State.timeout_keeps (s : State) : Keeps s s.timeout := by
  unfold State.timeout
  split
  · exact Keeps.refl s
  · split <;> exact ⟨rfl, rfl, rfl, rfl, rfl, List.prefix_refl _, Engine.controllerReaches_refl _⟩

/-- A change of the controller's own fields that only extends the log. -/
theorem State.setC_keeps (s : State) {c : Controller} (hf : c.fmt = s.c.fmt) (hw : c.win = s.c.win)
    (hr : c.rot = s.c.rot) (hl : s.c.log <+: c.log) : Keeps s (s.setC c) :=
  ⟨rfl, rfl, hf, hw, hr, hl, Engine.controllerReaches_refl _⟩

theorem Controller.retire_keeps (c : Controller) (slot : Option Buffer) (st : Status) :
    (c.retire slot st).fmt = c.fmt ∧ (c.retire slot st).win = c.win ∧ (c.retire slot st).rot = c.rot
      ∧ c.log <+: (c.retire slot st).log ∧ (c.retire slot st).cfg = c.cfg ∧ (c.retire slot st).chan = c.chan
      ∧ (c.retire slot st).streaming = c.streaming ∧ (c.retire slot st).dirty = c.dirty
      ∧ (c.retire slot st).busy = c.busy ∧ (c.retire slot st).cur = c.cur ∧ (c.retire slot st).nxt = c.nxt
      ∧ (c.retire slot st).log = c.log ++ slotEntry slot st := by
  cases slot <;> simp [Controller.retire, Controller.complete, slotEntry]

theorem Controller.promote_keeps (c : Controller) :
    c.promote.fmt = c.fmt ∧ c.promote.win = c.win ∧ c.promote.rot = c.rot ∧ c.promote.log = c.log := by
  unfold Controller.promote
  split <;> exact ⟨rfl, rfl, rfl, rfl⟩

/-- All WriteShadowAll can do: it draws free values, and writes nothing or the sixteen words of a record. -/
theorem State.writeShadowAll_spec (s : State) :
    (∃ n, s.writeShadowAll.1 = { s with fresh := n })
      ∧ (s.writeShadowAll.2 = [] ∨ ∃ g, s.writeShadowAll.2 = cfgWrites s.prm g) := by
  unfold State.writeShadowAll
  split
  · exact ⟨⟨s.fresh, rfl⟩, .inl rfl⟩
  · split
    · exact ⟨⟨s.fresh, rfl⟩, .inr ⟨_, rfl⟩⟩
    · exact ⟨⟨_, rfl⟩, .inr ⟨_, rfl⟩⟩

/-- With a valid geometry WriteShadowAll writes its words and draws nothing (R155). -/
theorem State.writeShadowAll_valid {s : State} {g : Cfg} (h : s.geometry = some g) :
    s.writeShadowAll = (s, cfgWrites s.prm g) := by
  unfold State.geometry at h
  unfold State.writeShadowAll
  split at h
  · cases h
  · simp only [h]

theorem State.writeShadowAll_keeps (s : State) : Keeps s s.writeShadowAll.1 := by
  obtain ⟨⟨n, h⟩, -⟩ := s.writeShadowAll_spec
  rw [h]
  exact ⟨rfl, rfl, rfl, rfl, rfl, List.prefix_refl _, Engine.controllerReaches_refl _⟩

theorem State.showActs_keeps (s : State) (b : Buffer) (x : Word) : Keeps s (s.showActs b x).1 := by
  unfold State.showActs
  split
  · exact s.writeShadowAll_keeps
  · split
    · exact s.writeShadowAll_keeps
    · exact Keeps.refl s

theorem State.showThenAdvance_keeps (s : State) (b : Buffer) (x a : Word) : Keeps s (s.showThenAdvance b x a) :=
  (s.showActs_keeps b x).trans (State.push_keeps _ _)

/-- One action of an operation. -/
theorem perform_keeps (a : Act) (s : State) : Keeps s (perform a s) := by
  cases a with
  | wr r x => exact s.writeEvent_keeps r x false
  | wrs r x => exact s.writeEvent_keeps r x true
  | poll r x n =>
    have hr := s.readEvent_keeps .syncsr
    rcases s.pollEvent_cases r x n with ⟨-, h⟩ | ⟨-, -, h⟩ | ⟨-, -, h⟩ <;> simp only [perform, h]
    · exact hr.trans (State.push_keeps _ _)
    · exact hr.trans (State.timeout_keeps _)
    · exact hr.trans (State.push_keeps _ _)
  | rd r => exact s.readEvent_keeps r
  | memWrite d x => exact ⟨rfl, rfl, rfl, rfl, rfl, List.prefix_refl _, Engine.controllerReaches_refl _⟩
  | barrier => exact ⟨rfl, rfl, rfl, rfl, rfl, List.prefix_refl _, Engine.controllerReaches_refl _⟩
  | setCfg x => exact s.setC_keeps rfl rfl rfl (List.prefix_refl _)
  | setChan x => exact s.setC_keeps rfl rfl rfl (List.prefix_refl _)
  | badChsr =>
    simp only [perform, State.badChsr]
    split <;> exact (s.readEvent_keeps .chsr).trans (State.push_keeps _ _)
  | recoverChsr =>
    simp only [perform, State.recoverChsr]
    split
    · exact (s.readEvent_keeps .chsr).trans (State.push_keeps _ _)
    · split
      · exact (s.readEvent_keeps .chsr).trans (State.push_keeps _ _)
      · refine (s.readEvent_keeps .chsr).trans (Keeps.trans (State.setC_keeps _ ?_ ?_ ?_ ?_) (State.push_keeps _ _))
          <;> rfl
  | qbufGo b =>
    simp only [perform, State.qbufGo]
    split
    · exact (s.setC_keeps (c := s.c.complete b.id .done) rfl rfl rfl (List.prefix_append _ _)).trans
        (State.push_keeps _ _)
    · exact State.push_keeps _ _
  | qbufChsr b =>
    simp only [perform, State.qbufChsr]
    split
    · exact (s.readEvent_keeps .chsr).trans (State.push_keeps _ _)
    · exact (s.readEvent_keeps .chsr).trans (State.showThenAdvance_keeps _ _ _ _)
  | qbufAddr b v => exact (s.readEvent_keeps (.addr .y)).trans (State.showThenAdvance_keeps _ _ _ _)
  | advance b u =>
    simp only [perform, Controller.advance]
    split
    · obtain ⟨h1, h2, h3, h4, -⟩ := s.c.retire_keeps s.c.nxt .error
      exact s.setC_keeps h1 h2 h3 h4
    · obtain ⟨h1, h2, h3, h4, -⟩ := s.c.retire_keeps s.c.cur .done
      exact s.setC_keeps h1 h2 h3 h4
  | offChsr =>
    simp only [perform, State.offChsr]
    split <;> exact (s.readEvent_keeps .chsr).trans (State.push_keeps _ _)
  | offPoll =>
    simp only [perform, State.offPoll]
    split
    · exact (s.readEvent_keeps .chsr).trans (State.push_keeps _ _)
    · exact s.readEvent_keeps .chsr
  | offFlush =>
    obtain ⟨h1, h2, h3, h4, -⟩ := s.c.retire_keeps s.c.cur .done
    obtain ⟨k1, k2, k3, k4, -⟩ := (s.c.retire s.c.cur .done).retire_keeps s.c.nxt .done
    exact s.setC_keeps (k1.trans h1) (k2.trans h2) (k3.trans h3) (h4.trans k4)
  | offEnd => exact s.setC_keeps rfl rfl rfl (List.prefix_refl _)
  | irqChsr =>
    have hr := s.readEvent_keeps .chsr
    obtain ⟨p1, p2, p3, p4⟩ := (s.readEvent .chsr).c.promote_keeps
    simp only [perform, State.irqChsr]
    split
    · obtain ⟨h1, h2, h3, h4, -⟩ := (s.readEvent .chsr).c.promote.retire_keeps (s.readEvent .chsr).c.promote.cur .done
      obtain ⟨k1, k2, k3, k4, -⟩ := ((s.readEvent .chsr).c.promote.retire (s.readEvent .chsr).c.promote.cur .done).retire_keeps
        (s.readEvent .chsr).c.promote.nxt .done
      refine hr.trans (Keeps.trans (State.setC_keeps _ ?_ ?_ ?_ ?_) (State.push_keeps _ _))
      · exact k1.trans (h1.trans p1)
      · exact k2.trans (h2.trans p2)
      · exact k3.trans (h3.trans p3)
      · exact (p4 ▸ List.prefix_refl _ : (s.readEvent .chsr).c.log <+: (s.readEvent .chsr).c.promote.log).trans
          (h4.trans k4)
    · split
      · exact hr.trans (Keeps.trans (State.setC_keeps _ p1 p2 p3 (p4 ▸ List.prefix_refl _)) (State.push_keeps _ _))
      · exact hr.trans (State.setC_keeps _ p1 p2 p3 (p4 ▸ List.prefix_refl _))
  | irqAddr =>
    simp only [perform, State.irqAddr]
    split
    · exact s.readEvent_keeps (.addr .y)
    · split
      · exact s.readEvent_keeps (.addr .y)
      · exact (s.readEvent_keeps (.addr .y)).trans (State.setC_keeps _ rfl rfl rfl (List.prefix_append _ _))
  | finish r => exact ⟨rfl, rfl, rfl, rfl, rfl, List.prefix_refl _, Engine.controllerReaches_refl _⟩

/-- A burst. -/
theorem burst_keeps (n : Nat) (g : Bool) (s : State) : Keeps s (burst n g s) := by
  refine burst_ind (fun t => Keeps s t) ?_ ?_ ?_ n g s (Keeps.refl s)
  · intro t b _ _ h
    exact h.trans ⟨rfl, rfl, rfl, rfl, rfl, List.prefix_refl _, Engine.controllerReaches_refl _⟩
  · intro t h
    refine h.trans ?_
    unfold State.useTurn
    split
    · exact Keeps.refl t
    · exact ⟨rfl, rfl, rfl, rfl, rfl, List.prefix_refl _, Engine.controllerReaches_refl _⟩
  · intro t b a rest _ _ h
    exact (h.trans (t.setActs_keeps rest)).trans (perform_keeps a _)

/-- An operation entered and run. -/
theorem State.runOp_keeps (s : State) (op : OpName) (acts : List Act) : Keeps s (s.runOp op acts) :=
  Keeps.trans (t := s.startOp op acts)
    ⟨rfl, rfl, rfl, rfl, rfl, List.prefix_refl _, Engine.controllerReaches_refl _⟩ (burst_keeps _ _ _)

end Sys2Proof.Machine
end

