-- ==== Sys2Proof/Laws/Decode.lean ====
section
/-! SUPPORT. The parts of the decoder and the encoder, one lemma each (30_encoding.md R65 to R83). -/

namespace Sys2Proof

/-- A signed value in range survives the conversion to a word and back (R10). -/
theorem s32_u32 {x : Int} (h : inS32 x = true) : s32 (u32 x) = x := by
  simp only [inS32, Bool.and_eq_true, decide_eq_true_eq] at h
  simp only [s32, u32, BitVec.toInt_ofInt]
  rw [Int.bmod_eq_of_le] <;> omega

/-- A word survives the conversion to a signed value and back (R10). -/
theorem u32_s32 (w : Word) : u32 (s32 w) = w := by simp [u32, s32]

/-- The signed value of a word is in range (R10). -/
theorem inS32_s32 (w : Word) : inS32 (s32 w) = true := by
  have h1 := BitVec.toInt_lt (x := w)
  have h2 := BitVec.le_toInt (x := w)
  norm_num at h1 h2
  have a : -2147483648 ≤ w.toInt := by omega
  have b : w.toInt < 2147483648 := by omega
  simp [inS32, s32, a, b]

/-- The signed value of a word whose value is below 2^31. -/
theorem s32_u32_natCast {n : Nat} (h : n < 2 ^ 31) : s32 (u32 (n : Int)) = n :=
  s32_u32 (by simp only [inS32, Bool.and_eq_true, decide_eq_true_eq]; omega)

/-- Every header word decodes to its header (R66, R83). -/
theorem decodeHeader_word (h : Head) : decodeHeader h.word = .ok h := by
  cases h with
  | wr r => cases r with
    | head p => cases p <;> rfl
    | cfg f => cases f <;> rfl
    | _ => rfl
  | rd r => cases r with
    | head p => cases p <;> rfl
    | addr p => cases p <;> rfl
    | ctrl p => cases p <;> rfl
    | next p => cases p <;> rfl
    | cfg f => cases f <;> rfl
    | _ => rfl
  | eFetch p => cases p <;> rfl
  | eOvr p => cases p <;> rfl
  | _ => rfl

/-- A WR of any register, as syntax. -/
theorem ofWr_parts (r : WReg) (x : Word) :
    (Instr.ofWr r x).head = .wr r ∧ (Instr.ofWr r x).operands = [x] ∧ (Instr.ofWr r x).wf = true := by
  cases r with
  | head p => cases p <;> exact ⟨rfl, rfl, rfl⟩
  | cfg f => cases f <;> exact ⟨rfl, rfl, rfl⟩
  | _ => exact ⟨rfl, rfl, rfl⟩

/-- An RD of any register, as syntax. -/
theorem ofRd_parts (r : RReg) :
    (Instr.ofRd r).head = .rd r ∧ (Instr.ofRd r).operands = [] ∧ (Instr.ofRd r).wf = true := by
  cases r with
  | head p => cases p <;> exact ⟨rfl, rfl, rfl⟩
  | addr p => cases p <;> exact ⟨rfl, rfl, rfl⟩
  | ctrl p => cases p <;> exact ⟨rfl, rfl, rfl⟩
  | next p => cases p <;> exact ⟨rfl, rfl, rfl⟩
  | cfg f => cases f <;> exact ⟨rfl, rfl, rfl⟩
  | _ => exact ⟨rfl, rfl, rfl⟩

/-- What an assembled instruction is: of that header, well formed, its operands the words it took (R68). -/
theorem assemble_some {h : Head} {ws : List Word} {i : Instr} {rest : List Word}
    (ha : assemble h ws = some (i, rest)) : i.head = h ∧ i.wf = true ∧ ws = i.operands ++ rest := by
  unfold assemble at ha
  split at ha <;> simp only [Option.some.injEq, Prod.mk.injEq, reduceCtorEq] at ha <;> (try obtain ⟨rfl, rfl⟩ := ha)
  case _ => simp [Instr.head, Instr.operands, Instr.wf, u32_s32, inS32_s32]
  case _ => simp [Instr.head, Instr.operands, Instr.wf, u32_s32, inS32_s32]
  case _ => simp [Instr.head, Instr.operands, Instr.wf, u32_s32, inS32_s32]
  case _ => exact ⟨rfl, rfl, rfl⟩
  case _ => exact ⟨rfl, rfl, rfl⟩
  case _ => exact ⟨rfl, rfl, rfl⟩
  case _ => exact ⟨rfl, rfl, rfl⟩
  case _ => exact ⟨rfl, rfl, rfl⟩
  case _ r x rest => obtain ⟨a, b, c⟩ := ofWr_parts r x; rw [a, b, c]; exact ⟨rfl, rfl, rfl⟩
  case _ r => obtain ⟨a, b, c⟩ := ofRd_parts r; rw [a, b, c]; exact ⟨rfl, rfl, rfl⟩
  case _ => exact ⟨rfl, rfl, rfl⟩
  case _ p a r => cases p <;> exact ⟨rfl, rfl, rfl⟩
  case _ => exact ⟨rfl, rfl, rfl⟩
  case _ r p => cases p <;> exact ⟨rfl, rfl, rfl⟩
  case _ => exact ⟨rfl, rfl, rfl⟩

end Sys2Proof
end

