-- ==== Sys2Proof/Laws/Engine.lean ====
section
/-! SUPPORT. What the shared operations of the engine can do: status bits, descriptor loads, channel stop and frame end
(R175, R176, R181). -/

namespace Sys2Proof.Machine

/-! ## Planes -/

/-- The first n planes are those whose index is below n. -/
theorem mem_planesBelow (n : Nat) (p : Plane) : p ∈ planesBelow n ↔ p.index < n := by
  match n with
  | 0 => cases p <;> simp [planesBelow, Plane.index]
  | 1 => cases p <;> simp [planesBelow, Plane.index]
  | 2 => cases p <;> simp [planesBelow, Plane.index]
  | n + 3 => cases p <;> simp [planesBelow, Plane.index]

/-- No plane is taken twice. -/
theorem planesBelow_nodup (n : Nat) : (planesBelow n).Nodup :=
  (by decide : [Plane.y, Plane.u, Plane.v].Nodup).sublist (List.take_sublist _ _)

/-- Every supported format has one plane or three. -/
theorem np_cases (prm : Params) (tag : Word) : np prm tag = 0 ∨ np prm tag = 1 ∨ np prm tag = 3 := by
  unfold np formatOf
  split
  · rename_i n b h
    split at h
    · cases h; exact .inr (.inr rfl)
    · cases h; exact .inr (.inl rfl)
    · cases h; exact .inr (.inl rfl)
    · simp at h
      obtain ⟨f, -, rfl, -⟩ := h
      exact .inr (.inl rfl)
  · exact .inl rfl

/-- A supported format's plane count. -/
theorem np_of_formatOf {prm : Params} {tag : Word} {n b : Nat} (h : formatOf prm tag = some (n, b)) :
    np prm tag = n := by
  unfold np
  rw [h]

/-- A tag with a plane is supported. -/
theorem formatOf_of_index {prm : Params} {tag : Word} {p : Plane} (h : p.index < np prm tag) :
    formatOf prm tag ≠ none := by
  intro hn
  unfold np at h
  rw [hn] at h
  exact absurd h (Nat.not_lt_zero _)

/-! ## Alignment -/

/-- `wordAligned` is divisibility by 4. -/
theorem wordAligned_iff (a : Word) : wordAligned a = true ↔ a.toNat % 4 = 0 := by
  have h : a &&& 3#32 = BitVec.ofNat 32 (a.toNat % 4) := by
    apply BitVec.eq_of_toNat_eq
    rw [BitVec.toNat_and, BitVec.toNat_ofNat]
    have : (3 : Nat) % 2 ^ 32 = 2 ^ 2 - 1 := rfl
    rw [BitVec.toNat_ofNat, this, Nat.and_two_pow_sub_one_eq_mod]
    omega
  unfold wordAligned
  rw [beq_iff_eq, h]
  constructor
  · intro e
    have := congrArg BitVec.toNat e
    rw [BitVec.toNat_ofNat] at this
    have h2 : (0#32 : Word).toNat = 0 := rfl
    omega
  · intro e
    rw [e]

/-! ## Status bits (R77, R198) -/

/-- One bit of a one-bit word. -/
theorem oneBit_getLsbD (m n : Nat) (h : m < 32) : (1#32 <<< m).getLsbD n = decide (n = m) := by
  rw [BitVec.getLsbD_shiftLeft]
  by_cases hn : n = m
  · subst hn
    simp [h]
  · by_cases hl : n < m
    · simp [hl, hn]
    · have : n - m ≠ 0 := by omega
      simp [hl, hn, BitVec.getLsbD_one, this]

/-- The bit of an event. -/
theorem event_bit_lt (k : EventKind) (p : Plane) : k.bit + 8 * p.index < 32 := by
  cases k <;> cases p <;> decide

/-- `setEvent` sets its one bit where the condition holds, and no other. -/
theorem setEvent_getLsbD (isr : Word) (c : Bool) (k : EventKind) (p : Plane) (n : Nat) :
    (setEvent isr c k p).getLsbD n = (isr.getLsbD n || (c && decide (n = k.bit + 8 * p.index))) := by
  unfold setEvent eventMask
  cases c
  · simp
  · simp only [if_true, BitVec.getLsbD_or, Bool.true_and]
    rw [oneBit_getLsbD _ _ (event_bit_lt k p)]

/-- The same as a proposition. -/
theorem setEvent_bit (isr : Word) (c : Bool) (k : EventKind) (p : Plane) (n : Nat) :
    (setEvent isr c k p).getLsbD n = true ↔ isr.getLsbD n = true ∨ (c = true ∧ n = k.bit + 8 * p.index) := by
  rw [setEvent_getLsbD]
  cases isr.getLsbD n <;> cases c <;> simp

/-- A status word that keeps every set bit. -/
theorem and_eq_of_bits {a b : Word} (h : ∀ n, a.getLsbD n = true → b.getLsbD n = true) : a &&& b = a := by
  apply BitVec.eq_of_getLsbD_eq
  intro i _
  rw [BitVec.getLsbD_and]
  cases ha : a.getLsbD i
  · rfl
  · simp [h i ha]

/-- No bit outside a mask, bit by bit. -/
theorem within_iff (x mask : Word) : within x mask = true ↔ ∀ n, x.getLsbD n = true → mask.getLsbD n = true := by
  unfold within
  rw [beq_iff_eq]
  constructor
  · intro h n hx
    have hb := congrArg (fun w => BitVec.getLsbD w n) h
    by_cases hn : n < 32
    · simpa [hx, hn] using hb
    · rw [BitVec.getLsbD_of_ge _ _ (by omega)] at hx
      cases hx
  · intro h
    apply BitVec.eq_of_getLsbD_eq
    intro i hi
    simp only [BitVec.getLsbD_and, BitVec.getLsbD_not, hi, decide_true, Bool.true_and]
    cases hx : x.getLsbD i
    · simp
    · simp [h i hx]

/-- Every event bit is in IMASK. -/
theorem imask_event (k : EventKind) (p : Plane) : imask.getLsbD (k.bit + 8 * p.index) = true := by
  cases k <;> cases p <;> decide

/-- `setEvent` keeps ISR inside IMASK. -/
theorem within_setEvent {isr : Word} (h : within isr imask = true) (c : Bool) (k : EventKind) (p : Plane) :
    within (setEvent isr c k p) imask = true := by
  rw [within_iff] at h ⊢
  intro n hn
  rw [setEvent_bit] at hn
  rcases hn with hn | ⟨-, rfl⟩
  · exact h n hn
  · exact imask_event k p

/-! ## Descriptor loads (R175) -/

/-- An engine read leaves everything but the count of free values; a published word is the word in memory. -/
theorem State.engineRead_spec (s : State) (a : Word) :
    ∃ x fresh, s.engineRead a = (x, { s with fresh := fresh })
      ∧ (unpublished s.unpub a = false → x = Memory.readWord s.mem a) := by
  rcases s.engineRead_cases a with ⟨h, e⟩ | ⟨h, e⟩
  · exact ⟨_, s.fresh, e, fun _ => rfl⟩
  · exact ⟨_, _, e, fun h' => by rw [h] at h'; cases h'⟩

/-- The two status bits of a load, reordered. -/
theorem load_bits (a d f c n3 n4 r : Prop) :
    ((a ∨ d ∧ n3) ∨ (f ∧ c) ∧ n4) ∨ r ↔ a ∨ (n3 ∧ d ∨ n4 ∧ c ∧ f) ∨ r := by
  tauto

/-- One descriptor loaded: five registers of its plane and two status bits. -/
theorem State.loadDescriptor_spec (s : State) (fromHead : Bool) (p : Plane) (d : Word) :
    ∃ a c n fresh,
      s.loadDescriptor fromHead p d
          = { s with
              e :=
                { s.e with
                  addr := s.e.addr.set p a
                  ctrl := s.e.ctrl.set p c
                  next := s.e.next.set p n
                  addr0 := s.e.addr0.set p a
                  dload := s.e.dload.set p d
                  isr := setEvent (setEvent s.e.isr (ctrlDscrien c) .dscr p) (fromHead && ctrlAddien c) .add p }
              fresh := fresh }
        ∧ (unpublished s.unpub d = false → a = Memory.readWord s.mem d)
        ∧ (unpublished s.unpub (d + 4#32) = false → c = Memory.readWord s.mem (d + 4#32))
        ∧ (unpublished s.unpub (d + 8#32) = false → n = Memory.readWord s.mem (d + 8#32)) := by
  obtain ⟨a, f1, e1, h1⟩ := s.engineRead_spec d
  obtain ⟨c, f2, e2, h2⟩ := ({ s with fresh := f1 } : State).engineRead_spec (d + 4#32)
  obtain ⟨n, f3, e3, h3⟩ := ({ s with fresh := f2 } : State).engineRead_spec (d + 8#32)
  refine ⟨a, c, n, f3, ?_, h1, h2, h3⟩
  unfold State.loadDescriptor
  rw [e1]
  simp only
  rw [e2]
  simp only
  rw [e3]
  rfl

/-- The planes of a frame loaded, all their pointers aligned: per plane the five registers, the others as they were, the
status bits, and the frame entered. -/
theorem State.loadPlanes_aligned (fromHead : Bool) (src : Planes Word) (ps : List Plane) (hn : ps.Nodup) (s : State)
    (ha : ∀ p ∈ ps, wordAligned (src.get p) = true) :
    ∃ (addr ctrl next addr0 dload : Planes Word) (isr : Word) (fresh : Nat),
      s.loadPlanes fromHead src ps
          = { s with
              e :=
                { s.e with
                  addr := addr
                  ctrl := ctrl
                  next := next
                  addr0 := addr0
                  dload := dload
                  isr := isr
                  updpend := false
                  phase := .fetching }
              fresh := fresh }
        ∧ (∀ p ∈ ps,
            addr0.get p = addr.get p ∧ dload.get p = src.get p
              ∧ (unpublished s.unpub (src.get p) = false → addr.get p = Memory.readWord s.mem (src.get p))
              ∧ (unpublished s.unpub (src.get p + 4#32) = false →
                  ctrl.get p = Memory.readWord s.mem (src.get p + 4#32))
              ∧ (unpublished s.unpub (src.get p + 8#32) = false →
                  next.get p = Memory.readWord s.mem (src.get p + 8#32)))
        ∧ (∀ p, p ∉ ps →
            addr.get p = s.e.addr.get p ∧ ctrl.get p = s.e.ctrl.get p ∧ next.get p = s.e.next.get p
              ∧ addr0.get p = s.e.addr0.get p ∧ dload.get p = s.e.dload.get p)
        ∧ ∀ n : Nat,
            isr.getLsbD n = true
              ↔ s.e.isr.getLsbD n = true
                ∨ ∃ p ∈ ps, (n = 3 + 8 * p.index ∧ (ctrl.get p).getLsbD 3 = true)
                    ∨ (n = 4 + 8 * p.index ∧ (ctrl.get p).getLsbD 4 = true ∧ fromHead = true) := by
  induction ps generalizing s with
  | nil =>
    exact ⟨s.e.addr, s.e.ctrl, s.e.next, s.e.addr0, s.e.dload, s.e.isr, s.fresh, rfl, by simp, by simp, by simp⟩
  | cons p rest ih =>
    obtain ⟨hp, hrest⟩ := List.nodup_cons.mp hn
    obtain ⟨a, c, n, f, hl, h1, h2, h3⟩ := s.loadDescriptor_spec fromHead p (src.get p)
    obtain ⟨addr, ctrl, next, addr0, dload, isr, fresh, hq, hin, hout, hisr⟩ :=
      ih hrest (s.loadDescriptor fromHead p (src.get p)) (fun q hq => ha q (List.mem_cons_of_mem _ hq))
    obtain ⟨o1, o2, o3, o4, o5⟩ := hout p hp
    rw [hl] at o1 o2 o3 o4 o5 hq hisr
    simp only [Planes.get_set_same] at o1 o2 o3 o4 o5
    refine ⟨addr, ctrl, next, addr0, dload, isr, fresh, ?_, ?_, ?_, ?_⟩
    · simp only [State.loadPlanes, ha p (List.mem_cons_self ..), if_true, hl]
      exact hq
    · intro q hmem
      rcases List.mem_cons.mp hmem with rfl | hmem
      · exact ⟨o4.trans o1.symm, o5, fun h => o1.trans (h1 h), fun h => o2.trans (h2 h), fun h => o3.trans (h3 h)⟩
      · have := hin q hmem
        rw [hl] at this
        exact this
    · intro q hmem
      have hqp : q ≠ p := fun h => hmem (h ▸ List.mem_cons_self ..)
      have hqr : q ∉ rest := fun h => hmem (List.mem_cons_of_mem _ h)
      obtain ⟨k1, k2, k3, k4, k5⟩ := hout q hqr
      rw [hl] at k1 k2 k3 k4 k5
      simp only [Planes.get_set_other _ _ _ _ hqp] at k1 k2 k3 k4 k5
      exact ⟨k1, k2, k3, k4, k5⟩
    · intro m
      rw [hisr m]
      simp only [setEvent_bit, List.exists_mem_cons_iff, o2, ctrlDscrien, ctrlAddien, Bool.and_eq_true]
      exact load_bits _ _ _ _ _ _ _

/-- A plane whose pointer is misaligned: the fault, with no change to the phase, the enables or ACTIVE. -/
theorem State.loadPlanes_misaligned (fromHead : Bool) (src : Planes Word) (ps : List Plane) (s : State)
    (ha : ∃ p ∈ ps, wordAligned (src.get p) = false) :
    ∃ (addr ctrl next addr0 dload : Planes Word) (isr : Word) (fresh : Nat),
      s.loadPlanes fromHead src ps
        = { s with
            e :=
              { s.e with
                addr := addr
                ctrl := ctrl
                next := next
                addr0 := addr0
                dload := dload
                isr := isr
                fault := some .misaligned }
            fresh := fresh }
        ∧ ∀ n : Nat, isr.getLsbD n = true → s.e.isr.getLsbD n = true ∨ imask.getLsbD n = true := by
  induction ps generalizing s with
  | nil => simp at ha
  | cons p rest ih =>
    cases hp : wordAligned (src.get p) with
    | false =>
      refine ⟨s.e.addr, s.e.ctrl, s.e.next, s.e.addr0, s.e.dload, s.e.isr, s.fresh, ?_, fun n h => .inl h⟩
      simp [State.loadPlanes, hp, State.engineFault]
    | true =>
      obtain ⟨a, c, n, f, hl, -⟩ := s.loadDescriptor_spec fromHead p (src.get p)
      obtain ⟨addr, ctrl, next, addr0, dload, isr, fresh, hq, hisr⟩ :=
        ih (s.loadDescriptor fromHead p (src.get p)) (by
          obtain ⟨q, hq, hqa⟩ := ha
          rcases List.mem_cons.mp hq with rfl | hq
          · rw [hp] at hqa; cases hqa
          · exact ⟨q, hq, hqa⟩)
      refine ⟨addr, ctrl, next, addr0, dload, isr, fresh, ?_, fun m hm => ?_⟩
      · simp only [State.loadPlanes, hp, if_true]
        rw [hq, hl]
      · rcases hisr m hm with h | h
        · rw [hl] at h
          simp only [setEvent_bit] at h
          rcases h with (h | ⟨-, rfl⟩) | ⟨-, rfl⟩
          · exact .inl h
          · exact .inr (imask_event .dscr p)
          · exact .inr (imask_event .add p)
        · exact .inr h

/-! ## Channel stop and frame end (R176, R181) -/

/-- The DONE bits of a stop. -/
theorem Engine.doneEvents_getLsbD (prm : Params) (e : Engine) (n : Nat) :
    (e.doneEvents prm).getLsbD n = true
      ↔ e.isr.getLsbD n = true
        ∨ ∃ p : Plane, p.index < np prm e.active.mode ∧ (e.ctrl.get p).getLsbD 5 = true ∧ n = 5 + 8 * p.index := by
  have fold : ∀ (ps : List Plane) (w : Word),
      (ps.foldl (fun isr p => setEvent isr (ctrlDoneien (e.ctrl.get p)) .done p) w).getLsbD n = true
        ↔ w.getLsbD n = true ∨ ∃ p ∈ ps, (e.ctrl.get p).getLsbD 5 = true ∧ n = 5 + 8 * p.index := by
    intro ps
    induction ps with
    | nil => simp
    | cons p rest ih =>
      intro w
      rw [List.foldl_cons, ih, setEvent_bit, List.exists_mem_cons_iff]
      have b1 : EventKind.done.bit = 5 := rfl
      rw [b1]
      simp only [ctrlDoneien]
      generalize (∃ x ∈ rest, _) = R
      tauto
  unfold Engine.doneEvents
  rw [fold]
  simp only [mem_planesBelow]

/-- The frame end of every active plane: ADDR and ISR change, nothing else. -/
theorem Engine.endPlanes_spec (prm : Params) (e : Engine) :
    ∃ (addr : Planes Word) (isr : Word),
      (planesBelow (np prm e.active.mode)).foldl (fun x p => x.endPlane prm p) e = { e with addr := addr, isr := isr }
        ∧ (∀ p : Plane,
            (p.index < np prm e.active.mode → (e.ctrl.get p).getLsbD 0 = true → addr.get p = e.lastAddr prm p)
              ∧ (¬ (p.index < np prm e.active.mode ∧ (e.ctrl.get p).getLsbD 0 = true) → addr.get p = e.addr.get p))
        ∧ ∀ n : Nat,
            isr.getLsbD n = true
              ↔ e.isr.getLsbD n = true
                ∨ ∃ p : Plane, p.index < np prm e.active.mode ∧ n = 2 + 8 * p.index ∧ (e.ctrl.get p).getLsbD 2 = true := by
  have fold : ∀ (ps : List Plane) (_ : ps.Nodup) (a : Planes Word) (w : Word),
      ∃ (addr : Planes Word) (isr : Word),
        ps.foldl (fun x p => x.endPlane prm p) { e with addr := a, isr := w } = { e with addr := addr, isr := isr }
          ∧ (∀ p : Plane,
              (p ∈ ps → (e.ctrl.get p).getLsbD 0 = true → addr.get p = e.lastAddr prm p)
                ∧ (¬ (p ∈ ps ∧ (e.ctrl.get p).getLsbD 0 = true) → addr.get p = a.get p))
          ∧ ∀ n : Nat,
              isr.getLsbD n = true
                ↔ w.getLsbD n = true ∨ ∃ p ∈ ps, n = 2 + 8 * p.index ∧ (e.ctrl.get p).getLsbD 2 = true := by
    intro ps
    induction ps with
    | nil => intro _ a w; exact ⟨a, w, rfl, by simp, by simp⟩
    | cons p rest ih =>
      intro hn a w
      obtain ⟨hp, hrest⟩ := List.nodup_cons.mp hn
      obtain ⟨addr, isr, h1, h2, h3⟩ := ih hrest
        (if ctrlDfetch (e.ctrl.get p) then a.set p (e.lastAddr prm p) else a)
        (setEvent w (ctrlDmaien (e.ctrl.get p)) .dma p)
      refine ⟨addr, isr, ?_, ?_, ?_⟩
      · rw [List.foldl_cons]
        exact h1
      · intro q
        by_cases hqp : q = p
        · subst hqp
          have hkeep := (h2 q).2 (fun h => hp h.1)
          refine ⟨fun _ hd => ?_, fun hd => ?_⟩
          · rw [hkeep]
            simp only [ctrlDfetch, hd, if_true, Planes.get_set_same]
          · rw [hkeep]
            have : (e.ctrl.get q).getLsbD 0 = false := by
              cases h : (e.ctrl.get q).getLsbD 0
              · rfl
              · exact absurd ⟨List.mem_cons_self .., h⟩ hd
            simp only [ctrlDfetch, this, Bool.false_eq_true, if_false]
        · have hset : (if ctrlDfetch (e.ctrl.get p) then a.set p (e.lastAddr prm p) else a).get q = a.get q := by
            split
            · exact Planes.get_set_other _ _ _ _ hqp
            · rfl
          refine ⟨fun hm hd => (h2 q).1 ?_ hd, fun hd => ?_⟩
          · rcases List.mem_cons.mp hm with h | h
            · exact absurd h hqp
            · exact h
          · rw [(h2 q).2 (fun h => hd ⟨List.mem_cons_of_mem _ h.1, h.2⟩), hset]
      · intro n
        rw [h3, setEvent_bit, List.exists_mem_cons_iff]
        have b1 : EventKind.dma.bit = 2 := rfl
        rw [b1]
        simp only [ctrlDmaien]
        generalize (∃ x ∈ rest, _) = R
        tauto
  obtain ⟨addr, isr, h1, h2, h3⟩ := fold (planesBelow (np prm e.active.mode)) (planesBelow_nodup _) e.addr e.isr
  refine ⟨addr, isr, h1, ?_, ?_⟩
  · simpa only [mem_planesBelow] using h2
  · simpa only [mem_planesBelow] using h3

end Sys2Proof.Machine
end

