-- ==== Sys2Proof/Laws/Events.lean ====
section
/-! SUPPORT. What an engine event does, said once (45_engine.md R173 to R185): which events there are, and what none of them
touches. -/

namespace Sys2Proof.Machine

/-! ## Status bits only come -/

/-- b has every bit of a, and besides them only bits of IMASK. -/
def grows (a b : Word) : Prop :=
  ∀ n, (a.getLsbD n = true → b.getLsbD n = true) ∧ (b.getLsbD n = true → a.getLsbD n = true ∨ imask.getLsbD n = true)

theorem grows_refl (a : Word) : grows a a := fun _ => ⟨id, .inl⟩

theorem grows_trans {a b c : Word} (h : grows a b) (h' : grows b c) : grows a c :=
  fun n => ⟨fun x => (h' n).1 ((h n).1 x), fun x => ((h' n).2 x).elim (h n).2 .inr⟩

theorem grows_and {a b : Word} (h : grows a b) : a &&& b = a := and_eq_of_bits (fun n => (h n).1)

theorem grows_within {a b : Word} (h : grows a b) (hw : within a imask = true) : within b imask = true := by
  rw [within_iff] at hw ⊢
  intro n hn
  exact ((h n).2 hn).elim (hw n) id

theorem grows_setEvent (a : Word) (c : Bool) (k : EventKind) (p : Plane) : grows a (setEvent a c k p) := by
  intro n
  rw [setEvent_bit]
  refine ⟨.inl, ?_⟩
  rintro (h | ⟨-, rfl⟩)
  · exact .inl h
  · exact .inr (imask_event k p)

theorem grows_doneEvents (prm : Params) (e : Engine) : grows e.isr (e.doneEvents prm) := by
  intro n
  rw [Engine.doneEvents_getLsbD]
  refine ⟨.inl, ?_⟩
  rintro (h | ⟨p, -, -, rfl⟩)
  · exact .inl h
  · exact .inr (imask_event .done p)

/-! ## Frame start and frame end -/

/-- The frame start with the latch written out (R175). -/
theorem State.startFrame_eq (s : State) :
    s.startFrame
      = (match formatOf s.prm (if s.e.updpend then s.e.shadow else s.e.active).mode with
        | none => (s.setE { s.e with active := if s.e.updpend then s.e.shadow else s.e.active }).engineFault .badMode
        | some (n, _) =>
          (s.setE { s.e with active := if s.e.updpend then s.e.shadow else s.e.active }).loadPlanes s.e.updpend
            (if s.e.updpend then s.e.head else s.e.next) (planesBelow n)) := by
  obtain ⟨prm, c, e, mem, rf, rs, tr, st, tu, un, fr⟩ := s
  obtain ⟨chen, updpend, dispend, phase, head, addr, ctrl, next, addr0, dload, shadow, active, imr, isr, sy, fa⟩ := e
  cases updpend <;> rfl

/-- What a load of planes can touch, faulting or not (R175, R177). -/
theorem State.loadPlanes_frame (fromHead : Bool) (src : Planes Word) (ps : List Plane) (s : State) :
    ∃ addr ctrl next addr0 dload isr up ph fa fresh,
      s.loadPlanes fromHead src ps
          = { s with
              e :=
                { s.e with
                  addr := addr
                  ctrl := ctrl
                  next := next
                  addr0 := addr0
                  dload := dload
                  isr := isr
                  updpend := up
                  phase := ph
                  fault := fa }
              fresh := fresh }
        ∧ grows s.e.isr isr := by
  induction ps generalizing s with
  | nil => exact ⟨_, _, _, _, _, _, _, _, _, _, rfl, grows_refl _⟩
  | cons p rest ih =>
    unfold State.loadPlanes
    split
    · obtain ⟨a, c, n, f, h1, -⟩ := s.loadDescriptor_spec fromHead p (src.get p)
      obtain ⟨addr, ctrl, next, addr0, dload, isr, up, ph, fa, fresh, h2, h3⟩ :=
        ih (s.loadDescriptor fromHead p (src.get p))
      rw [h1] at h2 h3 ⊢
      exact ⟨addr, ctrl, next, addr0, dload, isr, up, ph, fa, fresh, h2,
        grows_trans (grows_trans (grows_setEvent _ _ _ _) (grows_setEvent _ _ _ _)) h3⟩
    · exact ⟨_, _, _, _, _, _, _, _, _, _, rfl, grows_refl _⟩

/-- The frame end, a pending disable completing at it (R176, R181). -/
theorem Engine.endFrame_spec (prm : Params) (e : Engine) :
    ∃ addr isr,
      e.endFrame prm
          = { e with
              addr := addr
              isr := isr
              phase := .between
              chen := e.chen && !e.dispend
              updpend := e.updpend && !e.dispend
              dispend := false }
        ∧ (∀ p : Plane,
            (p.index < np prm e.active.mode → (e.ctrl.get p).getLsbD 0 = true → addr.get p = e.lastAddr prm p)
              ∧ (¬ (p.index < np prm e.active.mode ∧ (e.ctrl.get p).getLsbD 0 = true) → addr.get p = e.addr.get p))
        ∧ grows e.isr isr := by
  obtain ⟨addr, isr, h1, h2, h3⟩ := e.endPlanes_spec prm
  have hg : grows e.isr isr := by
    intro n
    rw [h3]
    refine ⟨.inl, ?_⟩
    rintro (h | ⟨p, -, rfl, -⟩)
    · exact .inl h
    · exact .inr (imask_event .dma p)
  unfold Engine.endFrame
  rw [h1]
  simp only
  cases hd : e.dispend with
  | false => exact ⟨addr, isr, by simp, h2, hg⟩
  | true =>
    exact ⟨addr, _, by simp [Engine.stopChannel]; rfl, h2,
      grows_trans hg (grows_doneEvents prm ({ e with addr := addr, isr := isr, phase := .between } : Engine))⟩

/-! ## Any engine event -/

/-- An engine event that answers a next state is one of the five, enabled, with its effect (R173). -/
theorem engineEvent_cases {i : Instr} {s t : State} (hi : isEngineEvent i = true) (h : exec i s = .next t) :
    s.engineReady
      ∧ ((i = .eFstart ∧ s.e.chen = true ∧ s.e.phase = .between
            ∧ t = (if s.e.dispend then s.setE (s.e.stopChannel s.prm) else s.startFrame))
        ∨ (∃ p a, i = Instr.ofFetch p a ∧ s.e.phase = .fetching ∧ p.index < np s.prm s.e.active.mode
            ∧ s.e.fetchable s.prm p a = true ∧ t = s.setE { s.e with addr := s.e.addr.set p a })
        ∨ (i = .eFend ∧ s.e.phase = .fetching ∧ t = s.setE (s.e.endFrame s.prm))
        ∨ (∃ p, i = Instr.ofOvr p ∧ t = s.setE { s.e with isr := setEvent s.e.isr true .ovr p })
        ∨ (i = .eSync ∧ t = s.setE { s.e with sipsts := false })) := by
  refine ⟨engineReady_of_event hi h, ?_⟩
  cases engineKind_of hi with
  | fstart =>
    obtain ⟨-, h1, h2⟩ := engineStep_next h
    simp only [Bool.and_eq_true, beq_iff_eq] at h1
    exact .inl ⟨rfl, h1.1, h1.2, h2⟩
  | fetch p a =>
    rw [exec_ofFetch] at h
    obtain ⟨-, h1, h2⟩ := engineStep_next h
    simp only [State.fetchEnabled, Bool.and_eq_true, beq_iff_eq, decide_eq_true_eq] at h1
    exact .inr (.inl ⟨p, a, rfl, h1.1.1.1, h1.1.1.2, h1.2, h2⟩)
  | fend =>
    obtain ⟨-, h1, h2⟩ := engineStep_next h
    exact .inr (.inr (.inl ⟨rfl, by simpa using h1, h2⟩))
  | ovr p =>
    rw [exec_ofOvr] at h
    obtain ⟨-, h1, h2⟩ := engineStep_next h
    exact .inr (.inr (.inr (.inl ⟨p, rfl, h2⟩)))
  | sync =>
    obtain ⟨-, h1, h2⟩ := engineStep_next h
    exact .inr (.inr (.inr (.inr ⟨rfl, h2⟩)))

/-- An engine event changes the engine and the count of free values, nothing else. -/
theorem engineEvent_touches {i : Instr} {s t : State} (hi : isEngineEvent i = true) (h : exec i s = .next t) :
    ∃ e fresh, t = { s with e := e, fresh := fresh } := by
  obtain ⟨-, h⟩ := engineEvent_cases hi h
  rcases h with ⟨-, -, -, rfl⟩ | ⟨p, a, -, -, -, -, rfl⟩ | ⟨-, -, rfl⟩ | ⟨p, -, rfl⟩ | ⟨-, rfl⟩
  · split
    · exact ⟨_, s.fresh, rfl⟩
    · rw [State.startFrame_eq]
      split
      · exact ⟨_, s.fresh, rfl⟩
      · rename_i n _ _
        obtain ⟨addr, ctrl, next, addr0, dload, isr, up, ph, fa, fresh, h2, -⟩ :=
          State.loadPlanes_frame s.e.updpend (if s.e.updpend then s.e.head else s.e.next) (planesBelow n)
            (s.setE { s.e with active := if s.e.updpend then s.e.shadow else s.e.active })
        rw [h2]
        exact ⟨_, fresh, rfl⟩
  · exact ⟨_, s.fresh, rfl⟩
  · exact ⟨_, s.fresh, rfl⟩
  · exact ⟨_, s.fresh, rfl⟩
  · exact ⟨_, s.fresh, rfl⟩

end Sys2Proof.Machine
end

