-- ==== Sys2Proof/Laws/Fetch.lean ====
section
/-! SUPPORT. The line-by-line membership test of the fetch set is the fetch set (45_engine.md R178). -/

namespace Sys2Proof.Machine

/-! ## The inverse of an odd word -/

/-- The square of an odd word is 1 mod 8. -/
theorem odd_square (d : Word) (h : d.toNat % 2 = 1) : ∃ k : Word, 1#32 - d * d = 8#32 * k := by
  obtain ⟨m, hm⟩ : ∃ m : Word, d = 2#32 * m + 1#32 :=
    ⟨BitVec.ofNat 32 (d.toNat / 2), by apply BitVec.eq_of_toNat_eq; simp; omega⟩
  obtain ⟨t, ht⟩ : ∃ t : Word, m * (m + 1#32) = 2#32 * t := by
    rcases Nat.mod_two_eq_zero_or_one m.toNat with h0 | h1
    · obtain ⟨n, hn⟩ : ∃ n : Word, m = 2#32 * n :=
        ⟨BitVec.ofNat 32 (m.toNat / 2), by apply BitVec.eq_of_toNat_eq; simp; omega⟩
      exact ⟨n * (m + 1#32), by rw [hn]; ring⟩
    · obtain ⟨n, hn⟩ : ∃ n : Word, m + 1#32 = 2#32 * n :=
        ⟨BitVec.ofNat 32 ((m.toNat + 1) / 2), by apply BitVec.eq_of_toNat_eq; simp; omega⟩
      exact ⟨m * n, by rw [hn]; ring⟩
  refine ⟨-t, ?_⟩
  have : 1#32 - d * d = -(4#32 * (m * (m + 1#32))) := by
    rw [hm]
    have e4 : (4#32 : Word) = 2#32 * 2#32 := by decide
    rw [e4]
    have e2 : (2#32 : Word) = 1#32 + 1#32 := by decide
    rw [e2]
    have e1 : (1#32 : Word) = 1 := rfl
    rw [e1]
    ring
  rw [this, ht]
  have e8 : (8#32 : Word) = 4#32 * 2#32 := by decide
  rw [e8]
  ring

/-- `oddInverse` is the inverse of an odd word. -/
theorem mul_oddInverse (d : Word) (h : d.toNat % 2 = 1) : d * oddInverse d = 1#32 := by
  obtain ⟨k, hk⟩ := odd_square d h
  have key : 1#32 - d * oddInverse d = (1#32 - d * d) ^ 16 := by
    have e2 : (2#32 : Word) = 1#32 + 1#32 := by decide
    have e1 : (1#32 : Word) = 1 := rfl
    simp only [oddInverse, e2, e1]
    ring
  have z : (8#32 : Word) ^ 16 = 0#32 := by decide
  rw [hk, mul_pow, z] at key
  have : (1#32 : Word) - d * oddInverse d = 0#32 := by rw [key]; simp
  exact (sub_eq_zero.mp this).symm

/-! ## Powers of two -/

/-- `twos` divides out every factor 2 of a positive number below 2 ^ fuel. -/
theorem twos_spec (fuel n : Nat) (h0 : 0 < n) (h : n < 2 ^ fuel) :
    ∃ o, n = 2 ^ twos fuel n * o ∧ o % 2 = 1 ∧ twos fuel n < fuel := by
  induction fuel generalizing n with
  | zero => simp at h; omega
  | succ f ih =>
    simp only [twos]
    split
    · have hp : 2 ^ (f + 1) = 2 * 2 ^ f := by rw [pow_succ, mul_comm]
      obtain ⟨o, ho, hodd, hlt⟩ := ih (n / 2) (by omega) (by omega)
      refine ⟨o, ?_, hodd, by omega⟩
      have : n = 2 * (n / 2) := by omega
      rw [add_comm 1, pow_succ, mul_comm _ 2, mul_assoc, ← ho]
      exact this
    · exact ⟨n, by simp, by omega, by omega⟩

/-! ## One linear congruence -/

/-- Solving i * (2^k * o) = c mod 2^32 for an odd o. -/
theorem congruence (k o v c i : Nat) (hk : k < 32) (hv : o * v % 2 ^ 32 = 1) :
    i * (2 ^ k * o) % 2 ^ 32 = c % 2 ^ 32 ↔
      c % 2 ^ k = 0 ∧ i % 2 ^ (32 - k) = c / 2 ^ k * v % 2 ^ (32 - k) := by
  have split : 2 ^ 32 = 2 ^ k * 2 ^ (32 - k) := by rw [← pow_add]; congr 1; omega
  have hpos : 0 < 2 ^ k := Nat.pos_of_ne_zero (by positivity)
  have hv' : o * v ≡ 1 [MOD 2 ^ (32 - k)] := by
    have h1 : o * v ≡ 1 [MOD 2 ^ 32] := by unfold Nat.ModEq; rw [hv]; rfl
    exact h1.of_dvd ⟨2 ^ k, by rw [split, mul_comm]⟩
  constructor
  · intro h
    have hm : i * (2 ^ k * o) ≡ c [MOD 2 ^ 32] := h
    have hc : c % 2 ^ k = 0 := by
      have : i * (2 ^ k * o) ≡ c [MOD 2 ^ k] := hm.of_dvd ⟨2 ^ (32 - k), split⟩
      have h0 : i * (2 ^ k * o) % 2 ^ k = 0 := by
        rw [show i * (2 ^ k * o) = 2 ^ k * (i * o) by ring]; exact Nat.mul_mod_right _ _
      unfold Nat.ModEq at this
      omega
    refine ⟨hc, ?_⟩
    obtain ⟨q, rfl⟩ := Nat.dvd_of_mod_eq_zero hc
    rw [Nat.mul_div_cancel_left _ hpos]
    rw [split] at hm
    have hm2 : i * o ≡ q [MOD 2 ^ (32 - k)] :=
      Nat.ModEq.mul_left_cancel' (Nat.pos_iff_ne_zero.mp hpos)
        (by rw [show 2 ^ k * (i * o) = i * (2 ^ k * o) by ring]; exact hm)
    have h3 : i ≡ i * (o * v) [MOD 2 ^ (32 - k)] := by
      simpa using (hv'.mul_left i).symm
    have h4 : i * (o * v) ≡ q * v [MOD 2 ^ (32 - k)] := by
      rw [← mul_assoc]; exact hm2.mul_right v
    exact h3.trans h4
  · rintro ⟨hc, h⟩
    obtain ⟨q, rfl⟩ := Nat.dvd_of_mod_eq_zero hc
    rw [Nat.mul_div_cancel_left _ hpos] at h
    have hi : i ≡ q * v [MOD 2 ^ (32 - k)] := h
    have h2 : i * o ≡ q [MOD 2 ^ (32 - k)] := by
      have h5 : i * o ≡ q * v * o [MOD 2 ^ (32 - k)] := hi.mul_right o
      have h6 : q * v * o ≡ q [MOD 2 ^ (32 - k)] := by
        rw [show q * v * o = q * (o * v) by ring]; simpa using hv'.mul_left q
      exact h5.trans h6
    show i * (2 ^ k * o) ≡ 2 ^ k * q [MOD 2 ^ 32]
    rw [split, show i * (2 ^ k * o) = 2 ^ k * (i * o) by ring]
    exact h2.mul_left' _

/-- A word equation as a congruence. -/
theorem word_mul_eq_iff (d c : Word) (i : Nat) :
    BitVec.ofNat 32 i * d = c ↔ i * d.toNat % 2 ^ 32 = c.toNat % 2 ^ 32 := by
  rw [← BitVec.toNat_inj, BitVec.toNat_mul, BitVec.toNat_ofNat, Nat.mod_mul_mod, Nat.mod_eq_of_lt c.isLt]

/-- `leastSolution` decides i * d = c: it answers the least solution, or none where there is none. -/
theorem leastSolution_spec (d c : Word) :
    match leastSolution d c with
    | none => ∀ i : Nat, BitVec.ofNat 32 i * d ≠ c
    | some m => BitVec.ofNat 32 m * d = c ∧ ∀ i : Nat, BitVec.ofNat 32 i * d = c → m ≤ i := by
  unfold leastSolution
  by_cases hd : d = 0#32
  · rw [if_pos hd]
    subst hd
    by_cases hc : c = 0#32
    · rw [if_pos hc]
      subst hc
      exact ⟨by decide, fun _ _ => Nat.zero_le _⟩
    · rw [if_neg hc]
      intro i h
      exact hc (by rw [← h]; simp)
  · rw [if_neg hd]
    have hpos : 0 < d.toNat := by
      rcases Nat.eq_zero_or_pos d.toNat with h | h
      · exact absurd (BitVec.eq_of_toNat_eq (by simpa using h)) hd
      · exact h
    obtain ⟨o, ho, hodd, hk⟩ := twos_spec 32 d.toNat hpos d.isLt
    dsimp only
    generalize twos 32 d.toNat = k at ho hk ⊢
    have hkpos : 0 < 2 ^ k := Nat.pos_of_ne_zero (by positivity)
    have ho32 : o < 2 ^ 32 := by
      have := d.isLt
      have : 1 * o ≤ 2 ^ k * o := Nat.mul_le_mul_right o hkpos
      omega
    have hdiv : d.toNat / 2 ^ k = o := by rw [ho]; exact Nat.mul_div_cancel_left _ hkpos
    rw [hdiv]
    have hv : o * (oddInverse (BitVec.ofNat 32 o)).toNat % 2 ^ 32 = 1 := by
      have h := mul_oddInverse (BitVec.ofNat 32 o) (by rw [BitVec.toNat_ofNat, Nat.mod_eq_of_lt ho32]; exact hodd)
      have h' := congrArg BitVec.toNat h
      rw [BitVec.toNat_mul, BitVec.toNat_ofNat, Nat.mod_eq_of_lt ho32] at h'
      simpa using h'
    generalize (oddInverse (BitVec.ofNat 32 o)) = w at hv ⊢
    have red : (BitVec.ofNat 32 (c.toNat / 2 ^ k) * w).toNat % 2 ^ (32 - k)
        = c.toNat / 2 ^ k * w.toNat % 2 ^ (32 - k) := by
      rw [BitVec.toNat_mul, BitVec.toNat_ofNat,
        Nat.mod_mod_of_dvd _ (pow_dvd_pow 2 (by omega : 32 - k ≤ 32)), Nat.mul_mod,
        Nat.mod_mod_of_dvd _ (pow_dvd_pow 2 (by omega : 32 - k ≤ 32)), ← Nat.mul_mod]
    have cong := fun i => congruence k o w.toNat c.toNat i hk hv
    by_cases hc : c.toNat % 2 ^ k = 0
    · rw [if_pos hc]
      refine ⟨?_, fun i hi => ?_⟩
      · rw [word_mul_eq_iff, ho, cong, red]
        exact ⟨hc, Nat.mod_mod _ _⟩
      · rw [word_mul_eq_iff, ho, cong] at hi
        rw [red, ← hi.2]
        exact Nat.mod_le _ _
    · rw [if_neg hc]
      intro i hi
      rw [word_mul_eq_iff, ho, cong] at hi
      exact hc hi.1

/-- `onLine` decides whether the line meets the address. -/
theorem onLine_iff (start step a : Word) (n : Nat) :
    onLine start step a n = true ↔ ∃ i : Nat, i < n ∧ start + BitVec.ofNat 32 i * step = a := by
  have spec := leastSolution_spec step (a - start)
  have shift : ∀ i : Nat, start + BitVec.ofNat 32 i * step = a ↔ BitVec.ofNat 32 i * step = a - start := by
    intro i
    rw [eq_sub_iff_add_eq, add_comm]
  unfold onLine
  cases h : leastSolution step (a - start) with
  | none =>
    rw [h] at spec
    simp only [Bool.false_eq_true, false_iff, not_exists, not_and, shift]
    exact fun i _ => spec i
  | some m =>
    rw [h] at spec
    simp only [decide_eq_true_eq, shift]
    exact ⟨fun hm => ⟨m, hm, spec.1⟩, fun ⟨i, hi, e⟩ => Nat.lt_of_le_of_lt (spec.2 i e) hi⟩

/-! ## The fetch set -/

/-- The i-th address of a line. -/
theorem fetchAddr_line (prm : Params) (e : Engine) (p : Plane) (i : Nat) (j : Int) :
    e.fetchAddr prm p 0 j + BitVec.ofNat 32 i * u32 (e.pixelStep prm p) = e.fetchAddr prm p i j := by
  unfold Engine.fetchAddr u32
  rw [← BitVec.ofInt_natCast, ← BitVec.ofInt_mul, ← BitVec.ofInt_add]
  congr 1
  ring

/-- The fast test is the definition of R178. -/
theorem Engine.fetchable_iff (prm : Params) (e : Engine) (p : Plane) (a : Word) :
    e.fetchable prm p a = true ↔ e.inFetchSet prm p a := by
  unfold Engine.fetchable Engine.inFetchSet
  rw [List.any_eq_true]
  constructor
  · rintro ⟨j, hj, h⟩
    obtain ⟨i, hi, ha⟩ := (onLine_iff _ _ _ _).mp h
    rw [fetchAddr_line] at ha
    rw [List.mem_range] at hj
    exact ⟨i, j, by omega, by omega, by omega, by omega, ha⟩
  · rintro ⟨i, j, hi0, hi, hj0, hj, ha⟩
    obtain ⟨i, rfl⟩ := Int.eq_ofNat_of_zero_le hi0
    obtain ⟨j, rfl⟩ := Int.eq_ofNat_of_zero_le hj0
    refine ⟨j, List.mem_range.mpr (by omega), (onLine_iff _ _ _ _).mpr ⟨i, by omega, ?_⟩⟩
    rw [fetchAddr_line]
    exact ha

end Sys2Proof.Machine
end

