-- ==== Sys2Proof/Laws/Operation.lean ====
section
/-! SUPPORT. How a controller operation starts, said once: the state it starts from and the actions it starts with (R46, R137,
R152). -/

namespace Sys2Proof.Machine

/-! ## The actions of the shared sequences -/

/-- Recompute clears `dirty` before its first event and does nothing else before it (R138). -/
theorem State.recompute_state (s : State) : s.recompute.1 = s.setC { s.c with dirty := false } := by
  unfold State.recompute
  simp only
  split <;> rfl

theorem wrAct_pendingId (prm : Params) (r : WReg) (x : Word) : Act.pendingId (wrAct prm r x) = none := by
  unfold wrAct
  split <;> rfl

theorem wrAct_fits (prm : Params) (r : WReg) (x : Word) (o : OpName) : Act.fits o (wrAct prm r x) = true := by
  unfold wrAct
  split <;> rfl

theorem pendingIds_nil (as : List Act) (h : ∀ a ∈ as, Act.pendingId a = none) : as.filterMap Act.pendingId = [] := by
  rw [List.filterMap_eq_nil_iff]
  exact h

theorem cfgWrites_parts {prm : Params} {g : Cfg} {a : Act} (h : a ∈ cfgWrites prm g) :
    Act.pendingId a = none ∧ ∀ o, a.fits o = true := by
  unfold cfgWrites at h
  rw [List.mem_map] at h
  obtain ⟨f, -, rfl⟩ := h
  exact ⟨wrAct_pendingId _ _ _, wrAct_fits _ _ _⟩

theorem writeHeads_parts {prm : Params} {b : Buffer} {a : Act} (h : a ∈ writeHeads prm b) :
    Act.pendingId a = none ∧ ∀ o, a.fits o = true := by
  unfold writeHeads at h
  rw [List.mem_map] at h
  obtain ⟨p, -, rfl⟩ := h
  exact ⟨wrAct_pendingId _ _ _, wrAct_fits _ _ _⟩

theorem buildDescriptors_parts {prm : Params} {rot : Rotation} {b : Buffer} {a : Act}
    (h : a ∈ buildDescriptors prm rot b) : Act.pendingId a = none ∧ ∀ o, a.fits o = true := by
  unfold buildDescriptors at h
  rw [List.mem_flatMap] at h
  obtain ⟨p, -, h⟩ := h
  simp only [descriptorWrites, List.mem_cons, List.not_mem_nil, or_false] at h
  rcases h with rfl | rfl | rfl <;> exact ⟨rfl, fun _ => rfl⟩

theorem recompute_parts {s : State} {a : Act} (h : a ∈ s.recompute.2) :
    Act.pendingId a = none ∧ ∀ o, o = .qbuf ∨ o = .swin → a.fits o = true := by
  unfold State.recompute at h
  simp only at h
  split at h
  · simp only [List.mem_cons, List.not_mem_nil, or_false] at h
    subst h
    exact ⟨rfl, by rintro o (rfl | rfl) <;> rfl⟩
  · simp only [List.mem_append] at h
    rcases h with h | h
    · exact ⟨(cfgWrites_parts h).1, fun o _ => (cfgWrites_parts h).2 o⟩
    · split at h <;> simp only [List.mem_cons, List.not_mem_nil, or_false] at h <;> subst h <;>
        exact ⟨rfl, by rintro o (rfl | rfl) <;> rfl⟩

/-! ## MODE (R134, R177) -/

theorem wrAct_modeWord {prm : Params} {r : WReg} {x y : Word} (h : (wrAct prm r x).modeWord = some y) :
    r = .cfg .mode ∧ y = x := by
  unfold wrAct at h
  split at h
  · simp only [Act.modeWord] at h
    split at h <;> simp_all
  · simp only [Act.modeWord] at h
    split at h <;> simp_all

/-- The sixteen CFG writes write the record's MODE to MODE. -/
theorem cfgWrites_mode {prm : Params} {g : Cfg} {a : Act} {x : Word} (h : a ∈ cfgWrites prm g)
    (hx : a.modeWord = some x) : x = g.mode := by
  unfold cfgWrites at h
  rw [List.mem_map] at h
  obtain ⟨f, -, rfl⟩ := h
  obtain ⟨hf, rfl⟩ := wrAct_modeWord hx
  cases hf
  rfl

theorem writeHeads_mode {prm : Params} {b : Buffer} {a : Act} (h : a ∈ writeHeads prm b) : a.modeWord = none := by
  unfold writeHeads at h
  rw [List.mem_map] at h
  obtain ⟨p, -, rfl⟩ := h
  cases hx : (wrAct prm (.head p) (b.desc.get p)).modeWord with
  | none => rfl
  | some x => cases (wrAct_modeWord hx).1

theorem geometry_mode {prm : Params} {f : FrameFormat} {w : Window} {r : Rotation} {g : Cfg}
    (h : geometry prm f w r = some g) : g.mode = f.tag := by
  unfold geometry at h
  split at h
  · cases h
    rfl
  · cases h

/-- Whatever the window, WriteShadowAll writes the tag of the format in force to MODE. -/
theorem State.writeShadowAll_mode {s : State} {a : Act} {x : Word} (h : a ∈ s.writeShadowAll.2)
    (hx : a.modeWord = some x) : ∃ f, s.c.fmt = some f ∧ x = f.tag := by
  unfold State.writeShadowAll at h
  split at h
  · cases h
  · split at h
    · exact ⟨_, ‹_›, (cfgWrites_mode h hx).trans (geometry_mode ‹_›)⟩
    · exact ⟨_, ‹_›, cfgWrites_mode h hx⟩

/-- Recompute writes the tag of the format in force to MODE. -/
theorem State.recompute_mode {s : State} {a : Act} {x : Word} (h : a ∈ s.recompute.2) (hx : a.modeWord = some x) :
    ∃ f, s.c.fmt = some f ∧ x = f.tag := by
  unfold State.recompute at h
  simp only at h
  split at h
  · simp only [List.mem_cons, List.not_mem_nil, or_false] at h
    subst h
    cases hx
  · rename_i g hg
    rw [List.mem_append] at h
    rcases h with h | h
    · unfold State.geometry at hg
      split at hg
      · cases hg
      · exact ⟨_, ‹_›, (cfgWrites_mode h hx).trans (geometry_mode hg)⟩
    · split at h <;> simp only [List.mem_cons, List.not_mem_nil, or_false] at h <;> subst h <;> cases hx

/-- What WriteShadowAll and WriteHeads, then the end of a show, write to MODE: the tag of the format in force, if anything. -/
theorem State.showActs_mode {s : State} {b : Buffer} {v : Word} {a : Act} (h : a ∈ (s.showActs b v).2) :
    a.modeWord = none ∨ ∃ f, s.c.fmt = some f ∧ a.modeWord = some f.tag := by
  have hw : a ∈ s.writeShadowAll.2 → a.modeWord = none ∨ ∃ f, s.c.fmt = some f ∧ a.modeWord = some f.tag := by
    intro ha
    cases hx : a.modeWord with
    | none => exact .inl rfl
    | some x =>
      obtain ⟨f, hf, rfl⟩ := State.writeShadowAll_mode ha hx
      exact .inr ⟨f, hf, rfl⟩
  have hr : ∀ prm r x, r ≠ .cfg .mode → (wrAct prm r x).modeWord = none := by
    intro prm r x hn
    cases hx : (wrAct prm r x).modeWord with
    | none => rfl
    | some y => exact absurd (wrAct_modeWord hx).1 hn
  unfold State.showActs at h
  split at h
  · simp only [List.mem_append, List.mem_cons, List.not_mem_nil, or_false] at h
    rcases h with (h | h) | rfl | rfl | rfl | rfl
    · exact hw h
    · exact .inl (writeHeads_mode h)
    · exact .inl (hr _ _ _ nofun)
    · exact .inl (hr _ _ _ nofun)
    · exact .inl rfl
    · exact .inl rfl
  · split at h
    · simp only [List.mem_append, List.mem_cons, List.not_mem_nil, or_false] at h
      rcases h with (h | h) | rfl | rfl
      · exact hw h
      · exact .inl (writeHeads_mode h)
      · exact .inl (hr _ _ _ nofun)
      · exact .inl rfl
    · simp only [List.mem_append, List.mem_cons, List.not_mem_nil, or_false] at h
      rcases h with h | rfl | rfl
      · exact .inl (writeHeads_mode h)
      · exact .inl (hr _ _ _ nofun)
      · exact .inl rfl

/-! ## Stores (R111, R113) -/

/-- Setting the descriptor words moves no descriptor. -/
@[simp] theorem Buffer.withDesc_inTrailer (prm prm' : Params) (b : Buffer) (k : Nat) :
    (b.withDesc prm').inTrailer prm k ↔ b.inTrailer prm k := Iff.rfl

/-- The builder's actions are stores, each within a descriptor of the buffer. -/
theorem buildDescriptors_stores {prm : Params} {rot : Rotation} {b : Buffer} {a : Act}
    (h : a ∈ buildDescriptors prm rot b) : ∃ d x, a = .memWrite d x ∧ ∀ j < 4, b.inTrailer prm (byteKey d j) := by
  unfold buildDescriptors at h
  rw [List.mem_flatMap] at h
  obtain ⟨p, hp, h⟩ := h
  have hp : p.index < np prm b.fmt.tag := (mem_planesBelow _ _).mp hp
  simp only [descriptorWrites, List.mem_cons, List.not_mem_nil, or_false] at h
  rcases h with rfl | rfl | rfl
  · exact ⟨_, _, rfl, fun j hj => ⟨p, hp, j, by omega, rfl⟩⟩
  · exact ⟨_, _, rfl, fun j hj => ⟨p, hp, 4 + j, by omega, byteKey_add _ 4 j⟩⟩
  · exact ⟨_, _, rfl, fun j hj => ⟨p, hp, 8 + j, by omega, byteKey_add _ 8 j⟩⟩

/-- With no store to come the stores fit. -/
theorem Controller.storesFit_of_none {prm : Params} {c : Controller}
    (h : ∀ o, c.busy = some o → ∀ a ∈ o.acts, a.isStore = false) : c.storesFit prm :=
  fun o ho => ⟨[], o.acts, rfl, h o ho, .inr nofun⟩

theorem State.showThenAdvance_mem (s : State) (b : Buffer) (x a : Word) : (s.showThenAdvance b x a).mem = s.mem := by
  have hw : s.writeShadowAll.1.mem = s.mem := by
    obtain ⟨⟨n, h⟩, -⟩ := s.writeShadowAll_spec
    rw [h]
  have hs : (s.showActs b x).1.mem = s.mem := by
    unfold State.showActs
    split
    · exact hw
    · split
      · exact hw
      · rfl
  exact (State.push_mem _ _).trans hs

/-- One action changes memory only where it is a memory write. -/
theorem perform_mem {a : Act} (h : ∀ d x, a ≠ .memWrite d x) (s : State) : (perform a s).mem = s.mem := by
  cases a with
  | memWrite d x => exact absurd rfl (h d x)
  | wr r x => rcases s.writeEvent_cases r x false with ⟨_, -, e⟩ | ⟨_, -, e⟩ <;> simp only [perform, e] <;> rfl
  | wrs r x => rcases s.writeEvent_cases r x true with ⟨_, -, e⟩ | ⟨_, -, e⟩ <;> simp only [perform, e] <;> rfl
  | poll r x n =>
    rcases s.pollEvent_cases r x n with ⟨-, e⟩ | ⟨-, -, e⟩ | ⟨-, -, e⟩ <;> simp only [perform, e]
    · exact State.push_mem _ _
    · unfold State.timeout
      split
      · rfl
      · split <;> rfl
    · exact State.push_mem _ _
  | badChsr => simp only [perform, State.badChsr]; split <;> exact State.push_mem _ _
  | recoverChsr =>
    simp only [perform, State.recoverChsr]
    split
    · exact State.push_mem _ _
    · split <;> exact State.push_mem _ _
  | qbufGo b => simp only [perform, State.qbufGo]; split <;> exact State.push_mem _ _
  | qbufChsr b =>
    simp only [perform, State.qbufChsr]
    split
    · exact State.push_mem _ _
    · exact State.showThenAdvance_mem _ _ _ _
  | qbufAddr b v => exact State.showThenAdvance_mem _ _ _ _
  | offChsr => simp only [perform, State.offChsr]; split <;> exact State.push_mem _ _
  | offPoll =>
    simp only [perform, State.offPoll]
    split
    · exact State.push_mem _ _
    · rfl
  | irqChsr =>
    simp only [perform, State.irqChsr]
    split
    · exact State.push_mem _ _
    · split
      · exact State.push_mem _ _
      · rfl
  | irqAddr =>
    simp only [perform, State.irqAddr]
    split
    · rfl
    · split <;> rfl
  | rd r => rfl
  | barrier => rfl
  | setCfg x => rfl
  | setChan x => rfl
  | advance b u => rfl
  | offFlush => rfl
  | offEnd => rfl
  | finish c => rfl

/-! ## Admission (R151) -/

/-- An admitted buffer's id is in neither slot (R151). -/
theorem admission_slots {prm : Params} {c : Controller} {b : Buffer} (h : admissionProblem prm c b = none) :
    slotHas c.cur b.id = false ∧ slotHas c.nxt b.id = false := by
  unfold admissionProblem at h
  split at h; cases h
  split at h; cases h
  split at h; cases h
  split at h; cases h
  rename_i hh
  simpa using hh

/-! ## The start of an operation -/

/-- What an operation leaves as it was before its first action. -/
structure EntryOf (i : Instr) (s v : State) : Prop where
  prm : v.prm = s.prm
  e : v.e = s.e
  mem : v.mem = s.mem
  stream : v.stream = s.stream
  chan : v.c.chan = s.c.chan
  log : v.c.log = s.c.log
  cur : v.c.cur = s.c.cur
  nxt : v.c.nxt = s.c.nxt
  busy : v.c.busy = none
  inv : i.wf = true → s.c.inv s.prm → v.c.inv s.prm

/-- The actions an operation starts with: its own kind only, and a buffer only where it is a QBUF that admitted it. -/
structure ActsOf (i : Instr) (s : State) (o : OpName) (as : List Act) : Prop where
  fits : ∀ a ∈ as, a.fits o = true
  ids :
    as.filterMap Act.pendingId = []
      ∨ ∃ id base0 base1 base2,
          i = .qbuf id base0 base1 base2 ∧ as.filterMap Act.pendingId = [id] ∧ slotHas s.c.cur id = false
            ∧ slotHas s.c.nxt id = false
  qbuf : o = .qbuf → ∃ id base0 base1 base2, i = .qbuf id base0 base1 base2
  streamoff : o = .streamoff → i = .streamoff
  modes : o ≠ .micro → ∀ a ∈ as, ∀ x, a.modeWord = some x → ∃ f, s.c.fmt = some f ∧ x = f.tag

/-- A controller instruction that answers a next state changes a few controller fields and ends, or starts an operation. -/
theorem operation_entry {i : Instr} {s t : State} (hi : isEngineEvent i = false) (h : exec i s = .next t) :
    ∃ v, EntryOf i s v ∧ (t = v ∨ ∃ o as, t = v.runOp o as ∧ ActsOf i s o as) := by
  have hrd := ready_of_controller hi h
  have self : EntryOf i s s := ⟨rfl, rfl, rfl, rfl, rfl, rfl, rfl, rfl, hrd.2, fun _ h => h⟩
  have selfr : ∀ r, EntryOf i s (s.report r) := fun _ => ⟨rfl, rfl, rfl, rfl, rfl, rfl, rfl, rfl, hrd.2, fun _ h => h⟩
  cases controllerKind_of hi with
  | wr r x =>
    rw [exec_ofWr] at h
    refine ⟨s, self, .inr ⟨.micro, _, (controllerStep_next h).2, ?_, .inl ?_, nofun, nofun, fun ho => absurd rfl ho⟩⟩
    · simp [wrAct_fits]
    · simp [wrAct_pendingId]
  | rd r =>
    rw [exec_ofRd] at h
    exact ⟨s, self, .inr ⟨.micro, _, (controllerStep_next h).2, by simp [Act.fits], .inl rfl, nofun, nofun, by simp [Act.modeWord]⟩⟩
  | irq =>
    change execIrq s = .next t at h
    unfold execIrq at h
    split at h
    · cases h
    · exact ⟨s, self, .inr ⟨.irq, _, (controllerStep_next h).2, by simp [Act.fits], .inl rfl, nofun, nofun, by simp [Act.modeWord]⟩⟩
  | barrier =>
    exact ⟨s, self, .inr ⟨.micro, _, (controllerStep_next h).2, by simp [Act.fits], .inl rfl, nofun, nofun, by simp [Act.modeWord]⟩⟩
  | sfmt tag w hh =>
    have ht := (controllerStep_next h).2
    split at ht
    · exact ⟨_, selfr _, .inl ht⟩
    · rename_i hc
      refine ⟨t, ?_, .inl rfl⟩
      subst ht
      refine ⟨rfl, rfl, rfl, rfl, rfl, rfl, rfl, rfl, hrd.2, fun _ hv => ⟨?_, hv.2⟩⟩
      simp at hc
      rintro f hf
      cases hf
      refine ⟨by simp; omega, by simp; omega, ?_⟩
      intro hn
      rw [hn] at hc
      simp at hc
  | srot =>
    have ht := (controllerStep_next h).2
    split at ht
    · exact ⟨_, selfr _, .inl ht⟩
    · split at ht
      · exact ⟨_, selfr _, .inl ht⟩
      · refine ⟨t, ?_, .inl rfl⟩
        subst ht
        exact ⟨rfl, rfl, rfl, rfl, rfl, rfl, rfl, rfl, hrd.2, fun _ hv => hv⟩
  | streamon =>
    have ht := (controllerStep_next h).2
    refine ⟨t, ?_, .inl rfl⟩
    subst ht
    exact ⟨rfl, rfl, rfl, rfl, rfl, rfl, rfl, rfl, hrd.2, fun _ hv => hv⟩
  | streamoff =>
    have ht := (controllerStep_next h).2
    split at ht
    · exact ⟨_, selfr _, .inl ht⟩
    · exact ⟨s, self, .inr ⟨.streamoff, _, ht, by simp [Act.fits], .inl rfl, nofun, fun _ => rfl, by simp [Act.modeWord]⟩⟩
  | swin l tp ww wh =>
    have ht := (controllerStep_next h).2
    dsimp only at ht
    split at ht
    · exact ⟨_, selfr _, .inl ht⟩
    · split at ht
      · refine ⟨t, ?_, .inl rfl⟩
        subst ht
        refine ⟨rfl, rfl, rfl, rfl, rfl, rfl, rfl, rfl, hrd.2, fun hw hv => ⟨hv.1, ?_, hv.2.2⟩⟩
        simpa [Instr.wf, and_assoc] using hw
      · rw [State.recompute_state] at ht
        refine ⟨_, ?_, .inr ⟨.swin, _, ht, ?_, .inl ?_, nofun, nofun, ?_⟩⟩
        · refine ⟨rfl, rfl, rfl, rfl, rfl, rfl, rfl, rfl, hrd.2, fun hw hv => ⟨hv.1, ?_, hv.2.2⟩⟩
          simpa [Instr.wf, and_assoc] using hw
        · intro a ha
          rw [List.mem_append] at ha
          rcases ha with ha | ha
          · exact (recompute_parts ha).2 _ (.inr rfl)
          · simp at ha; subst ha; rfl
        · apply pendingIds_nil
          intro a ha
          rw [List.mem_append] at ha
          rcases ha with ha | ha
          · exact (recompute_parts ha).1
          · simp at ha; subst ha; rfl
        · intro _ a ha x hx
          rw [List.mem_append] at ha
          rcases ha with ha | ha
          · have hm := State.recompute_mode ha hx
            exact hm
          · simp at ha; subst ha; cases hx
  | qbuf id b0 b1 b2 =>
    have ht := (controllerStep_next h).2
    have ref : ∀ r, EntryOf (.qbuf id b0 b1 b2) s (s.refuse r) :=
      fun _ => ⟨rfl, rfl, rfl, rfl, rfl, rfl, rfl, rfl, rfl, fun _ h => ⟨h.1, h.2.1, nofun⟩⟩
    split at ht
    · exact ⟨_, ref _, .inl ht⟩
    · split at ht
      · exact ⟨_, ref _, .inl ht⟩
      · dsimp only at ht
        split at ht
        · exact ⟨_, ref _, .inl ht⟩
        · rename_i had
          obtain ⟨i1, i2⟩ := admission_slots had
          split at ht
          · rw [State.recompute_state] at ht
            refine ⟨_, ?_,
              .inr ⟨.qbuf, _, ht, ?_, .inr ⟨id, b0, b1, b2, rfl, ?_, i1, i2⟩, fun _ => ⟨_, _, _, _, rfl⟩, nofun, ?_⟩⟩
            · exact ⟨rfl, rfl, rfl, rfl, rfl, rfl, rfl, rfl, hrd.2, fun _ h => h⟩
            · intro a ha
              rw [List.mem_append] at ha
              rcases ha with ha | ha
              · exact (recompute_parts ha).2 _ (.inl rfl)
              · simp at ha; subst ha; rfl
            · rw [List.filterMap_append, pendingIds_nil _ (fun a ha => (recompute_parts ha).1)]
              rfl
            · intro _ a ha x hx
              rw [List.mem_append] at ha
              rcases ha with ha | ha
              · exact State.recompute_mode ha hx
              · simp at ha; subst ha; cases hx
          · exact ⟨s, self,
              .inr ⟨.qbuf, _, ht, by simp [Act.fits], .inr ⟨id, b0, b1, b2, rfl, rfl, i1, i2⟩,
                fun _ => ⟨_, _, _, _, rfl⟩, nofun, by simp [Act.modeWord]⟩⟩

end Sys2Proof.Machine
end

