-- ==== Sys2Proof/Laws/PerInstr.lean ====
section
/-! SUPPORT. The statement family made per instruction: an instruction's packet begins with the header word that its row of
spec/opcode_table.json names, and its length is that of its operation (30_encoding.md R65 to R68, R84). -/

namespace Sys2Proof.Laws.TableHeader

/-- The match word and the number of operand words of an instruction's row of spec/opcode_table.json. -/
def row (i : Instr) : Nat × Nat :=
  match i with
  | .sfmt _ _ _ => (0x00000101, 3)
  | .swin _ _ _ _ => (0x00000102, 4)
  | .srot _ => (0x00000103, 1)
  | .qbuf _ _ _ _ => (0x00000104, 4)
  | .streamon => (0x00000105, 0)
  | .streamoff => (0x00000106, 0)
  | .irq => (0x00000107, 0)
  | .barrier => (0x00000112, 0)
  | .wrCher _ => (0x00000110, 1)
  | .wrChdr _ => (0x00010110, 1)
  | .wrIer _ => (0x00030110, 1)
  | .wrIdr _ => (0x00040110, 1)
  | .wrHeadY _ => (0x00100110, 1)
  | .wrHeadU _ => (0x00140110, 1)
  | .wrHeadV _ => (0x00180110, 1)
  | .wrCfgMode _ => (0x00400110, 1)
  | .wrCfgXpos _ => (0x00410110, 1)
  | .wrCfgYpos _ => (0x00420110, 1)
  | .wrCfgXsize _ => (0x00430110, 1)
  | .wrCfgYsize _ => (0x00440110, 1)
  | .wrCfgXmemsize _ => (0x00450110, 1)
  | .wrCfgYmemsize _ => (0x00460110, 1)
  | .wrCfgXfactor _ => (0x00470110, 1)
  | .wrCfgYfactor _ => (0x00480110, 1)
  | .wrCfgCoeff _ => (0x00490110, 1)
  | .wrCfgXstrideY _ => (0x004A0110, 1)
  | .wrCfgPstrideY _ => (0x004B0110, 1)
  | .wrCfgXstrideU _ => (0x004C0110, 1)
  | .wrCfgPstrideU _ => (0x004D0110, 1)
  | .wrCfgXstrideV _ => (0x004E0110, 1)
  | .wrCfgPstrideV _ => (0x004F0110, 1)
  | .rdChsr => (0x00020111, 0)
  | .rdImr => (0x00050111, 0)
  | .rdIsr => (0x00060111, 0)
  | .rdHeadY => (0x00100111, 0)
  | .rdHeadU => (0x00140111, 0)
  | .rdHeadV => (0x00180111, 0)
  | .rdAddrY => (0x00110111, 0)
  | .rdAddrU => (0x00150111, 0)
  | .rdAddrV => (0x00190111, 0)
  | .rdCtrlY => (0x00120111, 0)
  | .rdCtrlU => (0x00160111, 0)
  | .rdCtrlV => (0x001A0111, 0)
  | .rdNextY => (0x00130111, 0)
  | .rdNextU => (0x00170111, 0)
  | .rdNextV => (0x001B0111, 0)
  | .rdCfgMode => (0x00400111, 0)
  | .rdCfgXpos => (0x00410111, 0)
  | .rdCfgYpos => (0x00420111, 0)
  | .rdCfgXsize => (0x00430111, 0)
  | .rdCfgYsize => (0x00440111, 0)
  | .rdCfgXmemsize => (0x00450111, 0)
  | .rdCfgYmemsize => (0x00460111, 0)
  | .rdCfgXfactor => (0x00470111, 0)
  | .rdCfgYfactor => (0x00480111, 0)
  | .rdCfgCoeff => (0x00490111, 0)
  | .rdCfgXstrideY => (0x004A0111, 0)
  | .rdCfgPstrideY => (0x004B0111, 0)
  | .rdCfgXstrideU => (0x004C0111, 0)
  | .rdCfgPstrideU => (0x004D0111, 0)
  | .rdCfgXstrideV => (0x004E0111, 0)
  | .rdCfgPstrideV => (0x004F0111, 0)
  | .rdSyncsr => (0x00000F11, 0)
  | .eFstart => (0x00000120, 0)
  | .eFetchY _ => (0x00000121, 1)
  | .eFetchU _ => (0x00010121, 1)
  | .eFetchV _ => (0x00020121, 1)
  | .eFend => (0x00000122, 0)
  | .eOvrY => (0x00000123, 0)
  | .eOvrU => (0x00010123, 0)
  | .eOvrV => (0x00020123, 0)
  | .eSync => (0x00000F24, 0)

/-- The packet of the instruction begins with its row's match word and has as many operand words as its row names. -/
def Statement (i : Instr) : Prop :=
  (encode i).head? = some (BitVec.ofNat 32 (row i).1) ∧ (encode i).length = (row i).2 + 1

theorem sfmt (tag : Word) (w h : Int) : Statement (.sfmt tag w h) := ⟨rfl, rfl⟩
theorem swin (l t ww wh : Int) : Statement (.swin l t ww wh) := ⟨rfl, rfl⟩
theorem srot (deg : Int) : Statement (.srot deg) := ⟨rfl, rfl⟩
theorem qbuf (id base0 base1 base2 : Word) : Statement (.qbuf id base0 base1 base2) := ⟨rfl, rfl⟩
theorem streamon : Statement .streamon := ⟨rfl, rfl⟩
theorem streamoff : Statement .streamoff := ⟨rfl, rfl⟩
theorem irq : Statement .irq := ⟨rfl, rfl⟩
theorem barrier : Statement .barrier := ⟨rfl, rfl⟩
theorem wrCher (v : Word) : Statement (.wrCher v) := ⟨rfl, rfl⟩
theorem wrChdr (v : Word) : Statement (.wrChdr v) := ⟨rfl, rfl⟩
theorem wrIer (v : Word) : Statement (.wrIer v) := ⟨rfl, rfl⟩
theorem wrIdr (v : Word) : Statement (.wrIdr v) := ⟨rfl, rfl⟩
theorem wrHeadY (v : Word) : Statement (.wrHeadY v) := ⟨rfl, rfl⟩
theorem wrHeadU (v : Word) : Statement (.wrHeadU v) := ⟨rfl, rfl⟩
theorem wrHeadV (v : Word) : Statement (.wrHeadV v) := ⟨rfl, rfl⟩
theorem wrCfgMode (v : Word) : Statement (.wrCfgMode v) := ⟨rfl, rfl⟩
theorem wrCfgXpos (v : Word) : Statement (.wrCfgXpos v) := ⟨rfl, rfl⟩
theorem wrCfgYpos (v : Word) : Statement (.wrCfgYpos v) := ⟨rfl, rfl⟩
theorem wrCfgXsize (v : Word) : Statement (.wrCfgXsize v) := ⟨rfl, rfl⟩
theorem wrCfgYsize (v : Word) : Statement (.wrCfgYsize v) := ⟨rfl, rfl⟩
theorem wrCfgXmemsize (v : Word) : Statement (.wrCfgXmemsize v) := ⟨rfl, rfl⟩
theorem wrCfgYmemsize (v : Word) : Statement (.wrCfgYmemsize v) := ⟨rfl, rfl⟩
theorem wrCfgXfactor (v : Word) : Statement (.wrCfgXfactor v) := ⟨rfl, rfl⟩
theorem wrCfgYfactor (v : Word) : Statement (.wrCfgYfactor v) := ⟨rfl, rfl⟩
theorem wrCfgCoeff (v : Word) : Statement (.wrCfgCoeff v) := ⟨rfl, rfl⟩
theorem wrCfgXstrideY (v : Word) : Statement (.wrCfgXstrideY v) := ⟨rfl, rfl⟩
theorem wrCfgPstrideY (v : Word) : Statement (.wrCfgPstrideY v) := ⟨rfl, rfl⟩
theorem wrCfgXstrideU (v : Word) : Statement (.wrCfgXstrideU v) := ⟨rfl, rfl⟩
theorem wrCfgPstrideU (v : Word) : Statement (.wrCfgPstrideU v) := ⟨rfl, rfl⟩
theorem wrCfgXstrideV (v : Word) : Statement (.wrCfgXstrideV v) := ⟨rfl, rfl⟩
theorem wrCfgPstrideV (v : Word) : Statement (.wrCfgPstrideV v) := ⟨rfl, rfl⟩
theorem rdChsr : Statement .rdChsr := ⟨rfl, rfl⟩
theorem rdImr : Statement .rdImr := ⟨rfl, rfl⟩
theorem rdIsr : Statement .rdIsr := ⟨rfl, rfl⟩
theorem rdHeadY : Statement .rdHeadY := ⟨rfl, rfl⟩
theorem rdHeadU : Statement .rdHeadU := ⟨rfl, rfl⟩
theorem rdHeadV : Statement .rdHeadV := ⟨rfl, rfl⟩
theorem rdAddrY : Statement .rdAddrY := ⟨rfl, rfl⟩
theorem rdAddrU : Statement .rdAddrU := ⟨rfl, rfl⟩
theorem rdAddrV : Statement .rdAddrV := ⟨rfl, rfl⟩
theorem rdCtrlY : Statement .rdCtrlY := ⟨rfl, rfl⟩
theorem rdCtrlU : Statement .rdCtrlU := ⟨rfl, rfl⟩
theorem rdCtrlV : Statement .rdCtrlV := ⟨rfl, rfl⟩
theorem rdNextY : Statement .rdNextY := ⟨rfl, rfl⟩
theorem rdNextU : Statement .rdNextU := ⟨rfl, rfl⟩
theorem rdNextV : Statement .rdNextV := ⟨rfl, rfl⟩
theorem rdCfgMode : Statement .rdCfgMode := ⟨rfl, rfl⟩
theorem rdCfgXpos : Statement .rdCfgXpos := ⟨rfl, rfl⟩
theorem rdCfgYpos : Statement .rdCfgYpos := ⟨rfl, rfl⟩
theorem rdCfgXsize : Statement .rdCfgXsize := ⟨rfl, rfl⟩
theorem rdCfgYsize : Statement .rdCfgYsize := ⟨rfl, rfl⟩
theorem rdCfgXmemsize : Statement .rdCfgXmemsize := ⟨rfl, rfl⟩
theorem rdCfgYmemsize : Statement .rdCfgYmemsize := ⟨rfl, rfl⟩
theorem rdCfgXfactor : Statement .rdCfgXfactor := ⟨rfl, rfl⟩
theorem rdCfgYfactor : Statement .rdCfgYfactor := ⟨rfl, rfl⟩
theorem rdCfgCoeff : Statement .rdCfgCoeff := ⟨rfl, rfl⟩
theorem rdCfgXstrideY : Statement .rdCfgXstrideY := ⟨rfl, rfl⟩
theorem rdCfgPstrideY : Statement .rdCfgPstrideY := ⟨rfl, rfl⟩
theorem rdCfgXstrideU : Statement .rdCfgXstrideU := ⟨rfl, rfl⟩
theorem rdCfgPstrideU : Statement .rdCfgPstrideU := ⟨rfl, rfl⟩
theorem rdCfgXstrideV : Statement .rdCfgXstrideV := ⟨rfl, rfl⟩
theorem rdCfgPstrideV : Statement .rdCfgPstrideV := ⟨rfl, rfl⟩
theorem rdSyncsr : Statement .rdSyncsr := ⟨rfl, rfl⟩
theorem eFstart : Statement .eFstart := ⟨rfl, rfl⟩
theorem eFetchY (a : Word) : Statement (.eFetchY a) := ⟨rfl, rfl⟩
theorem eFetchU (a : Word) : Statement (.eFetchU a) := ⟨rfl, rfl⟩
theorem eFetchV (a : Word) : Statement (.eFetchV a) := ⟨rfl, rfl⟩
theorem eFend : Statement .eFend := ⟨rfl, rfl⟩
theorem eOvrY : Statement .eOvrY := ⟨rfl, rfl⟩
theorem eOvrU : Statement .eOvrU := ⟨rfl, rfl⟩
theorem eOvrV : Statement .eOvrV := ⟨rfl, rfl⟩
theorem eSync : Statement .eSync := ⟨rfl, rfl⟩

end Sys2Proof.Laws.TableHeader
end

