-- ==== Sys2Proof/Laws/Run.lean ====
section
/-! SUPPORT. How the sequences of a controller operation run where no register waits for synchronisation and no turn splits the
operation: each is one lemma that gives the state after it, and the lemmas chain (40_register_access.md; R113, R155). -/

namespace Sys2Proof.Machine

/-- Within k units of fuel, an operation at s with `acts` before the rest is one at t with `more` before the rest. -/
def Runs (op : OpName) (k : Nat) (acts more : List Act) (s t : State) : Prop :=
  ∀ (n : Nat) (rest : List Act), k ≤ n →
    burst n false (s.startOp op (acts ++ rest)) = burst (n - k) false (t.startOp op (more ++ rest))

theorem Runs.refl (op : OpName) (acts : List Act) (s : State) : Runs op 0 acts acts s s := fun _ _ _ => rfl

theorem Runs.trans {op : OpName} {j k : Nat} {a b c : List Act} {s t u : State} (h : Runs op j a b s t)
    (h' : Runs op k b c t u) : Runs op (j + k) a c s u := by
  intro n rest hn
  rw [h n rest (by omega), h' (n - j) rest (by omega), Nat.sub_sub]

theorem Runs.frame {op : OpName} {k : Nat} {a b : List Act} {s t : State} (h : Runs op k a b s t) (x : List Act) :
    Runs op k (a ++ x) (b ++ x) s t := by
  intro n rest hn
  rw [List.append_assoc, List.append_assoc]
  exact h n (x ++ rest) hn

/-- One sequence after another. -/
theorem Runs.seq {op : OpName} {j k : Nat} {a b : List Act} {s t u : State} (h : Runs op j a [] s t)
    (h' : Runs op k b [] t u) : Runs op (j + k) (a ++ b) [] s u :=
  (h.frame b).trans h'

/-- One event. -/
theorem Runs.event {op : OpName} {a : Act} {more : List Act} {s t : State} (hs : s.unsplit) (he : a.isEvent = true)
    (hw : a.isWait = false) (hp : ∀ rest, perform a (s.startOp op rest) = t.startOp op (more ++ rest)) :
    Runs op 1 [a] more s t := by
  intro n rest hn
  obtain ⟨m, rfl⟩ : ∃ m, n = m + 1 := ⟨n - 1, by omega⟩
  change burst (m + 1) false (s.startOp op (a :: rest)) = _
  rw [burst_event m hs op he hw rest, hp]
  rfl

/-- One decision of the controller's own. -/
theorem Runs.own {op : OpName} {a : Act} {more : List Act} {s t : State} (he : a.isEvent = false)
    (hp : ∀ rest, perform a (s.startOp op rest) = t.startOp op (more ++ rest)) : Runs op 1 [a] more s t := by
  intro n rest hn
  obtain ⟨m, rfl⟩ : ∃ m, n = m + 1 := ⟨n - 1, by omega⟩
  change burst (m + 1) false (s.startOp op (a :: rest)) = _
  rw [burst_local m false s op he rest, hp]
  rfl

/-- A sequence that ends the operation: the lock is released. -/
theorem Runs.fin {op : OpName} {acts : List Act} {k : Nat} {s t : State} (h : Runs op k acts [] s t) {n : Nat}
    (hn : k < n) : burst n false (s.startOp op acts) = t.endOp := by
  have h1 := h n [] (by omega)
  rw [List.append_nil] at h1
  rw [h1]
  obtain ⟨m, hm⟩ : ∃ m, n - k = m + 1 := ⟨n - k - 1, by omega⟩
  rw [hm]
  rfl

/-- The grant of an operation's first event makes no difference where that event would follow at once. -/
theorem burst_grant {s : State} (hs : s.unsplit) (op : OpName) {a : Act} (rest : List Act) (he : a.isEvent = true)
    (hw : a.isWait = false) (n : Nat) :
    burst n true (s.startOp op (a :: rest)) = burst n false (s.startOp op (a :: rest)) := by
  cases n with
  | zero => rfl
  | succ n => rw [burst_granted n s op he, burst_event n hs op he hw]

/-! ## Single actions -/

/-- With SYNC_REGS empty every WR is a plain one (R85). -/
theorem wrAct_plain {prm : Params} (hr : prm.syncRegs = []) (r : WReg) (x : Word) : wrAct prm r x = .wr r x := by
  unfold wrAct
  rw [if_neg (by rw [hr]; simp)]

theorem Runs.wr {op : OpName} {r : WReg} {x : Word} {e : Engine} {s : State} (hs : s.unsplit)
    (hr : s.prm.syncRegs = []) (h : s.e.write r x = .ok e) :
    Runs op 1 [wrAct s.prm r x] [] s ((s.setE e).record (.wr r x)) := by
  rw [wrAct_plain hr]
  exact Runs.event hs rfl rfl (fun rest => perform_wr h op rest)

theorem Runs.rd {op : OpName} (r : RReg) {s : State} (hs : s.unsplit) : Runs op 1 [.rd r] [] s (s.readEvent r) :=
  Runs.event hs rfl rfl (fun rest => perform_rd s r op rest)

theorem Runs.setCfg (op : OpName) (c : ConfigState) (s : State) :
    Runs op 1 [.setCfg c] [] s (s.setC { s.c with cfg := c }) :=
  Runs.own rfl (fun r => perform_setCfg s c op r)

theorem Runs.setChan (op : OpName) (c : ChannelState) (s : State) :
    Runs op 1 [.setChan c] [] s (s.setC { s.c with chan := c }) :=
  Runs.own rfl (fun r => perform_setChan s c op r)

theorem Runs.advance (op : OpName) (b : Buffer) (u : Bool) (s : State) :
    Runs op 1 [.advance b u] [] s (s.setC (s.c.advance b u)) :=
  Runs.own rfl (fun r => perform_advance s b u op r)

theorem Runs.finish (op : OpName) (c : Result) (s : State) : Runs op 1 [.finish c] [] s (s.report c) :=
  Runs.own rfl (fun r => perform_finish s c op r)

/-! ## The register writes operations issue -/

/-- CHSR bit 0 is CHEN (R12, R76). -/
theorem chsrEnabled_chsr (e : Engine) : chsrEnabled e.chsr = e.chen := by
  unfold chsrEnabled Engine.chsr bitWord
  cases e.chen <;> cases e.updpend <;> decide

theorem Engine.write_chdr1 (e : Engine) : e.write .chdr 1#32 = .ok { e with dispend := e.dispend || e.chen } := by
  have h : within 1#32 chdrMask = true := by decide
  simp [Engine.write, Engine.writeChdr, h]

theorem Engine.write_cher3 {e : Engine} (h : e.chen = false) :
    e.write .cher 3#32 = .ok { e with chen := true, updpend := true } := by
  have h1 : within 3#32 cherMask = true := by decide
  simp [Engine.write, Engine.writeCher, h1, h]

theorem Engine.write_cher2 (e : Engine) : e.write .cher 2#32 = .ok { e with updpend := true } := by
  have h : within 2#32 cherMask = true := by decide
  simp [Engine.write, Engine.writeCher, h]

theorem Engine.write_ierOn (e : Engine) : e.write .ier irqOn = .ok { e with imr := e.imr ||| irqOn } := by
  have h : within irqOn imask = true := by decide
  simp [Engine.write, Engine.writeIer, h]

theorem Engine.write_idrDma (e : Engine) : e.write .idr irqDma = .ok { e with imr := e.imr &&& ~~~irqDma } := by
  have h : within irqDma imask = true := by decide
  simp [Engine.write, Engine.writeIdr, h]

/-! ## The sixteen CFG writes (R138, R155) -/

/-- CFG writes of a list of fields. -/
theorem Runs.cfgFields {op : OpName} (g : Cfg) (fs : List CfgField) (s : State) (hs : s.unsplit)
    (hr : s.prm.syncRegs = []) :
    Runs op fs.length (fs.map (fun f => wrAct s.prm (.cfg f) (g.get f))) [] s
      { s with
        e := { s.e with shadow := fs.foldl (fun c f => c.set f (g.get f)) s.e.shadow }
        trace := s.trace ++ fs.map (fun f => .wr (.cfg f) (g.get f)) } := by
  induction fs generalizing s with
  | nil => simpa using Runs.refl op [] s
  | cons f rest ih =>
    have h1 : Runs op 1 [wrAct s.prm (.cfg f) (g.get f)] [] s _ :=
      Runs.wr (e := { s.e with shadow := s.e.shadow.set f (g.get f) }) hs hr rfl
    have h3 := Runs.seq h1
      (ih (s := (s.setE { s.e with shadow := s.e.shadow.set f (g.get f) }).record (.wr (.cfg f) (g.get f))) hs hr)
    rw [show (f :: rest).length = 1 + rest.length by simp; omega]
    simp only [List.map_cons, List.foldl_cons]
    simp only [State.record, State.setE, List.append_assoc, List.cons_append, List.nil_append] at h3
    exact h3

/-- The whole shadow configuration written. -/
theorem Runs.cfgWrites {op : OpName} (g : Cfg) (s : State) (hs : s.unsplit) (hr : s.prm.syncRegs = []) :
    Runs op 16 (cfgWrites s.prm g) [] s { s with e := { s.e with shadow := g }, trace := s.trace ++ cfgEvents g } := by
  have h := Runs.cfgFields (op := op) g allFields s hs hr
  rw [show allFields.foldl (fun c f => c.set f (g.get f)) s.e.shadow = g by cases g; cases s.e.shadow; rfl] at h
  exact h

/-! ## WriteHeads (R155) -/

/-- The HEAD writes of a list of planes whose descriptor words are multiples of 4. -/
theorem Runs.headsOfPlanes {op : OpName} (d : Planes Word) (ps : List Plane) (s : State) (hs : s.unsplit)
    (hr : s.prm.syncRegs = []) (ha : ∀ p ∈ ps, wordAligned (d.get p) = true) :
    Runs op ps.length (ps.map (fun p => wrAct s.prm (.head p) (d.get p))) [] s
      { s with
        e := { s.e with head := ps.foldl (fun x p => x.set p (d.get p)) s.e.head }
        trace := s.trace ++ ps.map (fun p => .wr (.head p) (d.get p)) } := by
  induction ps generalizing s with
  | nil => simpa using Runs.refl op [] s
  | cons p rest ih =>
    have h1 : Runs op 1 [wrAct s.prm (.head p) (d.get p)] [] s _ :=
      Runs.wr (e := { s.e with head := s.e.head.set p (d.get p) }) hs hr
        (by simp [Engine.write, Engine.writeHead, ha p (by simp)])
    have h3 := Runs.seq h1
      (ih (s := (s.setE { s.e with head := s.e.head.set p (d.get p) }).record (.wr (.head p) (d.get p))) hs hr
        (fun q hq => ha q (by simp [hq])))
    rw [show (p :: rest).length = 1 + rest.length by simp; omega]
    simp only [List.map_cons, List.foldl_cons]
    simp only [State.record, State.setE, List.append_assoc, List.cons_append, List.nil_append] at h3
    exact h3

/-- WriteHeads of a buffer whose descriptor addresses are multiples of 4. -/
theorem Runs.writeHeads {op : OpName} (b : Buffer) (s : State) (hs : s.unsplit) (hr : s.prm.syncRegs = [])
    (ha : ∀ p ∈ b.planes s.prm, wordAligned (b.desc.get p) = true) :
    Runs op (b.planes s.prm).length (writeHeads s.prm b) [] s
      { s with
        e := { s.e with head := headsOf s.prm b s.e.head }
        trace := s.trace ++ headEvents s.prm b } :=
  Runs.headsOfPlanes b.desc (b.planes s.prm) s hs hr ha

/-! ## BuildDescriptors and BARRIER (R113, R116) -/

/-- The descriptors of a list of planes. -/
theorem Runs.buildPlanes {op : OpName} (rot : Rotation) (b : Buffer) (ps : List Plane) (s : State) (hs : s.unsplit) :
    ∃ u,
      Runs op (3 * ps.length) (ps.flatMap (descriptorWrites s.prm rot b)) [] s
        { s with
          mem := ps.foldl (storeDescriptor s.prm rot b) s.mem
          unpub := u
          trace :=
            s.trace
              ++ ps.flatMap
                (fun p => [.memWrite (b.descAddr s.prm p) (b.addrWord s.prm rot p),
                  .memWrite (b.descAddr s.prm p + 4#32) (ctrlWord p),
                  .memWrite (b.descAddr s.prm p + 8#32) (b.descAddr s.prm p)]) } := by
  induction ps generalizing s with
  | nil => exact ⟨s.unpub, by simpa using Runs.refl op [] s⟩
  | cons p rest ih =>
    have one : ∀ t : State, t.unsplit → ∀ a x, Runs op 1 [.memWrite a x] [] t (t.memWrite a x) :=
      fun t ht a x => Runs.event ht rfl rfl (fun r => perform_memWrite t a x op r)
    let d := b.descAddr s.prm p
    let s1 := s.memWrite d (b.addrWord s.prm rot p)
    let s2 := s1.memWrite (d + 4#32) (ctrlWord p)
    obtain ⟨u, h2⟩ := ih (s := s2.memWrite (d + 8#32) d) hs
    have h3 := Runs.seq (Runs.seq (Runs.seq (one s hs d (b.addrWord s.prm rot p)) (one s1 hs (d + 4#32) (ctrlWord p)))
      (one s2 hs (d + 8#32) d)) h2
    refine ⟨u, ?_⟩
    rw [show 3 * (p :: rest).length = 1 + 1 + 1 + 3 * rest.length by simp; omega]
    simp only [s1, s2, d, State.memWrite, List.append_assoc, List.cons_append, List.nil_append] at h3
    simp only [List.flatMap_cons, List.foldl_cons]
    exact h3

/-- BuildDescriptors and the BARRIER after it: every descriptor word is published. -/
theorem Runs.buildBarrier {op : OpName} (rot : Rotation) (b : Buffer) (s : State) (hs : s.unsplit) :
    Runs op (3 * (b.planes s.prm).length + 1) (buildDescriptors s.prm rot b ++ [.barrier]) [] s
      { s with
        mem := storeDescriptors s.prm rot b s.mem
        unpub := []
        trace := s.trace ++ buildEvents s.prm rot b ++ [.barrier] } := by
  obtain ⟨u, h1⟩ := Runs.buildPlanes (op := op) rot b (b.planes s.prm) s hs
  exact h1.seq (Runs.event hs rfl rfl (fun r => perform_barrier _ op r))

/-! ## Descriptor addresses -/

/-- A buffer has at most three planes (R73). -/
theorem Buffer.planes_length (prm : Params) (b : Buffer) : (b.planes prm).length ≤ 3 := by
  unfold Buffer.planes planesBelow
  simp

/-- One plane replaced, read. -/
theorem Planes.set_get {α : Type} (x : Planes α) (p q : Plane) (a : α) :
    (x.set p a).get q = if q = p then a else x.get q := by
  cases p <;> cases q <;> rfl

/-- Every plane of a list replaced, read at one of them. -/
theorem Planes.foldl_set_get {α : Type} (f : Plane → α) (p : Plane) (ps : List Plane) (d : Planes α) (h : p ∈ ps) :
    (ps.foldl (fun x q => x.set q (f q)) d).get p = f p := by
  have key : ∀ (ps : List Plane) (d : Planes α), p ∈ ps ∨ d.get p = f p →
      (ps.foldl (fun x q => x.set q (f q)) d).get p = f p := by
    intro ps
    induction ps with
    | nil => intro d hd; simpa using hd
    | cons q rest ih =>
      intro d hd
      rw [List.foldl_cons]
      apply ih
      by_cases hq : p = q
      · right; subst hq; rw [Planes.set_get]; simp
      · rcases hd with hd | hd
        · left; simpa [hq] using hd
        · right; rw [Planes.set_get, if_neg hq]; exact hd
  exact key ps d (.inl h)

/-- The descriptor words of a built buffer. -/
theorem Buffer.withDesc_get {prm : Params} {b : Buffer} {p : Plane} (h : p ∈ b.planes prm) :
    (b.withDesc prm).desc.get p = b.descAddr prm p :=
  Planes.foldl_set_get _ p _ _ h

end Sys2Proof.Machine
end

