-- ==== Sys2Proof/Tests/Slice0.lean ====
section
/-! SUPPORT. The model's own tests: the smoke of WellFormed, a decoded word for every constructor, the spec's vectors of
95_test_vectors.md, and a witness for the hypotheses of every statement. Expected values come from the spec. -/

namespace Sys2Proof.Tests

open Sys2Proof Sys2Proof.Machine

/- One theorem after another: the kernel evaluations of many at once would each hold a thread's stack. -/
set_option Elab.async false

/-! ## WellFormed: an ill-formed term for each check (R10, R69) -/

theorem test_wf_sfmt_width : (Instr.sfmt 0#32 2147483648 1).wf = false := by decide

theorem test_wf_sfmt_height : (Instr.sfmt 0#32 1 (-2147483649)).wf = false := by decide

theorem test_wf_swin_left : (Instr.swin 2147483648 0 1 1).wf = false := by decide

theorem test_wf_swin_top : (Instr.swin 0 (-2147483649) 1 1).wf = false := by decide

theorem test_wf_swin_width : (Instr.swin 0 0 2147483648 1).wf = false := by decide

theorem test_wf_swin_height : (Instr.swin 0 0 1 2147483648).wf = false := by decide

theorem test_wf_srot : (Instr.srot 2147483648).wf = false := by decide

theorem test_wf_bounds : (Instr.swin (-2147483648) 2147483647 (-2147483648) 2147483647).wf = true := by decide

/-! ## Decoding: every constructor, from words written out from R66, R68, R74 -/

theorem test_decode_host_operations :
    decode [0x00000101#32, 0x00000005#32, 0x00000140#32, 0xFFFFFFFF#32] = .ok (.sfmt 5#32 320 (-1)) []
      ∧ decode [0x00000102#32, 0xFFFFFFF6#32, 0x00000000#32, 0x00000064#32, 0x00000032#32] = .ok (.swin (-10) 0 100 50) []
      ∧ decode [0x00000103#32, 0x0000005A#32] = .ok (.srot 90) []
      ∧ decode [0x00000104#32, 0x00000007#32, 0x20000000#32, 0x20050000#32, 0x20070000#32] = .ok (.qbuf 7#32 0x20000000#32 0x20050000#32 0x20070000#32) []
      ∧ decode [0x00000105#32] = .ok (.streamon) []
      ∧ decode [0x00000106#32] = .ok (.streamoff) [] := by
  decide

theorem test_decode_irq_barrier :
    decode [0x00000107#32] = .ok (.irq) []
      ∧ decode [0x00000112#32] = .ok (.barrier) [] := by
  decide

theorem test_decode_wr_control :
    decode [0x00000110#32, 0x20000000#32] = .ok (.wrCher 0x20000000#32) []
      ∧ decode [0x00010110#32, 0x20000004#32] = .ok (.wrChdr 0x20000004#32) []
      ∧ decode [0x00030110#32, 0x2000000C#32] = .ok (.wrIer 0x2000000C#32) []
      ∧ decode [0x00040110#32, 0x20000010#32] = .ok (.wrIdr 0x20000010#32) []
      ∧ decode [0x00100110#32, 0x20000040#32] = .ok (.wrHeadY 0x20000040#32) []
      ∧ decode [0x00140110#32, 0x20000050#32] = .ok (.wrHeadU 0x20000050#32) []
      ∧ decode [0x00180110#32, 0x20000060#32] = .ok (.wrHeadV 0x20000060#32) [] := by
  decide

theorem test_decode_wr_cfg :
    decode [0x00400110#32, 0x20000100#32] = .ok (.wrCfgMode 0x20000100#32) []
      ∧ decode [0x00410110#32, 0x20000104#32] = .ok (.wrCfgXpos 0x20000104#32) []
      ∧ decode [0x00420110#32, 0x20000108#32] = .ok (.wrCfgYpos 0x20000108#32) []
      ∧ decode [0x00430110#32, 0x2000010C#32] = .ok (.wrCfgXsize 0x2000010C#32) []
      ∧ decode [0x00440110#32, 0x20000110#32] = .ok (.wrCfgYsize 0x20000110#32) []
      ∧ decode [0x00450110#32, 0x20000114#32] = .ok (.wrCfgXmemsize 0x20000114#32) []
      ∧ decode [0x00460110#32, 0x20000118#32] = .ok (.wrCfgYmemsize 0x20000118#32) []
      ∧ decode [0x00470110#32, 0x2000011C#32] = .ok (.wrCfgXfactor 0x2000011C#32) []
      ∧ decode [0x00480110#32, 0x20000120#32] = .ok (.wrCfgYfactor 0x20000120#32) []
      ∧ decode [0x00490110#32, 0x20000124#32] = .ok (.wrCfgCoeff 0x20000124#32) []
      ∧ decode [0x004A0110#32, 0x20000128#32] = .ok (.wrCfgXstrideY 0x20000128#32) []
      ∧ decode [0x004B0110#32, 0x2000012C#32] = .ok (.wrCfgPstrideY 0x2000012C#32) []
      ∧ decode [0x004C0110#32, 0x20000130#32] = .ok (.wrCfgXstrideU 0x20000130#32) []
      ∧ decode [0x004D0110#32, 0x20000134#32] = .ok (.wrCfgPstrideU 0x20000134#32) []
      ∧ decode [0x004E0110#32, 0x20000138#32] = .ok (.wrCfgXstrideV 0x20000138#32) []
      ∧ decode [0x004F0110#32, 0x2000013C#32] = .ok (.wrCfgPstrideV 0x2000013C#32) [] := by
  decide

theorem test_decode_rd_status :
    decode [0x00020111#32] = .ok (.rdChsr) []
      ∧ decode [0x00050111#32] = .ok (.rdImr) []
      ∧ decode [0x00060111#32] = .ok (.rdIsr) []
      ∧ decode [0x00000F11#32] = .ok (.rdSyncsr) [] := by
  decide

theorem test_decode_rd_planes :
    decode [0x00100111#32] = .ok (.rdHeadY) []
      ∧ decode [0x00140111#32] = .ok (.rdHeadU) []
      ∧ decode [0x00180111#32] = .ok (.rdHeadV) []
      ∧ decode [0x00110111#32] = .ok (.rdAddrY) []
      ∧ decode [0x00150111#32] = .ok (.rdAddrU) []
      ∧ decode [0x00190111#32] = .ok (.rdAddrV) []
      ∧ decode [0x00120111#32] = .ok (.rdCtrlY) []
      ∧ decode [0x00160111#32] = .ok (.rdCtrlU) []
      ∧ decode [0x001A0111#32] = .ok (.rdCtrlV) []
      ∧ decode [0x00130111#32] = .ok (.rdNextY) []
      ∧ decode [0x00170111#32] = .ok (.rdNextU) []
      ∧ decode [0x001B0111#32] = .ok (.rdNextV) [] := by
  decide

theorem test_decode_rd_cfg :
    decode [0x00400111#32] = .ok (.rdCfgMode) []
      ∧ decode [0x00410111#32] = .ok (.rdCfgXpos) []
      ∧ decode [0x00420111#32] = .ok (.rdCfgYpos) []
      ∧ decode [0x00430111#32] = .ok (.rdCfgXsize) []
      ∧ decode [0x00440111#32] = .ok (.rdCfgYsize) []
      ∧ decode [0x00450111#32] = .ok (.rdCfgXmemsize) []
      ∧ decode [0x00460111#32] = .ok (.rdCfgYmemsize) []
      ∧ decode [0x00470111#32] = .ok (.rdCfgXfactor) []
      ∧ decode [0x00480111#32] = .ok (.rdCfgYfactor) []
      ∧ decode [0x00490111#32] = .ok (.rdCfgCoeff) []
      ∧ decode [0x004A0111#32] = .ok (.rdCfgXstrideY) []
      ∧ decode [0x004B0111#32] = .ok (.rdCfgPstrideY) []
      ∧ decode [0x004C0111#32] = .ok (.rdCfgXstrideU) []
      ∧ decode [0x004D0111#32] = .ok (.rdCfgPstrideU) []
      ∧ decode [0x004E0111#32] = .ok (.rdCfgXstrideV) []
      ∧ decode [0x004F0111#32] = .ok (.rdCfgPstrideV) [] := by
  decide

theorem test_decode_engine :
    decode [0x00000120#32] = .ok (.eFstart) []
      ∧ decode [0x00000121#32, 0x20000000#32] = .ok (.eFetchY 0x20000000#32) []
      ∧ decode [0x00010121#32, 0x20000004#32] = .ok (.eFetchU 0x20000004#32) []
      ∧ decode [0x00020121#32, 0x20000008#32] = .ok (.eFetchV 0x20000008#32) []
      ∧ decode [0x00000122#32] = .ok (.eFend) []
      ∧ decode [0x00000123#32] = .ok (.eOvrY) []
      ∧ decode [0x00010123#32] = .ok (.eOvrU) []
      ∧ decode [0x00020123#32] = .ok (.eOvrV) []
      ∧ decode [0x00000F24#32] = .ok (.eSync) [] := by
  decide

/-- V-X13 to V-X28: what the decoder refuses. -/
theorem test_decode_invalid :
    decode [0x00000108#32] = .bad .invalidEncoding ∧ decode [0x00001105#32] = .bad .invalidEncoding
      ∧ decode [0x01000105#32] = .bad .invalidEncoding ∧ decode [0x00000008#32] = .bad .invalidEncoding
      ∧ decode [0x00000205#32] = .bad .invalidEncoding ∧ decode [0x00000F05#32] = .bad .invalidEncoding
      ∧ decode [0x00020110#32, 1#32] = .bad .invalidEncoding ∧ decode [0x00050110#32, 1#32] = .bad .invalidEncoding
      ∧ decode [0x00000111#32] = .bad .invalidEncoding ∧ decode [0x00070111#32] = .bad .invalidEncoding
      ∧ decode [0x00500111#32] = .bad .invalidEncoding ∧ decode [0x00010F11#32] = .bad .invalidEncoding
      ∧ decode [0x00030121#32, 0#32] = .bad .invalidEncoding ∧ decode [0x00010105#32] = .bad .invalidEncoding
      ∧ decode [0x00000101#32, 0#32] = .bad .invalidEncoding := by
  decide

/-- V-X16. -/
theorem test_decode_base_layer : decode [0x00000005#32] = .bad .baseLayerUnspecified := by decide

/-- R84: the table word of a row, operand words of zeros. -/
theorem test_table_word :
    decodeTableWord 32 0x00000104 = some (.qbuf 0#32 0#32 0#32 0#32) ∧ decodeTableWord 32 0x00000F24 = some .eSync
      ∧ decodeTableWord 32 0x00000108 = none := by
  decide

/-! ## Small states -/

/-- One field of the next state, if there is one. -/
def got {α : Type} (o : Host.Outcome State Fault Refusal) (f : State → α) : Option α :=
  match o with
  | .next t => some (f t)
  | _ => none

/-- Reset with the engine changed. -/
def withE (f : Engine → Engine) : State := { State.reset with e := f State.reset.e }

/-- Reset with the controller changed. -/
def withC (f : Controller → Controller) : State := { State.reset with c := f State.reset.c }

/-- The parameters with SYNC_REGS = {(1, IER)} and a wait of k polls. -/
def syncState (wait : SyncWait) (pending : Bool) : State :=
  { State.reset with
    prm := { Params.example with syncRegs := [.ier], syncWait := wait }
    e := { State.reset.e with sipsts := pending } }

/-- RGB565, 2 by 1: a plane of 4 bytes (R73). -/
def small : FrameFormat := { tag := 3#32, w := 2, h := 1 }

/-- A buffer of the small format. -/
def smallBuffer (id base : Word) : Buffer := newBuffer Params.example small id base 0#32 0#32

/-- Streaming with the small format, nothing pending. -/
def streaming : State := withC (fun c => { c with streaming := true, fmt := some small })

/-- Streaming with the channel enabled between frames, DMA address a, and the slots given. -/
def running (a : Word) (cur nxt : Option Buffer) : State :=
  { streaming with
    c := { streaming.c with chan := .running, cur := cur, nxt := nxt }
    e :=
      { streaming.e with
        chen := true
        addr := { streaming.e.addr with y := a }
        active := { streaming.e.active with mode := 3#32 }
        imr := 0x30#32 } }

/-- V-G1 to V-G10 as a list of words in field order (R78). -/
def geometryWords (f : FrameFormat) (w : Window) (r : Rotation) : Option (List Word) :=
  (geometry Params.example f w r).map (fun g => allFields.map g.get)

/-- YUV420, 640 by 480. -/
def vga : FrameFormat := { tag := 0#32, w := 640, h := 480 }

/-- The engine in a frame of a 3 by 2 plane of 4-byte pixels at base 0 under a rotation (V-D8). -/
def walkEngine (r : Rotation) (off : Word) : Engine :=
  { State.reset.e with
    phase := .fetching
    chen := true
    ctrl := { y := 0x31#32, u := 1#32, v := 1#32 }
    addr0 := { y := off, u := 0#32, v := 0#32 }
    active :=
      (geometry Params.example { tag := 5#32, w := 3, h := 2 } { left := 0, top := 0, width := 640, height := 480 } r).getD
        .zero }

/-- The addresses of a walk, line after line (R178). -/
def walk (e : Engine) : List Word :=
  (List.range (e.fetchH .y).toNat).flatMap
    (fun j => (List.range (e.fetchW .y).toNat).map (fun i => e.fetchAddr Params.example .y i j))

/-- Between frames with an update pending: V-E1 in small, one plane of RGB565, the descriptor at 0x104. -/
def latched (ctrl : Word) : State :=
  { withE (fun e =>
      { e with
        chen := true
        updpend := true
        head := { e.head with y := 0x104#32 }
        shadow := { e.shadow with mode := 3#32, xmemsize := 2#32, ymemsize := 1#32 } }) with
    mem := Memory.writeWord (Memory.writeWord (Memory.writeWord [] 0x104#32 0x100#32) 0x108#32 ctrl) 0x10C#32 0x104#32 }

/-- In a frame of the small format at 0x100, the control word given. -/
def fetching (ctrl : Word) : State :=
  withE (fun e =>
    { e with
      chen := true
      phase := .fetching
      ctrl := { e.ctrl with y := ctrl }
      addr := { e.addr with y := 0x100#32 }
      addr0 := { e.addr0 with y := 0x100#32 }
      active := { e.active with mode := 3#32, xmemsize := 2#32, ymemsize := 1#32 } })

/-! ## Geometry, strides, walks (V-G, V-D) -/

/-- V-G1, V-G2. -/
theorem test_geometry_rot0_rot90 :
    geometryWords vga { left := 0, top := 0, width := 640, height := 480 } .r0
        = some [0x0#32, 0x0#32, 0x0#32, 0x280#32, 0x1E0#32, 0x280#32, 0x1E0#32, 0x7FF#32, 0x7FE#32, 0x1#32,
          0x0#32, 0x0#32, 0x0#32, 0x0#32, 0x0#32, 0x0#32]
      ∧ geometryWords vga { left := 0, top := 0, width := 640, height := 480 } .r90
        = some [0x0#32, 0x0#32, 0x0#32, 0x280#32, 0x1E0#32, 0x1E0#32, 0x280#32, 0x5FF#32, 0xAA9#32, 0x0#32,
          0x4AD80#32, 0xFFFFFD7F#32, 0x12AC0#32, 0xFFFFFEBF#32, 0x12AC0#32, 0xFFFFFEBF#32] := by
  decide +kernel

/-- V-G4, V-G5, V-G10. -/
theorem test_geometry_rot270_clamp :
    geometryWords vga { left := 0, top := 0, width := 640, height := 480 } .r270
        = some [0x0#32, 0x0#32, 0x0#32, 0x280#32, 0x1E0#32, 0x1E0#32, 0x280#32, 0x5FF#32, 0xAA9#32, 0x0#32,
          0xFFFB527E#32, 0x27F#32, 0xFFFED53E#32, 0x13F#32, 0xFFFED53E#32, 0x13F#32]
      ∧ geometryWords vga { left := -10, top := 0, width := 100, height := 50 } .r0
        = some [0x0#32, 0x0#32, 0x0#32, 0x5A#32, 0x32#32, 0x280#32, 0x1E0#32, 0x38D9#32, 0x4CB9#32, 0x1#32,
          0x0#32, 0x0#32, 0x0#32, 0x0#32, 0x0#32, 0x0#32]
      ∧ geometryWords { tag := 4#32, w := 3, h := 2 } { left := 0, top := 0, width := 1, height := 1 } .r270
        = some [0x4#32, 0x0#32, 0x0#32, 0x1#32, 0x1#32, 0x2#32, 0x3#32, 0xC01#32, 0x1401#32, 0x1#32,
          0xFFFFFFF1#32, 0x6#32, 0x0#32, 0x0#32, 0x0#32, 0x0#32] := by
  decide +kernel

/-- V-G6, V-G13, V-G14: Invalid. -/
theorem test_geometry_invalid :
    geometry Params.example vga { left := -100, top := 0, width := 100, height := 50 } .r0 = none
      ∧ geometry Params.example vga { left := 0, top := 480, width := 640, height := 10 } .r0 = none
      ∧ geometry Params.example vga { left := 0, top := 0, width := 640, height := -5 } .r0 = none := by
  decide +kernel

/-- V-G11, the overshoot rows and the negative numerator. -/
theorem test_factor :
    factor Params.example 100 1000 4 = 203 ∧ factor Params.example 1 640 4 = 1 ∧ factor Params.example 640 480 4 = 2729
      ∧ factor Params.example 1 3 16 = -683 := by
  decide +kernel

/-- V-D7b to V-D7d, V-D7h. -/
theorem test_strides :
    scanParams 640 480 1 .r90 = { off := 306560, xs := 306560, ps := -641 }
      ∧ scanParams 640 480 1 .r180 = { off := 307199, xs := -2, ps := -2 }
      ∧ scanParams 640 480 1 .r270 = { off := 639, xs := -306562, ps := 639 }
      ∧ scanParams 640 480 2 .r90 = { off := 613120, xs := 613120, ps := -1282 } := by
  decide +kernel

/-- V-D8a to V-D8d. -/
theorem test_walk :
    walk (walkEngine .r0 0#32) = [0#32, 4#32, 8#32, 12#32, 16#32, 20#32]
      ∧ walk (walkEngine .r90 12#32) = [12#32, 0#32, 16#32, 4#32, 20#32, 8#32]
      ∧ walk (walkEngine .r180 20#32) = [20#32, 16#32, 12#32, 8#32, 4#32, 0#32]
      ∧ walk (walkEngine .r270 8#32) = [8#32, 20#32, 4#32, 16#32, 0#32, 12#32] := by
  decide +kernel

/-- V-D4, V-D9: descriptor places and start addresses. -/
theorem test_descriptor_words :
    (newBuffer Params.example vga 1#32 0x20000000#32 0x20050000#32 0x20070000#32).descAddr Params.example .v = 0x20082C00#32
      ∧ (newBuffer Params.example vga 1#32 0x20000000#32 0x20050000#32 0x20070000#32).addrWord Params.example .r90 .u
        = 0x20062AC0#32
      ∧ (newBuffer Params.example { tag := 0#32, w := 3, h := 3 } 1#32 0x10000000#32 0x10000100#32 0x10000200#32).descAddr
          Params.example .y
        = 0x1000000C#32 := by
  decide +kernel

/-! ## Host operations (V-C, V-Q) -/

/-- V-C1. -/
theorem test_sfmt :
    got (exec (.sfmt 0#32 640 480) State.reset) (fun t => (t.c.fmt, t.c.dirty, t.results)) = some (some vga, true, [.ok]) := by
  decide +kernel

/-- V-C2 to V-C4. -/
theorem test_sfmt_error :
    got (exec (.sfmt 6#32 640 480) State.reset) (fun t => (t.c.fmt, t.c.dirty, t.results))
        = some (none, false, [.configurationError])
      ∧ got (exec (.sfmt 3#32 0 480) State.reset) (fun t => t.results) = some [.configurationError]
      ∧ got (exec (.sfmt 3#32 640 (-1)) State.reset) (fun t => t.results) = some [.configurationError] := by
  decide +kernel

/-- V-C8: the sixteen words of V-G1, GoodNeedsLatch. V-C10: the Bad path on a stopped channel. -/
theorem test_swin :
    got (exec (.swin 0 0 640 480) (withC (fun c => { c with fmt := some vga, dirty := true })))
        (fun t => (t.c.cfg, t.c.dirty, t.e.shadow.xfactor, t.trace.length, t.results))
        = some (.goodNeedsLatch, false, 0x7FF#32, 16, [.ok])
      ∧ got (exec (.swin (-100) 0 100 50) (withC (fun c => { c with fmt := some vga, dirty := true })))
          (fun t => (t.c.cfg, t.e.dispend, t.trace))
        = some (.bad, false, [.rd .chsr 0#32]) := by
  decide +kernel

/-- V-C12, V-C13. -/
theorem test_srot :
    got (exec (.srot 90) State.reset) (fun t => (t.c.rot, t.c.dirty)) = some (.r90, true)
      ∧ got (exec (.srot 0) State.reset) (fun t => t.c.dirty) = some false := by
  decide +kernel

/-- V-C14. -/
theorem test_srot_error :
    got (exec (.srot 45) State.reset) (fun t => t.results) = some [.configurationError]
      ∧ got (exec (.srot 360) State.reset) (fun t => t.results) = some [.configurationError]
      ∧ got (exec (.srot (-90)) State.reset) (fun t => t.results) = some [.configurationError] := by
  decide +kernel

/-- P1 step 3 in small: descriptor, HEAD, CHSR, IMR and slots after the enabling show. -/
theorem test_qbuf_enable :
    got (exec (.qbuf 1#32 0x100#32 0#32 0#32) streaming)
        (fun t => ([t.e.head.y, t.e.chsr, t.e.imr, Memory.readWord t.mem 0x108#32], t.c.chan, t.c.nxt.map Buffer.id))
      = some ([0x104#32, 3#32, 0x30#32, 0x31#32], .running, some 1#32) := by
  decide +kernel

/-- P2 step 8 in small: in use, the next buffer is superseded with Error. -/
theorem test_qbuf_supersede :
    got (exec (.qbuf 3#32 0x300#32 0#32 0#32)
          (running 0x103#32 (some (smallBuffer 1#32 0x100#32)) (some (smallBuffer 2#32 0x200#32))))
        (fun t => (t.c.log, t.c.cur.map Buffer.id, t.c.nxt.map Buffer.id, t.e.updpend))
      = some ([(2#32, .error)], some 1#32, some 3#32, true) := by
  decide +kernel

/-- V-Q29. -/
theorem test_streamon :
    got (exec .streamon State.reset) (fun t => (t.c.streaming, t.results)) = some (true, [.ok]) := by
  decide +kernel

/-- V-Q27. -/
theorem test_streamoff :
    got (exec .streamoff (withC (fun c => { c with streaming := true, cur := some (smallBuffer 1#32 0x100#32) })))
        (fun t => (t.c.log, t.c.chan, t.c.streaming, t.trace))
      = some ([(1#32, .done)], .idle, false, [.rd .chsr 0#32, .wr .idr 0x3C#32, .rd .isr 0#32]) := by
  decide +kernel

/-- V-Q28: up to the first wait point. -/
theorem test_streamoff_waits :
    got (exec .streamoff (running 0#32 none none)) (fun t => (t.e.dispend, t.c.busy.isSome, t.trace))
      = some (true, true, [.rd .chsr 1#32, .wr .chdr 1#32]) := by
  decide +kernel

/-- V-Q20: the slots retired Done, current first. -/
theorem test_irq_stopped :
    got (exec .irq
          { running 0#32 (some (smallBuffer 1#32 0x100#32)) (some (smallBuffer 2#32 0x200#32)) with
            e := { (running 0#32 none none).e with chen := false, isr := 0x20#32 } })
        (fun t => (t.c.log, t.c.cur, t.c.nxt, t.e.imr, t.trace.length))
      = some ([(1#32, .done), (2#32, .done)], none, none, 0#32, 3) := by
  decide +kernel

/-- V-Q23: ADDR_Y has left the current buffer. -/
theorem test_irq_advance :
    got (exec .irq
          { running 0x200#32 (some (smallBuffer 1#32 0x100#32)) (some (smallBuffer 2#32 0x200#32)) with
            e := { (running 0x200#32 none none).e with isr := 0x10#32 } })
        (fun t => (t.c.log, t.c.cur.map Buffer.id, t.c.nxt, t.e.isr))
      = some ([(1#32, .done)], some 2#32, none, 0#32) := by
  decide +kernel

/-! ## Registers (V-R, V-Z) -/

/-- V-R1, V-R2. -/
theorem test_wr_cher :
    got (exec (.wrCher 3#32) State.reset) (fun t => t.e.chsr) = some 3#32
      ∧ got (exec (.wrCher 2#32) State.reset) (fun t => (t.e.chen, t.e.updpend)) = some (false, true) := by
  decide +kernel

/-- V-R3, V-R5. -/
theorem test_wr_cher_refused :
    got (exec (.wrCher 4#32) State.reset) (fun t => t.refused) = some (some .reservedBit)
      ∧ got (exec (.wrCher 1#32) (withE (fun e => { e with chen := true, dispend := true }))) (fun t => t.refused)
        = some (some .enableWhileDisabling) := by
  decide +kernel

/-- V-R7, V-R8, V-R9. -/
theorem test_wr_chdr :
    got (exec (.wrChdr 1#32) State.reset) (fun t => t.e.dispend) = some false
      ∧ got (exec (.wrChdr 1#32) (withE (fun e => { e with chen := true }))) (fun t => (t.e.dispend, t.e.chsr))
        = some (true, 1#32)
      ∧ got (exec (.wrChdr 0x100#32) State.reset) (fun t => t.refused) = some (some .reservedBit) := by
  decide +kernel

/-- V-R11, V-R12, V-R25: the last a synchronised write. -/
theorem test_wr_ier :
    got (exec (.wrIer 0x007C7C7C#32) State.reset) (fun t => t.e.imr) = some 0x007C7C7C#32
      ∧ got (exec (.wrIer 0x80#32) State.reset) (fun t => t.refused) = some (some .reservedBit)
      ∧ got (exec (.wrIer 0x30#32) (syncState .unbounded false)) (fun t => (t.e.imr, t.e.sipsts, t.trace))
        = some (0x30#32, true, [.rd .syncsr 0#32, .wr .ier 0x30#32]) := by
  decide +kernel

/-- V-R15, V-R16. -/
theorem test_wr_idr :
    got (exec (.wrIdr 0x3C#32) (withE (fun e => { e with imr := 0x30#32, isr := 0x20#32 }))) (fun t => (t.e.imr, t.e.isr))
        = some (0#32, 0x20#32)
      ∧ got (exec (.wrIdr 0x01000000#32) State.reset) (fun t => t.refused) = some (some .reservedBit) := by
  decide +kernel

/-- V-R17, V-R18. -/
theorem test_wr_head :
    got (exec (.wrHeadY 0x2004B000#32) State.reset) (fun t => t.e.head.y) = some 0x2004B000#32
      ∧ got (exec (.wrHeadU 0x20062C02#32) State.reset) (fun t => t.refused) = some (some .misalignedHead)
      ∧ got (exec (.wrHeadV 0x20082C00#32) State.reset) (fun t => (t.e.head.y, t.e.head.v)) = some (0#32, 0x20082C00#32) := by
  decide +kernel

/-- V-R19 for each field: one field of SHADOW changes, and ACTIVE does not (R91). -/
theorem test_wr_cfg :
    allFields.map (fun f => got (exec (Instr.ofWr (.cfg f) 7#32) State.reset)
        (fun t => allFields.filter (fun k => t.e.shadow.get k == 7#32)))
      = allFields.map (fun f => some [f]) := by
  decide +kernel

/-- The constructors of WR_CFG stand for their fields (R78). -/
theorem test_wr_cfg_names :
    [Instr.wrCfgMode 7#32, .wrCfgXpos 7#32, .wrCfgYpos 7#32, .wrCfgXsize 7#32, .wrCfgYsize 7#32, .wrCfgXmemsize 7#32,
        .wrCfgYmemsize 7#32, .wrCfgXfactor 7#32, .wrCfgYfactor 7#32, .wrCfgCoeff 7#32, .wrCfgXstrideY 7#32,
        .wrCfgPstrideY 7#32, .wrCfgXstrideU 7#32, .wrCfgPstrideU 7#32, .wrCfgXstrideV 7#32, .wrCfgPstrideV 7#32].map
          (fun i => got (exec i State.reset) (fun t => allFields.map t.e.shadow.get))
      = (List.range 16).map (fun n => some ((List.range 16).map (fun k => if k = n then 7#32 else 0#32))) := by
  decide +kernel

/-- V-R20, V-R21, V-R22. -/
theorem test_rd_isr_chsr :
    got (exec .rdIsr (withE (fun e => { e with isr := 0x4000#32 }))) (fun t => (t.trace, t.e.isr))
        = some ([.rd .isr 0x4000#32], 0#32)
      ∧ got (exec .rdChsr (withE (fun e => { e with chen := true, dispend := true }))) (fun t => t.trace)
        = some [.rd .chsr 1#32] := by
  decide +kernel

/-- V-Z2, V-R24. -/
theorem test_rd_imr_syncsr :
    got (exec .rdImr (withE (fun e => { e with imr := 0x30#32 }))) (fun t => t.trace) = some [.rd .imr 0x30#32]
      ∧ got (exec .rdSyncsr (withE (fun e => { e with sipsts := true }))) (fun t => t.trace) = some [.rd .syncsr 1#32] := by
  decide +kernel

/-- V-R23: each read of a plane returns its own register (R98 to R101). -/
theorem test_rd_planes :
    [Instr.rdHeadY, .rdHeadU, .rdHeadV, .rdAddrY, .rdAddrU, .rdAddrV, .rdCtrlY, .rdCtrlU, .rdCtrlV, .rdNextY, .rdNextU,
        .rdNextV].map
          (fun i => got (exec i (withE (fun e =>
            { e with
              head := { y := 1#32, u := 2#32, v := 3#32 }
              addr := { y := 4#32, u := 5#32, v := 6#32 }
              ctrl := { y := 7#32, u := 8#32, v := 9#32 }
              next := { y := 10#32, u := 11#32, v := 12#32 } })))
            (fun t => t.trace))
      = [some [.rd (.head .y) 1#32], some [.rd (.head .u) 2#32], some [.rd (.head .v) 3#32], some [.rd (.addr .y) 4#32],
        some [.rd (.addr .u) 5#32], some [.rd (.addr .v) 6#32], some [.rd (.ctrl .y) 7#32], some [.rd (.ctrl .u) 8#32],
        some [.rd (.ctrl .v) 9#32], some [.rd (.next .y) 10#32], some [.rd (.next .u) 11#32], some [.rd (.next .v) 12#32]] := by
  decide +kernel

/-- R103: each read of a field returns SHADOW's word, not ACTIVE's. -/
theorem test_rd_cfg :
    [Instr.rdCfgMode, .rdCfgXpos, .rdCfgYpos, .rdCfgXsize, .rdCfgYsize, .rdCfgXmemsize, .rdCfgYmemsize, .rdCfgXfactor,
        .rdCfgYfactor, .rdCfgCoeff, .rdCfgXstrideY, .rdCfgPstrideY, .rdCfgXstrideU, .rdCfgPstrideU, .rdCfgXstrideV,
        .rdCfgPstrideV].map
          (fun i => got (exec i (withE (fun e =>
            { e with
              shadow :=
                { mode := 100#32, xpos := 101#32, ypos := 102#32, xsize := 103#32, ysize := 104#32, xmemsize := 105#32,
                  ymemsize := 106#32, xfactor := 107#32, yfactor := 108#32, coeff := 109#32, xstrideY := 110#32,
                  pstrideY := 111#32, xstrideU := 112#32, pstrideU := 113#32, xstrideV := 114#32, pstrideV := 115#32 } })))
            (fun t => t.trace.map (fun ev => match ev with | .rd _ x => x.toNat | _ => 0)))
      = (List.range 16).map (fun n => some [100 + n]) := by
  decide +kernel

/-- R170. -/
theorem test_barrier :
    got (exec .barrier { State.reset with unpub := [4#32] }) (fun t => (t.unpub, t.trace)) = some ([], [.barrier]) := by
  decide +kernel

/-! ## Engine events (V-E) -/

/-- V-E1 in small. -/
theorem test_fstart :
    got (exec .eFstart (latched 0x31#32))
        (fun t => ([t.e.addr.y, t.e.ctrl.y, t.e.next.y, t.e.dload.y, t.e.isr, t.e.active.mode], t.e.updpend, t.e.phase))
      = some ([0x100#32, 0x31#32, 0x104#32, 0x104#32, 0x10#32, 3#32], false, .fetching) := by
  decide +kernel

/-- V-E9, V-E13, V-E14. -/
theorem test_fstart_stop_and_faults :
    got (exec .eFstart (withE (fun e =>
          { e with chen := true, dispend := true, updpend := true, ctrl := { y := 0x31#32, u := 1#32, v := 1#32 } })))
        (fun t => (t.e.chsr, t.e.dispend, t.e.isr))
        = some (0#32, false, 0x20#32)
      ∧ got (exec .eFstart (withE (fun e => { e with chen := true, updpend := true, shadow := { e.shadow with mode := 7#32 } })))
          (fun t => (t.e.fault, t.e.active.mode))
        = some (some .badMode, 7#32)
      ∧ got (exec .eFstart (withE (fun e =>
            { e with chen := true, active := { e.active with mode := 1#32 }, next := { e.next with y := 0x2004B002#32 } })))
          (fun t => t.e.fault)
        = some (some .misaligned) := by
  decide +kernel

/-- V-E2, V-E3 in small. -/
theorem test_fetch :
    got (exec (.eFetchY 0x102#32) (fetching 0x31#32)) (fun t => t.e.addr.y) = some 0x102#32
      ∧ got (exec (.eFetchY 0x104#32) (fetching 0x31#32)) (fun t => t.e.addr.y) = none := by
  decide +kernel

/-- V-E4 in small: U and V of a YUV420 frame of 3 by 2, chroma planes of 2 by 1. -/
theorem test_fetch_chroma :
    got (exec (.eFetchU 0x201#32) (withE (fun e =>
          { e with
            phase := .fetching
            ctrl := { y := 0x31#32, u := 1#32, v := 1#32 }
            addr0 := { y := 0x100#32, u := 0x200#32, v := 0x300#32 }
            active := { e.active with xmemsize := 3#32, ymemsize := 2#32 } })))
        (fun t => t.e.addr)
        = some { y := 0#32, u := 0x201#32, v := 0#32 }
      ∧ got (exec (.eFetchV 0x301#32) (withE (fun e =>
            { e with
              phase := .fetching
              ctrl := { y := 0x31#32, u := 1#32, v := 1#32 }
              addr0 := { y := 0x100#32, u := 0x200#32, v := 0x300#32 }
              active := { e.active with xmemsize := 3#32, ymemsize := 2#32 } })))
          (fun t => t.e.addr)
        = some { y := 0#32, u := 0#32, v := 0x301#32 } := by
  decide +kernel

/-- V-E5, V-E8, V-E10 in small. -/
theorem test_fend :
    got (exec .eFend (fetching 0x35#32)) (fun t => (t.e.addr.y, t.e.isr, t.e.phase)) = some (0x102#32, 0x04#32, .between)
      ∧ got (exec .eFend { fetching 0x31#32 with e := { (fetching 0x31#32).e with dispend := true } })
          (fun t => (t.e.chen, t.e.isr))
        = some (false, 0x20#32) := by
  decide +kernel

/-- V-E17: Last_0 under rotation 90. -/
theorem test_last_address :
    Engine.lastAddr Params.example
        { State.reset.e with
          addr0 := { State.reset.e.addr0 with y := 0x2004AD80#32 }
          active := (geometry Params.example vga { left := 0, top := 0, width := 640, height := 480 } .r90).getD .zero } .y
      = 0x2000027F#32 := by
  decide +kernel

/-- V-E11, V-E12. -/
theorem test_ovr :
    got (exec .eOvrU (withE (fun e => { e with phase := .fetching }))) (fun t => t.e.isr) = some 0x4000#32
      ∧ got (exec .eOvrU (fetching 0x31#32)) (fun t => t.e.isr) = none
      ∧ got (exec .eOvrY (fetching 0x31#32)) (fun t => t.e.isr) = some 0x40#32
      ∧ got (exec .eOvrV (withE (fun e => { e with phase := .fetching }))) (fun t => t.e.isr) = some 0x400000#32 := by
  decide +kernel

/-- V-E15. -/
theorem test_sync :
    got (exec .eSync (withE (fun e => { e with sipsts := true }))) (fun t => t.e.sipsts) = some false := by
  decide +kernel

/-! ## Witnesses: for each statement with hypotheses, states and operands that meet all of them together, one for each
clause, at the boundary values of its range -/

/-- An outcome with something to read is a next state. -/
theorem got_next {α : Type} {o : Host.Outcome State Fault Refusal} {f : State → α} {x : α} (h : got o f = some x) :
    ∃ t, o = .next t ∧ f t = x := by
  cases o with
  | next t => exact ⟨t, rfl, Option.some.inj h⟩
  | fault _ => cases h
  | refused _ => cases h

/-- A state with packet words to take. -/
def withStream (s : State) (ws : List Word) : State := { s with stream := ws }

/-- A state with an operation in progress. -/
def inOp (s : State) (op : OpName) (acts : List Act) (yielded : Bool) : State :=
  { s with c := { s.c with busy := some { op := op, acts := acts, yielded := yielded } } }

/-- A state with turns to come. -/
def withTurns (s : State) (ts : List Turn) : State := { s with turns := ts }

/-- A state with a QBUF of buffer 3 at 0x300 to take. -/
def submitting (s : State) : State := withStream s [0x00000104#32, 3#32, 0x300#32, 0#32, 0#32]

/-- Running with both slots full, ADDR_Y in the current buffer. -/
def full : State := running 0x103#32 (some (smallBuffer 1#32 0x100#32)) (some (smallBuffer 2#32 0x200#32))

theorem witness_EncodedPacketDecodesToItself :
    (Instr.swin (-2147483648) 2147483647 (-2147483648) 2147483647).wf = true ∧ (Instr.srot 2147483647).wf = true := by
  decide

theorem witness_DecodedWordsAreThePacket :
    decode [0x00000103#32, 0x8000005A#32, 7#32] = .ok (.srot (-2147483558)) [7#32] := by
  decide

theorem witness_NothingIsEnabledAfterReset : isEngineEvent (.eFetchY 0#32) = true ∧ isEngineEvent .eSync = true := by
  decide

theorem witness_StepRunsTheDecodedPacket :
    (withStream State.reset [0x00000105#32, 7#32]).ready
      ∧ decode (withStream State.reset [0x00000105#32, 7#32]).stream = .ok .streamon [7#32] :=
  ⟨⟨rfl, rfl⟩, by decide⟩

/-- ATOMIC_OPS false between two events, and ATOMIC_OPS true at a wait point. -/
theorem witness_StepRunsAnEngineEventInsideAnOperation :
    (let s := withTurns (withStream (inOp full .qbuf [.barrier, .finish .ok] false) [0x00000120#32]) [.engine]
     s.refused = none ∧ s.c.busy = some { op := .qbuf, acts := [.barrier, .finish .ok], yielded := false }
      ∧ s.turns = .engine :: [] ∧ decode s.stream = .ok .eFstart [] ∧ isEngineEvent .eFstart = true
      ∧ s.prm.atomicOps = false)
      ∧ (let s := withTurns (withStream (inOp full .streamoff [.offPoll] false) [0x00000120#32]) [.engine]
         let t : State := { s with prm := { s.prm with atomicOps := true } }
         t.refused = none ∧ t.c.busy = some { op := .streamoff, acts := [.offPoll], yielded := false }
          ∧ t.turns = .engine :: [] ∧ decode t.stream = .ok .eFstart [] ∧ t.prm.atomicOps = true
          ∧ Busy.atWait { op := .streamoff, acts := [.offPoll], yielded := false } = true) := by
  decide +kernel

theorem witness_RefusalEndsTheRun :
    (withStream State.reset [0x00000108#32]).ready ∧ decode (withStream State.reset [0x00000108#32]).stream = .bad .invalidEncoding
      ∧ (withStream State.reset [0x00000005#32]).ready
      ∧ decode (withStream State.reset [0x00000005#32]).stream = .bad .baseLayerUnspecified
      ∧ (State.reset.refuse .reservedBit).refused = some .reservedBit :=
  ⟨⟨rfl, rfl⟩, by decide, ⟨rfl, rfl⟩, by decide, rfl⟩

theorem witness_LockExcludesControllerOperations :
    (inOp full .streamoff [.offPoll] false).refused = none ∧ (inOp full .streamoff [.offPoll] false).c.busy ≠ none
      ∧ isEngineEvent .irq = false ∧ isEngineEvent .rdIsr = false := by
  decide +kernel

/-- A faulted engine, and a step of the controller beside it. -/
theorem witness_FaultedEngineIsStuck :
    (let s := withStream (full.engineFault .badMode) [0x00000105#32]
     s.refused = none ∧ s.e.fault = some .badMode ∧ isEngineEvent .eFstart = true
      ∧ got (step s) (fun t => t.e.fault) = some (some .badMode)) := by
  decide +kernel

/-- The line low and asserted, the lock free; each engine event enabled, and each not. -/
theorem witness_EventsAreEnabledExactly :
    State.reset.ready ∧ State.reset.e.isr &&& State.reset.e.imr = 0#32
      ∧ { full with e := { full.e with isr := 0x10#32 } }.ready ∧ (0x10#32 &&& full.e.imr) ≠ 0#32
      ∧ State.reset.engineReady ∧ full.engineReady ∧ (fetching 0x31#32).engineReady ∧ (syncState .unbounded true).engineReady
      ∧ got (exec .eFstart (latched 0x31#32)) (fun _ => true) = some true :=
  ⟨⟨rfl, rfl⟩, by decide, ⟨rfl, rfl⟩, by decide, ⟨rfl, rfl⟩, ⟨rfl, rfl⟩, ⟨rfl, rfl⟩, ⟨rfl, rfl⟩, by decide +kernel⟩

theorem full_inv : full.inv := by
  refine ⟨by decide, ⟨by decide +kernel, by decide +kernel, by decide +kernel⟩, ?_, by decide +kernel, nofun⟩
  rintro f ⟨⟩
  decide +kernel

/-- A QBUF, and a SWIN that waits to write MODE. -/
theorem witness_StepKeepsTheStateInvariant :
    (submitting full).inv ∧ (∃ t, step (submitting full) = .next t)
      ∧ (inOp full .swin [.poll (.cfg .mode) 3#32 0, .finish .ok] false).inv
      ∧ ∃ t, step (inOp full .swin [.poll (.cfg .mode) 3#32 0, .finish .ok] true) = .next t ∧ t.e.shadow.mode = 3#32 := by
  refine ⟨full_inv, ?_, ⟨full_inv.1, full_inv.2.1, full_inv.2.2.1, full_inv.2.2.2.1, ?_⟩,
    got_next (f := fun t => t.e.shadow.mode) (by decide +kernel)⟩
  · obtain ⟨t, h, -⟩ := got_next (show got (step (submitting full)) (fun t => t.refused) = some none by decide +kernel)
    exact ⟨t, h⟩
  · rintro o ⟨⟩ - a ha x hx
    simp only [List.mem_cons, List.not_mem_nil, or_false] at ha
    rcases ha with rfl | rfl <;> cases hx
    decide +kernel

theorem witness_ResetMeetsTheInvariants :
    Params.example.displayW < 2 ^ 31 ∧ Params.example.displayH < 2 ^ 31 ∧ Memory.wf [(0, 1#8), (4294967295, 255#8)] = true := by
  decide

/-- Both slots full: the next buffer is superseded and the new one takes its slot. -/
theorem witness_StepKeepsBufferIdsDistinct :
    (submitting full).c.idsDistinct ∧ ∃ t, step (submitting full) = .next t ∧ t.c.heldIds = [1#32, 3#32] :=
  ⟨by unfold Controller.idsDistinct; decide +kernel,
    got_next (show got (step (submitting full)) (fun t => t.c.heldIds) = some [1#32, 3#32] by decide +kernel)⟩

/-- A QBUF into full slots, and a STREAMOFF that runs no QBUF and retires both slots. -/
theorem witness_NoBufferIsLostOrDoubled :
    (submitting full).prm.syncWait = .unbounded ∧ full.prm.syncWait = .unbounded
      ∧ (∃ u, nextMove (submitting full) = .run (.qbuf 3#32 0x300#32 0#32 0#32) u)
      ∧ (∃ t, step (submitting full) = .next t ∧ (t.refused, t.c.knownIds) = (none, [2#32, 1#32, 3#32]))
      ∧ (∃ u, nextMove (withStream { full with e := State.reset.e } [0x00000106#32]) = .run .streamoff u)
      ∧ ∃ t, step (withStream { full with e := State.reset.e } [0x00000106#32]) = .next t
          ∧ (t.refused, t.c.log.map Prod.fst, t.c.knownIds) = (none, [1#32, 2#32], [1#32, 2#32]) :=
  ⟨rfl, rfl, ⟨_, rfl⟩, got_next (f := fun t => (t.refused, t.c.knownIds)) (by decide +kernel), ⟨_, rfl⟩,
    got_next (f := fun t => (t.refused, t.c.log.map Prod.fst, t.c.knownIds)) (by decide +kernel)⟩

theorem fetching_addrs : (fetching 0x31#32).addrsInFrame := by
  intro p hp
  cases p with
  | y => exact .inl ⟨0, 0, by decide, by decide +kernel, by decide, by decide +kernel, by decide +kernel⟩
  | u => exact absurd hp (by decide +kernel)
  | v => exact absurd hp (by decide +kernel)

/-- A fetch inside the frame, and a frame start that enters one. -/
theorem witness_AddressesStayInTheFrame :
    (withStream (fetching 0x31#32) [0x00000121#32, 0x102#32]).addrsInFrame
      ∧ (∃ t, step (withStream (fetching 0x31#32) [0x00000121#32, 0x102#32]) = .next t
          ∧ (t.e.fault, t.e.addr.y) = (none, 0x102#32))
      ∧ ∃ t, exec .eFstart (latched 0x31#32) = .next t ∧ t.e.phase = .fetching :=
  ⟨fetching_addrs,
    got_next (show got (step (withStream (fetching 0x31#32) [0x00000121#32, 0x102#32])) (fun t => (t.e.fault, t.e.addr.y))
      = some (none, 0x102#32) by decide +kernel),
    got_next (show got (exec .eFstart (latched 0x31#32)) (fun t => t.e.phase) = some .fetching by decide +kernel)⟩

theorem witness_CompletionLogOnlyGrows : ∃ t, step (submitting full) = .next t ∧ t.c.log = [(2#32, .error)] :=
  got_next (show got (step (submitting full)) (fun t => t.c.log) = some [(2#32, .error)] by decide +kernel)

/-- A latch that changes ACTIVE, and a step during a frame. -/
theorem witness_ActiveChangesOnlyAtALatch :
    (∃ t, step (withStream (latched 0x31#32) [0x00000120#32]) = .next t
        ∧ decide (t.e.active = (latched 0x31#32).e.active) = false)
      ∧ (fetching 0x31#32).e.phase = .fetching ∧ ∃ t, step (withStream (fetching 0x31#32) [0x00000122#32]) = .next t
        ∧ t.e.phase = .between :=
  ⟨got_next (f := fun t => decide (t.e.active = (latched 0x31#32).e.active)) (by decide +kernel), rfl,
    got_next (f := fun t => t.e.phase) (by decide +kernel)⟩

theorem witness_EngineEventsKeepWhatIsNotTheirs :
    isEngineEvent .eOvrY = true ∧ ∃ t, exec .eOvrY (fetching 0x31#32) = .next t ∧ t.e.isr = 0x40#32 :=
  ⟨by decide, got_next (f := fun t => t.e.isr) (by decide +kernel)⟩

/-- A QBUF of buffer 3 at 0x300 in progress, its descriptor at 0x304 not yet stored. -/
def building : State :=
  inOp streaming .qbuf
    (buildDescriptors Params.example .r0 (smallBuffer 3#32 0x300#32) ++ [.barrier, .qbufChsr (smallBuffer 3#32 0x300#32)]) false

theorem building_storesFit : building.c.storesFit building.prm := by
  intro o ho
  cases ho
  refine ⟨_, _, rfl, by decide, .inr fun a ha => ?_⟩
  obtain ⟨d, x, rfl, h⟩ := buildDescriptors_stores ha
  exact ⟨smallBuffer 3#32 0x300#32, d, x, .inr ⟨_, rfl, .qbufChsr (smallBuffer 3#32 0x300#32), by decide, rfl⟩, rfl, h⟩

/-- Before its recovery test a SWIN has no store yet. -/
theorem recovering_storesFit :
    (inOp (running 0#32 (some (smallBuffer 1#32 0x100#32)) none) .swin [.wr .cher 2#32, .recoverChsr, .finish .ok] false).c.storesFit
      Params.example := by
  intro o ho
  cases ho
  exact ⟨[.wr .cher 2#32, .recoverChsr], [.finish .ok], rfl, by decide, .inl ⟨[.wr .cher 2#32], rfl, by decide⟩⟩

/-- The bytes of a buffer of the small format that are in no descriptor of it. -/
theorem smallBuffer_inTrailer {id base : Word} {k : Nat} (h : ∀ j < 12, k ≠ byteKey (base + 4#32) j) :
    ¬ (smallBuffer id base).inTrailer Params.example k := by
  rintro ⟨p, hp, j, hj, rfl⟩
  have hn : p.index < np Params.example small.tag := hp
  have ha : align4 (pbytes Params.example small .y) = 4 := by decide +kernel
  have hd : (smallBuffer id base).descAddr Params.example .y = base + BitVec.ofNat 32 4 :=
    congrArg (fun n => base + BitVec.ofNat 32 n) ha
  cases p with
  | y => exact h j hj (congrArg (fun a => byteKey a j) hd)
  | u => exact absurd hn (by decide +kernel)
  | v => exact absurd hn (by decide +kernel)

/-- STREAMOFF; a QBUF that stores at 0x304 and keeps the bytes on either side of its descriptor, 0x303 and 0x310; an operation
that goes on and stores there. -/
theorem witness_ControllerOperationsKeepWhatIsNotTheirs :
    (isEngineEvent .streamoff = false ∧ ∃ t, exec .streamoff full = .next t ∧ t.e.dispend = true)
      ∧ (isEngineEvent (.qbuf 3#32 0x300#32 0#32 0#32) = false
        ∧ (∃ t, exec (.qbuf 3#32 0x300#32 0#32 0#32) streaming = .next t ∧ Memory.readWord t.mem 0x304#32 = 0x300#32)
        ∧ ∀ k, k = 0x303 ∨ k = 0x310 →
            ∀ b, streaming.mayBuild (.qbuf 3#32 0x300#32 0#32 0#32) b → ¬ b.inTrailer streaming.prm k)
      ∧ building.c.storesFit building.prm
      ∧ (∃ t, step building = .next t ∧ Memory.readWord t.mem 0x304#32 = 0x300#32)
      ∧ ∀ k, k = 0x303 ∨ k = 0x310 →
          ∀ b, (building.c.mayBuild b ∨ ∃ i u, nextMove building = .run i u ∧ building.mayBuild i b) →
            ¬ b.inTrailer building.prm k := by
  have clear : ∀ k, k = 0x303 ∨ k = 0x310 → ¬ (smallBuffer 3#32 0x300#32).inTrailer Params.example k := by
    rintro k (rfl | rfl) <;> exact smallBuffer_inTrailer (by decide)
  refine ⟨⟨by decide, got_next (f := fun t => t.e.dispend) (by decide +kernel)⟩,
    ⟨by decide, got_next (f := fun t => Memory.readWord t.mem 0x304#32) (by decide +kernel), fun k hk b hb => ?_⟩,
    building_storesFit, got_next (f := fun t => Memory.readWord t.mem 0x304#32) (by decide +kernel), fun k hk b hb => ?_⟩
  · rcases hb with hb | ⟨id, b0, b1, b2, f, hi, hf, rfl⟩
    · cases hb
    · cases hi
      cases hf
      exact clear k hk
  · rcases hb with (hb | ⟨o, ho, a, ha, hc⟩) | ⟨i, u, hm, -⟩
    · cases hb
    · cases ho
      rw [List.mem_append] at ha
      rcases ha with ha | ha
      · obtain ⟨d, x, rfl, -⟩ := buildDescriptors_stores ha
        cases hc
      · simp only [List.mem_cons, List.not_mem_nil, or_false] at ha
        rcases ha with rfl | rfl
        · cases hc
        · cases hc
          exact clear k hk
    · cases hm

/-- Idle to Running in a QBUF, Running to Idle in a STREAMOFF. -/
theorem witness_OnlyQbufAndStreamoffChangeChannelState :
    (submitting streaming).c.actsFit ∧ (∃ t, step (submitting streaming) = .next t ∧ t.c.chan = .running)
      ∧ ∃ t, step (withStream { full with e := State.reset.e } [0x00000106#32]) = .next t ∧ t.c.chan = .idle :=
  ⟨(by intro b h; cases h), got_next (f := fun t => t.c.chan) (by decide +kernel),
    got_next (f := fun t => t.c.chan) (by decide +kernel)⟩

theorem ready_reset : State.reset.ready := ⟨rfl, rfl⟩

theorem ready_streaming : streaming.ready := ⟨rfl, rfl⟩

theorem ready_full : full.ready := ⟨rfl, rfl⟩

theorem plain_streaming : streaming.plain := ⟨rfl, .inr rfl⟩

theorem plain_full : full.plain := ⟨rfl, .inr rfl⟩

/-- A reserved bit; CHEN while a disable is pending; the highest value that is written. -/
theorem witness_ChannelEnableWrite :
    State.reset.ready ∧ .cher ∉ State.reset.prm.syncRegs ∧ 4#32 &&& ~~~0x3#32 ≠ 0#32
      ∧ (withE (fun e => { e with chen := true, dispend := true })).ready ∧ 1#32 &&& ~~~0x3#32 = 0#32
      ∧ (1#32).getLsbD 0 = true ∧ (withE (fun e => { e with chen := true, dispend := true })).e.dispend = true
      ∧ 3#32 &&& ~~~0x3#32 = 0#32
      ∧ ¬ ((3#32).getLsbD 0 = true ∧ State.reset.e.chen = true ∧ State.reset.e.dispend = true) :=
  ⟨ready_reset, by decide, by decide, ⟨rfl, rfl⟩, by decide, by decide, by decide, by decide, by decide⟩

theorem witness_ChannelDisableWrite :
    full.ready ∧ .chdr ∉ full.prm.syncRegs ∧ 2#32 &&& ~~~0x1#32 ≠ 0#32 ∧ 1#32 &&& ~~~0x1#32 = 0#32 :=
  ⟨ready_full, by decide, by decide, by decide⟩

theorem witness_InterruptMaskWrites :
    State.reset.ready ∧ .ier ∉ State.reset.prm.syncRegs ∧ .idr ∉ State.reset.prm.syncRegs
      ∧ 0x80#32 &&& ~~~0x007C7C7C#32 ≠ 0#32 ∧ 0x007C7C7C#32 &&& ~~~0x007C7C7C#32 = 0#32 :=
  ⟨ready_reset, by decide, by decide, by decide, by decide⟩

theorem witness_HeadAndShadowWrites :
    State.reset.ready ∧ .head .v ∉ State.reset.prm.syncRegs ∧ .cfg .coeff ∉ State.reset.prm.syncRegs
      ∧ (0xFFFFFFFD#32).toNat % 4 ≠ 0 ∧ (0xFFFFFFFC#32).toNat % 4 = 0 :=
  ⟨ready_reset, by decide, by decide, by decide, by decide⟩

/-- SIPSTS = 0 with a value that is written and one that is refused; SIPSTS = 1 without a bound, with a bound of two polls and
with a bound of one. -/
theorem witness_SynchronisedWrite :
    (∀ (w : SyncWait) (p : Bool), (syncState w p).ready ∧ (syncState w p).unsplit ∧ .ier ∈ (syncState w p).prm.syncRegs
        ∧ (syncState w p).prm.syncWait = w ∧ (syncState w p).e.sipsts = p)
      ∧ (syncState .unbounded false).e.write .ier 0x30#32 = .ok { (syncState .unbounded false).e with imr := 0x30#32 }
      ∧ (syncState .unbounded false).e.write .ier 0x80#32 = .error .reservedBit
      ∧ (∃ k, SyncWait.bounded 2 = .bounded k ∧ 1 < k) ∧ ∃ k, SyncWait.bounded 1 = .bounded k ∧ k ≤ 1 :=
  ⟨fun _ _ => ⟨⟨rfl, rfl⟩, .inr rfl, List.mem_singleton.mpr rfl, rfl, rfl⟩, rfl, rfl, ⟨2, rfl, by decide⟩,
    ⟨1, rfl, by decide⟩⟩

/-- Without a bound; the last poll but one of two (n + 1 < k); the last (k ≤ n + 1). -/
theorem witness_SynchronisationPolls :
    (∀ w : SyncWait, (inOp (syncState w true) .qbuf [.poll .ier 0x30#32 0] true).refused = none
        ∧ (inOp (syncState w true) .qbuf [.poll .ier 0x30#32 0] true).turns = []
        ∧ (inOp (syncState w true) .qbuf [.poll .ier 0x30#32 0] true).e.sipsts = true
        ∧ (inOp (syncState w true) .qbuf [.poll .ier 0x30#32 0] true).c.busy
            = some { op := .qbuf, acts := .poll .ier 0x30#32 0 :: [], yielded := true })
      ∧ (syncState .unbounded true).prm.syncWait = .unbounded
      ∧ (∃ k, (syncState (.bounded 2) true).prm.syncWait = .bounded k ∧ 0 + 1 < k)
      ∧ (∃ k, (syncState (.bounded 1) true).prm.syncWait = .bounded k ∧ k ≤ 0 + 1) ∧ OpName.isHost .qbuf = true
      ∧ OpName.isHost .irq = false :=
  ⟨fun _ => ⟨rfl, rfl, rfl, rfl⟩, rfl, ⟨2, rfl, by decide⟩, ⟨1, rfl, by decide⟩, rfl, rfl⟩

/-- V-R27: the second poll of two ends the operation with HardwareTimeout. -/
theorem test_poll_timeout :
    got (step (inOp (syncState (.bounded 2) true) .qbuf [.poll .ier 0x30#32 1] true)) (fun t => (t.results, t.c.busy, t.e.imr))
      = some ([.hardwareTimeout], none, 0#32) := by
  decide +kernel

theorem witness_SynchronisationHangIsAdmitted :
    (let s := inOp (syncState .unbounded true) .micro [.poll .ier 0x30#32 7] false
     s.refused = none ∧ s.c.busy = some { op := .micro, acts := .poll .ier 0x30#32 7 :: [], yielded := false }
      ∧ s.prm.syncWait = .unbounded ∧ s.e.sipsts = true ∧ s.e.chen = false ∧ s.e.phase = .between ∧ s.stream = []
      ∧ s.turns = []) :=
  ⟨rfl, rfl, rfl, rfl, rfl, rfl, rfl, rfl⟩

/-- The premise of StatusReads, PlaneAndShadowReads and BarrierPublishes is `ready` alone. -/
theorem witness_StatusReads_PlaneAndShadowReads_BarrierPublishes : State.reset.ready ∧ full.ready :=
  ⟨ready_reset, ready_full⟩

theorem witness_FormatTable : 5 < (6#32).toNat ∧ 5 < (0xFFFFFFFF#32).toNat := by decide

/-- A window whose clamp leaves one pixel. -/
theorem witness_GeometryWords :
    Params.example.overshoot = .stated
      ∧ ∃ g, geometry Params.example small { left := 639, top := -9, width := 2147483647, height := 10 } .r90 = some g :=
  ⟨rfl, Option.isSome_iff_exists.mp (by decide +kernel)⟩

/-- Plane U of a YUV420 frame, which ends at the top of the address space. -/
theorem witness_FetchAddressesAreThePlanesPixels :
    (let b := newBuffer Params.example { tag := 0#32, w := 3, h := 2 } 1#32 0x100#32 0xFFFFFFFC#32 0x200#32
     let w : Window := { left := 0, top := 0, width := 640, height := 480 }
     let g := (geometry Params.example b.fmt w .r180).getD .zero
     let e : Engine := { State.reset.e with active := g, addr0 := { y := 0#32, u := b.addrWord Params.example .r180 .u, v := 0#32 } }
     b.fmt.w < 2 ^ 31 ∧ b.fmt.h < 2 ^ 31 ∧ geometry Params.example b.fmt w .r180 = some g
      ∧ Plane.index .u < np Params.example b.fmt.tag ∧ e.active = g ∧ e.addr0.get .u = b.addrWord Params.example .r180 .u
      ∧ (b.base.get .u).toNat + pbytes Params.example b.fmt .u ≤ 2 ^ 32) := by
  decide +kernel

theorem witness_FormatNegotiation :
    State.reset.ready ∧ formatOf State.reset.prm 6#32 = none ∧ (0 : Int) ≤ 0 ∧ (-2147483648 : Int) ≤ 0
      ∧ formatOf State.reset.prm 5#32 ≠ none ∧ (0 : Int) < 1 ∧ (0 : Int) < 2147483647 :=
  ⟨ready_reset, by decide, by decide, by decide, by decide, by decide, by decide⟩

theorem witness_RotationControl :
    State.reset.ready ∧ (-90 : Int) ∉ [(0 : Int), 90, 180, 270] ∧ (360 : Int) ∉ [(0 : Int), 90, 180, 270]
      ∧ (0 : Int) = State.reset.c.rot.degrees ∧ (270 : Int) = Rotation.degrees .r270 ∧ Rotation.r270 ≠ State.reset.c.rot :=
  ⟨ready_reset, by decide, by decide, by decide, by decide, by decide⟩

theorem witness_WindowSetWithoutRecompute :
    State.reset.ready ∧ { left := 0, top := 0, width := 640, height := 480 } = State.reset.c.win
      ∧ State.reset.c.dirty = false
      ∧ ¬ (({ left := 0, top := 0, width := 640, height := 481 } : Window) = State.reset.c.win ∧ State.reset.c.dirty = false)
      ∧ State.reset.c.fmt = none :=
  ⟨ready_reset, by decide, rfl, by decide, rfl⟩

/-- The state before a SWIN of the recovery path: Bad, a current buffer of the format in force, the channel as given. -/
def broken (chen : Bool) : State :=
  { full with
    c := { full.c with cfg := .bad }
    e := { full.e with chen := chen } }

/-- The prior state Good with a current buffer of the format; and Bad without a current buffer. -/
theorem witness_WindowSetNeedsLatch :
    full.ready ∧ full.plain ∧ ¬ (({ left := 0, top := 0, width := 1, height := 1 } : Window) = full.c.win ∧ full.c.dirty = false)
      ∧ full.c.fmt = some small
      ∧ (∃ g, geometry full.prm small { left := 0, top := 0, width := 1, height := 1 } full.c.rot = some g)
      ∧ full.c.cfg ≠ .bad ∧ { broken true with c := { (broken true).c with cur := none } }.ready
      ∧ (none : Option Buffer).map Buffer.fmt ≠ some small :=
  ⟨ready_full, plain_full, by decide +kernel, rfl, Option.isSome_iff_exists.mp (by decide +kernel), by decide, ⟨rfl, rfl⟩,
    by decide⟩

theorem witness_WindowSetInvalid :
    full.ready ∧ full.plain
      ∧ ¬ (({ left := 640, top := 0, width := 1, height := 1 } : Window) = full.c.win ∧ full.c.dirty = false)
      ∧ full.c.fmt = some small
      ∧ geometry full.prm small { left := 640, top := 0, width := 1, height := 1 } full.c.rot = none :=
  ⟨ready_full, plain_full, by decide +kernel, rfl, by decide +kernel⟩

/-- On an enabled channel and on a disabled one. -/
theorem witness_WindowSetRecovers :
    ∀ chen : Bool, (broken chen).ready ∧ (broken chen).plain
      ∧ ¬ (({ left := 0, top := 0, width := 1, height := 1 } : Window) = (broken chen).c.win ∧ (broken chen).c.dirty = false)
      ∧ (broken chen).c.fmt = some small
      ∧ (∃ g, geometry (broken chen).prm small { left := 0, top := 0, width := 1, height := 1 } (broken chen).c.rot = some g)
      ∧ (broken chen).c.cfg = .bad ∧ (broken chen).c.cur = some (smallBuffer 1#32 0x100#32)
      ∧ (smallBuffer 1#32 0x100#32).fmt = small ∧ (broken chen).e.chen = chen
      ∧ ∀ p : Plane, p.index < np (broken chen).prm small.tag → ((smallBuffer 1#32 0x100#32).base.get p).toNat % 4 = 0 := by
  intro chen
  refine ⟨⟨rfl, rfl⟩, ⟨rfl, .inr rfl⟩, ?_, rfl,
    Option.isSome_iff_exists.mp
      (show (geometry Params.example small { left := 0, top := 0, width := 1, height := 1 } .r0).isSome = true by
        decide +kernel),
    rfl, rfl, rfl, rfl, ?_⟩
  · change ¬ (({ left := 0, top := 0, width := 1, height := 1 } : Window) = full.c.win ∧ full.c.dirty = false)
    decide +kernel
  · intro p _
    cases p <;> decide

/-- V-C16 in small: the recovery path on a stopped channel. -/
theorem test_recovery :
    got (exec (.swin 0 0 1 1) (broken false)) (fun t => (t.c.cfg, t.e.chsr, t.e.head.y, t.e.imr, t.c.chan))
      = some (.good, 3#32, 0x104#32, 0x30#32, .running) := by
  decide +kernel

/-- A Recompute whose CHDR poll timed out leaves an invalid window in force and the configuration not Bad: the next QBUF writes
the format's tag, a supported one, and its memory window to SHADOW (R177, R78). -/
theorem test_qbuf_after_timed_out_recompute :
    let win : Window := { left := 640, top := 0, width := 1, height := 1 }
    geometry Params.example small win .r0 = none
      ∧ got (exec (.qbuf 3#32 0x300#32 0#32 0#32) { full with c := { full.c with cfg := .goodNeedsLatch, win := win } })
          (fun t => (t.e.shadow.mode, t.e.shadow.xmemsize, t.e.shadow.ymemsize, t.e.updpend))
        = some (3#32, 2#32, 1#32, true) := by
  decide +kernel

/-- A buffer of the small format with id and base as given, at state s. -/
def offered (id base : Word) : Buffer := newBuffer Params.example small id base 0#32 0#32

/-- Streaming with buffer 1 at 0x100 current: its region is [0x100, 0x110). -/
def held : State := running 0x100#32 (some (smallBuffer 1#32 0x100#32)) none

/-- Not streaming; no format; base 0x102; the last base that wraps and the first that does not; the last base that meets the
held region and the first past it; a held id past it; a fresh one. -/
theorem witness_QbufAdmission :
    State.reset.ready ∧ State.reset.c.streaming = false ∧ (withC (fun c => { c with streaming := true })).ready
      ∧ (withC (fun c => { c with streaming := true })).c.fmt = none
      ∧ held.ready ∧ held.c.streaming = true ∧ held.c.fmt = some small
      ∧ [admissionProblem held.prm held.c (offered 3#32 0x112#32), admissionProblem held.prm held.c (offered 3#32 0xFFFFFFF4#32),
          admissionProblem held.prm held.c (offered 3#32 0xFFFFFFF0#32), admissionProblem held.prm held.c (offered 3#32 0x10C#32),
          admissionProblem held.prm held.c (offered 3#32 0x110#32), admissionProblem held.prm held.c (offered 1#32 0x110#32)]
        = [some .qbufMisaligned, some .qbufWrap, none, some .qbufOverlap, none, some .qbufDuplicateId] :=
  ⟨ready_reset, rfl, ⟨rfl, rfl⟩, rfl, ⟨rfl, rfl⟩, rfl, rfl, by decide +kernel⟩

/-- The premises of each clause of the table, spelt out: misaligned, wraps, apart (not), held. -/
theorem witness_QbufAdmission_clauses :
    (∃ p : Plane, p.index < np held.prm small.tag ∧ (({ y := 0x102#32, u := 0#32, v := 0#32 } : Planes Word).get p).toNat % 4 ≠ 0)
      ∧ (∃ p : Plane, p.index < np held.prm small.tag
          ∧ (({ y := 0xFFFFFFF4#32, u := 0#32, v := 0#32 } : Planes Word).get p).toNat + align4 (pbytes held.prm small p) + 12
            > 2 ^ 32)
      ∧ (¬ ((offered 3#32 0x10C#32).regions held.prm ++ slotRegions held.prm held.c.cur ++ slotRegions held.prm held.c.nxt).Pairwise
          (fun x y => ¬ ∃ a : Nat, x.lo ≤ a ∧ a < x.hi ∧ y.lo ≤ a ∧ a < y.hi))
      ∧ ((offered 1#32 0x110#32).regions held.prm ++ slotRegions held.prm held.c.cur ++ slotRegions held.prm held.c.nxt).Pairwise
          (fun x y => ¬ ∃ a : Nat, x.lo ≤ a ∧ a < x.hi ∧ y.lo ≤ a ∧ a < y.hi)
      ∧ held.c.cur.map Buffer.id = some 1#32 := by
  have h1 : (offered 3#32 0x10C#32).regions held.prm ++ slotRegions held.prm held.c.cur ++ slotRegions held.prm held.c.nxt
      = [{ lo := 0x10C, hi := 0x11C }, { lo := 0x100, hi := 0x110 }] := by decide +kernel
  have h2 : (offered 1#32 0x110#32).regions held.prm ++ slotRegions held.prm held.c.cur ++ slotRegions held.prm held.c.nxt
      = [{ lo := 0x110, hi := 0x120 }, { lo := 0x100, hi := 0x110 }] := by decide +kernel
  refine ⟨⟨.y, by decide +kernel, by decide⟩, ⟨.y, by decide +kernel, by decide +kernel⟩, ?_, ?_, rfl⟩
  · rw [h1]
    intro h
    exact (List.pairwise_cons.mp h).1 _ (List.mem_singleton.mpr rfl) ⟨0x10C, by decide⟩
  · rw [h2]
    refine List.pairwise_cons.mpr ⟨fun y hy => ?_, List.pairwise_singleton _ _⟩
    rw [List.mem_singleton.mp hy]
    rintro ⟨a, h, -, -, h'⟩
    exact absurd (Nat.lt_of_le_of_lt h h') (by decide)

theorem admitted_held : admissionProblem held.prm held.c (offered 3#32 0x300#32) = none := by decide +kernel

theorem admitted_full : admissionProblem full.prm full.c (offered 3#32 0x300#32) = none := by decide +kernel

theorem admitted_streaming : admissionProblem streaming.prm streaming.c (offered 3#32 0x300#32) = none := by decide +kernel

theorem geometry_streaming : ∃ g, geometry streaming.prm small streaming.c.win streaming.c.rot = some g :=
  Option.isSome_iff_exists.mp (by decide +kernel)

theorem witness_QbufWhileBad :
    (broken true).ready ∧ (broken true).c.streaming = true ∧ (broken true).c.fmt = some small
      ∧ admissionProblem (broken true).prm (broken true).c (offered 3#32 0x300#32) = none ∧ (broken true).c.dirty = false
      ∧ (broken true).c.cfg = .bad :=
  ⟨⟨rfl, rfl⟩, rfl, rfl, by decide +kernel, rfl, rfl⟩

/-- A change pending on a running channel. -/
def changed : State := { full with c := { full.c with dirty := true } }

theorem witness_DirtyQbufRecomputesFirst :
    changed.ready ∧ changed.plain ∧ changed.c.streaming = true ∧ changed.c.fmt = some small
      ∧ admissionProblem changed.prm changed.c (offered 3#32 0x300#32) = none ∧ changed.c.dirty = true
      ∧ ∃ u, exec (.swin changed.c.win.left changed.c.win.top changed.c.win.width changed.c.win.height) changed = .next u
          ∧ u.refused = none :=
  ⟨⟨rfl, rfl⟩, ⟨rfl, .inr rfl⟩, rfl, rfl, by decide +kernel, rfl, got_next (f := fun t => t.refused) (by decide +kernel)⟩

/-- Good and GoodNeedsLatch. -/
theorem witness_QbufEnablesTheChannel :
    streaming.ready ∧ streaming.plain ∧ streaming.c.streaming = true ∧ streaming.c.fmt = some small
      ∧ streaming.c.dirty = false ∧ streaming.c.cfg ≠ .bad ∧ ConfigState.goodNeedsLatch ≠ .bad
      ∧ (∃ g, geometry streaming.prm small streaming.c.win streaming.c.rot = some g)
      ∧ admissionProblem streaming.prm streaming.c (offered 3#32 0x300#32) = none ∧ streaming.e.chen = false :=
  ⟨ready_streaming, plain_streaming, rfl, rfl, rfl, by decide, by decide, geometry_streaming, admitted_streaming, rfl⟩

/-- V-Q14 to V-Q17 in small: the first and the last byte of the current luma plane, and the bytes beside them. -/
theorem witness_QbufOnAnEnabledChannel :
    full.ready ∧ full.plain ∧ full.c.streaming = true ∧ full.c.fmt = some small ∧ full.c.dirty = false ∧ full.c.cfg ≠ .bad
      ∧ (∃ g, geometry full.prm small full.c.win full.c.rot = some g)
      ∧ admissionProblem full.prm full.c (offered 3#32 0x300#32) = none ∧ full.e.chen = true
      ∧ full.c.cur = some (smallBuffer 1#32 0x100#32)
      ∧ [0x0FF#32, 0x100#32, 0x103#32, 0x104#32].map (planeHit full.prm (smallBuffer 1#32 0x100#32)) = [false, true, true, false] :=
  ⟨ready_full, plain_full, rfl, rfl, rfl, by decide, Option.isSome_iff_exists.mp (by decide +kernel), admitted_full, rfl, rfl,
    by decide +kernel⟩

/-- A YUV420 buffer: its U plane's descriptor, and a byte outside the trailers. -/
theorem witness_DescriptorsReadBack :
    Memory.wf [(0x10, 5#8)] = true
      ∧ admissionProblem Params.example State.reset.c
          (newBuffer Params.example { tag := 0#32, w := 3, h := 3 } 1#32 0x100#32 0x200#32 0x300#32) = none
      ∧ Plane.index .v < np Params.example 0#32
      ∧ ∀ p : Plane,
          let b := newBuffer Params.example { tag := 0#32, w := 3, h := 3 } 1#32 0x100#32 0x200#32 0x300#32
          ¬ ((b.descAddr Params.example p).toNat ≤ 0x118 ∧ 0x118 < (b.descAddr Params.example p).toNat + 12) := by
  refine ⟨by decide, by decide +kernel, by decide, fun p => ?_⟩
  cases p <;> decide +kernel

theorem witness_FirstFrameLoadsTheShownBuffer :
    streaming.ready ∧ streaming.plain ∧ streaming.c.streaming = true ∧ streaming.c.fmt = some small
      ∧ formatOf streaming.prm small.tag ≠ none ∧ streaming.c.dirty = false ∧ streaming.c.cfg ≠ .bad
      ∧ (∃ g, geometry streaming.prm small streaming.c.win streaming.c.rot = some g) ∧ Memory.wf streaming.mem = true
      ∧ admissionProblem streaming.prm streaming.c (offered 3#32 0x300#32) = none
      ∧ streaming.e.chen = false ∧ streaming.e.dispend = false ∧ streaming.e.phase = .between ∧ streaming.e.fault = none
      ∧ ∃ t, exec (.qbuf 3#32 0x300#32 0#32 0#32) streaming = .next t ∧ t.e.chsr = 3#32 :=
  ⟨ready_streaming, plain_streaming, rfl, rfl, by decide, rfl, by decide, geometry_streaming, by decide, admitted_streaming, rfl,
    rfl, rfl, rfl, got_next (f := fun t => t.e.chsr) (by decide +kernel)⟩

/-- Not streaming; streaming with the channel off and both slots full. -/
theorem witness_StreamOnAndOffOnAStoppedChannel :
    State.reset.ready ∧ State.reset.c.streaming = false
      ∧ (let s : State := { full with e := { full.e with chen := false } }
         s.ready ∧ s.plain ∧ s.c.streaming = true ∧ s.e.chen = false ∧ s.c.cur ≠ none ∧ s.c.nxt ≠ none) :=
  ⟨ready_reset, rfl, ⟨rfl, rfl⟩, ⟨rfl, .inr rfl⟩, rfl, rfl, by decide +kernel, by decide +kernel⟩

theorem witness_StreamOffQuiesces :
    full.ready ∧ full.plain ∧ full.turns = [] ∧ full.stream = [] ∧ full.e.fault = none ∧ full.c.streaming = true
      ∧ full.e.chen = true :=
  ⟨ready_full, plain_full, rfl, rfl, rfl, rfl, rfl⟩

theorem witness_InterruptServiceOnAStoppedChannel :
    (let s : State := { full with e := { full.e with chen := false, isr := 0x20#32 } }
     s.ready ∧ s.plain ∧ s.e.isr &&& s.e.imr ≠ 0#32 ∧ s.e.chen = false) :=
  ⟨⟨rfl, rfl⟩, ⟨rfl, .inr rfl⟩, (by decide : (0x20#32 &&& 0x30#32) ≠ 0#32), rfl⟩

/-- V-Q19, V-Q25, V-Q22, V-Q23 in small: no current buffer, no next one, ADDR_Y on the last byte of the luma plane and past
it. -/
theorem witness_InterruptServiceOnARunningChannel :
    (∀ (a : Word) (cur nxt : Option Buffer),
        let s : State := { running a cur nxt with e := { (running a cur nxt).e with isr := 0x10#32 } }
        s.ready ∧ s.plain ∧ s.e.isr &&& s.e.imr ≠ 0#32 ∧ s.e.chen = true ∧ s.c.cur = cur ∧ s.c.nxt = nxt
          ∧ s.e.addr.get .y = a)
      ∧ [0x103#32, 0x104#32].map (planeHit Params.example (smallBuffer 1#32 0x100#32)) = [true, false] :=
  ⟨fun _ _ _ => ⟨⟨rfl, rfl⟩, ⟨rfl, .inr rfl⟩, (by decide : (0x10#32 &&& 0x30#32) ≠ 0#32), rfl, rfl, rfl, rfl⟩, by decide +kernel⟩

theorem witness_FrameStartCompletesADisable :
    (let s : State := { full with e := { full.e with dispend := true } }
     s.engineReady ∧ s.e.chen = true ∧ s.e.phase = .between ∧ s.e.dispend = true) :=
  ⟨⟨rfl, rfl⟩, rfl, rfl, rfl⟩

/-- An update pending, and none. -/
theorem witness_FrameStartLoadsDescriptors :
    ∀ upd : Bool,
      let s : State := { latched 0x39#32 with
        e := { (latched 0x39#32).e with updpend := upd, active := { (latched 0x39#32).e.active with mode := 3#32 } } }
      s.engineReady ∧ s.e.chen = true ∧ s.e.phase = .between ∧ s.e.dispend = false
        ∧ formatOf s.prm (if s.e.updpend then s.e.shadow else s.e.active).mode ≠ none
        ∧ ∀ p : Plane, p.index < np s.prm (if s.e.updpend then s.e.shadow else s.e.active).mode →
            ((if s.e.updpend then s.e.head else s.e.next).get p).toNat % 4 = 0 := by
  intro upd
  refine ⟨⟨rfl, rfl⟩, rfl, rfl, rfl, ?_, fun p _ => ?_⟩
  · cases upd <;> decide
  · cases upd <;> cases p <;> decide

/-- A mode that is not supported, and a pointer that is no multiple of 4 beside one that is. -/
theorem witness_FrameStartFaults :
    (withE (fun e => { e with chen := true, updpend := true, shadow := { e.shadow with mode := 6#32 } })).engineReady
      ∧ formatOf Params.example 6#32 = none
      ∧ (withE (fun e => { e with chen := true, next := { e.next with v := 0xFFFFFFFD#32 } })).engineReady
      ∧ Plane.index .v < np Params.example 0#32 ∧ (0xFFFFFFFD#32).toNat % 4 ≠ 0 :=
  ⟨⟨rfl, rfl⟩, by decide, ⟨rfl, rfl⟩, by decide, by decide⟩

/-- The first and the last address of the frame. -/
theorem witness_FetchMovesTheAddress :
    (fetching 0x31#32).engineReady ∧ (fetching 0x31#32).e.phase = .fetching
      ∧ Plane.index .y < np (fetching 0x31#32).prm (fetching 0x31#32).e.active.mode
      ∧ ((fetching 0x31#32).e.ctrl.get .y).getLsbD 0 = true
      ∧ (fetching 0x31#32).e.inFetchSet (fetching 0x31#32).prm .y 0x100#32
      ∧ (fetching 0x31#32).e.inFetchSet (fetching 0x31#32).prm .y 0x102#32 :=
  ⟨⟨rfl, rfl⟩, rfl, by decide, by decide,
    ⟨0, 0, by decide, by decide +kernel, by decide, by decide +kernel, by decide +kernel⟩,
    ⟨1, 0, by decide, by decide +kernel, by decide, by decide +kernel, by decide +kernel⟩⟩

/-- The premises of FrameEnd, a disable pending or not, and of StatusEvents. -/
theorem witness_FrameEnd_StatusEvents :
    (fetching 0x35#32).engineReady ∧ (fetching 0x35#32).e.phase = .fetching
      ∧ { fetching 0x35#32 with e := { (fetching 0x35#32).e with dispend := true } }.engineReady
      ∧ Plane.index .y < np (fetching 0x35#32).prm (fetching 0x35#32).e.active.mode
      ∧ (syncState .unbounded true).engineReady ∧ (syncState .unbounded true).e.sipsts = true :=
  ⟨⟨rfl, rfl⟩, rfl, ⟨rfl, rfl⟩, by decide, ⟨rfl, rfl⟩, rfl⟩

end Sys2Proof.Tests
end

/-! ## The step (00_scope.md R4, R65): how a move becomes a step, and which move a free lock gives -/

namespace Sys2Proof.Machine

theorem step_of_nextMove_run {s t : State} {i : Instr} (h : nextMove s = .run i t) : step s = exec i t := by
  rw [step, h]

theorem nextMove_of_ready {s : State} (h : s.ready) : nextMove s = s.freeMove := by
  obtain ⟨hrefused, hbusy⟩ := h
  rw [nextMove, hrefused, hbusy]

/-- With the lock free, a packet at the head of the stream goes before the interrupt line and the engine's frame step. -/
theorem freeMove_of_decode_ok {s : State} {i : Instr} {rest : List Word} (h : decode s.stream = .ok i rest) :
    s.freeMove = .run i { s with stream := rest } := by
  unfold State.freeMove
  split
  case h_1 hempty =>
    have hbad : decode s.stream = .bad .invalidEncoding := by rw [hempty, decode]
    cases h.symm.trans hbad
  case h_2 w ws hwords =>
    rw [← hwords, h]

/-- Settles O7: the free lock leaves the move to the stream, whose head packet is run. -/
theorem stepRunsTheDecodedPacket : Obligations.StepRunsTheDecodedPacket := by
  intro s i rest hready hdecode
  have hmove : nextMove s = .run i { s with stream := rest } :=
    (nextMove_of_ready hready).trans (freeMove_of_decode_ok hdecode)
  exact step_of_nextMove_run hmove

end Sys2Proof.Machine

/-! ## What one action of an operation does (R46, R152 to R168, R190): it ends the operation, or goes on with more actions

The invariants that every step keeps need four things of an action: which actions come after it, whose buffer ids they carry,
how ChannelState changes, and what it does to the engine. `perform_cases` says all four once. -/

namespace Sys2Proof.Machine

/-! ### The buffer ids of a controller -/

@[simp] theorem State.push_heldIds (s : State) (acts : List Act) : (s.push acts).c.heldIds = s.c.heldIds := by
  simp [Controller.heldIds]

theorem Controller.pendingIds_of_busy {c : Controller} {b : Busy} (h : c.busy = some b) :
    c.pendingIds = b.acts.filterMap Act.pendingId := by
  rw [Controller.pendingIds, h]

theorem Controller.pendingIds_of_free {c : Controller} (h : c.busy = none) : c.pendingIds = [] := by
  rw [Controller.pendingIds, h]

@[simp] theorem slotEntry_ids (slot : Option Buffer) (st : Status) :
    (slotEntry slot st).map Prod.fst = (slot.map Buffer.id).toList := by
  cases slot <;> rfl

/-- A retirement appends the slot's entry to the log and changes nothing else (R159). -/
theorem Controller.retire_eq (c : Controller) (slot : Option Buffer) (st : Status) :
    c.retire slot st = { c with log := c.log ++ slotEntry slot st } := by
  cases slot <;> simp [Controller.retire, Controller.complete, slotEntry]

/-- Advance as one record: the slot that gives way is retired, its entry in the log (R158). -/
theorem Controller.advance_eq (c : Controller) (b : Buffer) (inuse : Bool) :
    c.advance b inuse
      = (if inuse then { c with log := c.log ++ slotEntry c.nxt .error, nxt := some b }
        else { c with log := c.log ++ slotEntry c.cur .done, cur := c.nxt, nxt := some b }) := by
  unfold Controller.advance
  simp only [Controller.retire_eq]

/-- The flush as one record: both entries in the log, both slots empty (R160, R163, R166). -/
theorem Controller.flush_eq (c : Controller) :
    c.flush
      = { c with log := c.log ++ slotEntry c.cur .done ++ slotEntry c.nxt .done, cur := none, nxt := none } := by
  simp only [Controller.flush, Controller.retire_eq]

theorem Controller.promote_heldIds (c : Controller) : c.promote.heldIds = c.heldIds := by
  unfold Controller.promote
  split
  · rfl
  · rename_i hcur
    simp [Controller.heldIds, hcur]

theorem Controller.promote_busy (c : Controller) : c.promote.busy = c.busy := by
  unfold Controller.promote
  split <;> rfl

theorem Controller.promote_chan (c : Controller) : c.promote.chan = c.chan := by
  unfold Controller.promote
  split <;> rfl

/-! ### The actions that follow an action -/

/-- Action n may follow action a in an operation: it belongs to the operations a belongs to, and writes to MODE what a was to
write or the tag of the format in force. -/
def State.begets (s : State) (a n : Act) : Prop :=
  (∀ o, a.fits o = true → n.fits o = true)
    ∧ ∀ x, n.modeWord = some x → a.modeWord = some x ∨ ∃ f, s.c.fmt = some f ∧ x = f.tag

theorem State.begets_of_modeWord_none {s : State} {a n : Act} (hfits : ∀ o, a.fits o = true → n.fits o = true)
    (hmode : n.modeWord = none) : s.begets a n :=
  ⟨hfits, fun x hx => by rw [hmode] at hx; cases hx⟩

/-- The write, or the next poll, after a poll of a synchronised write writes the same word to the same register (R102). -/
theorem State.begets_of_poll (s : State) (r : WReg) (x : Word) (n k : Nat) :
    s.begets (.poll r x n) (.wrs r x) ∧ s.begets (.poll r x n) (.poll r x k) := by
  have hwrs : (Act.wrs r x).modeWord = (Act.poll r x n).modeWord := by
    cases r with
    | cfg f => cases f <;> rfl
    | _ => rfl
  have hpoll : (Act.poll r x k).modeWord = (Act.poll r x n).modeWord := by
    cases r with
    | cfg f => cases f <;> rfl
    | _ => rfl
  exact ⟨⟨fun _ _ => rfl, fun y hy => .inl (hwrs ▸ hy)⟩, fun _ _ => rfl, fun y hy => .inl (hpoll ▸ hy)⟩

theorem wrAct_modeWord_none (prm : Params) {r : WReg} (x : Word) (h : r ≠ .cfg .mode) :
    (wrAct prm r x).modeWord = none := by
  cases hx : (wrAct prm r x).modeWord with
  | none => rfl
  | some y => exact absurd (wrAct_modeWord hx).1 h

theorem State.begets_wrAct (s : State) (a : Act) (prm : Params) {r : WReg} (x : Word) (h : r ≠ .cfg .mode) :
    s.begets a (wrAct prm r x) :=
  State.begets_of_modeWord_none (fun o _ => wrAct_fits prm r x o) (wrAct_modeWord_none prm x h)

theorem State.begets_writeHeads (s : State) (a : Act) (prm : Params) (b : Buffer) :
    ∀ n ∈ writeHeads prm b, s.begets a n :=
  fun _ hn => State.begets_of_modeWord_none (fun o _ => (writeHeads_parts hn).2 o) (writeHeads_mode hn)

theorem State.begets_buildDescriptors (s : State) (a : Act) (prm : Params) (rot : Rotation) (b : Buffer) :
    ∀ n ∈ buildDescriptors prm rot b, s.begets a n := by
  intro n hn
  refine State.begets_of_modeWord_none (fun o _ => (buildDescriptors_parts hn).2 o) ?_
  obtain ⟨d, x, rfl, -⟩ := buildDescriptors_stores hn
  rfl

/-- A show issues register writes, and the two state changes of a QBUF; none of them carries a buffer (R153). -/
theorem State.showActs_parts {s : State} {b : Buffer} {v : Word} {n : Act} (h : n ∈ (s.showActs b v).2) :
    n.pendingId = none ∧ n.fits .qbuf = true := by
  have hshadow : n ∈ s.writeShadowAll.2 → n.pendingId = none ∧ n.fits .qbuf = true := by
    intro hn
    rcases s.writeShadowAll_spec.2 with hnil | ⟨g, hg⟩
    · rw [hnil] at hn
      cases hn
    · rw [hg] at hn
      exact ⟨(cfgWrites_parts hn).1, (cfgWrites_parts hn).2 _⟩
  have hheads : n ∈ writeHeads s.prm b → n.pendingId = none ∧ n.fits .qbuf = true :=
    fun hn => ⟨(writeHeads_parts hn).1, (writeHeads_parts hn).2 _⟩
  have hwr : ∀ r x, n = wrAct s.prm r x → n.pendingId = none ∧ n.fits .qbuf = true := by
    rintro r x rfl
    exact ⟨wrAct_pendingId _ _ _, wrAct_fits _ _ _ _⟩
  unfold State.showActs at h
  split at h
  · simp only [List.mem_append, List.mem_cons, List.not_mem_nil, or_false] at h
    rcases h with (hn | hn) | hn | hn | rfl | rfl
    · exact hshadow hn
    · exact hheads hn
    · exact hwr _ _ hn
    · exact hwr _ _ hn
    · exact ⟨rfl, rfl⟩
    · exact ⟨rfl, rfl⟩
  · split at h
    · simp only [List.mem_append, List.mem_cons, List.not_mem_nil, or_false] at h
      rcases h with (hn | hn) | hn | rfl
      · exact hshadow hn
      · exact hheads hn
      · exact hwr _ _ hn
      · exact ⟨rfl, rfl⟩
    · simp only [List.mem_append, List.mem_cons, List.not_mem_nil, or_false] at h
      rcases h with hn | hn | rfl
      · exact hheads hn
      · exact hwr _ _ hn
      · exact ⟨rfl, rfl⟩

/-- A show draws free values at most: of its state nothing else changes before its first write. -/
theorem State.showActs_state (s : State) (b : Buffer) (v : Word) : ∃ n, (s.showActs b v).1 = { s with fresh := n } := by
  unfold State.showActs
  split
  · exact s.writeShadowAll_spec.1
  · split
    · exact s.writeShadowAll_spec.1
    · exact ⟨s.fresh, rfl⟩

theorem State.showThenAdvance_eq (s : State) (b : Buffer) (v a : Word) :
    s.showThenAdvance b v a
      = (s.showActs b v).1.push ((s.showActs b v).2 ++ [.advance b (inUse s.prm s.c.cur v a), .finish .ok]) := rfl

/-! ### What an action does to the engine -/

/-- What one action of an operation can do to the engine: nothing, the side effect of a read of ISR (R96), or an accepted
register write, which sets SIPSTS where it is synchronised (R102). -/
def Engine.afterAction (e e' : Engine) : Prop :=
  e' = e ∨ e' = { e with isr := 0#32 } ∨ ∃ r x f sync, e.write r x = .ok f ∧ e' = { f with sipsts := f.sipsts || sync }

/-! ### The outcome of an action -/

/-- Action a, taken at s with b the rest of the operation, leads to t, where the operation goes on with the actions `new`
before those that remain. Every buffer id that a carries or a slot holds is then carried by a new action, held by a slot, or
completed. -/
structure GoesOn (s : State) (b : Busy) (a : Act) (t : State) (new : List Act) : Prop where
  busy : t.c.busy = some { b with acts := new ++ b.acts }
  refused : t.refused = s.refused
  engine : s.e.afterAction t.e
  begets : ∀ n ∈ new, s.begets a n
  chan : t.c.chan = s.c.chan ∨ a = .setChan t.c.chan ∨ (a = .offEnd ∧ t.c.chan = .idle)
  ids :
    ∃ done : List Word,
      t.c.log.map Prod.fst = s.c.log.map Prod.fst ++ done
        ∧ (done ++ (new.filterMap Act.pendingId ++ t.c.heldIds)).Perm (a.pendingId.toList ++ s.c.heldIds)

/-- An action that ends the operation before its time: a refused register write (R194), or a poll at a bounded SYNC_WAIT
(R102). -/
structure Drops (s t : State) : Prop where
  prm : t.prm = s.prm
  c : t.c = { s.c with busy := none }
  e : t.e = s.e
  why : t.refused ≠ none ∨ s.prm.syncWait ≠ .unbounded

/-- The operation goes on from a state u with actions put before the rest. -/
theorem GoesOn.push {s u : State} {b : Busy} {a : Act} {new : List Act} (hbusy : u.c.busy = some b)
    (hrefused : u.refused = s.refused) (he : s.e.afterAction u.e) (hnew : ∀ n ∈ new, s.begets a n)
    (hchan : u.c.chan = s.c.chan ∨ a = .setChan u.c.chan ∨ (a = .offEnd ∧ u.c.chan = .idle))
    (hids : ∃ done : List Word,
      u.c.log.map Prod.fst = s.c.log.map Prod.fst ++ done
        ∧ (done ++ (new.filterMap Act.pendingId ++ u.c.heldIds)).Perm (a.pendingId.toList ++ s.c.heldIds)) :
    GoesOn s b a (u.push new) new where
  busy := State.push_busy u b new hbusy
  refused := by simpa using hrefused
  engine := by simpa using he
  begets := hnew
  chan := by simpa using hchan
  ids := by simpa using hids

theorem State.push_nil (s : State) : s.push [] = s := by
  obtain ⟨prm, c, e, mem, rf, rs, tr, st, tu, un, fr⟩ := s
  obtain ⟨cfg, chan, streaming, fmt, dirty, win, rot, log, cur, nxt, busy⟩ := c
  cases busy <;> rfl

/-- An action that leaves the controller's fields alone and hands on the buffer it carries, if any. -/
theorem GoesOn.same {s u : State} {b : Busy} {a : Act} {new : List Act} (hb : s.c.busy = some b) (hc : u.c = s.c)
    (hrefused : u.refused = s.refused) (he : s.e.afterAction u.e) (hnew : ∀ n ∈ new, s.begets a n)
    (hids : new.filterMap Act.pendingId = a.pendingId.toList) : GoesOn s b a (u.push new) new :=
  GoesOn.push (hc ▸ hb) hrefused he hnew (.inl (by rw [hc])) ⟨[], by simp [hc], by rw [hids, hc]; rfl⟩

/-- An action after which nothing is put before the rest. -/
theorem GoesOn.quiet {s u : State} {b : Busy} {a : Act} (hbusy : u.c.busy = some b)
    (hrefused : u.refused = s.refused) (he : s.e.afterAction u.e)
    (hchan : u.c.chan = s.c.chan ∨ a = .setChan u.c.chan ∨ (a = .offEnd ∧ u.c.chan = .idle))
    (hids : ∃ done : List Word,
      u.c.log.map Prod.fst = s.c.log.map Prod.fst ++ done
        ∧ (done ++ u.c.heldIds).Perm (a.pendingId.toList ++ s.c.heldIds)) :
    GoesOn s b a u [] := by
  have h := GoesOn.push (new := []) hbusy hrefused he nofun hchan hids
  rwa [State.push_nil] at h

/-- An event that changes the engine alone, and carries no buffer. -/
theorem GoesOn.event {s u : State} {b : Busy} {a : Act} (hb : s.c.busy = some b) (hc : u.c = s.c)
    (hrefused : u.refused = s.refused) (he : s.e.afterAction u.e) (hid : a.pendingId = none) : GoesOn s b a u [] :=
  GoesOn.quiet (hc ▸ hb) hrefused he (.inl (by rw [hc])) ⟨[], by simp [hc], by rw [hid, hc]; rfl⟩

/-- A register write that stands for a whole action: refused, or taken. -/
theorem writeEvent_outcome {s : State} {b : Busy} {a : Act} (hb : s.c.busy = some b) (r : WReg) (x : Word) (sync : Bool)
    (hid : a.pendingId = none) :
    Drops s (s.writeEvent r x sync) ∨ ∃ new, GoesOn s b a (s.writeEvent r x sync) new := by
  rcases s.writeEvent_cases r x sync with ⟨reason, -, h⟩ | ⟨f, hf, h⟩ <;> rw [h]
  · exact .inl ⟨rfl, rfl, rfl, .inl nofun⟩
  · exact .inr ⟨[], GoesOn.event hb rfl rfl (.inr (.inr ⟨r, x, f, sync, hf, rfl⟩)) hid⟩

/-- Show, then Advance, of the buffer a QBUF carries (R152). -/
theorem GoesOn.showThenAdvance {s u : State} {b : Busy} {a : Act} {x : Buffer} (hb : s.c.busy = some b) (hc : u.c = s.c)
    (hrefused : u.refused = s.refused) (he : u.e = s.e) (hid : a.pendingId = some x.id)
    (hfits : ∀ o, a.fits o = true → o = .qbuf) (v w : Word) : ∃ new, GoesOn s b a (u.showThenAdvance x v w) new := by
  obtain ⟨k, hk⟩ := u.showActs_state x v
  rw [State.showThenAdvance_eq]
  refine ⟨_, GoesOn.same (u := (u.showActs x v).1) hb (by rw [hk]; exact hc)
    (by rw [hk]; exact hrefused) (by rw [hk]; exact .inl he) ?_ ?_⟩
  · simp only [List.mem_append, List.mem_cons, List.not_mem_nil, or_false]
    rintro n (hn | rfl | rfl)
    · refine ⟨fun o ho => hfits o ho ▸ (State.showActs_parts hn).2, fun y hy => ?_⟩
      rcases State.showActs_mode hn with hnone | ⟨f, hf, hmode⟩
      · rw [hnone] at hy
        cases hy
      · rw [hmode] at hy
        cases hy
        exact .inr ⟨f, hc ▸ hf, rfl⟩
    · exact State.begets_of_modeWord_none (fun o ho => by rw [hfits o ho]; rfl) rfl
    · exact State.begets_of_modeWord_none (fun o ho => by rw [hfits o ho]; rfl) rfl
  · have hnone : (u.showActs x v).2.filterMap Act.pendingId = [] :=
      pendingIds_nil _ (fun n hn => (State.showActs_parts hn).1)
    rw [List.filterMap_append, hnone, hid]
    rfl

/-! ### The actions that read a register and decide -/

section
variable {s : State} {b : Busy} (hb : s.c.busy = some b)
include hb

/-- One poll of a synchronised write (R102). -/
theorem pollEvent_outcome (r : WReg) (x : Word) (n : Nat) :
    Drops s (s.pollEvent r x n) ∨ ∃ new, GoesOn s b (.poll r x n) (s.pollEvent r x n) new := by
  rcases s.pollEvent_cases r x n with ⟨-, h⟩ | ⟨-, hexp, h⟩ | ⟨-, -, h⟩ <;> rw [h]
  · refine .inr ⟨_, GoesOn.same (u := s.readEvent .syncsr) hb rfl rfl (.inl rfl) ?_ rfl⟩
    exact List.forall_mem_singleton.mpr (s.begets_of_poll r x n 0).1
  · refine .inl ⟨State.timeout_prm _, ?_, State.timeout_e _, .inr ?_⟩
    · unfold State.timeout
      simp only [State.readEvent_c, hb]
      split <;> rfl
    · intro hunbounded
      rw [hunbounded] at hexp
      cases hexp
  · refine .inr ⟨_, GoesOn.same (u := s.readEvent .syncsr) hb rfl rfl (.inl rfl) ?_ rfl⟩
    exact List.forall_mem_singleton.mpr (s.begets_of_poll r x n (n + 1)).2

/-- The Bad path of Recompute (R139). -/
theorem badChsr_goesOn : ∃ new, GoesOn s b .badChsr s.badChsr new := by
  have hset : s.begets .badChsr (.setCfg .bad) := State.begets_of_modeWord_none (fun _ h => h) rfl
  unfold State.badChsr
  dsimp only
  split
  · refine ⟨_, GoesOn.same (u := s.readEvent .chsr) hb rfl rfl (.inl rfl) ?_ ?_⟩
    · exact List.forall_mem_cons.mpr ⟨s.begets_wrAct _ _ _ nofun, List.forall_mem_singleton.mpr hset⟩
    · exact pendingIds_nil _ (List.forall_mem_cons.mpr ⟨wrAct_pendingId _ _ _, List.forall_mem_singleton.mpr rfl⟩)
  · exact ⟨_, GoesOn.same (u := s.readEvent .chsr) hb rfl rfl (.inl rfl) (List.forall_mem_singleton.mpr hset) rfl⟩

/-- The recovery test of Recompute: it may build the current buffer's descriptors again, which keeps its id (R141). -/
theorem recoverChsr_goesOn : ∃ new, GoesOn s b .recoverChsr s.recoverChsr new := by
  have hset : ∀ x, s.begets .recoverChsr (.setCfg x) := fun x => State.begets_of_modeWord_none (fun _ h => h) rfl
  have hlatch : ∃ new, GoesOn s b .recoverChsr ((s.readEvent .chsr).push [.setCfg .goodNeedsLatch]) new :=
    ⟨_, GoesOn.same (u := s.readEvent .chsr) hb rfl rfl (.inl rfl) (List.forall_mem_singleton.mpr (hset _)) rfl⟩
  unfold State.recoverChsr
  dsimp only
  split
  · exact hlatch
  · rename_i x hcur
    split
    · exact hlatch
    · refine ⟨_, GoesOn.push ?_ rfl (.inl rfl) ?_ (.inl rfl) ⟨[], ?_, ?_⟩⟩
      · exact hb
      · simp only [List.forall_mem_append, List.forall_mem_cons]
        exact ⟨⟨⟨s.begets_buildDescriptors _ _ _ _, State.begets_of_modeWord_none (fun _ _ => rfl) rfl, nofun⟩,
          s.begets_writeHeads _ _ _⟩, s.begets_wrAct _ _ _ nofun, s.begets_wrAct _ _ _ nofun, hset _, nofun⟩
      · exact (List.append_nil _).symm
      · rw [pendingIds_nil]
        · simp [Controller.heldIds, hcur, Buffer.withDesc, Act.pendingId]
        · simp only [List.forall_mem_append, List.forall_mem_cons]
          exact ⟨⟨⟨fun n hn => (buildDescriptors_parts hn).1, rfl, nofun⟩, fun n hn => (writeHeads_parts hn).1⟩,
            wrAct_pendingId _ _ _, wrAct_pendingId _ _ _, rfl, nofun⟩

/-- QBUF after its lazy Recompute: the buffer is completed at once (R157), or its descriptors are built (R152). -/
theorem qbufGo_goesOn (x : Buffer) : ∃ new, GoesOn s b (.qbufGo x) (s.qbufGo x) new := by
  unfold State.qbufGo
  split
  · refine ⟨_, GoesOn.push (u := s.setC (s.c.complete x.id .done)) hb rfl (.inl rfl) ?_ (.inl rfl)
      ⟨[x.id], ?_, .refl _⟩⟩
    · refine List.forall_mem_singleton.mpr (State.begets_of_modeWord_none (fun o ho => ?_) rfl)
      cases (beq_iff_eq.mp ho : o = .qbuf)
      rfl
    · simp [Controller.complete]
  · refine ⟨_, GoesOn.same hb rfl rfl (.inl rfl) ?_ ?_⟩
    · simp only [List.forall_mem_append, List.forall_mem_cons]
      exact ⟨s.begets_buildDescriptors _ _ _ _, State.begets_of_modeWord_none (fun _ _ => rfl) rfl,
        State.begets_of_modeWord_none (fun _ h => h) rfl, nofun⟩
    · rw [List.filterMap_append, pendingIds_nil _ (fun n hn => (buildDescriptors_parts hn).1)]
      rfl

/-- QBUF's RD(CHSR): ADDR_0 is read next, or the buffer is shown (R152). -/
theorem qbufChsr_goesOn (x : Buffer) : ∃ new, GoesOn s b (.qbufChsr x) (s.qbufChsr x) new := by
  unfold State.qbufChsr
  dsimp only
  split
  · refine ⟨_, GoesOn.same (u := s.readEvent .chsr) hb rfl rfl (.inl rfl) ?_ rfl⟩
    exact List.forall_mem_singleton.mpr (State.begets_of_modeWord_none (fun _ h => h) rfl)
  · exact GoesOn.showThenAdvance (u := s.readEvent .chsr) (a := .qbufChsr x) hb rfl rfl rfl rfl
      (fun o ho => beq_iff_eq.mp ho) _ _

/-- STREAMOFF's first RD(CHSR) (R163). -/
theorem offChsr_goesOn : ∃ new, GoesOn s b .offChsr s.offChsr new := by
  have hown : ∀ {n : Act}, (∀ o, o = .streamoff → n.fits o = true) → n.modeWord = none → s.begets .offChsr n :=
    fun hfits hmode => State.begets_of_modeWord_none (fun o ho => hfits o (beq_iff_eq.mp ho)) hmode
  have htail : ∀ n ∈ offTail s.prm, s.begets .offChsr n := by
    simp only [offTail, List.forall_mem_cons]
    exact ⟨hown (by rintro _ rfl; rfl) rfl, s.begets_wrAct _ _ _ nofun, hown (fun _ _ => rfl) rfl,
      hown (by rintro _ rfl; rfl) rfl, hown (by rintro _ rfl; rfl) rfl, nofun⟩
  have htailIds : ∀ n ∈ offTail s.prm, n.pendingId = none := by
    simp only [offTail, List.forall_mem_cons]
    exact ⟨rfl, wrAct_pendingId _ _ _, rfl, rfl, rfl, nofun⟩
  unfold State.offChsr
  dsimp only
  split
  · refine ⟨_, GoesOn.same (u := s.readEvent .chsr) hb rfl rfl (.inl rfl) ?_ (pendingIds_nil _ ?_)⟩
    · simp only [List.forall_mem_cons]
      exact ⟨s.begets_wrAct _ _ _ nofun, hown (by rintro _ rfl; rfl) rfl, htail⟩
    · simp only [List.forall_mem_cons]
      exact ⟨wrAct_pendingId _ _ _, rfl, htailIds⟩
  · exact ⟨_, GoesOn.same (u := s.readEvent .chsr) hb rfl rfl (.inl rfl) htail (pendingIds_nil _ htailIds)⟩

/-- One poll of the quiesce loop (R164). -/
theorem offPoll_goesOn : ∃ new, GoesOn s b .offPoll s.offPoll new := by
  unfold State.offPoll
  dsimp only
  split
  · refine ⟨_, GoesOn.same (u := s.readEvent .chsr) hb rfl rfl (.inl rfl) ?_ rfl⟩
    exact List.forall_mem_singleton.mpr (State.begets_of_modeWord_none (fun _ h => h) rfl)
  · exact ⟨[], GoesOn.event hb rfl rfl (.inl rfl) rfl⟩

/-! ### The actions that move buffers between the slots and the log -/

/-- Advance: the new buffer takes the next slot, and the buffer that gives way is completed (R158). -/
theorem advance_goesOn (x : Buffer) (inuse : Bool) :
    GoesOn s b (.advance x inuse) (s.setC (s.c.advance x inuse)) [] := by
  rw [Controller.advance_eq]
  cases inuse
  · refine GoesOn.quiet hb rfl (.inl rfl) (.inl rfl) ⟨(s.c.cur.map Buffer.id).toList, by simp, ?_⟩
    change (_ ++ (_ ++ [x.id])).Perm ([x.id] ++ (_ ++ _))
    rw [← List.append_assoc]
    exact List.perm_append_comm
  · refine GoesOn.quiet hb rfl (.inl rfl) (.inl rfl) ⟨(s.c.nxt.map Buffer.id).toList, by simp, ?_⟩
    change (_ ++ (_ ++ [x.id])).Perm ([x.id] ++ (_ ++ _))
    rw [← List.append_assoc]
    exact List.perm_append_comm.trans (List.perm_append_comm.append_left _)

/-- A flush at u, whose slots hold the ids that those of s hold: every one of them is completed (R160). -/
theorem flush_goesOn {u : State} {a : Act} {new : List Act} (hbusy : u.c.busy = s.c.busy)
    (hrefused : u.refused = s.refused) (he : u.e = s.e) (hchan : u.c.chan = s.c.chan) (hlog : u.c.log = s.c.log)
    (hheld : u.c.heldIds = s.c.heldIds) (hid : a.pendingId = none) (hnew : ∀ n ∈ new, s.begets a n)
    (hids : new.filterMap Act.pendingId = []) : GoesOn s b a ((u.setC u.c.flush).push new) new := by
  rw [Controller.flush_eq]
  refine GoesOn.push (hbusy.trans hb) hrefused (.inl he) hnew (.inl hchan) ⟨u.c.heldIds, ?_, ?_⟩
  · simp [hlog, Controller.heldIds]
  · rw [hids, hid, hheld]
    simp [Controller.heldIds]

/-- IRQ after its RD(CHSR): the promotion only moves a buffer from the next slot to the current one, a flush completes both
(R166, R167). -/
theorem irqChsr_goesOn : ∃ new, GoesOn s b .irqChsr s.irqChsr new := by
  have hbusy : (s.c.promote).busy = some b := s.c.promote_busy.trans hb
  have hlog : s.c.promote.log = s.c.log := s.c.promote_keeps.2.2.2
  have hids : ∃ done : List Word, s.c.promote.log.map Prod.fst = s.c.log.map Prod.fst ++ done
      ∧ (done ++ ([] ++ s.c.promote.heldIds)).Perm ([] ++ s.c.heldIds) :=
    ⟨[], by simp [hlog], by simp [s.c.promote_heldIds]⟩
  unfold State.irqChsr
  dsimp only
  split
  · exact ⟨_, flush_goesOn (u := (s.readEvent .chsr).setC s.c.promote) hb s.c.promote_busy rfl rfl s.c.promote_chan hlog
      s.c.promote_heldIds rfl (List.forall_mem_singleton.mpr (s.begets_wrAct _ _ _ nofun))
      (pendingIds_nil _ (List.forall_mem_singleton.mpr (wrAct_pendingId _ _ _)))⟩
  · split
    · exact ⟨_, GoesOn.push (u := (s.readEvent .chsr).setC s.c.promote) hbusy rfl (.inl rfl)
        (List.forall_mem_singleton.mpr (State.begets_of_modeWord_none (fun _ h => h) rfl)) (.inl s.c.promote_chan) hids⟩
    · exact ⟨[], GoesOn.quiet (u := (s.readEvent .chsr).setC s.c.promote) hbusy rfl (.inl rfl) (.inl s.c.promote_chan)
        hids⟩

/-- IRQ's advance branch: the current buffer is completed and the next one takes its slot (R168). -/
theorem irqAddr_goesOn : GoesOn s b .irqAddr s.irqAddr [] := by
  have hread : GoesOn s b .irqAddr (s.readEvent (.addr .y)) [] := GoesOn.event hb rfl rfl (.inl rfl) rfl
  unfold State.irqAddr
  dsimp only
  split
  · exact hread
  · rename_i x hcur
    split
    · exact hread
    · refine GoesOn.quiet hb rfl (.inl rfl) (.inl rfl) ⟨[x.id], ?_, ?_⟩
      · simp [Controller.complete]
      · simp only [State.readEvent_c] at hcur
        simp [Controller.heldIds, hcur, Act.pendingId]

/-- What any action of an operation does: it drops the operation, or the operation goes on. -/
theorem perform_cases (a : Act) : Drops s (perform a s) ∨ ∃ new, GoesOn s b a (perform a s) new := by
  cases a with
  | wr r x => exact writeEvent_outcome hb r x false rfl
  | wrs r x => exact writeEvent_outcome hb r x true rfl
  | poll r x n => exact pollEvent_outcome hb r x n
  | rd r => exact .inr ⟨[], GoesOn.event hb rfl rfl ((s.readEvent_engine r).imp_right .inl) rfl⟩
  | memWrite d x => exact .inr ⟨[], GoesOn.event hb rfl rfl (.inl rfl) rfl⟩
  | barrier => exact .inr ⟨[], GoesOn.event hb rfl rfl (.inl rfl) rfl⟩
  | setCfg x => exact .inr ⟨[], GoesOn.quiet hb rfl (.inl rfl) (.inl rfl) ⟨[], (List.append_nil _).symm, .refl _⟩⟩
  | setChan x =>
    exact .inr ⟨[], GoesOn.quiet hb rfl (.inl rfl) (.inr (.inl rfl)) ⟨[], (List.append_nil _).symm, .refl _⟩⟩
  | badChsr => exact .inr (badChsr_goesOn hb)
  | recoverChsr => exact .inr (recoverChsr_goesOn hb)
  | qbufGo x => exact .inr (qbufGo_goesOn hb x)
  | qbufChsr x => exact .inr (qbufChsr_goesOn hb x)
  | qbufAddr x v =>
    exact .inr (GoesOn.showThenAdvance (u := s.readEvent (.addr .y)) (a := .qbufAddr x v) hb rfl rfl rfl rfl
      (fun o ho => beq_iff_eq.mp ho) _ _)
  | advance x inuse => exact .inr ⟨[], advance_goesOn hb x inuse⟩
  | offChsr => exact .inr (offChsr_goesOn hb)
  | offPoll => exact .inr (offPoll_goesOn hb)
  | offFlush =>
    refine .inr ⟨[], ?_⟩
    have h := flush_goesOn (u := s) (a := .offFlush) (new := []) hb rfl rfl rfl rfl rfl rfl rfl nofun rfl
    rwa [State.push_nil] at h
  | offEnd =>
    exact .inr ⟨[], GoesOn.quiet hb rfl (.inl rfl) (.inr (.inr ⟨rfl, rfl⟩)) ⟨[], (List.append_nil _).symm, .refl _⟩⟩
  | irqChsr => exact .inr (irqChsr_goesOn hb)
  | irqAddr => exact .inr ⟨[], irqAddr_goesOn hb⟩
  | finish c => exact .inr ⟨[], GoesOn.event hb rfl rfl (.inl rfl) rfl⟩

end

end Sys2Proof.Machine

/-! ## The invariants of 10_state.md: they hold after reset, and every step keeps them -/

namespace Sys2Proof.Machine

/-! ### Reset (R48) -/

/-- Settles O5: the state after reset is the record R48 writes out. -/
theorem resetLeavesTheStatedValues : Obligations.ResetLeavesTheStatedValues := by
  intro prm d
  simp [State.afterReset, Rotation.degrees]

theorem inS32_zero : inS32 0 = true := rfl

theorem inS32_natCast {n : Nat} (h : n < 2 ^ 31) : inS32 n = true := by
  simp only [inS32, Bool.and_eq_true, decide_eq_true_eq]
  omega

/-- Settles O14: nothing is in progress after reset, and the window is the display, whose sizes are below 2^31. -/
theorem resetMeetsTheInvariants : Obligations.ResetMeetsTheInvariants := by
  intro prm d hw hh hmem
  have hzero : within 0#32 imask = true := by decide
  have hengine : (State.afterReset prm d).e.inv := ⟨hzero, hzero, fun _ => ⟨rfl, rfl⟩⟩
  have hcontroller : (State.afterReset prm d).c.inv prm :=
    ⟨nofun, ⟨inS32_zero, inS32_zero, inS32_natCast hw, inS32_natCast hh⟩, nofun⟩
  exact ⟨⟨hmem, hengine, hcontroller⟩, List.nodup_nil, nofun, Controller.storesFit_of_none nofun⟩

/-! ### The lock (R46, R199) -/

theorem controllerStep_locked {s : State} (hr : s.refused = none) (hb : s.c.busy ≠ none) (t : State) :
    controllerStep s t = .refused .lockHeld := by
  obtain ⟨b, hb⟩ := Option.ne_none_iff_exists'.mp hb
  rw [controllerStep, hr, hb]

/-- Settles O10: every kind of controller operation starts through `controllerStep`, which asks for the lock. -/
theorem lockExcludesControllerOperations : Obligations.LockExcludesControllerOperations := by
  intro s i hr hb hi
  cases controllerKind_of hi with
  | wr r x => rw [exec_ofWr]; exact controllerStep_locked hr hb _
  | rd r => rw [exec_ofRd]; exact controllerStep_locked hr hb _
  | irq =>
    have hfree : ¬ (s.refused = none ∧ s.c.busy = none ∧ s.e.line = false) := fun h => hb h.2.1
    rw [exec, execIrq, if_neg hfree]
    exact controllerStep_locked hr hb _
  | _ => exact controllerStep_locked hr hb _

/-! ### A step, seen from the controller -/

/-- The controller after an engine event: at most the mark that the engine has had its turn at a wait point is new. -/
def Controller.sameUpToMark (c c' : Controller) : Prop :=
  c' = c ∨ ∃ b, c.busy = some b ∧ c' = { c with busy := some { b with yielded := true } }

/-- What a step that answers a next state is: an engine event, a controller instruction that is at once done or starts an
operation, the operation in progress going on, or nothing but perhaps a refusal. -/
theorem step_kinds {s t : State} (h : step s = .next t) :
    (∃ i u, nextMove s = .run i u ∧ isEngineEvent i = true ∧ exec i u = .next t ∧ SameBut s u
        ∧ s.c.sameUpToMark t.c)
      ∨ (∃ i u v, nextMove s = .run i u ∧ isEngineEvent i = false ∧ exec i u = .next t ∧ SameBut s u ∧ u.c = s.c
          ∧ s.c.busy = none ∧ EntryOf i u v ∧ (t = v ∨ ∃ o as, t = v.runOp o as ∧ ActsOf i u o as))
      ∨ (∃ u b, nextMove s = .goOn u ∧ t = u.resume ∧ u.c = s.c ∧ SameBut s u ∧ s.c.busy = some b)
      ∨ (nextMove s = .settle t ∧ s.c.busy = none ∧ (t = s ∨ ∃ r, t = s.refuse r)) := by
  obtain ⟨-, ⟨i, u, hm, hx, hsame, hc⟩ | ⟨u, hm, ht, hc, hsame, hb⟩ | hsettle⟩ := step_cases h
  · cases hi : isEngineEvent i with
    | true =>
      obtain ⟨e, fresh, rfl⟩ := engineEvent_touches hi hx
      exact .inl ⟨i, u, hm, hi, hx, hsame, hc.imp And.right And.right⟩
    | false =>
      obtain ⟨hfree, hc⟩ | ⟨hi', -⟩ := hc
      · obtain ⟨v, hv, ht⟩ := operation_entry hi hx
        exact .inr (.inl ⟨i, u, v, hm, hi, hx, hsame, hc, hfree, hv, ht⟩)
      · rw [hi] at hi'
        cases hi'
  · obtain ⟨b, hb⟩ := Option.ne_none_iff_exists'.mp hb
    exact .inr (.inr (.inl ⟨u, b, hm, ht, hc, hsame, hb⟩))
  · exact .inr (.inr (.inr hsettle))

theorem Controller.sameUpToMark.log {c c' : Controller} (h : c.sameUpToMark c') : c'.log = c.log := by
  rcases h with rfl | ⟨b, -, rfl⟩ <;> rfl

theorem Controller.sameUpToMark.chan {c c' : Controller} (h : c.sameUpToMark c') : c'.chan = c.chan := by
  rcases h with rfl | ⟨b, -, rfl⟩ <;> rfl

theorem Controller.sameUpToMark.heldIds {c c' : Controller} (h : c.sameUpToMark c') : c'.heldIds = c.heldIds := by
  rcases h with rfl | ⟨b, -, rfl⟩ <;> rfl

theorem Controller.sameUpToMark.pendingIds {c c' : Controller} (h : c.sameUpToMark c') :
    c'.pendingIds = c.pendingIds := by
  rcases h with rfl | ⟨b, hb, rfl⟩
  · rfl
  · rw [Controller.pendingIds_of_busy hb]
    rfl

theorem Controller.sameUpToMark.actsFit {c c' : Controller} (h : c.sameUpToMark c') (hf : c.actsFit) : c'.actsFit := by
  rcases h with rfl | ⟨b, hb, rfl⟩
  · exact hf
  · rintro o ho
    cases ho
    exact hf b hb

theorem Controller.sameUpToMark.inv {c c' : Controller} {prm : Params} (h : c.sameUpToMark c') (hi : c.inv prm) :
    c'.inv prm := by
  rcases h with rfl | ⟨b, hb, rfl⟩
  · exact hi
  · obtain ⟨hfmt, hwin, hmodes⟩ := hi
    refine ⟨hfmt, hwin, fun o ho => ?_⟩
    cases ho
    exact hmodes b hb

/-! ### The completion log (R28) -/

/-- Settles O18: no action shortens the log (`perform_keeps`), and nothing else writes it. -/
theorem completionLogOnlyGrows : Obligations.CompletionLogOnlyGrows := by
  intro s t h
  rcases step_kinds h with ⟨i, u, -, -, -, -, hc⟩ | ⟨i, u, v, -, -, -, -, hc, -, hv, ht⟩ | ⟨u, b, -, rfl, hc, -⟩ |
    ⟨-, -, rfl | ⟨r, rfl⟩⟩
  · rw [hc.log]
  · have hlog : s.c.log <+: v.c.log := by rw [hv.log, hc]
    obtain rfl | ⟨o, as, rfl, -⟩ := ht
    · exact hlog
    · exact hlog.trans (v.runOp_keeps o as).log
  · rw [← hc]
    exact (burst_keeps _ _ u).log
  · exact List.prefix_refl _
  · exact List.prefix_refl _

/-! ### ACTIVE and the loaded descriptors (R42, R182) -/

/-- What a step during a frame keeps: ACTIVE, and what was loaded for each plane (R182). -/
def Engine.sameLoaded (e e' : Engine) : Prop :=
  e'.active = e.active ∧ e'.ctrl = e.ctrl ∧ e'.next = e.next ∧ e'.addr0 = e.addr0 ∧ e'.dload = e.dload

theorem Engine.sameLoaded_of_reaches {e e' : Engine} (h : e.controllerReaches e') : e.sameLoaded e' := by
  obtain ⟨hactive, -, hctrl, hnext, haddr0, hdload, -⟩ := h
  exact ⟨hactive, hctrl, hnext, haddr0, hdload⟩

/-- A frame start, faulting or not, leaves ACTIVE the configuration its latch chose (R175). -/
theorem State.startFrame_active (s : State) :
    s.startFrame.e.active = if s.e.updpend then s.e.shadow else s.e.active := by
  rw [State.startFrame_eq]
  split
  · rfl
  · rename_i n _ _
    obtain ⟨_, _, _, _, _, _, _, _, _, _, hload, -⟩ := State.loadPlanes_frame s.e.updpend
      (if s.e.updpend then s.e.head else s.e.next) (planesBelow n)
      (s.setE { s.e with active := if s.e.updpend then s.e.shadow else s.e.active })
    rw [hload]
    rfl

/-- Only E_FSTART changes ACTIVE or what a frame start loads; it changes ACTIVE to SHADOW, where an update is pending. -/
theorem engineEvent_loaded {i : Instr} {s t : State} (hi : isEngineEvent i = true) (h : exec i s = .next t) :
    s.e.sameLoaded t.e
      ∨ (i = .eFstart ∧ s.e.phase = .between
          ∧ (t.e.active = s.e.active ∨ (s.e.updpend = true ∧ t.e.active = s.e.shadow))) := by
  obtain ⟨-, ⟨hfs, -, hphase, rfl⟩ | ⟨p, a, -, -, -, -, rfl⟩ | ⟨-, -, rfl⟩ | ⟨p, -, rfl⟩ | ⟨-, rfl⟩⟩ :=
    engineEvent_cases hi h
  · right
    refine ⟨hfs, hphase, ?_⟩
    split
    · exact .inl rfl
    · rw [State.startFrame_active]
      cases hu : s.e.updpend
      · exact .inl rfl
      · exact .inr ⟨rfl, rfl⟩
  · exact .inl ⟨rfl, rfl, rfl, rfl, rfl⟩
  · obtain ⟨addr, isr, hend, -⟩ := s.e.endFrame_spec s.prm
    rw [hend]
    exact .inl ⟨rfl, rfl, rfl, rfl, rfl⟩
  · exact .inl ⟨rfl, rfl, rfl, rfl, rfl⟩
  · exact .inl ⟨rfl, rfl, rfl, rfl, rfl⟩

/-- Of all steps only one that runs E_FSTART changes ACTIVE or what a frame start loads. -/
theorem step_loaded {s t : State} (h : step s = .next t) :
    s.e.sameLoaded t.e
      ∨ ∃ u, nextMove s = .run .eFstart u ∧ s.e.phase = .between
          ∧ (t.e.active = s.e.active ∨ (s.e.updpend = true ∧ t.e.active = s.e.shadow)) := by
  rcases step_kinds h with ⟨i, u, hm, hi, hx, hsame, -⟩ | ⟨i, u, v, -, -, -, hsame, -, -, hv, ht⟩ |
    ⟨u, b, -, rfl, -, hsame, -⟩ | ⟨-, -, rfl | ⟨r, rfl⟩⟩
  · rw [← hsame.e]
    rcases engineEvent_loaded hi hx with hl | ⟨rfl, hactive⟩
    · exact .inl hl
    · exact .inr ⟨u, hm, hactive⟩
  · left
    rw [← hsame.e, ← hv.e]
    obtain rfl | ⟨o, as, rfl, -⟩ := ht
    · exact ⟨rfl, rfl, rfl, rfl, rfl⟩
    · exact Engine.sameLoaded_of_reaches (v.runOp_keeps o as).e
  · left
    rw [← hsame.e]
    exact Engine.sameLoaded_of_reaches (burst_keeps _ _ u).e
  · exact .inl ⟨rfl, rfl, rfl, rfl, rfl⟩
  · exact .inl ⟨rfl, rfl, rfl, rfl, rfl⟩

/-- Settles O19: of all steps only E_FSTART reaches ACTIVE, and it is enabled between frames alone. -/
theorem activeChangesOnlyAtALatch : Obligations.ActiveChangesOnlyAtALatch := by
  intro s t h
  rcases step_loaded h with hl | ⟨u, hm, hphase, hactive⟩
  · exact ⟨fun hne => absurd hl.1 hne, fun _ => hl⟩
  · refine ⟨fun hne => ?_, fun hf => ?_⟩
    · obtain ⟨hu, hshadow⟩ := hactive.resolve_left hne
      exact ⟨⟨u, hm⟩, hu, hphase, hshadow⟩
    · rw [hphase] at hf
      cases hf

/-! ### A burst, action by action

In a burst an action is performed once it is taken off the operation in progress; the outcome is that of `perform_cases`. -/

@[simp] theorem State.setActs_heldIds (s : State) (rest : List Act) : (s.setActs rest).c.heldIds = s.c.heldIds := by
  simp [Controller.heldIds]

/-- What a burst keeps: what survives a used turn and the end of an operation, and each of the two outcomes of an action. -/
theorem burst_keeps_of_cases (P : State → Prop)
    (hend : ∀ s b, s.c.busy = some b → b.acts = [] → P s → P s.endOp)
    (hturn : ∀ s, P s → P s.useTurn)
    (hdrop : ∀ s a rest t, P s → t = perform a (s.setActs rest) → Drops (s.setActs rest) t → P t)
    (hgo : ∀ s b a rest t new, s.c.busy = some b → b.acts = a :: rest → P s → t = perform a (s.setActs rest) →
      GoesOn (s.setActs rest) { op := b.op, acts := rest, yielded := false } a t new → P t)
    (n : Nat) (g : Bool) {s : State} (h : P s) : P (burst n g s) := by
  refine burst_ind P hend hturn (fun s b a rest hb ha hs => ?_) n g s h
  have hbusy : (s.setActs rest).c.busy = some { op := b.op, acts := rest, yielded := false } :=
    s.setActs_busy b rest hb
  rcases perform_cases hbusy a with hdrops | ⟨new, hgoes⟩
  · exact hdrop s a rest _ hs rfl hdrops
  · exact hgo s b a rest _ new hb ha hs rfl hgoes

/-! ### Distinct ids (R30 (a), R151) -/

theorem Controller.idsDistinct_of_free {c : Controller} (hb : c.busy = none) : c.idsDistinct ↔ c.heldIds.Nodup := by
  rw [Controller.idsDistinct, Controller.pendingIds_of_free hb, List.nil_append]

/-- The ids an operation has admitted and the slots hold, when its next action is taken off it. -/
theorem Controller.openIds_cons {c : Controller} {b : Busy} {a : Act} {rest : List Act} (hb : c.busy = some b)
    (ha : b.acts = a :: rest) :
    c.pendingIds ++ c.heldIds = a.pendingId.toList ++ rest.filterMap Act.pendingId ++ c.heldIds := by
  rw [Controller.pendingIds_of_busy hb, ha]
  cases hid : a.pendingId <;> simp [hid]

/-- An action that goes on moves ids between the operation, the slots and the log: none is lost, none doubled. -/
theorem GoesOn.openIds {s t : State} {b : Busy} {a : Act} {rest new : List Act} (hb : s.c.busy = some b)
    (ha : b.acts = a :: rest)
    (h : GoesOn (s.setActs rest) { op := b.op, acts := rest, yielded := false } a t new) :
    ∃ done : List Word,
      t.c.log.map Prod.fst = s.c.log.map Prod.fst ++ done
        ∧ (done ++ (t.c.pendingIds ++ t.c.heldIds)).Perm (s.c.pendingIds ++ s.c.heldIds) := by
  obtain ⟨done, hlog, hperm⟩ := h.ids
  refine ⟨done, by simpa using hlog, ?_⟩
  rw [State.setActs_heldIds] at hperm
  rw [Controller.openIds_cons hb ha, Controller.pendingIds_of_busy h.busy, List.filterMap_append,
    List.perm_iff_count]
  intro id
  have hcount := hperm.count_eq id
  simp only [List.count_append] at hcount ⊢
  omega

theorem burst_keeps_idsDistinct (n : Nat) (g : Bool) {s : State} (h : s.c.idsDistinct) :
    (burst n g s).c.idsDistinct := by
  refine burst_keeps_of_cases (fun s => s.c.idsDistinct) ?_ ?_ ?_ ?_ n g h
  · intro s b hb ha hs
    rw [Controller.idsDistinct_of_free (s.endOp_c ▸ rfl)]
    exact (List.nodup_append.mp hs).2.1
  · intro s hs
    rwa [State.useTurn_c]
  · intro s a rest t hs _ hdrop
    rw [Controller.idsDistinct_of_free (hdrop.c ▸ rfl), hdrop.c]
    have hheld : (s.setActs rest).c.heldIds.Nodup := s.setActs_heldIds rest ▸ (List.nodup_append.mp hs).2.1
    exact hheld
  · intro s b a rest t new hb ha hs _ hgo
    obtain ⟨done, -, hperm⟩ := hgo.openIds hb ha
    exact (List.nodup_append.mp (hperm.nodup_iff.mpr hs)).2.1

theorem id_not_mem_of_slotHas {slot : Option Buffer} {id : Word} (h : slotHas slot id = false) :
    id ∉ (slot.map Buffer.id).toList := by
  cases slot with
  | none => exact List.not_mem_nil
  | some b =>
    have hne : b.id ≠ id := by simpa [slotHas] using h
    simpa using hne.symm

/-- The buffer of a QBUF that is admitted is none of those held (R151). -/
theorem ActsOf.idsDistinct {i : Instr} {s v : State} {o : OpName} {as : List Act} (h : ActsOf i s o as)
    (hv : v.c.heldIds = s.c.heldIds) (hs : s.c.heldIds.Nodup) : (v.startOp o as).c.idsDistinct := by
  have hopen : (v.startOp o as).c.pendingIds ++ (v.startOp o as).c.heldIds
      = as.filterMap Act.pendingId ++ s.c.heldIds := by rw [← hv]; rfl
  rw [Controller.idsDistinct, hopen]
  obtain hnil | ⟨id, _, _, _, -, hid, hcur, hnxt⟩ := h.ids
  · rwa [hnil]
  · rw [hid]
    have hnew : id ∉ s.c.heldIds := by
      rw [Controller.heldIds, List.mem_append]
      exact not_or.mpr ⟨id_not_mem_of_slotHas hcur, id_not_mem_of_slotHas hnxt⟩
    exact List.nodup_cons.mpr ⟨hnew, hs⟩

theorem EntryOf.heldIds {i : Instr} {s v : State} (h : EntryOf i s v) : v.c.heldIds = s.c.heldIds := by
  rw [Controller.heldIds, Controller.heldIds, h.cur, h.nxt]

/-- Settles O15: an admitted buffer's id is new, and an action only moves ids or completes them. -/
theorem stepKeepsBufferIdsDistinct : Obligations.StepKeepsBufferIdsDistinct := by
  intro s t hs h
  rcases step_kinds h with ⟨i, u, -, -, -, -, hc⟩ | ⟨i, u, v, -, -, -, -, hc, hfree, hv, ht⟩ | ⟨u, b, -, rfl, hc, -⟩ |
    ⟨-, hfree, rfl | ⟨r, rfl⟩⟩
  · rwa [Controller.idsDistinct, hc.pendingIds, hc.heldIds]
  · rw [Controller.idsDistinct_of_free hfree, ← hc] at hs
    obtain rfl | ⟨o, as, rfl, has⟩ := ht
    · rwa [Controller.idsDistinct_of_free hv.busy, hv.heldIds]
    · exact burst_keeps_idsDistinct _ _ (has.idsDistinct hv.heldIds hs)
  · rw [← hc] at hs
    exact burst_keeps_idsDistinct _ _ hs
  · exact hs
  · rw [Controller.idsDistinct_of_free hfree] at hs
    rwa [Controller.idsDistinct_of_free rfl]

/-! ### No buffer lost or doubled (R30 (b), R193) -/

/-- No poll times out, and the known ids are those of l, unless the state is refused. -/
def State.knows (l : List Word) (s : State) : Prop :=
  s.prm.syncWait = .unbounded ∧ (s.refused = none → s.c.knownIds.Perm l)

theorem burst_keeps_knownIds (n : Nat) (g : Bool) {s : State} {l : List Word} (h : s.knows l) :
    (burst n g s).knows l := by
  refine burst_keeps_of_cases (State.knows l) ?_ ?_ ?_ ?_ n g h
  · rintro s b hb ha ⟨hw, hs⟩
    refine ⟨hw, fun hr => ?_⟩
    have hknown : s.endOp.c.knownIds = s.c.knownIds := by
      have hpending : s.c.pendingIds = [] := by rw [Controller.pendingIds_of_busy hb, ha]; rfl
      rw [Controller.knownIds, Controller.knownIds, hpending]
      rfl
    exact hknown ▸ hs hr
  · rintro s ⟨hw, hs⟩
    exact ⟨by rwa [State.useTurn_prm], fun hr => by rw [State.useTurn_c]; exact hs (by rwa [← s.useTurn_refused])⟩
  · rintro s a rest t ⟨hw, hs⟩ - hdrop
    refine ⟨by rwa [hdrop.prm, State.setActs_prm], fun hr => ?_⟩
    rcases hdrop.why with hrefused | hbounded
    · exact absurd hr hrefused
    · exact absurd (by rwa [State.setActs_prm]) hbounded
  · rintro s b a rest t new hb ha ⟨hw, hs⟩ rfl hgo
    refine ⟨?_, fun hr => ?_⟩
    · rwa [(perform_keeps a _).prm, State.setActs_prm]
    · rw [hgo.refused, State.setActs_refused] at hr
      obtain ⟨done, hlog, hperm⟩ := hgo.openIds hb ha
      refine List.Perm.trans ?_ (hs hr)
      rw [Controller.knownIds, Controller.knownIds, hlog, List.append_assoc, List.append_assoc, List.append_assoc]
      exact hperm.append_left _

/-- An operation started with known ids, and with a buffer of its own if it carries one, keeps them known. -/
theorem runOp_knownIds {v t : State} {o : OpName} {as : List Act} (ht : t = v.runOp o as)
    (hw : v.prm.syncWait = .unbounded) (hr : t.refused = none) :
    t.c.knownIds.Perm (v.c.log.map Prod.fst ++ as.filterMap Act.pendingId ++ v.c.heldIds) := by
  subst ht
  exact (burst_keeps_knownIds _ _ (s := v.startOp o as) ⟨hw, fun _ => .refl _⟩).2 hr

/-- A QBUF is refused, or it starts an operation that carries its buffer (R151, R152). -/
theorem execQbuf_outcome {s t : State} {id base0 base1 base2 : Word}
    (h : exec (.qbuf id base0 base1 base2) s = .next t) :
    t.refused ≠ none
      ∨ ∃ (v : State) (as : List Act), t = v.runOp .qbuf as ∧ v.prm = s.prm ∧ v.c.log = s.c.log ∧ v.c.heldIds = s.c.heldIds
          ∧ as.filterMap Act.pendingId = [id] := by
  have ht := (controllerStep_next h).2
  split at ht
  · exact .inl (ht ▸ nofun)
  · split at ht
    · exact .inl (ht ▸ nofun)
    · rename_i f _
      dsimp only at ht
      split at ht
      · exact .inl (ht ▸ nofun)
      · split at ht
        · rw [State.recompute_state] at ht
          refine .inr ⟨_, _, ht, rfl, rfl, rfl, ?_⟩
          rw [List.filterMap_append, pendingIds_nil _ (fun a ha => (recompute_parts ha).1)]
          rfl
        · exact .inr ⟨s, _, ht, rfl, rfl, rfl, rfl⟩

theorem Controller.knownIds_of_free {c : Controller} (h : c.busy = none) :
    c.knownIds = c.log.map Prod.fst ++ c.heldIds := by
  rw [Controller.knownIds, Controller.pendingIds_of_free h, List.append_nil]

/-- A controller instruction other than QBUF adds no buffer. -/
theorem entry_keeps_knownIds {i : Instr} {u v t : State} (hfree : u.c.busy = none) (hv : EntryOf i u v)
    (ht : t = v ∨ ∃ o as, t = v.runOp o as ∧ ActsOf i u o as)
    (hq : ∀ id base0 base1 base2, i ≠ .qbuf id base0 base1 base2) (hw : u.prm.syncWait = .unbounded)
    (hr : t.refused = none) : t.c.knownIds.Perm u.c.knownIds := by
  rw [Controller.knownIds_of_free hfree, ← hv.log, ← hv.heldIds]
  obtain rfl | ⟨o, as, ht, has⟩ := ht
  · rw [Controller.knownIds_of_free hv.busy]
  · have hnil : as.filterMap Act.pendingId = [] :=
      has.ids.resolve_right (fun ⟨id, b0, b1, b2, hi, _⟩ => hq id b0 b1 b2 hi)
    simpa [hnil] using runOp_knownIds ht (hv.prm ▸ hw) hr

/-- Settles O16: every action conserves the known ids (`GoesOn.openIds`), and only an admitted QBUF brings one. -/
theorem noBufferIsLostOrDoubled : Obligations.NoBufferIsLostOrDoubled := by
  intro s t hw h hr
  rcases step_kinds h with ⟨i, u, hm, hi, -, -, hc⟩ | ⟨i, u, v, hm, -, hx, hsame, hc, hfree, hv, ht⟩ |
    ⟨u, b, hm, rfl, hc, hsame, -⟩ | ⟨hm, -, rfl | ⟨r, rfl⟩⟩
  · refine ⟨fun id b0 b1 b2 w hq => ?_, fun _ => ?_⟩
    · rw [hq] at hm
      cases hm
      cases hi
    · rw [Controller.knownIds, Controller.knownIds, hc.log, hc.pendingIds, hc.heldIds]
  · have hwu : u.prm.syncWait = .unbounded := hsame.prm ▸ hw
    refine ⟨fun id b0 b1 b2 w hq => ?_, fun hno => ?_⟩
    · rw [hq] at hm
      cases hm
      obtain ⟨v, as, hrun, hprm, hlog, hheld, hids⟩ := (execQbuf_outcome hx).resolve_left (not_not.mpr hr)
      refine (runOp_knownIds hrun (hprm ▸ hwu) hr).trans ?_
      rw [hlog, hheld, hids, hc, Controller.knownIds_of_free hfree, List.append_assoc]
      exact List.perm_middle
    · rw [← hc] at hfree ⊢
      exact entry_keeps_knownIds hfree hv ht (fun id b0 b1 b2 hi => hno id b0 b1 b2 u (hi ▸ hm)) hwu hr
  · refine ⟨fun id b0 b1 b2 w hq => ?_, fun _ => ?_⟩
    · rw [hq] at hm
      cases hm
    · exact (burst_keeps_knownIds _ _ (s := u) ⟨hsame.prm ▸ hw, fun _ => hc ▸ .refl _⟩).2 hr
  · refine ⟨fun id b0 b1 b2 w hq => ?_, fun _ => .refl _⟩
    rw [hq] at hm
    cases hm
  · cases hr

/-! ### ChannelState (R22, R165) -/

/-- How an operation may change ChannelState from x to y: not at all, or as its kind may. -/
def OpName.movesChan (o : OpName) (x y : ChannelState) : Prop :=
  y = x ∨ (y = .running ∧ o = .qbuf) ∨ (y = .idle ∧ o = .streamoff)

/-- An operation o with only actions of its own in progress, ChannelState having been x. -/
def Controller.ownActs (o : OpName) (x : ChannelState) (c : Controller) : Prop :=
  c.actsFit ∧ (∀ b, c.busy = some b → b.op = o) ∧ o.movesChan x c.chan

theorem Controller.actsFit_of_free {c : Controller} (h : c.busy = none) : c.actsFit := by
  intro b hb
  cases h.symm.trans hb

theorem Controller.ownActs.free {o : OpName} {x : ChannelState} {c c' : Controller} (h : c.ownActs o x)
    (hbusy : c'.busy = none) (hchan : c'.chan = c.chan) : c'.ownActs o x :=
  ⟨Controller.actsFit_of_free hbusy, fun _ hb => (nomatch hbusy.symm.trans hb), hchan ▸ h.2.2⟩

/-- Only a QBUF may hold an action that sets ChannelState, only a STREAMOFF its end. -/
theorem OpName.movesChan_of_fits {o : OpName} {x y z : ChannelState} {a : Act} (hy : o.movesChan x y)
    (hfits : a.fits o = true) (hchan : z = y ∨ a = .setChan z ∨ (a = .offEnd ∧ z = .idle)) : o.movesChan x z := by
  rcases hchan with rfl | rfl | ⟨rfl, hz⟩
  · exact hy
  · simp only [Act.fits, Bool.and_eq_true, beq_iff_eq] at hfits
    exact .inr (.inl ⟨hfits.2, hfits.1⟩)
  · exact .inr (.inr ⟨hz, beq_iff_eq.mp hfits⟩)

theorem burst_keeps_ownActs (n : Nat) (g : Bool) {s : State} {o : OpName} {x : ChannelState} (h : s.c.ownActs o x) :
    (burst n g s).c.ownActs o x := by
  refine burst_keeps_of_cases (fun s => s.c.ownActs o x) ?_ ?_ ?_ ?_ n g h
  · intro s b _ _ hs
    exact hs.free rfl rfl
  · intro s hs
    rwa [State.useTurn_c]
  · intro s a rest t hs _ hdrop
    exact hs.free (hdrop.c ▸ rfl) (by rw [hdrop.c]; exact s.setActs_c_chan rest)
  · rintro s b a rest t new hb ha ⟨hfit, hop, hmoves⟩ - hgo
    have hbo : b.op = o := hop b hb
    have hacts : ∀ n ∈ a :: rest, n.fits o = true := hbo ▸ ha ▸ hfit b hb
    obtain ⟨hafits, hrest⟩ := List.forall_mem_cons.mp hacts
    refine ⟨fun b' hb' => ?_, fun b' hb' => ?_, ?_⟩
    · rw [hgo.busy] at hb'
      cases hb'
      change ∀ n ∈ new ++ rest, n.fits b.op = true
      rw [hbo]
      exact List.forall_mem_append.mpr ⟨fun n hn => (hgo.begets n hn).1 o hafits, hrest⟩
    · rw [hgo.busy] at hb'
      cases hb'
      exact hbo
    · refine OpName.movesChan_of_fits hmoves hafits ?_
      have hchan := hgo.chan
      rwa [State.setActs_c_chan] at hchan

/-- Settles O22: an action belongs to its operation, and so do the actions it brings (`State.begets`). -/
theorem onlyQbufAndStreamoffChangeChannelState : Obligations.OnlyQbufAndStreamoffChangeChannelState := by
  intro s t hs h
  rcases step_kinds h with ⟨i, u, -, -, -, -, hc⟩ | ⟨i, u, v, hm, -, -, -, hc, -, hv, ht⟩ | ⟨u, b, -, rfl, hc, -, hb⟩ |
    ⟨-, -, rfl | ⟨r, rfl⟩⟩
  · exact ⟨hc.actsFit hs, fun hne => absurd hc.chan hne⟩
  · have hchan : v.c.chan = s.c.chan := hv.chan.trans (congrArg Controller.chan hc)
    obtain rfl | ⟨o, as, rfl, has⟩ := ht
    · exact ⟨Controller.actsFit_of_free hv.busy, fun hne => absurd hchan hne⟩
    · have hstart : (v.startOp o as).c.ownActs o s.c.chan := by
        refine ⟨fun b hb => ?_, fun b hb => ?_, .inl hchan⟩ <;> cases hb
        · exact has.fits
        · rfl
      obtain ⟨hfit, -, hmoves⟩ := burst_keeps_ownActs burstFuel true hstart
      refine ⟨hfit, fun hne => ?_⟩
      rcases hmoves.resolve_left hne with ⟨hrun, ho⟩ | ⟨hidle, ho⟩
      · obtain ⟨id, b0, b1, b2, rfl⟩ := has.qbuf ho
        exact .inl ⟨hrun, .inl ⟨id, b0, b1, b2, u, hm⟩⟩
      · obtain rfl := has.streamoff ho
        exact .inr ⟨hidle, .inl ⟨u, hm⟩⟩
  · have hown : u.c.ownActs b.op s.c.chan := by
      rw [hc]
      exact ⟨hs, fun b' hb' => by cases hb.symm.trans hb'; rfl, .inl rfl⟩
    obtain ⟨hfit, -, hmoves⟩ := burst_keeps_ownActs burstFuel true hown
    refine ⟨hfit, fun hne => ?_⟩
    rcases hmoves.resolve_left hne with ⟨hrun, ho⟩ | ⟨hidle, ho⟩
    · exact .inl ⟨hrun, .inr ⟨b, hb, ho⟩⟩
    · exact .inr ⟨hidle, .inr ⟨b, hb, ho⟩⟩
  · exact ⟨hs, fun hne => absurd rfl hne⟩
  · exact ⟨Controller.actsFit_of_free rfl, fun hne => absurd rfl hne⟩

/-! ### The engine's invariant (R43, R44, R154, R173, R176) -/

theorem within_or {a b mask : Word} (ha : within a mask = true) (hb : within b mask = true) :
    within (a ||| b) mask = true := by
  rw [within_iff] at *
  intro n hn
  rw [BitVec.getLsbD_or, Bool.or_eq_true] at hn
  exact hn.elim (ha n) (hb n)

theorem within_and {a mask : Word} (ha : within a mask = true) (b : Word) : within (a &&& b) mask = true := by
  rw [within_iff] at *
  intro n hn
  rw [BitVec.getLsbD_and, Bool.and_eq_true] at hn
  exact ha n hn.1

theorem within_zero (mask : Word) : within 0#32 mask = true := by
  rw [within_iff]
  simp

/-- An accepted register write keeps the engine's invariant: CHEN is only ever set, a disable is accepted only of an enabled
channel, and IER takes bits of IMASK alone (R86 to R89). -/
theorem Engine.inv_write {e f : Engine} {r : WReg} {x : Word} (h : e.inv) (hw : e.write r x = .ok f) : f.inv := by
  obtain ⟨himr, hisr, hstop⟩ := h
  rcases Engine.write_ok hw with ⟨-, -, -, rfl⟩ | ⟨-, -, rfl⟩ | ⟨-, hx, rfl⟩ | ⟨-, -, rfl⟩ | ⟨p, -, -, rfl⟩ | ⟨f, -, rfl⟩
  · refine ⟨himr, hisr, fun hchen => hstop ?_⟩
    exact (Bool.or_eq_false_iff.mp hchen).1
  · refine ⟨himr, hisr, fun hchen => ?_⟩
    have hchen : e.chen = false := hchen
    obtain ⟨hdisp, hphase⟩ := hstop hchen
    exact ⟨by simp [hdisp, hchen], hphase⟩
  · exact ⟨within_or himr hx, hisr, hstop⟩
  · exact ⟨within_and himr _, hisr, hstop⟩
  · exact ⟨himr, hisr, hstop⟩
  · exact ⟨himr, hisr, hstop⟩

theorem Engine.inv_afterAction {e e' : Engine} (h : e.inv) (ha : e.afterAction e') : e'.inv := by
  rcases ha with rfl | rfl | ⟨r, x, f, sync, hw, rfl⟩
  · exact h
  · exact ⟨h.1, within_zero _, h.2.2⟩
  · exact (Engine.inv_write h hw : f.inv)

/-- A frame start changes neither IMR nor CHEN, and sets status bits alone (R175, R177). -/
theorem State.startFrame_engine (s : State) :
    s.startFrame.e.imr = s.e.imr ∧ s.startFrame.e.chen = s.e.chen ∧ grows s.e.isr s.startFrame.e.isr := by
  rw [State.startFrame_eq]
  split
  · exact ⟨rfl, rfl, grows_refl _⟩
  · rename_i n _ _
    obtain ⟨_, _, _, _, _, _, _, _, _, _, hload, hgrows⟩ := State.loadPlanes_frame s.e.updpend
      (if s.e.updpend then s.e.head else s.e.next) (planesBelow n)
      (s.setE { s.e with active := if s.e.updpend then s.e.shadow else s.e.active })
    rw [hload]
    exact ⟨rfl, rfl, hgrows⟩

/-- Every engine event keeps the engine's invariant: status bits only come, and a stop ends the frame. -/
theorem Engine.inv_event {i : Instr} {s t : State} (h : s.e.inv) (hi : isEngineEvent i = true)
    (hx : exec i s = .next t) : t.e.inv := by
  obtain ⟨himr, hisr, hstop⟩ := h
  obtain ⟨-, ⟨-, hchen, -, rfl⟩ | ⟨p, a, -, -, -, -, rfl⟩ | ⟨-, -, rfl⟩ | ⟨p, -, rfl⟩ | ⟨-, rfl⟩⟩ :=
    engineEvent_cases hi hx
  · split
    · exact ⟨himr, grows_within (grows_doneEvents s.prm s.e) hisr, fun _ => ⟨rfl, rfl⟩⟩
    · obtain ⟨himr', hchen', hgrows⟩ := s.startFrame_engine
      refine ⟨himr' ▸ himr, grows_within hgrows hisr, fun hoff => ?_⟩
      rw [hchen', hchen] at hoff
      cases hoff
  · exact ⟨himr, hisr, hstop⟩
  · obtain ⟨addr, isr, hend, -, hgrows⟩ := s.e.endFrame_spec s.prm
    rw [hend]
    exact ⟨himr, grows_within hgrows hisr, fun _ => ⟨rfl, rfl⟩⟩
  · exact ⟨himr, within_setEvent hisr _ _ _, hstop⟩
  · exact ⟨himr, hisr, hstop⟩

/-! ### The controller's invariant (R24, R26, R134, R177) -/

theorem perform_keeps_mem_wf {s : State} (h : Memory.wf s.mem = true) (a : Act) :
    Memory.wf (perform a s).mem = true := by
  by_cases hw : ∃ d x, a = .memWrite d x
  · obtain ⟨d, x, rfl⟩ := hw
    exact State.memWrite_wf h d x
  · rwa [perform_mem (fun d x hd => hw ⟨d, x, hd⟩)]

theorem Controller.inv_of_free {prm : Params} {c c' : Controller} (h : c.inv prm) (hbusy : c'.busy = none)
    (hfmt : c'.fmt = c.fmt) (hwin : c'.win = c.win) : c'.inv prm := by
  refine ⟨hfmt ▸ h.1, hwin ▸ h.2.1, fun o ho => ?_⟩
  rw [hbusy] at ho
  cases ho

/-- The invariant with other actions to come, which write only supported tags to MODE. -/
theorem Controller.inv_of_acts {prm : Params} {c c' : Controller} {b : Busy} (h : c.inv prm) (hbusy : c'.busy = some b)
    (hfmt : c'.fmt = c.fmt) (hwin : c'.win = c.win)
    (hmodes : b.op ≠ .micro → ∀ a ∈ b.acts, ∀ x, a.modeWord = some x → formatOf prm x ≠ none) : c'.inv prm := by
  refine ⟨hfmt ▸ h.1, hwin ▸ h.2.1, fun o ho => ?_⟩
  rw [hbusy] at ho
  cases ho
  exact hmodes

theorem burst_keeps_inv (n : Nat) (g : Bool) {s : State} (h : s.inv) : (burst n g s).inv := by
  refine burst_keeps_of_cases State.inv ?_ ?_ ?_ ?_ n g h
  · rintro s b - - ⟨hmem, he, hc⟩
    exact ⟨hmem, he, Controller.inv_of_free hc rfl rfl rfl⟩
  · rintro s ⟨hmem, he, hc⟩
    unfold State.inv
    rw [State.useTurn_mem, State.useTurn_e, State.useTurn_c, State.useTurn_prm]
    exact ⟨hmem, he, hc⟩
  · rintro s a rest t ⟨hmem, he, hc⟩ rfl hdrop
    refine ⟨perform_keeps_mem_wf (by rwa [State.setActs_mem]) a, by rwa [hdrop.e, State.setActs_e], ?_⟩
    rw [hdrop.prm, State.setActs_prm, hdrop.c]
    exact Controller.inv_of_free hc rfl (s.setActs_c_fmt rest) (s.setActs_c_win rest)
  · rintro s b a rest t new hb ha ⟨hmem, he, hc⟩ rfl hgo
    have hkeeps := (s.setActs_keeps rest).trans (perform_keeps a _)
    refine ⟨perform_keeps_mem_wf (by rwa [State.setActs_mem]) a,
      Engine.inv_afterAction (by rwa [State.setActs_e]) hgo.engine, ?_⟩
    rw [hkeeps.prm]
    refine Controller.inv_of_acts hc hgo.busy hkeeps.fmt hkeeps.win (fun hop => ?_)
    have hold : ∀ m ∈ a :: rest, ∀ x, m.modeWord = some x → formatOf s.prm x ≠ none := ha ▸ hc.2.2 b hb hop
    obtain ⟨hmode, hrest⟩ := List.forall_mem_cons.mp hold
    refine List.forall_mem_append.mpr ⟨fun m hm x hx => ?_, hrest⟩
    rcases (hgo.begets m hm).2 x hx with hx | ⟨f, hf, rfl⟩
    · exact hmode x hx
    · exact (hc.1 f (by rwa [State.setActs_c_fmt] at hf)).2.2

/-! ### The instructions a step runs are well formed (R69) -/

theorem wf_of_decode {ws rest : List Word} {i : Instr} (h : decode ws = .ok i rest) : i.wf = true := by
  unfold decode at h
  split at h
  · cases h
  · split at h
    · cases h
    · split at h
      · cases h
      · cases h
        exact (assemble_some ‹_›).2.1

theorem isEngineEvent_of_frameStep {s : State} {i : Instr} (h : s.frameStep = some i) : isEngineEvent i = true := by
  unfold State.frameStep at h
  split at h
  · cases h
  · split at h
    · split at h <;> cases h
      rfl
    · cases h
      rfl

/-- With the lock free, a controller instruction that a step runs comes from a packet, or is IRQ. -/
theorem wf_of_nextMove {s u : State} {i : Instr} (hr : s.ready) (h : nextMove s = .run i u)
    (hi : isEngineEvent i = false) : i.wf = true := by
  rw [nextMove_of_ready hr] at h
  unfold State.freeMove at h
  split at h
  · split at h
    · cases h
      rfl
    · split at h
      · rename_i hframe
        cases h
        cases hi.symm.trans (isEngineEvent_of_frameStep hframe)
      · cases h
  · split at h
    · cases h
      exact wf_of_decode ‹_›
    · cases h

/-- An operation started by a controller instruction writes the tag of the format in force to MODE, which is supported. -/
theorem ActsOf.inv {i : Instr} {u v : State} {o : OpName} {as : List Act} (h : ActsOf i u o as)
    (hu : u.c.inv u.prm) (hv : v.c.inv u.prm) : (v.startOp o as).c.inv u.prm := by
  refine Controller.inv_of_acts hv rfl rfl rfl (fun ho a ha x hx => ?_)
  obtain ⟨f, hf, rfl⟩ := h.modes ho a ha x hx
  exact (hu.1 f hf).2.2

/-- Settles O13: an engine event keeps the engine's part, an instruction its controller fields, an action all three. -/
theorem stepKeepsTheStateInvariant : Obligations.StepKeepsTheStateInvariant := by
  rintro s t ⟨hmem, he, hcinv⟩ h
  rcases step_kinds h with ⟨i, u, -, hi, hx, hsame, hc⟩ | ⟨i, u, v, hm, hi, hx, hsame, hc, hfree, hv, ht⟩ |
    ⟨u, b, -, rfl, hc, hsame, -⟩ | ⟨-, -, rfl | ⟨r, rfl⟩⟩
  · have het : t.e.inv := Engine.inv_event (hsame.e ▸ he) hi hx
    obtain ⟨e, fresh, rfl⟩ := engineEvent_touches hi hx
    exact ⟨hsame.mem ▸ hmem, het, hsame.prm ▸ hc.inv hcinv⟩
  · have hready : s.ready := ⟨hsame.refused ▸ (ready_of_controller hi hx).1, hfree⟩
    have hu : u.c.inv u.prm := by rwa [hc, hsame.prm]
    have hvc : v.c.inv u.prm := hv.inv (wf_of_nextMove hready hm hi) hu
    have hvmem : Memory.wf v.mem = true := by rwa [hv.mem, hsame.mem]
    have hve : v.e.inv := by rwa [hv.e, hsame.e]
    obtain rfl | ⟨o, as, rfl, has⟩ := ht
    · exact ⟨hvmem, hve, hv.prm ▸ hvc⟩
    · exact burst_keeps_inv _ _ (s := v.startOp o as) ⟨hvmem, hve, hv.prm ▸ has.inv hu hvc⟩
  · have hu : u.inv := by
      unfold State.inv
      rw [hsame.mem, hsame.e, hc, hsame.prm]
      exact ⟨hmem, he, hcinv⟩
    exact burst_keeps_inv _ _ hu
  · exact ⟨hmem, he, hcinv⟩
  · exact ⟨hmem, he, Controller.inv_of_free hcinv rfl rfl rfl⟩

end Sys2Proof.Machine

/-! ## Memory: the barrier, and the descriptors a build leaves (20_memory.md R53, R58) -/

namespace Sys2Proof.Machine

/-! ### BARRIER (R58, R170) -/

/-- A barrier that stands alone: one event, whatever the turns. -/
theorem barrierMicro_ok {s : State} (h : s.ready) : execBarrier s = .next s.publish := by
  unfold execBarrier
  rw [controllerStep_ready h]
  congr 1
  unfold State.runOp burstFuel
  rw [burst_granted _ _ _ rfl, perform_barrier, burst_nil]
  exact State.endOp_of_free h.2

/-- Settles O32: BARRIER is one event, and that event is `State.publish`. -/
theorem barrierPublishes : Obligations.BarrierPublishes :=
  ⟨by decide, fun _ hready => barrierMicro_ok hready⟩

/-! ### What an admitted buffer's regions are (R151) -/

theorem anyOverlap_eq_false_iff (rs : List Region) :
    anyOverlap rs = false ↔ rs.Pairwise (fun a b => a.overlaps b = false) := by
  induction rs with
  | nil => simp [anyOverlap]
  | cons r rest ih => simp [anyOverlap, ih]

theorem Region.overlaps_eq_false_iff (a b : Region) : a.overlaps b = false ↔ b.hi ≤ a.lo ∨ a.hi ≤ b.lo := by
  simp only [Region.overlaps, Bool.and_eq_false_iff, decide_eq_false_iff_not, Nat.not_lt]

/-- The planes of an admitted buffer: each base a multiple of 4, each region below 2^32, no two regions overlapping. -/
theorem admission_planes {prm : Params} {c : Controller} {b : Buffer} (h : admissionProblem prm c b = none) :
    (∀ p ∈ b.planes prm, wordAligned (b.base.get p) = true ∧ (b.region prm p).hi ≤ 2 ^ 32)
      ∧ ∀ p ∈ b.planes prm, ∀ q ∈ b.planes prm, p ≠ q → (b.region prm p).overlaps (b.region prm q) = false := by
  unfold admissionProblem at h
  split at h
  · cases h
  · rename_i haligned
    split at h
    · cases h
    · rename_i hwrap
      split at h
      · cases h
      · rename_i hoverlap
        simp only [List.any_eq_true, Bool.not_eq_true', not_exists, not_and, Bool.not_eq_false] at haligned
        simp only [List.any_eq_true, decide_eq_true_eq, not_exists, not_and, not_lt] at hwrap
        refine ⟨fun p hp => ⟨haligned p hp, hwrap p hp⟩, ?_⟩
        rw [Bool.not_eq_true, anyOverlap_eq_false_iff, List.append_assoc, List.pairwise_append, Buffer.regions,
          List.pairwise_map] at hoverlap
        have hsymm : Std.Symm fun p q => (b.region prm p).overlaps (b.region prm q) = false :=
          ⟨fun p q hpq => (Bool.and_comm _ _).trans hpq⟩
        exact fun p hp q hq hne => hoverlap.1.forall hp hq hne

/-! ### Where the trailers of an admitted buffer lie (R111) -/

theorem mem_planes {prm : Params} {b : Buffer} {p : Plane} : p ∈ b.planes prm ↔ p.index < np prm b.fmt.tag :=
  mem_planesBelow _ _

section
variable {prm : Params} {c : Controller} {b : Buffer} (hadm : admissionProblem prm c b = none)
include hadm

/-- No trailer passes the end of the address space. -/
theorem admitted_descAddr_toNat {p : Plane} (hp : p ∈ b.planes prm) :
    (b.descAddr prm p).toNat = (b.base.get p).toNat + align4 (pbytes prm b.fmt p)
      ∧ (b.descAddr prm p).toNat + 12 ≤ 2 ^ 32 := by
  have hhi : (b.base.get p).toNat + align4 (pbytes prm b.fmt p) + 12 ≤ 2 ^ 32 := ((admission_planes hadm).1 p hp).2
  have hd : (b.descAddr prm p).toNat = (b.base.get p).toNat + align4 (pbytes prm b.fmt p) := by
    rw [Buffer.descAddr, BitVec.toNat_add, BitVec.toNat_ofNat, Nat.add_mod_mod, Nat.mod_eq_of_lt (by omega)]
  exact ⟨hd, by omega⟩

theorem admitted_descAddr_aligned {p : Plane} (hp : p ∈ b.planes prm) : wordAligned (b.descAddr prm p) = true := by
  have hbase : (b.base.get p).toNat % 4 = 0 := (wordAligned_iff _).mp ((admission_planes hadm).1 p hp).1
  rw [wordAligned_iff, (admitted_descAddr_toNat hadm hp).1, align4]
  omega

/-- The twelve bytes of a trailer stand at consecutive addresses. -/
theorem admitted_byteKey {p : Plane} (hp : p ∈ b.planes prm) {j : Nat} (hj : j < 12) :
    byteKey (b.descAddr prm p) j = (b.descAddr prm p).toNat + j := by
  have hend := (admitted_descAddr_toNat hadm hp).2
  rw [byteKey, BitVec.toNat_add, BitVec.toNat_ofNat]
  omega

/-- The trailers of two planes share no byte. -/
theorem admitted_trailers_disjoint {p q : Plane} (hp : p ∈ b.planes prm) (hq : q ∈ b.planes prm) (hne : p ≠ q)
    {i j : Nat} (hi : i < 12) (hj : j < 12) : byteKey (b.descAddr prm p) i ≠ byteKey (b.descAddr prm q) j := by
  have hoff := (Region.overlaps_eq_false_iff _ _).mp ((admission_planes hadm).2 p hp q hq hne)
  simp only [Buffer.region] at hoff
  rw [admitted_byteKey hadm hp hi, admitted_byteKey hadm hq hj, (admitted_descAddr_toNat hadm hp).1,
    (admitted_descAddr_toNat hadm hq).1]
  omega

end

/-! ### One descriptor in memory (R53, R113) -/

/-- Memories that agree on the four bytes of a word agree on the word. -/
theorem Memory.readWord_congr {m m' : Memory} {a : Word}
    (h : ∀ j < 4, Memory.read m (byteKey a j) = Memory.read m' (byteKey a j)) :
    Memory.readWord m a = Memory.readWord m' a := by
  unfold Memory.readWord
  rw [h 0 (by decide), h 1 (by decide), h 2 (by decide), h 3 (by decide)]

/-- The first twelve bytes from an address on are twelve bytes. -/
theorem byteKey_ne_of_lt_twelve (a : Word) {i j : Nat} (hi : i < 12) (hj : j < 12) (h : i ≠ j) : byteKey a i ≠ byteKey a j := by
  simp only [byteKey, BitVec.toNat_add, BitVec.toNat_ofNat]
  have := a.isLt
  omega

/-- Building a descriptor changes no byte outside its twelve. -/
theorem read_storeDescriptor_other (prm : Params) (rot : Rotation) (b : Buffer) (m : Memory) (p : Plane) {k : Nat}
    (h : ∀ j < 12, k ≠ byteKey (b.descAddr prm p) j) :
    Memory.read (storeDescriptor prm rot b m p) k = Memory.read m k := by
  have hword : ∀ i, i ≤ 8 → ∀ (m' : Memory) (x : Word),
      Memory.read (Memory.writeWord m' (b.descAddr prm p + BitVec.ofNat 32 i) x) k = Memory.read m' k := by
    intro i hi m' x
    apply Memory.read_writeWord_other <;> rw [byteKey_add] <;> exact h _ (by omega)
  have hfirst := hword 0 (by decide) m (b.addrWord prm rot p)
  rw [BitVec.add_zero] at hfirst
  exact (hword 8 (by decide) _ _).trans ((hword 4 (by decide) _ _).trans hfirst)

theorem wf_storeDescriptor {prm : Params} {rot : Rotation} {b : Buffer} {m : Memory} (h : Memory.wf m = true)
    (p : Plane) : Memory.wf (storeDescriptor prm rot b m p) = true :=
  Memory.wf_writeWord (Memory.wf_writeWord (Memory.wf_writeWord h _ _) _ _) _ _

/-- The three words of plane p's descriptor stand in memory (R113). -/
def Memory.holdsDescriptor (prm : Params) (rot : Rotation) (b : Buffer) (p : Plane) (m : Memory) : Prop :=
  Memory.readWord m (b.descAddr prm p) = b.addrWord prm rot p
    ∧ Memory.readWord m (b.descAddr prm p + 4#32) = ctrlWord p
    ∧ Memory.readWord m (b.descAddr prm p + 8#32) = b.descAddr prm p

theorem storeDescriptor_holds {prm : Params} {rot : Rotation} {b : Buffer} {m : Memory} (h : Memory.wf m = true)
    (p : Plane) : (storeDescriptor prm rot b m p).holdsDescriptor prm rot b p := by
  have hwf1 := Memory.wf_writeWord h (b.descAddr prm p) (b.addrWord prm rot p)
  have hwf2 := Memory.wf_writeWord hwf1 (b.descAddr prm p + 4#32) (ctrlWord p)
  have hoff : ∀ n n', n ≤ 8 → n' ≤ 8 → (n + 4 ≤ n' ∨ n' + 4 ≤ n) → ∀ i j, i < 4 → j < 4 →
      byteKey (b.descAddr prm p + BitVec.ofNat 32 n) i ≠ byteKey (b.descAddr prm p + BitVec.ofNat 32 n') j := by
    intro n n' hn hn' hapart i j hi hj
    rw [byteKey_add, byteKey_add]
    exact byteKey_ne_of_lt_twelve _ (by omega) (by omega) (by omega)
  have h04 := hoff 0 4 (by decide) (by decide) (by decide)
  have h08 := hoff 0 8 (by decide) (by decide) (by decide)
  rw [BitVec.add_zero] at h04 h08
  refine ⟨?_, ?_, Memory.readWord_writeWord_same hwf2 _ _⟩
  · exact (Memory.readWord_writeWord_other _ _ h08).trans
      ((Memory.readWord_writeWord_other _ _ h04).trans (Memory.readWord_writeWord_same h _ _))
  · exact (Memory.readWord_writeWord_other _ _ (hoff 4 8 (by decide) (by decide) (by decide))).trans
      (Memory.readWord_writeWord_same hwf1 _ _)

/-- A descriptor stands in memory as long as no byte of its twelve changes. -/
theorem Memory.holdsDescriptor_congr {prm : Params} {rot : Rotation} {b : Buffer} {p : Plane} {m m' : Memory}
    (h : m.holdsDescriptor prm rot b p)
    (hsame : ∀ j < 12, Memory.read m' (byteKey (b.descAddr prm p) j) = Memory.read m (byteKey (b.descAddr prm p) j)) :
    m'.holdsDescriptor prm rot b p := by
  have hword : ∀ n, n ≤ 8 → Memory.readWord m' (b.descAddr prm p + BitVec.ofNat 32 n)
      = Memory.readWord m (b.descAddr prm p + BitVec.ofNat 32 n) := by
    intro n hn
    refine Memory.readWord_congr fun j hj => ?_
    rw [byteKey_add]
    exact hsame _ (by omega)
  have hfirst := hword 0 (by decide)
  rw [BitVec.add_zero] at hfirst
  exact ⟨hfirst.trans h.1, (hword 4 (by decide)).trans h.2.1, (hword 8 (by decide)).trans h.2.2⟩

/-! ### The descriptors of a buffer in memory (R113) -/

/-- Building descriptors changes no byte outside the trailers. -/
theorem read_storeDescriptors_other (prm : Params) (rot : Rotation) (b : Buffer) (m : Memory) {k : Nat}
    (h : ¬ b.inTrailer prm k) : Memory.read (storeDescriptors prm rot b m) k = Memory.read m k := by
  have hout : ∀ p ∈ b.planes prm, ∀ j < 12, k ≠ byteKey (b.descAddr prm p) j :=
    fun p hp j hj hk => h ⟨p, mem_planes.mp hp, j, hj, hk⟩
  unfold storeDescriptors
  generalize b.planes prm = ps at hout
  induction ps generalizing m with
  | nil => rfl
  | cons p rest ih =>
    obtain ⟨hp, hrest⟩ := List.forall_mem_cons.mp hout
    exact (ih _ hrest).trans (read_storeDescriptor_other prm rot b m p hp)

/-- After the planes of a list are built, one of them stands in memory: no later one stores into its trailer. -/
theorem foldl_storeDescriptor_holds {prm : Params} {rot : Rotation} {b : Buffer} {p : Plane} {ps : List Plane} {m : Memory}
    (hwf : Memory.wf m = true)
    (hdisjoint : ∀ q ∈ ps, p ≠ q → ∀ i < 12, ∀ j < 12, byteKey (b.descAddr prm p) i ≠ byteKey (b.descAddr prm q) j)
    (h : p ∈ ps ∨ m.holdsDescriptor prm rot b p) :
    Memory.holdsDescriptor prm rot b p (ps.foldl (storeDescriptor prm rot b) m) := by
  induction ps generalizing m with
  | nil => exact h.resolve_left List.not_mem_nil
  | cons q rest ih =>
    obtain ⟨hq, hrest⟩ := List.forall_mem_cons.mp hdisjoint
    refine ih (wf_storeDescriptor hwf q) hrest ?_
    by_cases hpq : p = q
    · exact .inr (hpq ▸ storeDescriptor_holds hwf p)
    · refine h.imp (fun hmem => (List.mem_cons.mp hmem).resolve_left hpq) fun hm => ?_
      exact Memory.holdsDescriptor_congr hm fun i hi => read_storeDescriptor_other prm rot b m q (hq hpq i hi)

/-- After a build of an admitted buffer each active plane's descriptor stands in memory. -/
theorem storeDescriptors_holds {prm : Params} {c : Controller} {b : Buffer} (hadm : admissionProblem prm c b = none)
    (rot : Rotation) {m : Memory} (hwf : Memory.wf m = true) {p : Plane} (hp : p ∈ b.planes prm) :
    (storeDescriptors prm rot b m).holdsDescriptor prm rot b p :=
  foldl_storeDescriptor_holds hwf
    (fun _ hq hne _ hi _ hj => admitted_trailers_disjoint hadm hp hq hne hi hj) (.inl hp)

theorem ctrlWord_eq (p : Plane) : ctrlWord p = if p = .y then 0x31#32 else 0x1#32 := by
  cases p <;> rfl

theorem addrWord_of_active {prm : Params} {b : Buffer} {p : Plane} (hp : p.index < np prm b.fmt.tag) (rot : Rotation) :
    b.addrWord prm rot p
      = BitVec.ofInt 32
          ((b.base.get p).toNat
            + (scanParams (planeDim p b.fmt.w) (planeDim p b.fmt.h) (bytesPerPixel prm b.fmt.tag) rot).off) := by
  rw [Buffer.addrWord, planeParams, if_pos hp, u32]

/-- Settles O49: admission keeps the trailers apart and below 2^32, so each stands in memory as its plane's build left it. -/
theorem descriptorsReadBack : Obligations.DescriptorsReadBack := by
  intro prm c rot b m hwf hadm
  refine ⟨fun p hp => ?_, fun k hk => read_storeDescriptors_other prm rot b m ?_⟩
  · have hmem : p ∈ b.planes prm := mem_planes.mpr hp
    obtain ⟨haddr, hctrl, hnext⟩ := storeDescriptors_holds hadm rot hwf hmem
    exact ⟨(admitted_descAddr_toNat hadm hmem).1, (wordAligned_iff _).mp (admitted_descAddr_aligned hadm hmem),
      haddr.trans (addrWord_of_active hp rot), hctrl.trans (ctrlWord_eq p), hnext⟩
  · rintro ⟨p, hp, j, hj, rfl⟩
    refine hk p hp ?_
    rw [admitted_byteKey hadm (mem_planes.mpr hp) hj]
    omega

end Sys2Proof.Machine

/-! ## Memory: where the stores of an operation fall (20_memory.md R62; R111, R113)

`Controller.storesFit` speaks of the buffers of one moment; to say what a whole burst leaves alone, the same is said of a fixed
set of bytes, T, which holds the trailers of every buffer the operation builds. -/

namespace Sys2Proof.Machine

/-- Every byte of the buffer's trailers is in T. -/
def Buffer.trailersIn (prm : Params) (T : Nat → Prop) (b : Buffer) : Prop := ∀ k, b.inTrailer prm k → T k

/-- An action that stores nothing; the buffer it carries, if any, has its trailers in T. -/
def Act.quietIn (prm : Params) (T : Nat → Prop) (a : Act) : Prop :=
  a.isStore = false ∧ ∀ b, a.carries = some b → b.trailersIn prm T

/-- A store into a descriptor of a buffer that the operation may build and whose trailers are in T. -/
def Controller.storesInto (prm : Params) (T : Nat → Prop) (c : Controller) (a : Act) : Prop :=
  ∃ b d x, c.mayBuild b ∧ b.trailersIn prm T ∧ a = .memWrite d x ∧ ∀ j < 4, b.inTrailer prm (byteKey d j)

/-- The stores of the operation in progress fit, and those it makes or may still decide to make fall in T. -/
def Controller.storesIn (prm : Params) (T : Nat → Prop) (c : Controller) : Prop :=
  ∀ o, c.busy = some o → ∃ first rest, o.acts = first ++ rest ∧ (∀ a ∈ rest, a.quietIn prm T)
    ∧ ((∃ ws, first = ws ++ [.recoverChsr] ∧ (∀ a ∈ ws, a.isWrite = true) ∧ ∀ b, c.cur = some b → b.trailersIn prm T)
      ∨ ∀ a ∈ first, c.storesInto prm T a)

section
variable {prm : Params} {T : Nat → Prop} {c : Controller}

theorem Controller.storesIn_of_free (h : c.busy = none) : c.storesIn prm T := by
  intro o ho
  cases h.symm.trans ho

/-- The invariant of the statements is this one without its bytes. -/
theorem Controller.storesIn.storesFit (h : c.storesIn prm T) : c.storesFit prm := by
  intro o ho
  obtain ⟨first, rest, hacts, hrest, hfirst⟩ := h o ho
  refine ⟨first, rest, hacts, fun a ha => (hrest a ha).1, hfirst.imp ?_ ?_⟩
  · rintro ⟨ws, hws, hwrites, -⟩
    exact ⟨ws, hws, hwrites⟩
  · intro hstores a ha
    obtain ⟨b, d, x, hb, -, hax, hd⟩ := hstores a ha
    exact ⟨b, d, x, hb, hax, hd⟩

/-- Stores that fit fall in any T that holds the trailers of the buffers that may be built. -/
theorem Controller.storesIn_of_storesFit (h : c.storesFit prm) (hT : ∀ b, c.mayBuild b → b.trailersIn prm T) :
    c.storesIn prm T := by
  intro o ho
  obtain ⟨first, rest, hacts, hrest, hfirst⟩ := h o ho
  refine ⟨first, rest, hacts, fun a ha => ⟨hrest a ha, fun b hb => hT b (.inr ⟨o, ho, a, ?_, hb⟩)⟩, hfirst.imp ?_ ?_⟩
  · rw [hacts]
    exact List.mem_append_right first ha
  · rintro ⟨ws, hws, hwrites⟩
    exact ⟨ws, hws, hwrites, fun b hb => hT b (.inl hb)⟩
  · intro hstores a ha
    obtain ⟨b, d, x, hb, hax, hd⟩ := hstores a ha
    exact ⟨b, d, x, hb, hT b hb, hax, hd⟩

/-! ### The actions that store nothing -/

theorem Act.quietIn_of_isWrite {a : Act} (h : a.isWrite = true) : a.quietIn prm T := by
  cases a with
  | wr r x => exact ⟨rfl, nofun⟩
  | poll r x n => exact ⟨rfl, nofun⟩
  | wrs r x => exact ⟨rfl, nofun⟩
  | _ => cases h

theorem wrAct_isWrite (prm : Params) (r : WReg) (x : Word) : (wrAct prm r x).isWrite = true := by
  unfold wrAct
  split <;> rfl

theorem wrAct_quietIn (prm' : Params) (r : WReg) (x : Word) : (wrAct prm' r x).quietIn prm T :=
  Act.quietIn_of_isWrite (wrAct_isWrite prm' r x)

theorem cfgWrites_isWrite {prm : Params} {g : Cfg} : ∀ a ∈ cfgWrites prm g, a.isWrite = true :=
  List.forall_mem_map.mpr fun _ _ => wrAct_isWrite _ _ _

theorem writeHeads_quietIn (prm' : Params) (b : Buffer) : ∀ a ∈ writeHeads prm' b, a.quietIn prm T :=
  List.forall_mem_map.mpr fun _ _ => wrAct_quietIn _ _ _

/-- A show stores nothing and carries no buffer (R153). -/
theorem State.showActs_quietIn (s : State) (b : Buffer) (v : Word) : ∀ a ∈ (s.showActs b v).2, a.quietIn prm T := by
  have hshadow : ∀ a ∈ s.writeShadowAll.2, a.quietIn prm T := by
    rcases s.writeShadowAll_spec.2 with hnil | ⟨g, hg⟩
    · rw [hnil]
      exact nofun
    · rw [hg]
      exact fun a ha => Act.quietIn_of_isWrite (cfgWrites_isWrite a ha)
  have hset : ∀ x, (Act.setCfg x).quietIn prm T := fun _ => ⟨rfl, nofun⟩
  have hchan : ∀ x, (Act.setChan x).quietIn prm T := fun _ => ⟨rfl, nofun⟩
  unfold State.showActs
  split
  · simp only [List.forall_mem_append, List.forall_mem_cons]
    exact ⟨⟨hshadow, writeHeads_quietIn _ _⟩, wrAct_quietIn _ _ _, wrAct_quietIn _ _ _, hchan _, hset _, nofun⟩
  · split
    · simp only [List.forall_mem_append, List.forall_mem_cons]
      exact ⟨⟨hshadow, writeHeads_quietIn _ _⟩, wrAct_quietIn _ _ _, hset _, nofun⟩
    · simp only [List.forall_mem_append, List.forall_mem_cons]
      exact ⟨writeHeads_quietIn _ _, wrAct_quietIn _ _ _, hset _, nofun⟩

/-- The end of a STREAMOFF stores nothing (R163). -/
theorem offTail_quietIn (prm' : Params) : ∀ a ∈ offTail prm', a.quietIn prm T := by
  simp only [offTail, List.forall_mem_cons]
  exact ⟨⟨rfl, nofun⟩, wrAct_quietIn _ _ _, ⟨rfl, nofun⟩, ⟨rfl, nofun⟩, ⟨rfl, nofun⟩, nofun⟩

/-! ### What an action brings -/

/-- Operation b goes on with new actions before the rest: stores first, then actions that store nothing. -/
def Controller.brings (prm : Params) (T : Nat → Prop) (b : Busy) (c : Controller) : Prop :=
  ∃ stores tail, c.busy = some { b with acts := stores ++ (tail ++ b.acts) } ∧ (∀ a ∈ stores, c.storesInto prm T a)
    ∧ ∀ a ∈ tail, a.quietIn prm T

theorem Controller.brings_nothing {b : Busy} (h : c.busy = some b) : c.brings prm T b :=
  ⟨[], [], h, nofun, nofun⟩

theorem Controller.brings_quiet {s : State} {b : Busy} {tail : List Act} (h : s.c.busy = some b)
    (htail : ∀ a ∈ tail, a.quietIn prm T) : (s.push tail).c.brings prm T b :=
  ⟨[], tail, s.push_busy b tail h, nofun, htail⟩

/-- A build of a buffer that stands in the current slot, or that an action after it carries. -/
theorem Controller.brings_build {s : State} {b : Busy} {x : Buffer} {rot : Rotation} {tail : List Act}
    (h : s.c.busy = some b) (hx : x.trailersIn prm T) (htail : ∀ a ∈ tail, a.quietIn prm T)
    (hbuilds : s.c.cur = some (x.withDesc prm) ∨ ∃ a ∈ tail, a.carries = some (x.withDesc prm)) :
    (s.push (buildDescriptors prm rot x ++ tail)).c.brings prm T b := by
  have hbusy := s.push_busy b (buildDescriptors prm rot x ++ tail) h
  rw [List.append_assoc] at hbusy
  refine ⟨_, tail, hbusy, fun a ha => ?_, htail⟩
  obtain ⟨d, w, rfl, hd⟩ := buildDescriptors_stores ha
  refine ⟨x.withDesc prm, d, w, ?_, hx, rfl, hd⟩
  rcases hbuilds with hcur | ⟨a, ha, hcarries⟩
  · exact .inl ((s.push_c_cur _).trans hcur)
  · exact .inr ⟨_, hbusy, a, List.mem_append_right _ (List.mem_append_left _ ha), hcarries⟩

theorem State.timeout_busy (s : State) : s.timeout.c.busy = none := by
  unfold State.timeout
  split
  · assumption
  · split <;> rfl

/-- A register write, or its poll, drops the operation, or brings at most a register write of its own (R85, R102). -/
theorem perform_write {s : State} {b : Busy} {a : Act} (hb : s.c.busy = some b) (ha : a.isWrite = true) :
    (perform a s).c.busy = none
      ∨ ∃ new, (perform a s).c = { s.c with busy := some { b with acts := new ++ b.acts } }
          ∧ ∀ n ∈ new, n.isWrite = true := by
  have hsame : s.c = { s.c with busy := some { b with acts := [] ++ b.acts } } := by
    change s.c = { s.c with busy := some b }
    rw [← hb]
  have hwrite : ∀ r x sync, (s.writeEvent r x sync).c.busy = none
      ∨ ∃ new, (s.writeEvent r x sync).c = { s.c with busy := some { b with acts := new ++ b.acts } }
          ∧ ∀ n ∈ new, n.isWrite = true := by
    intro r x sync
    rcases s.writeEvent_cases r x sync with ⟨_, -, h⟩ | ⟨_, -, h⟩ <;> rw [h]
    · exact .inl rfl
    · exact .inr ⟨[], hsame, nofun⟩
  have hpush : ∀ acts, ((s.readEvent .syncsr).push acts).c
      = { s.c with busy := some { b with acts := acts ++ b.acts } } := by
    intro acts
    simp [State.push, hb]
  cases a with
  | wr r x => exact hwrite r x false
  | wrs r x => exact hwrite r x true
  | poll r x n =>
    rcases s.pollEvent_cases r x n with ⟨-, h⟩ | ⟨-, -, h⟩ | ⟨-, -, h⟩ <;> rw [perform, h]
    · exact .inr ⟨[.wrs r x], hpush _, List.forall_mem_singleton.mpr rfl⟩
    · exact .inl (State.timeout_busy _)
    · exact .inr ⟨[.poll r x (n + 1)], hpush _, List.forall_mem_singleton.mpr rfl⟩
  | _ => cases ha

end

section
variable {T : Nat → Prop} {s : State} {b : Busy} (hb : s.c.busy = some b)
include hb

theorem perform_write_brings {a : Act} (ha : a.isWrite = true) :
    (perform a s).c.busy = none ∨ (perform a s).c.brings s.prm T b := by
  refine (perform_write hb ha).imp_right ?_
  rintro ⟨new, hc, hnew⟩
  exact ⟨[], new, by rw [hc]; rfl, nofun, fun n hn => Act.quietIn_of_isWrite (hnew n hn)⟩

/-- The recovery test builds the current buffer's descriptors, or nothing (R141). -/
theorem recoverChsr_brings (hcur : ∀ x, s.c.cur = some x → x.trailersIn s.prm T) : s.recoverChsr.c.brings s.prm T b := by
  have hset : ∀ x, (Act.setCfg x).quietIn s.prm T := fun _ => ⟨rfl, nofun⟩
  have hlatch : ((s.readEvent .chsr).push [.setCfg .goodNeedsLatch]).c.brings s.prm T b :=
    Controller.brings_quiet hb (List.forall_mem_singleton.mpr (hset _))
  unfold State.recoverChsr
  dsimp only
  split
  · exact hlatch
  · rename_i x hx
    split
    · exact hlatch
    · rw [List.append_assoc, List.append_assoc]
      refine Controller.brings_build hb (hcur x hx) ?_ (.inl rfl)
      simp only [List.forall_mem_append, List.forall_mem_cons]
      exact ⟨⟨⟨rfl, nofun⟩, nofun⟩, writeHeads_quietIn _ _, wrAct_quietIn _ _ _, wrAct_quietIn _ _ _, hset _, nofun⟩

/-- QBUF after its lazy Recompute builds its own buffer's descriptors, or nothing (R152, R157). -/
theorem qbufGo_brings {x : Buffer} (hx : x.trailersIn s.prm T) : (s.qbufGo x).c.brings s.prm T b := by
  unfold State.qbufGo
  split
  · exact Controller.brings_quiet (s := s.setC _) hb (List.forall_mem_singleton.mpr ⟨rfl, nofun⟩)
  · have hcarried : ∀ y, (Act.qbufChsr (x.withDesc s.prm)).carries = some y → y.trailersIn s.prm T := by
      rintro y ⟨⟩
      exact hx
    refine Controller.brings_build hb hx ?_ (.inr ⟨_, List.mem_cons_of_mem _ (List.mem_singleton_self _), rfl⟩)
    simp only [List.forall_mem_cons]
    exact ⟨⟨rfl, nofun⟩, ⟨rfl, hcarried⟩, nofun⟩

/-- Show, then Advance, of a buffer with its trailers in T. -/
theorem showThenAdvance_brings {u : State} (hc : u.c = s.c) {x : Buffer} (hx : x.trailersIn s.prm T) (v w : Word) :
    (u.showThenAdvance x v w).c.brings s.prm T b := by
  obtain ⟨n, hn⟩ := u.showActs_state x v
  have hcarried : ∀ i y, (Act.advance x i).carries = some y → y.trailersIn s.prm T := by
    rintro i y ⟨⟩
    exact hx
  rw [State.showThenAdvance_eq]
  refine Controller.brings_quiet (by rw [hn]; exact hc ▸ hb) ?_
  simp only [List.forall_mem_append, List.forall_mem_cons]
  exact ⟨u.showActs_quietIn x v, ⟨rfl, hcarried _⟩, ⟨rfl, nofun⟩, nofun⟩

/-- What any action but a store brings: at most stores into descriptors of the buffer it carries or, for the recovery test,
of the current one. -/
theorem perform_brings {a : Act} (hstore : ∀ d x, a ≠ .memWrite d x)
    (hcarries : ∀ x, a.carries = some x → x.trailersIn s.prm T)
    (hcur : a = .recoverChsr → ∀ x, s.c.cur = some x → x.trailersIn s.prm T) :
    (perform a s).c.busy = none ∨ (perform a s).c.brings s.prm T b := by
  cases a with
  | memWrite d x => exact absurd rfl (hstore d x)
  | wr r x => exact perform_write_brings hb rfl
  | wrs r x => exact perform_write_brings hb rfl
  | poll r x n => exact perform_write_brings hb rfl
  | recoverChsr => exact .inr (recoverChsr_brings hb (hcur rfl))
  | qbufGo x => exact .inr (qbufGo_brings hb (hcarries x rfl))
  | qbufChsr x =>
    right
    simp only [perform, State.qbufChsr]
    split
    · refine Controller.brings_quiet (s := s.readEvent .chsr) hb (List.forall_mem_singleton.mpr ⟨rfl, ?_⟩)
      rintro y ⟨⟩
      exact hcarries x rfl
    · exact showThenAdvance_brings (u := s.readEvent .chsr) hb rfl (hcarries x rfl) _ _
  | qbufAddr x v => exact .inr (showThenAdvance_brings (u := s.readEvent (.addr .y)) hb rfl (hcarries x rfl) _ _)
  | badChsr =>
    right
    simp only [perform, State.badChsr]
    split
    · exact Controller.brings_quiet (s := s.readEvent .chsr) hb
        (List.forall_mem_cons.mpr ⟨wrAct_quietIn _ _ _, List.forall_mem_singleton.mpr ⟨rfl, nofun⟩⟩)
    · exact Controller.brings_quiet (s := s.readEvent .chsr) hb (List.forall_mem_singleton.mpr ⟨rfl, nofun⟩)
  | offChsr =>
    right
    simp only [perform, State.offChsr]
    split
    · refine Controller.brings_quiet (s := s.readEvent .chsr) hb ?_
      simp only [List.forall_mem_cons]
      exact ⟨wrAct_quietIn _ _ _, ⟨rfl, nofun⟩, offTail_quietIn _⟩
    · exact Controller.brings_quiet (s := s.readEvent .chsr) hb (offTail_quietIn _)
  | offPoll =>
    right
    simp only [perform, State.offPoll]
    split
    · exact Controller.brings_quiet (s := s.readEvent .chsr) hb (List.forall_mem_singleton.mpr ⟨rfl, nofun⟩)
    · exact Controller.brings_nothing hb
  | irqChsr =>
    have hpromoted : s.c.promote.busy = some b := s.c.promote_busy.trans hb
    right
    simp only [perform, State.irqChsr]
    split
    · refine Controller.brings_quiet ?_ (List.forall_mem_singleton.mpr (wrAct_quietIn _ _ _))
      rw [Controller.flush_eq]
      exact hpromoted
    · split
      · exact Controller.brings_quiet (s := (s.readEvent .chsr).setC s.c.promote) hpromoted
          (List.forall_mem_singleton.mpr ⟨rfl, nofun⟩)
      · exact Controller.brings_nothing hpromoted
  | irqAddr => exact .inr (Controller.brings_nothing (irqAddr_goesOn hb).busy)
  | advance x inuse => exact .inr (Controller.brings_nothing (advance_goesOn hb x inuse).busy)
  | offFlush =>
    right
    refine Controller.brings_nothing ?_
    rw [perform, Controller.flush_eq]
    exact hb
  | rd r => exact .inr (Controller.brings_nothing hb)
  | barrier => exact .inr (Controller.brings_nothing hb)
  | setCfg x => exact .inr (Controller.brings_nothing hb)
  | setChan x => exact .inr (Controller.brings_nothing hb)
  | offEnd => exact .inr (Controller.brings_nothing hb)
  | finish r => exact .inr (Controller.brings_nothing hb)

end

/-! ### A burst keeps its stores in T -/

section
variable {T : Nat → Prop}

/-- The action an operation takes next, its stores in T: a store, a register write before the recovery test, or one after which
no store is left but those it brings. -/
theorem Controller.storesIn.next {prm : Params} {c : Controller} {b : Busy} {a : Act} {rest : List Act}
    (h : c.storesIn prm T) (hb : c.busy = some b) (ha : b.acts = a :: rest) :
    (∃ d x first last, a = .memWrite d x ∧ (∀ j < 4, T (byteKey d j)) ∧ rest = first ++ last
        ∧ (∀ n ∈ first, c.storesInto prm T n) ∧ ∀ n ∈ last, n.quietIn prm T)
      ∨ (∃ ws last, a.isWrite = true ∧ rest = ws ++ [.recoverChsr] ++ last ∧ (∀ n ∈ ws, n.isWrite = true)
        ∧ (∀ n ∈ last, n.quietIn prm T) ∧ ∀ x, c.cur = some x → x.trailersIn prm T)
      ∨ ((∀ d x, a ≠ .memWrite d x) ∧ (∀ x, a.carries = some x → x.trailersIn prm T)
        ∧ (a = .recoverChsr → ∀ x, c.cur = some x → x.trailersIn prm T) ∧ ∀ n ∈ rest, n.quietIn prm T) := by
  obtain ⟨first, last, hacts, hlast, hfirst⟩ := h b hb
  rw [ha] at hacts
  cases first with
  | nil =>
    rw [List.nil_append] at hacts
    rw [← hacts] at hlast
    obtain ⟨⟨hstore, hcarries⟩, hrest⟩ := List.forall_mem_cons.mp hlast
    refine .inr (.inr ⟨?_, hcarries, ?_, hrest⟩)
    · rintro d x rfl
      cases hstore
    · rintro rfl
      cases hstore
  | cons f first =>
    rw [List.cons_append] at hacts
    obtain ⟨rfl, rfl⟩ := List.cons.inj hacts
    rcases hfirst with ⟨ws, hws, hwrites, hcur⟩ | hstores
    · cases ws with
      | nil =>
        obtain ⟨rfl, rfl⟩ := List.cons.inj hws
        exact .inr (.inr ⟨nofun, nofun, fun _ => hcur, hlast⟩)
      | cons w ws =>
        obtain ⟨rfl, rfl⟩ := List.cons.inj hws
        obtain ⟨hw, hwrites⟩ := List.forall_mem_cons.mp hwrites
        exact .inr (.inl ⟨ws, last, hw, rfl, hwrites, hlast, hcur⟩)
    · obtain ⟨⟨x, d, w, -, hx, rfl, hd⟩, hfirst⟩ := List.forall_mem_cons.mp hstores
      exact .inl ⟨d, w, first, last, rfl, fun j hj => hx _ (hd j hj), rfl, hfirst, hlast⟩

/-- Stores into descriptors stay so when an action that carries no buffer is taken off the operation. -/
theorem State.setActs_storesInto {prm : Params} {s : State} {b : Busy} {a n : Act} {rest : List Act}
    (hb : s.c.busy = some b) (ha : b.acts = a :: rest) (hnone : a.carries = none) (h : s.c.storesInto prm T n) :
    (s.setActs rest).c.storesInto prm T n := by
  obtain ⟨x, d, w, hx, hstore⟩ := h
  refine ⟨x, d, w, ?_, hstore⟩
  rcases hx with hcur | ⟨o, ho, m, hm, hcarries⟩
  · exact .inl ((s.setActs_c_cur rest).trans hcur)
  · cases hb.symm.trans ho
    rw [ha] at hm
    refine .inr ⟨_, s.setActs_busy b rest hb, m, (List.mem_cons.mp hm).resolve_left ?_, hcarries⟩
    rintro rfl
    cases hnone.symm.trans hcarries

theorem Controller.brings.storesIn {prm : Params} {c : Controller} {b : Busy} (h : c.brings prm T b)
    (hrest : ∀ a ∈ b.acts, a.quietIn prm T) : c.storesIn prm T := by
  obtain ⟨stores, tail, hbusy, hstores, htail⟩ := h
  intro o ho
  cases hbusy.symm.trans ho
  exact ⟨stores, tail ++ b.acts, rfl, List.forall_mem_append.mpr ⟨htail, hrest⟩, .inr hstores⟩

theorem perform_keeps_storesIn {s : State} {b : Busy} {a : Act} {rest : List Act} (hb : s.c.busy = some b)
    (ha : b.acts = a :: rest) (h : s.c.storesIn s.prm T) : (perform a (s.setActs rest)).c.storesIn s.prm T := by
  have hbusy := s.setActs_busy b rest hb
  rcases h.next hb ha with ⟨d, x, first, last, rfl, -, rfl, hfirst, hlast⟩ | ⟨ws, last, hw, rfl, hwrites, hlast, hcur⟩ |
    ⟨hstore, hcarries, hcur, hrest⟩
  · intro o ho
    cases hbusy.symm.trans ho
    exact ⟨first, last, rfl, hlast, .inr fun n hn => s.setActs_storesInto hb ha rfl (hfirst n hn)⟩
  · rcases perform_write hbusy hw with hfree | ⟨new, hc, hnew⟩
    · exact Controller.storesIn_of_free hfree
    · intro o ho
      rw [hc] at ho ⊢
      cases ho
      refine ⟨new ++ ws ++ [.recoverChsr], last, by simp only [List.append_assoc], hlast,
        .inl ⟨new ++ ws, rfl, List.forall_mem_append.mpr ⟨hnew, hwrites⟩, fun x hx => hcur x ?_⟩⟩
      rwa [← s.setActs_c_cur]
  · rw [← s.setActs_prm] at hcarries hcur hrest ⊢
    rw [← s.setActs_c_cur] at hcur
    rcases perform_brings hbusy hstore hcarries hcur with hfree | hbrings
    · exact Controller.storesIn_of_free hfree
    · exact hbrings.storesIn hrest

/-- An action of an operation with its stores in T leaves memory as it is, or stores a word in T. -/
theorem perform_mem_cases {s : State} {b : Busy} {a : Act} {rest : List Act} (hb : s.c.busy = some b)
    (ha : b.acts = a :: rest) (h : s.c.storesIn s.prm T) :
    (perform a (s.setActs rest)).mem = s.mem
      ∨ ∃ d x, (perform a (s.setActs rest)).mem = Memory.writeWord s.mem d x ∧ ∀ j < 4, T (byteKey d j) := by
  have hkept : (∀ d x, a ≠ .memWrite d x) → (perform a (s.setActs rest)).mem = s.mem :=
    fun hne => (perform_mem hne _).trans (s.setActs_mem rest)
  rcases h.next hb ha with ⟨d, x, first, last, rfl, hd, -⟩ | ⟨ws, last, hw, -⟩ | ⟨hstore, -⟩
  · refine .inr ⟨d, x, ?_, hd⟩
    rw [perform, State.memWrite_mem, State.setActs_mem]
  · refine .inl (hkept ?_)
    rintro d x rfl
    cases hw
  · exact .inl (hkept hstore)

/-- The stores of the operation in progress are in T, and memory meets R. -/
def State.storesKeep (T : Nat → Prop) (R : Memory → Prop) (s : State) : Prop := s.c.storesIn s.prm T ∧ R s.mem

/-- R survives a word stored in T. -/
def survivesStores (T : Nat → Prop) (R : Memory → Prop) : Prop :=
  ∀ m d x, R m → (∀ j < 4, T (byteKey d j)) → R (Memory.writeWord m d x)

variable {R : Memory → Prop}

theorem burst_storesKeep (hR : survivesStores T R) (n : Nat) (g : Bool) {s : State} (h : s.storesKeep T R) :
    (burst n g s).storesKeep T R := by
  refine burst_ind (State.storesKeep T R) ?_ ?_ ?_ n g s h
  · rintro s b - - ⟨-, hm⟩
    exact ⟨Controller.storesIn_of_free rfl, hm⟩
  · rintro s ⟨hs, hm⟩
    unfold State.storesKeep
    rw [State.useTurn_c, State.useTurn_prm, State.useTurn_mem]
    exact ⟨hs, hm⟩
  · rintro s b a rest hb ha ⟨hs, hm⟩
    have hprm : (perform a (s.setActs rest)).prm = s.prm := (perform_keeps a _).prm.trans (s.setActs_prm rest)
    refine ⟨hprm ▸ perform_keeps_storesIn hb ha hs, ?_⟩
    rcases perform_mem_cases hb ha hs with hsame | ⟨d, x, hwrite, hd⟩
    · rwa [hsame]
    · rw [hwrite]
      exact hR _ _ _ hm hd

/-! ### The stores of a controller instruction -/

theorem State.startOp_storesIn {prm : Params} {v : State} {o : OpName} {acts : List Act}
    (h : ∀ a ∈ acts, a.quietIn prm T) : (v.startOp o acts).c.storesIn prm T := by
  intro b hb
  cases hb
  exact ⟨[], acts, rfl, h, .inr nofun⟩

/-- Recompute stores nothing before its recovery test, and reaches that test by register writes alone (R138 to R141). -/
theorem State.recompute_storesIn (s : State) {prm : Params} {v : State} {o : OpName} {tail : List Act}
    (hcur : ∀ x, v.c.cur = some x → x.trailersIn prm T) (htail : ∀ a ∈ tail, a.quietIn prm T) :
    (v.startOp o (s.recompute.2 ++ tail)).c.storesIn prm T := by
  unfold State.recompute
  dsimp only
  split
  · exact State.startOp_storesIn (List.forall_mem_cons.mpr ⟨⟨rfl, nofun⟩, htail⟩)
  · split
    · intro b hb
      cases hb
      exact ⟨_, tail, rfl, htail, .inl ⟨_, rfl, cfgWrites_isWrite, hcur⟩⟩
    · refine State.startOp_storesIn ?_
      simp only [List.forall_mem_append, List.forall_mem_singleton]
      exact ⟨⟨fun a ha => Act.quietIn_of_isWrite (cfgWrites_isWrite a ha), rfl, nofun⟩, htail⟩

/-- The instructions that may build descriptors. -/
def buildsDescriptors (i : Instr) : Prop :=
  (∃ id base0 base1 base2, i = .qbuf id base0 base1 base2) ∨ ∃ l tp ww wh, i = .swin l tp ww wh

/-- A controller instruction stores only into the trailers of the buffers it may build, and nothing if it builds none. -/
theorem exec_storesKeep (hR : survivesStores T R) {i : Instr} {s t : State} (hi : isEngineEvent i = false)
    (h : exec i s = .next t) (hT : buildsDescriptors i → ∀ b, s.mayBuild i b → b.trailersIn s.prm T) (hm : R s.mem) :
    t.storesKeep T R := by
  have hfree : s.c.busy = none := (ready_of_controller hi h).2
  have hdone : ∀ v : State, v.mem = s.mem → v.c.busy = none → v.storesKeep T R :=
    fun v hv hb => ⟨Controller.storesIn_of_free hb, hv ▸ hm⟩
  have hrun : ∀ (v : State) (o : OpName) (acts : List Act), v.mem = s.mem → (v.startOp o acts).c.storesIn v.prm T →
      (v.runOp o acts).storesKeep T R :=
    fun v o acts hv hs => burst_storesKeep hR _ _ (s := v.startOp o acts) ⟨hs, (hv ▸ hm : R v.mem)⟩
  have hquiet : ∀ (o : OpName) (acts : List Act), (∀ a ∈ acts, a.quietIn s.prm T) → (s.runOp o acts).storesKeep T R :=
    fun o acts hacts => hrun s o acts rfl (State.startOp_storesIn hacts)
  cases controllerKind_of hi with
  | wr r x =>
    rw [exec_ofWr] at h
    obtain rfl := (controllerStep_next h).2
    exact hquiet _ _ (List.forall_mem_singleton.mpr (wrAct_quietIn _ _ _))
  | rd r =>
    rw [exec_ofRd] at h
    obtain rfl := (controllerStep_next h).2
    exact hquiet _ _ (List.forall_mem_singleton.mpr ⟨rfl, nofun⟩)
  | irq =>
    rw [exec, execIrq] at h
    split at h
    · cases h
    · obtain rfl := (controllerStep_next h).2
      exact hquiet _ _ (List.forall_mem_cons.mpr ⟨⟨rfl, nofun⟩, List.forall_mem_singleton.mpr ⟨rfl, nofun⟩⟩)
  | barrier =>
    obtain rfl := (controllerStep_next h).2
    exact hquiet _ _ (List.forall_mem_singleton.mpr ⟨rfl, nofun⟩)
  | sfmt tag w hh =>
    obtain rfl := (controllerStep_next h).2
    split <;> exact hdone _ rfl hfree
  | srot deg =>
    have ht := (controllerStep_next h).2
    split at ht
    · exact ht ▸ hdone _ rfl hfree
    · split at ht <;> exact ht ▸ hdone _ rfl hfree
  | streamon =>
    obtain rfl := (controllerStep_next h).2
    exact hdone _ rfl hfree
  | streamoff =>
    obtain rfl := (controllerStep_next h).2
    split
    · exact hdone _ rfl hfree
    · exact hquiet _ _ (List.forall_mem_singleton.mpr ⟨rfl, nofun⟩)
  | swin l tp ww wh =>
    have hcur : ∀ x, s.c.cur = some x → x.trailersIn s.prm T := fun x hx => hT (.inr ⟨_, _, _, _, rfl⟩) x (.inl hx)
    have ht := (controllerStep_next h).2
    dsimp only at ht
    split at ht
    · exact ht ▸ hdone _ rfl hfree
    · split at ht
      · exact ht ▸ hdone _ rfl hfree
      · rw [State.recompute_state] at ht
        exact ht ▸ hrun _ _ _ rfl (State.recompute_storesIn _ hcur (List.forall_mem_singleton.mpr ⟨rfl, nofun⟩))
  | qbuf id base0 base1 base2 =>
    have hbuild : ∀ x, s.mayBuild (.qbuf id base0 base1 base2) x → x.trailersIn s.prm T := hT (.inl ⟨_, _, _, _, rfl⟩)
    have ht := (controllerStep_next h).2
    split at ht
    · exact ht ▸ hdone _ rfl rfl
    · split at ht
      · exact ht ▸ hdone _ rfl rfl
      · rename_i f hf
        have hgo : ∀ a ∈ [Act.qbufGo (newBuffer s.prm f id base0 base1 base2)], a.quietIn s.prm T := by
          refine List.forall_mem_singleton.mpr ⟨rfl, ?_⟩
          rintro x ⟨⟩
          exact hbuild _ (.inr ⟨_, _, _, _, f, rfl, hf, rfl⟩)
        dsimp only at ht
        split at ht
        · exact ht ▸ hdone _ rfl rfl
        · split at ht
          · rw [State.recompute_state] at ht
            exact ht ▸ hrun _ _ _ rfl (State.recompute_storesIn _ (fun x hx => hbuild x (.inl hx)) hgo)
          · exact ht ▸ hquiet _ _ hgo

end

/-! ### The frame of a step -/

/-- Memory reads as m did at every byte outside T. -/
def Memory.sameOutside (T : Nat → Prop) (m m' : Memory) : Prop := ∀ k, ¬ T k → Memory.read m' k = Memory.read m k

theorem survivesStores_sameOutside (T : Nat → Prop) (m : Memory) : survivesStores T (Memory.sameOutside T m) := by
  intro m' d x hm hd k hk
  have hne : ∀ j < 4, k ≠ byteKey d j := fun j hj hkj => hk (hkj ▸ hd j hj)
  rw [Memory.read_writeWord_other m' d x (hne 0 (by decide)) (hne 1 (by decide)) (hne 2 (by decide)) (hne 3 (by decide))]
  exact hm k hk

theorem Controller.sameUpToMark.storesFit {prm : Params} {c c' : Controller} (h : c.sameUpToMark c')
    (hs : c.storesFit prm) : c'.storesFit prm := by
  rcases h with rfl | ⟨b, hb, rfl⟩
  · exact hs
  · intro o ho
    cases ho
    obtain ⟨first, rest, hacts, hrest, hfirst⟩ := hs b hb
    refine ⟨first, rest, hacts, hrest, hfirst.imp_right fun hstores a ha => ?_⟩
    obtain ⟨x, d, w, hx, hstore⟩ := hstores a ha
    refine ⟨x, d, w, hx.imp_right ?_, hstore⟩
    rintro ⟨o, ho, m, hm, hcarries⟩
    cases hb.symm.trans ho
    exact ⟨_, rfl, m, hm, hcarries⟩

/-- A step stores only into the trailers of the buffers that the operation in progress, or the instruction it runs, may
build; and the stores still to come fit. -/
theorem step_stores {s t : State} {T : Nat → Prop} (hs : s.c.storesFit s.prm) (h : step s = .next t)
    (hT : ∀ b, (s.c.mayBuild b ∨ ∃ i u, nextMove s = .run i u ∧ s.mayBuild i b) → b.trailersIn s.prm T) :
    t.c.storesFit t.prm ∧ s.mem.sameOutside T t.mem := by
  have hsurvives := survivesStores_sameOutside T s.mem
  have hstart : s.mem.sameOutside T s.mem := fun _ _ => rfl
  rcases step_kinds h with ⟨i, u, -, hi, hx, hsame, hc⟩ | ⟨i, u, v, hm, hi, hx, hsame, hc, -⟩ | ⟨u, b, -, rfl, hc, hsame, -⟩ |
    ⟨-, -, rfl | ⟨r, rfl⟩⟩
  · obtain ⟨e, fresh, rfl⟩ := engineEvent_touches hi hx
    exact ⟨hsame.prm ▸ hc.storesFit hs, hsame.mem ▸ hstart⟩
  · have hbuild : ∀ b, u.mayBuild i b → b.trailersIn u.prm T := by
      intro b hb
      unfold State.mayBuild at hb
      rw [hc, hsame.prm] at hb
      rw [hsame.prm]
      exact hT b (.inr ⟨i, u, hm, hb⟩)
    obtain ⟨hstores, hmem⟩ := exec_storesKeep hsurvives hi hx (fun _ => hbuild) (hsame.mem ▸ hstart)
    exact ⟨hstores.storesFit, hmem⟩
  · have hu : u.storesKeep T (s.mem.sameOutside T) := by
      unfold State.storesKeep
      rw [hc, hsame.prm, hsame.mem]
      exact ⟨Controller.storesIn_of_storesFit hs fun b hb => hT b (.inl hb), hstart⟩
    obtain ⟨hstores, hmem⟩ := burst_storesKeep hsurvives burstFuel true hu
    exact ⟨hstores.storesFit, hmem⟩
  · exact ⟨hs, hstart⟩
  · exact ⟨(Controller.storesIn_of_free (T := T) rfl).storesFit, hstart⟩

/-- A controller instruction changes no parameter, and of the engine what R187 lets it change. -/
theorem exec_reaches {i : Instr} {s t : State} (hi : isEngineEvent i = false) (h : exec i s = .next t) :
    t.prm = s.prm ∧ s.e.controllerReaches t.e := by
  obtain ⟨v, hv, rfl | ⟨o, as, rfl, -⟩⟩ := operation_entry hi h
  · exact ⟨hv.prm, hv.e ▸ Engine.controllerReaches_refl _⟩
  · have hkeeps := v.runOp_keeps o as
    exact ⟨hkeeps.prm.trans hv.prm, hv.e ▸ hkeeps.e⟩

/-- Settles O21: the engine's part is `perform_keeps`; memory changes by stores alone, each in T, taken to be the trailers of the
buffers that may be built, or no byte where the instruction builds none. -/
theorem controllerOperationsKeepWhatIsNotTheirs : Obligations.ControllerOperationsKeepWhatIsNotTheirs := by
  refine ⟨fun s t i hi h => ?_, fun s t hs h => ?_⟩
  · obtain ⟨hprm, hactive, haddr, hctrl, hnext, haddr0, hdload, hphase, hfault, hchen, hdisp, hupd, hsip, hisr⟩ :=
      exec_reaches hi h
    refine ⟨hprm, hactive, haddr, hctrl, hnext, haddr0, hdload, hphase, hfault, hchen, hdisp, hupd, hsip, hisr,
      fun hqbuf hswin => ?_, fun k hk => ?_⟩
    · have hnone : ¬ buildsDescriptors i := by
        rintro (⟨id, b0, b1, b2, hq⟩ | ⟨l, tp, ww, wh, hw⟩)
        · exact hqbuf _ _ _ _ hq
        · exact hswin _ _ _ _ hw
      have hno : survivesStores (fun _ => False) (· = s.mem) := fun m d x _ hd => (hd 0 (by decide)).elim
      exact (exec_storesKeep hno hi h (fun hb => absurd hb hnone) rfl).2
    · have hsurvives := survivesStores_sameOutside (fun k => ∃ b, s.mayBuild i b ∧ b.inTrailer s.prm k) s.mem
      refine (exec_storesKeep hsurvives hi h (fun _ b hb k hbk => ⟨b, hb, hbk⟩) fun _ _ => rfl).2 k ?_
      rintro ⟨b, hb, hbk⟩
      exact hk b hb hbk
  · obtain ⟨hfit, hmem⟩ := step_stores
      (T := fun k => ∃ b, (s.c.mayBuild b ∨ ∃ i u, nextMove s = .run i u ∧ s.mayBuild i b) ∧ b.inTrailer s.prm k) hs h
      (fun b hb k hbk => ⟨b, hb, hbk⟩)
    refine ⟨hfit, fun k hk => hmem k ?_⟩
    rintro ⟨b, hb, hbk⟩
    exact hk b hb hbk

end Sys2Proof.Machine

/-! ## The first frame after an enabling show (20_memory.md R58; R113, R153, R175, R218) -/

namespace Sys2Proof.Machine

/-! ### A QBUF that enables the channel (R152, R153) -/

/-- The grant of an operation's first event makes no difference where every event would follow at once. -/
theorem burst_grant_of_forall {s : State} (hs : s.unsplit) (op : OpName) {acts : List Act}
    (h : ∀ a ∈ acts, a.isEvent = true ∧ a.isWait = false) (n : Nat) :
    burst n true (s.startOp op acts) = burst n false (s.startOp op acts) := by
  cases acts with
  | nil => cases n <;> rfl
  | cons a rest =>
    obtain ⟨⟨hevent, hwait⟩, -⟩ := List.forall_mem_cons.mp h
    exact burst_grant hs op rest hevent hwait n

/-- An admitted QBUF with no change pending starts with its buffer alone (R152). -/
theorem exec_qbuf_admitted {s : State} {id base0 base1 base2 : Word} {f : FrameFormat} (hready : s.ready)
    (hstreaming : s.c.streaming = true) (hfmt : s.c.fmt = some f) (hclean : s.c.dirty = false)
    (hadm : admissionProblem s.prm s.c (newBuffer s.prm f id base0 base1 base2) = none) :
    exec (.qbuf id base0 base1 base2) s
      = .next (s.runOp .qbuf [.qbufGo (newBuffer s.prm f id base0 base1 base2)]) := by
  rw [exec, execQbuf, controllerStep_ready hready]
  simp [hstreaming, hfmt, hclean, hadm]

/-- QBUF's build, with the configuration not Bad (R152). -/
theorem perform_qbufGo {s : State} (hcfg : s.c.cfg ≠ .bad) (b : Buffer) (op : OpName) (rest : List Act) :
    perform (.qbufGo b) (s.startOp op rest)
      = s.startOp op (buildDescriptors s.prm s.c.rot b ++ [.barrier, .qbufChsr (b.withDesc s.prm)] ++ rest) := by
  have hstarted : (s.startOp op rest).c.cfg ≠ .bad := hcfg
  rw [perform, State.qbufGo, if_neg hstarted]
  rfl

/-- What a show on a disabled channel issues (R153, R158). -/
def enablingActs (prm : Params) (g : Cfg) (b : Buffer) : List Act :=
  cfgWrites prm g ++ writeHeads prm b
    ++ [wrAct prm .cher 3#32, wrAct prm .ier irqOn, .setChan .running, .setCfg .good, .advance b false, .finish .ok]

/-- With the channel disabled, QBUF's RD(CHSR) leads to the enabling show; no buffer is in use then (R153, R156). -/
theorem perform_qbufChsr_disabled {s : State} {g : Cfg} (hg : s.geometry = some g) (hoff : s.e.chen = false) (b : Buffer)
    (op : OpName) (rest : List Act) :
    perform (.qbufChsr b) (s.startOp op rest)
      = (s.readEvent .chsr).startOp op (enablingActs s.prm g b ++ rest) := by
  have hchsr : chsrEnabled s.e.chsr = false := by rw [chsrEnabled_chsr, hoff]
  have hidle : ∀ cur, inUse s.prm cur s.e.chsr 0#32 = false := by
    intro cur
    cases cur <;> simp [inUse, hchsr]
  have hshadow : ((s.startOp op rest).readEvent .chsr).writeShadowAll
      = ((s.startOp op rest).readEvent .chsr, cfgWrites s.prm g) := State.writeShadowAll_valid hg
  have hacts : ((s.startOp op rest).readEvent .chsr).showActs b s.e.chsr
      = ((s.startOp op rest).readEvent .chsr,
          cfgWrites s.prm g ++ writeHeads s.prm b
            ++ [wrAct s.prm .cher 3#32, wrAct s.prm .ier irqOn, .setChan .running, .setCfg .good]) := by
    rw [State.showActs, if_pos hchsr, hshadow]
    rfl
  have hshow : perform (.qbufChsr b) (s.startOp op rest)
      = ((s.startOp op rest).readEvent .chsr).showThenAdvance b s.e.chsr 0#32 := by
    simp [perform, State.qbufChsr, hchsr]
  rw [hshow, State.showThenAdvance_eq, hacts]
  simp only [State.readEvent_prm, State.readEvent_c, State.startOp_prm, hidle]
  simp [enablingActs, State.push, State.startOp, State.readEvent, State.setE, State.record]

/-- The engine after an enabling show: shadow configuration, HEAD, CHER = 3 and IER (R153). -/
def Engine.enabledFor (prm : Params) (g : Cfg) (b : Buffer) (e : Engine) : Engine :=
  { e with shadow := g, head := headsOf prm b e.head, chen := true, updpend := true, imr := e.imr ||| irqOn }

/-- The controller after an enabling show: Running, Good, the pipeline advanced (R153, R158). -/
def Controller.enabledFor (b : Buffer) (c : Controller) : Controller :=
  { c with cfg := .good, chan := .running, log := c.log ++ slotEntry c.cur .done, cur := c.nxt, nxt := some b }

/-- One action, then a sequence. -/
theorem Runs.cons {op : OpName} {k : Nat} {a : Act} {rest : List Act} {s t u : State} (h : Runs op 1 [a] [] s t)
    (h' : Runs op k rest [] t u) : Runs op (k + 1) (a :: rest) [] s u := by
  rw [Nat.add_comm]
  exact h.seq h'

/-- The end of an enabling show: the enable, the interrupt mask, the two state changes, Advance and the result (R153, R158). -/
theorem Runs.enable {op : OpName} {s : State} (b : Buffer) (hs : s.unsplit) (hr : s.prm.syncRegs = [])
    (hoff : s.e.chen = false) :
    Runs op 6
      [wrAct s.prm .cher 3#32, wrAct s.prm .ier irqOn, .setChan .running, .setCfg .good, .advance b false, .finish .ok] [] s
      { s with
        c := s.c.enabledFor b
        e := { s.e with chen := true, updpend := true, imr := s.e.imr ||| irqOn }
        results := s.results ++ [.ok]
        trace := s.trace ++ [.wr .cher 3#32, .wr .ier irqOn] } := by
  have hend : ∀ u : State, Runs op 4 [.setChan .running, .setCfg .good, .advance b false, .finish .ok] [] u
      { u with c := u.c.enabledFor b, results := u.results ++ [.ok] } := by
    intro u
    have h := Runs.cons (Runs.setChan op .running u)
      (Runs.cons (Runs.setCfg op .good _) (Runs.cons (Runs.advance op b false _) (Runs.finish op .ok _)))
    rw [Controller.advance_eq] at h
    exact h
  have h := Runs.cons (Runs.wr (op := op) hs hr (Engine.write_cher3 hoff))
    (Runs.cons (Runs.wr (s := (s.setE _).record _) hs hr (Engine.write_ierOn _)) (hend _))
  simp only [State.record, State.setE, List.append_assoc, List.cons_append, List.nil_append] at h
  exact h

/-- The whole enabling show, from the RD(CHSR) after the build to the result. -/
theorem Runs.enablingShow {op : OpName} {s : State} {g : Cfg} {b : Buffer} (hplain : s.plain) (hg : s.geometry = some g)
    (hoff : s.e.chen = false) (haligned : ∀ p ∈ b.planes s.prm, wordAligned (b.desc.get p) = true) :
    Runs op (1 + (16 + (b.planes s.prm).length + 6)) [.qbufChsr b] [] s
      { s with
        c := s.c.enabledFor b
        e := s.e.enabledFor s.prm g b
        results := s.results ++ [.ok]
        trace :=
          s.trace ++ [.rd .chsr s.e.chsr] ++ cfgEvents g ++ headEvents s.prm b
            ++ [.wr .cher 3#32, .wr .ier irqOn] } := by
  obtain ⟨hr, hs⟩ := hplain
  have hread : Runs op 1 [.qbufChsr b] (enablingActs s.prm g b) s (s.readEvent .chsr) :=
    Runs.event hs rfl rfl (perform_qbufChsr_disabled hg hoff b op)
  have hshadow := Runs.cfgWrites (op := op) g (s.readEvent .chsr) hs hr
  have hheads := hshadow.seq (Runs.writeHeads b _ hs hr haligned)
  exact hread.trans (hheads.seq (Runs.enable b hs hr hoff))

/-- The machine after a QBUF of buffer b that enabled the channel with configuration g (R152, R153, R158). -/
def State.enabledFor (s : State) (b : Buffer) (g : Cfg) : State :=
  { s with
    c := s.c.enabledFor (b.withDesc s.prm)
    e := s.e.enabledFor s.prm g (b.withDesc s.prm)
    mem := storeDescriptors s.prm s.c.rot b s.mem
    unpub := []
    results := s.results ++ [.ok]
    trace :=
      s.trace ++ buildEvents s.prm s.c.rot b ++ [.barrier] ++ [.rd .chsr s.e.chsr] ++ cfgEvents g
        ++ headEvents s.prm (b.withDesc s.prm) ++ [.wr .cher 3#32, .wr .ier irqOn] }

/-- The build, the barrier and the enabling show, one after another. -/
theorem Runs.buildAndShow {op : OpName} {s : State} {g : Cfg} {b : Buffer} (hplain : s.plain) (hg : s.geometry = some g)
    (hoff : s.e.chen = false) (haligned : ∀ p ∈ b.planes s.prm, wordAligned ((b.withDesc s.prm).desc.get p) = true) :
    Runs op (3 * (b.planes s.prm).length + 1 + (1 + (16 + (b.planes s.prm).length + 6)))
      (buildDescriptors s.prm s.c.rot b ++ [.barrier, .qbufChsr (b.withDesc s.prm)]) [] s (s.enabledFor b g) := by
  have hbuild := Runs.buildBarrier (op := op) s.c.rot b s hplain.2
  have hshow := hbuild.seq (Runs.enablingShow (b := b.withDesc s.prm) hplain hg hoff haligned)
  rw [List.append_assoc (buildDescriptors s.prm s.c.rot b)] at hshow
  exact hshow

/-- An admitted QBUF that finds the channel disabled, its configuration valid and not Bad, and no change pending: descriptors
built and published, then the enabling show (R152, R153, R158). -/
theorem exec_qbuf_enables {s : State} {id base0 base1 base2 : Word} {f : FrameFormat} {g : Cfg} (hready : s.ready)
    (hplain : s.plain) (hstreaming : s.c.streaming = true) (hfmt : s.c.fmt = some f) (hclean : s.c.dirty = false)
    (hcfg : s.c.cfg ≠ .bad) (hg : geometry s.prm f s.c.win s.c.rot = some g)
    (hadm : admissionProblem s.prm s.c (newBuffer s.prm f id base0 base1 base2) = none) (hoff : s.e.chen = false) :
    exec (.qbuf id base0 base1 base2) s = .next (s.enabledFor (newBuffer s.prm f id base0 base1 base2) g) := by
  have hstart := exec_qbuf_admitted hready hstreaming hfmt hclean hadm
  generalize newBuffer s.prm f id base0 base1 base2 = b at hadm hstart
  have hgeometry : s.geometry = some g := by
    rw [State.geometry, hfmt]
    exact hg
  have haligned : ∀ p ∈ b.planes s.prm, wordAligned ((b.withDesc s.prm).desc.get p) = true := by
    intro p hp
    rw [Buffer.withDesc_get hp]
    exact admitted_descAddr_aligned hadm hp
  have hevents : ∀ a ∈ buildDescriptors s.prm s.c.rot b ++ [.barrier, .qbufChsr (b.withDesc s.prm)],
      a.isEvent = true ∧ a.isWait = false := by
    simp only [List.forall_mem_append, List.forall_mem_cons]
    refine ⟨fun a ha => ?_, ⟨rfl, rfl⟩, ⟨rfl, rfl⟩, nofun⟩
    obtain ⟨d, x, rfl, -⟩ := buildDescriptors_stores ha
    exact ⟨rfl, rfl⟩
  have hplanes := b.planes_length s.prm
  have hlocal : burst burstFuel true (s.startOp .qbuf [.qbufGo b])
      = burst 255 true (perform (.qbufGo b) (s.startOp .qbuf [])) := burst_local 255 true s .qbuf rfl []
  rw [hstart, State.runOp, hlocal, perform_qbufGo hcfg, List.append_nil, burst_grant_of_forall hplain.2 .qbuf hevents,
    (Runs.buildAndShow hplain hgeometry hoff haligned).fin (by omega)]
  exact congrArg _ (State.endOp_of_free hready.2)

/-! ### The frame start after it (R175) -/

/-- A supported format has a plane (R73). -/
theorem np_pos {prm : Params} {tag : Word} (h : formatOf prm tag ≠ none) : 0 < np prm tag := by
  obtain ⟨⟨n, bytes⟩, hf⟩ := Option.ne_none_iff_exists'.mp h
  rw [np_of_formatOf hf]
  unfold formatOf at hf
  split at hf
  · cases hf; decide
  · cases hf; decide
  · cases hf; decide
  · obtain ⟨_, _, hn⟩ := Option.map_eq_some_iff.mp hf
    cases hn
    decide

/-- A frame start with an update pending, every descriptor word published and every HEAD a multiple of 4: SHADOW is latched and
each active plane's descriptor is loaded from memory, with the ADD status bit its control word asks for (R175). -/
theorem eFstart_latches {s : State} (hready : s.engineReady) (hchen : s.e.chen = true) (hphase : s.e.phase = .between)
    (hdisp : s.e.dispend = false) (hupd : s.e.updpend = true) (hunpub : s.unpub = [])
    (hfmt : formatOf s.prm s.e.shadow.mode ≠ none)
    (haligned : ∀ p : Plane, p.index < np s.prm s.e.shadow.mode → wordAligned (s.e.head.get p) = true) :
    ∃ u, exec .eFstart s = .next u ∧ u.e.phase = .fetching ∧ u.e.fault = none ∧ u.e.updpend = false
      ∧ u.e.active = s.e.shadow
      ∧ ∀ p : Plane, p.index < np s.prm s.e.shadow.mode →
          u.e.addr0.get p = u.e.addr.get p ∧ u.e.dload.get p = s.e.head.get p
            ∧ u.e.addr.get p = Memory.readWord s.mem (s.e.head.get p)
            ∧ u.e.ctrl.get p = Memory.readWord s.mem (s.e.head.get p + 4#32)
            ∧ u.e.next.get p = Memory.readWord s.mem (s.e.head.get p + 8#32)
            ∧ (ctrlAddien (u.e.ctrl.get p) = true → u.e.isr.getLsbD (4 + 8 * p.index) = true) := by
  obtain ⟨⟨n, bytes⟩, hf⟩ := Option.ne_none_iff_exists'.mp hfmt
  have hnp := np_of_formatOf hf
  have hexec : exec .eFstart s = .next s.startFrame := by
    have henabled : (s.e.chen && s.e.phase == .between) = true := by rw [hchen, hphase]; rfl
    rw [exec, execEFstart, engineStep_ready hready henabled, hdisp]
    rfl
  have hstart : s.startFrame
      = (s.setE { s.e with active := s.e.shadow }).loadPlanes true s.e.head (planesBelow n) := by
    rw [State.startFrame_eq, hupd]
    simp only [if_true, hf]
  obtain ⟨addr, ctrl, next, addr0, dload, isr, fresh, hload, hin, -, hisr⟩ :=
    State.loadPlanes_aligned true s.e.head (planesBelow n) (planesBelow_nodup n) (s.setE { s.e with active := s.e.shadow })
      (fun p hp => haligned p (hnp ▸ (mem_planesBelow n p).mp hp))
  have hpublished : ∀ a, unpublished s.unpub a = false := by
    intro a
    rw [hunpub]
    rfl
  refine ⟨_, hexec.trans (congrArg _ (hstart.trans hload)), rfl, hready.2, rfl, rfl, fun p hp => ?_⟩
  have hmem : p ∈ planesBelow n := (mem_planesBelow n p).mpr (hnp ▸ hp)
  obtain ⟨haddr0, hdload, haddr, hctrl, hnext⟩ := hin p hmem
  exact ⟨haddr0, hdload, haddr (hpublished _), hctrl (hpublished _), hnext (hpublished _),
    fun hadd => (hisr _).mpr (.inr ⟨p, hmem, .inr ⟨rfl, hadd, rfl⟩⟩)⟩

/-- Settles O50: the show publishes the descriptors it points HEAD at, so the frame start reads them back as they were built. -/
theorem firstFrameLoadsTheShownBuffer : Obligations.FirstFrameLoadsTheShownBuffer := by
  intro s t id base0 base1 base2 f g hready hplain hstreaming hfmt hformat hclean hcfg hg hwf hadm hoff hdisp hphase hfault h b
  rw [exec_qbuf_enables hready hplain hstreaming hfmt hclean hcfg hg hadm hoff] at h
  cases h
  have hmode : g.mode = f.tag := geometry_mode hg
  have hactive : ∀ p : Plane, p.index < np s.prm g.mode → p ∈ b.planes s.prm :=
    fun p hp => mem_planes.mpr (show p.index < np s.prm f.tag from hmode ▸ hp)
  have hhead : ∀ p ∈ b.planes s.prm, (s.enabledFor b g).e.head.get p = b.descAddr s.prm p :=
    fun p hp => (Planes.foldl_set_get _ p _ _ hp).trans (Buffer.withDesc_get hp)
  obtain ⟨u, hexec, hfetching, hnofault, hlatched, hconfig, hloaded⟩ := eFstart_latches (s := s.enabledFor b g)
    ⟨hready.1, hfault⟩ rfl hphase hdisp rfl rfl (show formatOf s.prm g.mode ≠ none from hmode ▸ hformat)
    (fun p hp => hhead p (hactive p hp) ▸ admitted_descAddr_aligned hadm (hactive p hp))
  have hplane : ∀ p : Plane, p.index < np s.prm f.tag →
      u.e.addr.get p = b.addrWord s.prm s.c.rot p ∧ u.e.addr0.get p = b.addrWord s.prm s.c.rot p
        ∧ u.e.ctrl.get p = ctrlWord p ∧ u.e.dload.get p = b.descAddr s.prm p ∧ u.e.next.get p = b.descAddr s.prm p
        ∧ (ctrlAddien (u.e.ctrl.get p) = true → u.e.isr.getLsbD (4 + 8 * p.index) = true) := by
    intro p hp
    have hmem : p ∈ b.planes s.prm := mem_planes.mpr hp
    obtain ⟨haddr0, hdload, haddr, hctrl, hnext, hadd⟩ := hloaded p (show p.index < np s.prm g.mode from hmode ▸ hp)
    rw [hhead p hmem] at hdload haddr hctrl hnext
    obtain ⟨haddrw, hctrlw, hnextw⟩ := storeDescriptors_holds hadm s.c.rot hwf hmem
    exact ⟨haddr.trans haddrw, haddr0.trans (haddr.trans haddrw), hctrl.trans hctrlw, hdload, hnext.trans hnextw, hadd⟩
  refine ⟨u, hexec, hfetching, hnofault, hlatched, hconfig, ?_, fun p hp => ?_⟩
  · obtain ⟨-, -, hctrl, -, -, hadd⟩ := hplane .y (np_pos hformat)
    exact hadd (hctrl ▸ rfl)
  · obtain ⟨haddr, haddr0, hctrl, hdload, hnext, -⟩ := hplane p hp
    exact ⟨haddr, haddr0, hctrl.trans (ctrlWord_eq p), hdload, hnext⟩

end Sys2Proof.Machine

/-! ## Decoder and encoder (30_encoding.md R65 to R83): they are inverse to each other, and which words have no packet -/

namespace Sys2Proof

/-! ### The fields of a header name one op, register or plane each (R68, R74) -/

theorem Op.ofCode_eq_some_iff {n : Nat} {o : Op} : Op.ofCode n = some o ↔ n = o.code := by
  constructor
  · intro h
    unfold Op.ofCode at h
    split at h <;> cases h <;> rfl
  · rintro rfl
    cases o <;> rfl

theorem WReg.index_of_ofIndex {n : Nat} {r : WReg} (h : WReg.ofIndex n = some r) : r.index = n := by
  unfold WReg.ofIndex at h
  split at h <;> cases h <;> rfl

/-- An index never names SYNCSR, so the read it names is one of chan 1. -/
theorem RReg.fields_of_ofIndex {n : Nat} {r : RReg} (h : RReg.ofIndex n = some r) : (Head.rd r).fields = (.rd, 1, n) := by
  unfold RReg.ofIndex at h
  split at h <;> cases h <;> rfl

theorem Plane.index_of_ofIndex {n : Nat} {p : Plane} (h : Plane.ofIndex n = some p) : p.index = n := by
  unfold Plane.ofIndex at h
  split at h <;> cases h <;> rfl

/-! ### The header word (R66) -/

theorem Head.word_of_fields {h : Head} {op : Op} {chan reg : Nat} (hf : h.fields = (op, chan, reg)) :
    h.word = BitVec.ofNat 32 (op.code + chan * 256 + reg * 65536) := by
  rw [Head.word, hf]

/-- A word whose bits 15:12 and 31:24 are zero is the sum of its other three fields. -/
theorem header_eq_ofNat_fields {w : Word} (h12 : w.extractLsb' 12 4 = 0#4) (h24 : w.extractLsb' 24 8 = 0#8) :
    w = BitVec.ofNat 32 ((w.extractLsb' 0 8).toNat + (w.extractLsb' 8 4).toNat * 256
      + (w.extractLsb' 16 8).toNat * 65536) := by
  have h12 := congrArg BitVec.toNat h12
  have h24 := congrArg BitVec.toNat h24
  apply BitVec.eq_of_toNat_eq
  simp only [BitVec.extractLsb'_toNat, Nat.shiftRight_eq_div_pow, BitVec.toNat_ofNat] at h12 h24 ⊢
  omega

theorem decodeHeader.plain_eq_some {reg : Nat} {h h' : Head} (hp : decodeHeader.plain reg h = some h') :
    reg = 0 ∧ h = h' := by
  unfold decodeHeader.plain at hp
  split at hp
  · exact ⟨‹_›, Option.some.inj hp⟩
  · cases hp

/-- Step 4 of R83 loses nothing: the header it names has the op, chan and reg it was named by. -/
theorem decodeHeader.fields_of_headOf {op : Op} {chan reg : Nat} {h : Head} (hchan : op.chanOk chan = true)
    (hh : decodeHeader.headOf op chan reg = some h) : h.fields = (op, chan, reg) := by
  cases op with
  | wr =>
    obtain rfl : chan = 1 := eq_of_beq hchan
    obtain ⟨r, hr, rfl⟩ := Option.map_eq_some_iff.mp hh
    rw [Head.fields, WReg.index_of_ofIndex hr]
  | rd =>
    change (if chan = 0xF then decodeHeader.plain reg (.rd .syncsr) else (RReg.ofIndex reg).map .rd) = some h at hh
    split at hh
    case isTrue hglobal =>
      obtain ⟨rfl, rfl⟩ := decodeHeader.plain_eq_some hh
      rw [Head.fields, hglobal]
    case isFalse hglobal =>
      obtain rfl : chan = 1 := by simpa [Op.chanOk, hglobal] using hchan
      obtain ⟨r, hr, rfl⟩ := Option.map_eq_some_iff.mp hh
      exact RReg.fields_of_ofIndex hr
  | eFetch =>
    obtain rfl : chan = 1 := eq_of_beq hchan
    obtain ⟨p, hp, rfl⟩ := Option.map_eq_some_iff.mp hh
    rw [Head.fields, Plane.index_of_ofIndex hp]
  | eOvr =>
    obtain rfl : chan = 1 := eq_of_beq hchan
    obtain ⟨p, hp, rfl⟩ := Option.map_eq_some_iff.mp hh
    rw [Head.fields, Plane.index_of_ofIndex hp]
  | _ =>
    obtain ⟨rfl, rfl⟩ := decodeHeader.plain_eq_some hh
    obtain rfl := eq_of_beq hchan
    rfl

/-! ### The header decoder: which header, and which verdict (R70, R71, R83) -/

/-- The headers of the base layer (R70): the zero bits zero, a listed op, and chan 0. -/
def baseLayerHeader (w : Word) : Prop :=
  w.extractLsb' 12 4 = 0#4 ∧ w.extractLsb' 24 8 = 0#8 ∧ w.extractLsb' 8 4 = 0#4
    ∧ ∃ o : Op, o.code = (w.extractLsb' 0 8).toNat

/-- A word decodes to the head whose header it is, or fails one of the checks of R83; only a header of the base layer has the
verdict BaseLayerUnspecified. -/
theorem decodeHeader_cases (w : Word) :
    (∃ h : Head, decodeHeader w = .ok h ∧ w = h.word ∧ ¬ baseLayerHeader w)
      ∨ (decodeHeader w = .error .baseLayerUnspecified ∧ baseLayerHeader w)
      ∨ (decodeHeader w = .error .invalidEncoding ∧ ¬ baseLayerHeader w) := by
  unfold decodeHeader
  split
  case isTrue hreserved =>
    exact .inr (.inr ⟨rfl, fun ⟨h12, h24, _, _⟩ => hreserved.elim (· h12) (· h24)⟩)
  case isFalse hreserved =>
    obtain ⟨h12, h24⟩ := not_or.mp hreserved
    rw [not_not] at h12 h24
    split
    case h_1 hop =>
      refine .inr (.inr ⟨rfl, fun ⟨_, _, _, o, ho⟩ => ?_⟩)
      cases hop.symm.trans (Op.ofCode_eq_some_iff.mpr ho.symm)
    case h_2 op hop =>
      have hcode := Op.ofCode_eq_some_iff.mp hop
      simp only
      split
      case isTrue hzero =>
        exact .inr (.inl ⟨rfl, h12, h24, BitVec.eq_of_toNat_eq hzero, op, hcode.symm⟩)
      case isFalse hzero =>
        have hbase : ¬ baseLayerHeader w := fun ⟨_, _, hchan, _⟩ => hzero (congrArg BitVec.toNat hchan)
        split
        case isTrue => exact .inr (.inr ⟨rfl, hbase⟩)
        case isFalse hchan =>
          split
          case h_1 => exact .inr (.inr ⟨rfl, hbase⟩)
          case h_2 h hhead =>
            have hfields := decodeHeader.fields_of_headOf (eq_true_of_ne_false hchan) hhead
            refine .inl ⟨h, rfl, ?_, hbase⟩
            rw [Head.word_of_fields hfields, ← hcode]
            exact header_eq_ofNat_fields h12 h24

theorem word_of_decodeHeader {w : Word} {h : Head} (hd : decodeHeader w = .ok h) : w = h.word := by
  rcases decodeHeader_cases w with ⟨h', hok, hw, -⟩ | ⟨hbad, -⟩ | ⟨hbad, -⟩
  · cases hok.symm.trans hd
    exact hw
  · cases hbad.symm.trans hd
  · cases hbad.symm.trans hd

theorem decodeHeader_eq_base_iff {w : Word} : decodeHeader w = .error .baseLayerUnspecified ↔ baseLayerHeader w := by
  rcases decodeHeader_cases w with ⟨h, hok, -, hbase⟩ | ⟨hbad, hbase⟩ | ⟨hbad, hbase⟩
  · exact iff_of_false (fun hb => nomatch hok.symm.trans hb) hbase
  · exact iff_of_true hbad hbase
  · exact iff_of_false (fun hb => nomatch hbad.symm.trans hb) hbase

/-! ### Decode and encode (R65, R83) -/

/-- The operand words of a well-formed instruction assemble to it (R69). -/
theorem assemble_operands {i : Instr} (hi : i.wf = true) (rest : List Word) :
    assemble i.head (i.operands ++ rest) = some (i, rest) := by
  cases i with
  | sfmt tag w h =>
    simp only [Instr.wf, Bool.and_eq_true] at hi
    obtain ⟨hw, hh⟩ := hi
    simp only [Instr.head, Instr.operands, List.cons_append, List.nil_append, assemble, s32_u32 hw, s32_u32 hh]
  | swin l t ww wh =>
    simp only [Instr.wf, Bool.and_eq_true] at hi
    obtain ⟨⟨⟨hl, ht⟩, hww⟩, hwh⟩ := hi
    simp only [Instr.head, Instr.operands, List.cons_append, List.nil_append, assemble, s32_u32 hl, s32_u32 ht,
      s32_u32 hww, s32_u32 hwh]
  | srot deg =>
    simp only [Instr.head, Instr.operands, List.cons_append, List.nil_append, assemble, s32_u32 hi]
  | _ => rfl

/-- Settles O1: the header word decodes to the instruction's head, and the operand words assemble to the instruction. -/
theorem encodedPacketDecodesToItself : Obligations.EncodedPacketDecodesToItself := by
  intro i rest hi
  rw [encode, List.cons_append, decode, decodeHeader_word]
  simp only [assemble_operands hi rest]

/-- Settles O2: the header word is that of the head it decodes to, and the operand words are those assembled. -/
theorem decodedWordsAreThePacket : Obligations.DecodedWordsAreThePacket := by
  intro ws i rest h
  unfold decode at h
  split at h
  · cases h
  · split at h
    · cases h
    · split at h
      case h_1 => cases h
      case h_2 hheader _ _ _ hassemble =>
        cases h
        obtain ⟨rfl, hwf, rfl⟩ := assemble_some hassemble
        obtain rfl := word_of_decodeHeader hheader
        exact ⟨hwf, rfl⟩

theorem decode_eq_ok_iff {ws rest : List Word} {i : Instr} :
    decode ws = .ok i rest ↔ i.wf = true ∧ ws = encode i ++ rest := by
  constructor
  · exact decodedWordsAreThePacket ws i rest
  · rintro ⟨hwf, rfl⟩
    exact encodedPacketDecodesToItself i rest hwf

/-! ### The verdicts (R70, R71) -/

/-- Only the header gives the verdict BaseLayerUnspecified; missing operands are an InvalidEncoding. -/
theorem decode_cons_eq_base_iff {w : Word} {operands : List Word} :
    decode (w :: operands) = .bad .baseLayerUnspecified ↔ decodeHeader w = .error .baseLayerUnspecified := by
  cases hheader : decodeHeader w with
  | error e => simp only [decode, hheader, Decoded.bad.injEq, Except.error.injEq]
  | ok h => cases hassemble : assemble h operands <;> simp [decode, hheader, hassemble]

theorem decode_eq_base_iff {ws : List Word} :
    decode ws = .bad .baseLayerUnspecified ↔ ∃ w operands, ws = w :: operands ∧ baseLayerHeader w := by
  cases ws with
  | nil => exact iff_of_false nofun nofun
  | cons w operands =>
    rw [decode_cons_eq_base_iff, decodeHeader_eq_base_iff]
    constructor
    · exact fun h => ⟨w, operands, rfl, h⟩
    · rintro ⟨_, _, ⟨⟩, h⟩
      exact h

theorem decode_eq_invalid_iff {ws : List Word} :
    decode ws = .bad .invalidEncoding ↔ decode ws ≠ .bad .baseLayerUnspecified ∧ ¬ ∃ i rest, decode ws = .ok i rest := by
  cases decode ws with
  | ok i rest => simp
  | bad e => cases e <;> simp

/-- The operations of R68. -/
def Op.all : List Op :=
  [.sfmt, .swin, .srot, .qbuf, .streamon, .streamoff, .irq, .wr, .rd, .barrier, .eFstart, .eFetch, .eFend, .eOvr, .eSync]

theorem Op.mem_all (o : Op) : o ∈ Op.all := by
  cases o <;> decide

theorem Op.mem_map_code_iff {n : Nat} : n ∈ Op.all.map Op.code ↔ ∃ o : Op, o.code = n := by
  simp [Op.mem_all]

/-- Settles O3: the two verdicts and the packets are the only answers of `decode`, so what is neither of the
base layer nor a packet is an InvalidEncoding. -/
theorem decoderVerdicts : Obligations.DecoderVerdicts := by
  unfold Obligations.DecoderVerdicts
  intro base ws
  have hbase : decode ws = .bad .baseLayerUnspecified ↔ base ws := by
    rw [decode_eq_base_iff]
    simp only [baseLayerHeader, ← Op.mem_map_code_iff]
    rfl
  refine ⟨hbase, ?_⟩
  rw [decode_eq_invalid_iff, ne_eq, hbase]
  simp only [decode_eq_ok_iff]

theorem decode_of_encode_eq {i : Instr} {ws : List Word} (hwf : i.wf = true) (hws : encode i = ws) : decode ws = .ok i [] :=
  decode_eq_ok_iff.mpr ⟨hwf, by rw [hws, List.append_nil]⟩

/-- Settles O4: the words are those the encoder gives, so they decode by `decode_of_encode_eq`. -/
theorem writtenWordsDecode : Obligations.WrittenWordsDecode := by
  refine ⟨decode_of_encode_eq rfl ?_, decode_of_encode_eq rfl ?_, decode_of_encode_eq rfl ?_, decode_of_encode_eq rfl ?_,
    decode_of_encode_eq rfl ?_, decode_of_encode_eq rfl ?_, decode_of_encode_eq rfl ?_, decode_of_encode_eq rfl ?_,
    decode_of_encode_eq rfl ?_, decode_of_encode_eq rfl ?_, decode_of_encode_eq rfl ?_⟩ <;> rfl

end Sys2Proof

/-! ## The refusal mark (60_exceptions.md R194) -/

namespace Sys2Proof.Machine

theorem freeMove_of_decode_bad {s : State} {e : DecodeError} (hstream : s.stream ≠ []) (h : decode s.stream = .bad e) :
    s.freeMove = .settle (s.refuse (DecodeError.reason e)) := by
  unfold State.freeMove
  split
  case h_1 hempty => exact absurd hempty hstream
  case h_2 w ws hwords =>
    rw [← hwords, h]

/-- With the lock free, words that are no packet set the refusal mark and nothing else (R71, R194). -/
theorem step_of_decode_bad {s : State} {e : DecodeError} (hready : s.ready) (hstream : s.stream ≠ [])
    (h : decode s.stream = .bad e) : step s = .next { s with refused := some (DecodeError.reason e) } := by
  have hlock : { s.c with busy := none } = s.c := by rw [← hready.2]
  rw [step, nextMove_of_ready hready, freeMove_of_decode_bad hstream h]
  simp only [State.refuse, hlock]

theorem controllerStep_halted {s : State} {r : RefuseReason} (hr : s.refused = some r) (t : State) :
    controllerStep s t = .refused (.halted r) := by
  rw [controllerStep, hr]

theorem engineStep_halted {s : State} {r : RefuseReason} (hr : s.refused = some r) (enabled : Bool) (t : State) :
    engineStep s enabled t = .refused (.halted r) := by
  rw [engineStep, hr]

/-- No agent has an event after a refusal: each kind of instruction asks for the mark first (R194). -/
theorem exec_halted {s : State} {r : RefuseReason} (hr : s.refused = some r) (i : Instr) :
    exec i s = .refused (.halted r) := by
  cases hi : isEngineEvent i with
  | true =>
    cases engineKind_of hi with
    | fetch p a => rw [exec_ofFetch]; exact engineStep_halted hr _ _
    | ovr p => rw [exec_ofOvr]; exact engineStep_halted hr _ _
    | _ => exact engineStep_halted hr _ _
  | false =>
    cases controllerKind_of hi with
    | wr r x => rw [exec_ofWr]; exact controllerStep_halted hr _
    | rd r => rw [exec_ofRd]; exact controllerStep_halted hr _
    | irq =>
      have hmark : ¬ (s.refused = none ∧ s.c.busy = none ∧ s.e.line = false) := fun h => nomatch hr.symm.trans h.1
      rw [exec, execIrq, if_neg hmark]
      exact controllerStep_halted hr _
    | _ => exact controllerStep_halted hr _

/-- Settles O9: an invalid packet is taken like any other and its move is the refusal; every step and every instruction asks for the mark before
anything else. -/
theorem refusalEndsTheRun : Obligations.RefusalEndsTheRun := by
  refine ⟨fun s hready hstream => ⟨step_of_decode_bad hready hstream, step_of_decode_bad hready hstream⟩,
    fun s r hr => ⟨?_, exec_halted hr⟩⟩
  rw [step, nextMove, hr]

end Sys2Proof.Machine

/-! ## The format table (30_encoding.md R73) -/

namespace Sys2Proof.Machine

/-- A tag from 3 up is what RGB_FORMATS makes it. -/
theorem formatOf_rgb {prm : Params} {tag : Word} (h : 2 < tag.toNat) :
    formatOf prm tag = (prm.rgbFormats.find? (fun f => f.1 == tag.toNat)).map (fun f => (1, f.2)) := by
  unfold formatOf
  split
  case h_1 | h_2 | h_3 => omega
  case h_4 => rfl

theorem formatOf_rgb_eq_none {prm : Params} {tag : Word} (h : 2 < tag.toNat)
    (hlist : ∀ f ∈ prm.rgbFormats, f.1 ≠ tag.toNat) :
    formatOf prm tag = none := by
  have hfind : prm.rgbFormats.find? (fun f => f.1 == tag.toNat) = none :=
    List.find?_eq_none.mpr (fun f hf => by simpa using hlist f hf)
  rw [formatOf_rgb h, hfind, Option.map_none]

theorem pbytes_of_formatOf {prm : Params} {f : FrameFormat} {n b : Nat} (h : formatOf prm f.tag = some (n, b)) (p : Plane) :
    pbytes prm f p = planeDim p f.w * planeDim p f.h * b := by
  rw [pbytes, bytesPerPixel, h]

/-- Settles O33: a plane has `pw * ph * b` bytes, b read off the table; RGB_FORMATS of the example lists no tag above 5. -/
theorem formatTable : Obligations.FormatTable := by
  have hlist : ∀ f ∈ Params.example.rgbFormats, f.1 ≤ 5 := by decide
  refine ⟨rfl, rfl, rfl, rfl, rfl, rfl, fun tag h => ?_, fun w h => ?_⟩
  · exact formatOf_rgb_eq_none (by omega) (fun f hf => by have := hlist f hf; omega)
  · have hyuv : ∀ p, pbytes Params.example { tag := 0#32, w := w, h := h } p = planeDim p w * planeDim p h :=
      fun p => (pbytes_of_formatOf rfl p).trans (Nat.mul_one _)
    exact ⟨hyuv .y, hyuv .u, hyuv .v, pbytes_of_formatOf rfl .y, pbytes_of_formatOf rfl .y, pbytes_of_formatOf rfl .y,
      pbytes_of_formatOf rfl .y, pbytes_of_formatOf rfl .y⟩

end Sys2Proof.Machine

/-! ## Register access (40_register_access.md R85 to R104): a WR or RD that stands alone, and the synchronised writes -/

namespace Sys2Proof

/-! ### The packets of WR and RD (R66, R74) -/

/-- Register indices count from bit 16 of the header up, so the headers of a register group differ by the index alone. -/
theorem Head.word_of_group {h : Head} {op : Op} {base k : Nat} (hf : h.fields = (op, 1, base + k)) :
    h.word = BitVec.ofNat 32 (op.code + 256 + base * 65536) + (BitVec.ofNat 32 k <<< 16) := by
  rw [Head.word_of_fields hf]
  apply BitVec.eq_of_toNat_eq
  simp only [BitVec.toNat_add, BitVec.toNat_shiftLeft, BitVec.toNat_ofNat, Nat.shiftLeft_eq]
  omega

theorem encode_ofWr (r : WReg) (x : Word) : encode (Instr.ofWr r x) = [(Head.wr r).word, x] := by
  obtain ⟨hhead, hoperands, -⟩ := ofWr_parts r x
  rw [encode, hhead, hoperands]

theorem encode_ofRd (r : RReg) : encode (Instr.ofRd r) = [(Head.rd r).word] := by
  obtain ⟨hhead, hoperands, -⟩ := ofRd_parts r
  rw [encode, hhead, hoperands]

theorem encode_ofWr_cfg (f : CfgField) (x : Word) :
    encode (Instr.ofWr (.cfg f) x) = [0x00400110#32 + (BitVec.ofNat 32 f.index <<< 16), x] := by
  rw [encode_ofWr, Head.word_of_group (h := .wr (.cfg f)) (op := .wr) (base := 0x40) rfl]
  rfl

/-- The reads of a register group of chan 1. -/
theorem encode_ofRd_of_group {r : RReg} {base k : Nat} (hf : (Head.rd r).fields = (.rd, 1, base + k)) :
    encode (Instr.ofRd r) = [BitVec.ofNat 32 (0x111 + base * 65536) + (BitVec.ofNat 32 k <<< 16)] := by
  rw [encode_ofRd, Head.word_of_group hf]
  rfl

end Sys2Proof

namespace Sys2Proof.Machine

/-! ### The write rules (R86 to R91) -/

theorem within_eq_true_iff {x mask : Word} : within x mask = true ↔ x &&& ~~~mask = 0#32 := beq_iff_eq

theorem within_eq_false_iff {x mask : Word} : within x mask = false ↔ x &&& ~~~mask ≠ 0#32 := beq_eq_false_iff_ne

theorem Engine.write_cher_reserved {x : Word} (h : within x cherMask = false) (e : Engine) :
    e.write .cher x = .error .reservedBit := if_pos h

theorem Engine.write_cher_disabling {e : Engine} {x : Word} (h : within x cherMask = true)
    (hpending : (x.getLsbD 0 && e.chen && e.dispend) = true) : e.write .cher x = .error .enableWhileDisabling := by
  simp only [Engine.write, Engine.writeCher, h, hpending, Bool.true_eq_false, if_true, if_false]

theorem Engine.write_cher_ok {e : Engine} {x : Word} (h : within x cherMask = true)
    (hpending : (x.getLsbD 0 && e.chen && e.dispend) = false) :
    e.write .cher x = .ok { e with chen := e.chen || x.getLsbD 0, updpend := e.updpend || x.getLsbD 1 } := by
  simp only [Engine.write, Engine.writeCher, h, hpending, Bool.true_eq_false, Bool.false_eq_true, if_false]

theorem Engine.write_chdr_reserved {x : Word} (h : within x chdrMask = false) (e : Engine) :
    e.write .chdr x = .error .reservedBit := if_pos h

theorem Engine.write_chdr_ok {x : Word} (h : within x chdrMask = true) (e : Engine) :
    e.write .chdr x = .ok { e with dispend := e.dispend || (x.getLsbD 0 && e.chen) } := if_neg (by simp [h])

theorem Engine.write_ier_reserved {x : Word} (h : within x imask = false) (e : Engine) :
    e.write .ier x = .error .reservedBit := if_pos h

theorem Engine.write_ier_ok {x : Word} (h : within x imask = true) (e : Engine) :
    e.write .ier x = .ok { e with imr := e.imr ||| x } := if_neg (by simp [h])

theorem Engine.write_idr_reserved {x : Word} (h : within x imask = false) (e : Engine) :
    e.write .idr x = .error .reservedBit := if_pos h

theorem Engine.write_idr_ok {x : Word} (h : within x imask = true) (e : Engine) :
    e.write .idr x = .ok { e with imr := e.imr &&& ~~~x } := if_neg (by simp [h])

theorem Engine.write_head_misaligned {x : Word} (h : wordAligned x = false) (e : Engine) (p : Plane) :
    e.write (.head p) x = .error .misalignedHead := if_pos h

theorem Engine.write_head_ok {x : Word} (h : wordAligned x = true) (e : Engine) (p : Plane) :
    e.write (.head p) x = .ok { e with head := e.head.set p x } := if_neg (by simp [h])

theorem Engine.write_cfg (e : Engine) (f : CfgField) (x : Word) :
    e.write (.cfg f) x = .ok { e with shadow := e.shadow.set f x } := rfl

/-! ### A WR that stands alone, its register not in SYNC_REGS -/

/-- With the lock free there is no lock to release: a refusal sets the mark alone. -/
theorem State.refuse_of_free {s : State} (hfree : s.c.busy = none) (reason : RefuseReason) :
    s.refuse reason = { s with refused := some reason } := by
  have hlock : { s.c with busy := none } = s.c := by rw [← hfree]
  rw [State.refuse, hlock]

/-- The accepted value of a plain WR: the register's write rule, and the write recorded. -/
theorem exec_ofWr_ok {s : State} (hready : s.ready) {r : WReg} (hr : r ∉ s.prm.syncRegs) {x : Word} {e : Engine}
    (he : s.e.write r x = .ok e) :
    exec (Instr.ofWr r x) s = .next { s with e := e, trace := s.trace ++ [.wr r x] } := by
  rw [exec_ofWr]
  exact writeMicro_ok hready hr he

/-- The refused value of a plain WR: the mark alone. -/
theorem exec_ofWr_refused {s : State} (hready : s.ready) {r : WReg} (hr : r ∉ s.prm.syncRegs) {x : Word}
    {reason : RefuseReason} (he : s.e.write r x = .error reason) :
    exec (Instr.ofWr r x) s = .next { s with refused := some reason } := by
  rw [exec_ofWr, writeMicro_refused hready hr he, State.refuse_of_free hready.2]

/-- Settles O23: the three clauses are the three branches of the write rule of CHER. -/
theorem channelEnableWrite : Obligations.ChannelEnableWrite := by
  refine ⟨fun x => encode_ofWr .cher x,
    fun s x hready hr => ⟨fun hx => ?_, fun hx hset hchen hdispend => ?_, fun hx hok => ?_⟩⟩
  · exact exec_ofWr_refused hready hr (Engine.write_cher_reserved (within_eq_false_iff.mpr hx) s.e)
  · have hpending : (x.getLsbD 0 && s.e.chen && s.e.dispend) = true := by rw [hset, hchen, hdispend]; rfl
    exact exec_ofWr_refused hready hr (Engine.write_cher_disabling (within_eq_true_iff.mpr hx) hpending)
  · have hpending : (x.getLsbD 0 && s.e.chen && s.e.dispend) = false :=
      eq_false_of_ne_true (by simpa only [ne_eq, Bool.and_eq_true, and_assoc] using hok)
    exact exec_ofWr_ok hready hr (Engine.write_cher_ok (within_eq_true_iff.mpr hx) hpending)

/-- Settles O24: the two clauses are the two branches of the write rule of CHDR. -/
theorem channelDisableWrite : Obligations.ChannelDisableWrite := by
  refine ⟨fun x => encode_ofWr .chdr x, fun s x hready hr => ⟨fun hx => ?_, fun hx => ?_⟩⟩
  · exact exec_ofWr_refused hready hr (Engine.write_chdr_reserved (within_eq_false_iff.mpr hx) s.e)
  · exact exec_ofWr_ok hready hr (Engine.write_chdr_ok (within_eq_true_iff.mpr hx) s.e)

/-- Settles O25: the clauses are the branches of the write rules of IER and IDR. -/
theorem interruptMaskWrites : Obligations.InterruptMaskWrites := by
  refine ⟨fun x => ⟨encode_ofWr .ier x, encode_ofWr .idr x⟩,
    fun s x hready => ⟨fun hr hx => ?_, fun hr hx => ?_, fun hr hx => ?_, fun hr hx => ?_⟩⟩
  · exact exec_ofWr_refused hready hr (Engine.write_ier_reserved (within_eq_false_iff.mpr hx) s.e)
  · exact exec_ofWr_ok hready hr (Engine.write_ier_ok (within_eq_true_iff.mpr hx) s.e)
  · exact exec_ofWr_refused hready hr (Engine.write_idr_reserved (within_eq_false_iff.mpr hx) s.e)
  · exact exec_ofWr_ok hready hr (Engine.write_idr_ok (within_eq_true_iff.mpr hx) s.e)

/-- Settles O26: a HEAD write asks for a multiple of 4 and a CFG write for nothing. -/
theorem headAndShadowWrites : Obligations.HeadAndShadowWrites := by
  refine ⟨fun x => ⟨encode_ofWr (.head .y) x, encode_ofWr (.head .u) x, encode_ofWr (.head .v) x⟩, encode_ofWr_cfg,
    fun s p x hready hr => ⟨fun hx => ?_, fun hx => ?_⟩, fun s f x hready hr => ?_⟩
  · have hmisaligned : wordAligned x = false := eq_false_of_ne_true (mt (wordAligned_iff x).mp hx)
    exact exec_ofWr_refused hready hr (Engine.write_head_misaligned hmisaligned s.e p)
  · exact exec_ofWr_ok hready hr (Engine.write_head_ok ((wordAligned_iff x).mpr hx) s.e p)
  · exact exec_ofWr_ok hready hr (Engine.write_cfg s.e f x)

/-! ### An RD that stands alone -/

/-- A read of any register but ISR changes nothing (R57). -/
theorem State.readEvent_of_ne_isr {r : RReg} (hr : r ≠ .isr) (s : State) :
    s.readEvent r = s.record (.rd r (s.e.readValue r)) := by
  obtain ⟨hisr, -⟩ | ⟨-, hsame⟩ := s.e.afterRead_cases r
  · exact absurd hisr hr
  · rw [State.readEvent, hsame]
    rfl

theorem exec_ofRd_of_ne_isr {s : State} (hready : s.ready) {r : RReg} (hr : r ≠ .isr) :
    exec (Instr.ofRd r) s = .next { s with trace := s.trace ++ [.rd r (s.e.readValue r)] } := by
  rw [exec_ofRd, readMicro_ok hready, State.readEvent_of_ne_isr hr]
  rfl

/-- R96: the read of ISR returns the status and clears it in the same event. -/
theorem exec_rdIsr {s : State} (hready : s.ready) :
    exec .rdIsr s = .next { s with e := { s.e with isr := 0#32 }, trace := s.trace ++ [.rd .isr s.e.isr] } :=
  readMicro_ok hready .isr

/-- Settles O30: ISR is the one register that its read changes. -/
theorem statusReads : Obligations.StatusReads :=
  ⟨encode_ofRd .imr, encode_ofRd .isr, encode_ofRd .chsr, encode_ofRd .syncsr, fun _ hready =>
    ⟨exec_ofRd_of_ne_isr (r := .imr) hready nofun, exec_rdIsr hready, exec_ofRd_of_ne_isr (r := .chsr) hready nofun,
      exec_ofRd_of_ne_isr (r := .syncsr) hready nofun⟩⟩

/-- Settles O31: none of these registers is ISR, and each group's headers count up with the plane or the field. -/
theorem planeAndShadowReads : Obligations.PlaneAndShadowReads := by
  refine ⟨fun p => ⟨encode_ofRd_of_group (base := 0x10) rfl, encode_ofRd_of_group (base := 0x11) rfl,
      encode_ofRd_of_group (base := 0x12) rfl, encode_ofRd_of_group (base := 0x13) rfl⟩,
    fun f => encode_ofRd_of_group (base := 0x40) rfl, fun s hready => ⟨fun p => ?_, fun f => ?_⟩⟩
  · exact ⟨exec_ofRd_of_ne_isr hready nofun, exec_ofRd_of_ne_isr hready nofun, exec_ofRd_of_ne_isr hready nofun,
      exec_ofRd_of_ne_isr hready nofun⟩
  · exact exec_ofRd_of_ne_isr hready nofun

/-! ### One poll of a synchronised write (R102) -/

theorem SyncWait.expired_eq_true_iff {w : SyncWait} {n : Nat} :
    SyncWait.expired w n = true ↔ ∃ k, w = .bounded k ∧ k ≤ n := by
  cases w <;> simp [SyncWait.expired]

theorem SyncWait.expired_eq_false_iff {w : SyncWait} {n : Nat} :
    SyncWait.expired w n = false ↔ w = .unbounded ∨ ∃ k, w = .bounded k ∧ n < k := by
  cases w <;> simp [SyncWait.expired]

theorem State.readEvent_syncsr (s : State) : s.readEvent .syncsr = s.record (.rd .syncsr (bitWord s.e.sipsts)) :=
  State.readEvent_of_ne_isr (r := .syncsr) nofun s

theorem State.timeout_startOp_host {op : OpName} (h : op.isHost = true) (s : State) (acts : List Act) :
    (s.startOp op acts).timeout = (s.report .hardwareTimeout).endOp :=
  if_pos h

theorem State.timeout_startOp_of_not_host {op : OpName} (h : op.isHost = false) (s : State) (acts : List Act) :
    (s.startOp op acts).timeout = s.endOp :=
  if_neg (by simp [h])

/-- A poll that reads 0: the write follows. -/
theorem perform_poll_clear {s : State} (h : s.e.sipsts = false) (r : WReg) (x : Word) (n : Nat) (op : OpName)
    (acts : List Act) :
    perform (.poll r x n) (s.startOp op acts) = (s.record (.rd .syncsr 0#32)).startOp op (.wrs r x :: acts) := by
  obtain ⟨-, hpoll⟩ | ⟨hset, -⟩ | ⟨hset, -⟩ := (s.startOp op acts).pollEvent_cases r x n
  · rw [perform, hpoll, State.readEvent_syncsr, State.startOp_e, h]
    rfl
  all_goals cases h.symm.trans hset

/-- A poll that reads 1 before the bound: the operation polls again. -/
theorem perform_poll_again {s : State} (h : s.e.sipsts = true) {n : Nat}
    (hwait : SyncWait.expired s.prm.syncWait (n + 1) = false) (r : WReg) (x : Word) (op : OpName) (acts : List Act) :
    perform (.poll r x n) (s.startOp op acts)
      = (s.record (.rd .syncsr 1#32)).startOp op (.poll r x (n + 1) :: acts) := by
  obtain ⟨hclear, -⟩ | ⟨-, hexpired, -⟩ | ⟨-, -, hpoll⟩ := (s.startOp op acts).pollEvent_cases r x n
  · cases h.symm.trans hclear
  · cases hwait.symm.trans hexpired
  · rw [perform, hpoll, State.readEvent_syncsr, State.startOp_e, h]
    rfl

/-- A poll that reads 1 and reaches the bound: the operation times out. -/
theorem perform_poll_expired {s : State} (h : s.e.sipsts = true) {n : Nat}
    (hwait : SyncWait.expired s.prm.syncWait (n + 1) = true) (r : WReg) (x : Word) (op : OpName) (acts : List Act) :
    perform (.poll r x n) (s.startOp op acts) = ((s.record (.rd .syncsr 1#32)).startOp op acts).timeout := by
  obtain ⟨hclear, -⟩ | ⟨-, -, hpoll⟩ | ⟨-, hagain, -⟩ := (s.startOp op acts).pollEvent_cases r x n
  · cases h.symm.trans hclear
  · rw [perform, hpoll, State.readEvent_syncsr, State.startOp_e, h]
    rfl
  · cases hwait.symm.trans hagain

/-- The write after the polls, refused by the register. -/
theorem perform_wrs_refused {s : State} {r : WReg} {x : Word} {reason : RefuseReason}
    (h : s.e.write r x = .error reason) (op : OpName) (acts : List Act) :
    perform (.wrs r x) (s.startOp op acts) = s.refuse reason := by
  simp [perform, State.writeEvent, h]

/-! ### A granted poll, with the rest of its burst (R190)

The poll of an operation that starts and that of an operation that goes on are granted alike. -/

/-- What is left of a burst once its granted event, the poll, is taken. -/
def State.afterPoll (s : State) (op : OpName) (r : WReg) (x : Word) (n : Nat) (acts : List Act) : State :=
  burst 255 false (perform (.poll r x n) (s.startOp op acts))

theorem State.runOp_poll (s : State) (op : OpName) (r : WReg) (x : Word) (n : Nat) (acts : List Act) :
    s.runOp op (.poll r x n :: acts) = s.afterPoll op r x n acts :=
  burst_granted 255 s op rfl acts

theorem State.resume_poll {s : State} {b : Busy} {r : WReg} {x : Word} {n : Nat} {acts : List Act}
    (hb : s.c.busy = some b) (hacts : b.acts = .poll r x n :: acts) : s.resume = s.afterPoll b.op r x n acts := by
  have htaken : s.setActs acts = s.startOp b.op acts := by rw [State.setActs, hb]; rfl
  rw [State.resume, burstFuel, burst, hb]
  simp only [hacts, htaken]
  rfl

theorem State.afterPoll_again {s : State} (h : s.e.sipsts = true) {n : Nat}
    (hwait : SyncWait.expired s.prm.syncWait (n + 1) = false) (op : OpName) (r : WReg) (x : Word) (acts : List Act) :
    s.afterPoll op r x n acts = (s.record (.rd .syncsr 1#32)).startOp op (.poll r x (n + 1) :: acts) := by
  rw [State.afterPoll, perform_poll_again h hwait]
  exact burst_wait 254 _ op rfl rfl acts

theorem State.afterPoll_expired_host {s : State} (h : s.e.sipsts = true) {n : Nat}
    (hwait : SyncWait.expired s.prm.syncWait (n + 1) = true) {op : OpName} (hop : op.isHost = true) (r : WReg) (x : Word)
    (acts : List Act) :
    s.afterPoll op r x n acts = ((s.record (.rd .syncsr 1#32)).report .hardwareTimeout).endOp := by
  rw [State.afterPoll, perform_poll_expired h hwait, State.timeout_startOp_host hop]
  exact burst_free 255 false rfl

theorem State.afterPoll_expired_of_not_host {s : State} (h : s.e.sipsts = true) {n : Nat}
    (hwait : SyncWait.expired s.prm.syncWait (n + 1) = true) {op : OpName} (hop : op.isHost = false) (r : WReg) (x : Word)
    (acts : List Act) : s.afterPoll op r x n acts = (s.record (.rd .syncsr 1#32)).endOp := by
  rw [State.afterPoll, perform_poll_expired h hwait, State.timeout_startOp_of_not_host hop]
  exact burst_free 255 false rfl

/-- The synchronised write of an operation that nothing else follows: the poll, then the write, then the release of the lock. -/
theorem State.afterPoll_write {s : State} (hunsplit : s.unsplit) (h : s.e.sipsts = false) {r : WReg} {x : Word} {e : Engine}
    (he : s.e.write r x = .ok e) (op : OpName) (n : Nat) :
    s.afterPoll op r x n []
      = (((s.record (.rd .syncsr 0#32)).setE { e with sipsts := true }).record (.wr r x)).endOp := by
  have hpolled : (s.record (.rd .syncsr 0#32)).unsplit := hunsplit
  have hwrite : (s.record (.rd .syncsr 0#32)).e.write r x = .ok e := he
  rw [State.afterPoll, perform_poll_clear h, burst_event 254 hpolled op rfl rfl, perform_wrs hwrite]
  exact burst_nil 253 false _ op

theorem State.afterPoll_refused {s : State} (hunsplit : s.unsplit) (h : s.e.sipsts = false) {r : WReg} {x : Word}
    {reason : RefuseReason} (he : s.e.write r x = .error reason) (op : OpName) (n : Nat) (acts : List Act) :
    s.afterPoll op r x n acts = (s.record (.rd .syncsr 0#32)).refuse reason := by
  have hpolled : (s.record (.rd .syncsr 0#32)).unsplit := hunsplit
  have hwrite : (s.record (.rd .syncsr 0#32)).e.write r x = .error reason := he
  rw [State.afterPoll, perform_poll_clear h, burst_event 254 hpolled op rfl rfl, perform_wrs_refused hwrite]
  exact burst_free 254 false rfl

/-! ### A WR that stands alone, its register in SYNC_REGS (R85, R102) -/

theorem exec_ofWr_sync {s : State} (hready : s.ready) {r : WReg} (hr : r ∈ s.prm.syncRegs) (x : Word) :
    exec (Instr.ofWr r x) s = .next (s.afterPoll .micro r x 0 []) := by
  rw [exec_ofWr, writeMicro, controllerStep_ready hready, wrAct, if_pos hr, State.runOp_poll]

/-- Settles O27: the first poll is granted; what follows it is `State.afterPoll`, by SIPSTS, the write rule and SYNC_WAIT. -/
theorem synchronisedWrite : Obligations.SynchronisedWrite := by
  intro s r x hready hunsplit hr
  rw [exec_ofWr_sync hready hr]
  refine ⟨fun e hclear he => ?_, fun reason hclear he => ?_, fun hset hwait => ?_, fun hset hwait => ?_⟩
  · have hfree : (((s.record (.rd .syncsr 0#32)).setE { e with sipsts := true }).record (.wr r x)).c.busy = none := hready.2
    rw [State.afterPoll_write hunsplit hclear he, State.endOp_of_free hfree]
    simp only [State.record, State.setE, List.append_assoc, List.cons_append, List.nil_append]
  · have hfree : (s.record (.rd .syncsr 0#32)).c.busy = none := hready.2
    rw [State.afterPoll_refused hunsplit hclear he, State.refuse_of_free hfree]
    rfl
  · rw [State.afterPoll_again hset (SyncWait.expired_eq_false_iff.mpr hwait)]
    rfl
  · have hfree : (s.record (.rd .syncsr 1#32)).c.busy = none := hready.2
    rw [State.afterPoll_expired_of_not_host hset (SyncWait.expired_eq_true_iff.mpr hwait) rfl, State.endOp_of_free hfree]
    rfl

/-! ### The polls of an operation in progress (R102, R192, R203) -/

/-- Once the engine has had its turn at a wait point and no turn is left, the operation goes on (log 3). -/
theorem step_of_yielded {s : State} {b : Busy} (hrefused : s.refused = none) (hb : s.c.busy = some b)
    (hyielded : b.yielded = true) (hturns : s.turns = []) : step s = .next s.resume := by
  have hmove : nextMove s = .goOn s := by
    simp only [nextMove, hrefused, hb, State.busyMove, hturns, hyielded, Bool.not_true, Bool.and_false, Bool.false_eq_true,
      if_false]
  rw [step, hmove]

/-- Settles O28: the step is the controller's poll, and `State.afterPoll` says what it leaves. -/
theorem synchronisationPolls : Obligations.SynchronisationPolls := by
  intro s op r x n acts hrefused hb hturns hset
  rw [step_of_yielded hrefused hb rfl hturns, State.resume_poll hb rfl]
  refine ⟨fun hwait => ?_, fun hwait hop => ?_, fun hwait hop => ?_⟩
  · rw [State.afterPoll_again hset (SyncWait.expired_eq_false_iff.mpr hwait)]
    rfl
  · rw [State.afterPoll_expired_host hset (SyncWait.expired_eq_true_iff.mpr hwait) hop]
    rfl
  · rw [State.afterPoll_expired_of_not_host hset (SyncWait.expired_eq_true_iff.mpr hwait) hop]
    rfl

end Sys2Proof.Machine

/-! ## Scan parameters and the engine's walk (41_descriptor_builder.md R117 to R122; 45_engine.md R178): on the integers the
walk makes `P(S_r(i, j))`, the reduction mod 2^32 keeps it, and `S_r` reaches every pixel of the plane -/

namespace Sys2Proof

theorem u32_add (x y : Int) : u32 (x + y) = u32 x + u32 y := BitVec.ofInt_add x y

theorem u32_mul (x y : Int) : u32 (x * y) = u32 x * u32 y := BitVec.ofInt_mul x y

@[simp] theorem u32_toNat (w : Word) : u32 w.toNat = w := by
  rw [u32, BitVec.ofInt_natCast, BitVec.ofNat_toNat, BitVec.setWidth_eq]

/-- A number below 2^32 is the value of its word, and of no other. -/
theorem u32_natCast_eq_iff {n : Nat} (h : n < 2 ^ 32) (a : Word) : u32 n = a ↔ a.toNat = n := by
  have hvalue : (u32 n).toNat = n := by rw [u32, BitVec.ofInt_natCast, BitVec.toNat_ofNat, Nat.mod_eq_of_lt h]
  rw [← BitVec.toNat_inj, hvalue, eq_comm]

end Sys2Proof

namespace Sys2Proof.Machine

/-! ### The scan on the integers (R117, R118, R121) -/

/-- Settles O34: for each rotation, the differences of scan offsets that `params` takes, multiplied out. -/
theorem strideClosedForms : Obligations.StrideClosedForms := by
  intro w h b
  simp only [scanParams, scanOffset, scanSource, scanSize, pixelOffset, ScanParams.mk.injEq]
  refine ⟨⟨?_, ?_, ?_⟩, ⟨?_, ?_, ?_⟩, ⟨?_, ?_, ?_⟩, ⟨?_, ?_, ?_⟩⟩ <;> ring

/-- A step along an output line, and a step to the next line, move the source pixel's offset by a constant. -/
theorem scanOffset_affine (w h b : Int) (r : Rotation) (i j : Int) :
    scanOffset w h b r i j
      = scanOffset w h b r 0 0 + i * (scanOffset w h b r 1 0 - scanOffset w h b r 0 0)
        + j * (scanOffset w h b r 0 1 - scanOffset w h b r 0 0) := by
  cases r <;> simp only [scanOffset, scanSource, pixelOffset] <;> ring

/-- R122 before the reduction mod 2^32: the walk that starts at `off` and steps by the strides makes `P(S_r(i, j))`. -/
theorem scanParams_walk (w h b : Int) (r : Rotation) (i j : Int) :
    (scanParams w h b r).off + i * (b + (scanParams w h b r).ps)
        + j * (((scanSize w h r).1 - 1) * (b + (scanParams w h b r).ps) + b + (scanParams w h b r).xs)
      = scanOffset w h b r i j := by
  have hlast := scanOffset_affine w h b r ((scanSize w h r).1 - 1) 0
  rw [scanOffset_affine w h b r i j]
  simp only [scanParams]
  linear_combination -j * hlast

/-! ### The pixels of a plane, and the scan through them (R118) -/

/-- A point (column, row) of the rectangle of a size (columns, rows). -/
def inGrid (size q : Int × Int) : Prop := 0 ≤ q.1 ∧ q.1 < size.1 ∧ 0 ≤ q.2 ∧ q.2 < size.2

theorem inGrid_natCast_iff (w h : Nat) (q : Int × Int) :
    inGrid (w, h) q ↔ ∃ x y : Nat, x < w ∧ y < h ∧ ((x : Int), (y : Int)) = q := by
  obtain ⟨x, y⟩ := q
  simp only [inGrid, Prod.mk.injEq]
  constructor
  · rintro ⟨hx0, hx, hy0, hy⟩
    exact ⟨x.toNat, y.toNat, by omega, by omega, by omega, by omega⟩
  · rintro ⟨m, n, hm, hn, rfl, rfl⟩
    omega

/-- The output pixel that `S_r` takes to a source pixel. -/
def scanTarget (w h : Int) (r : Rotation) (q : Int × Int) : Int × Int :=
  match r with
  | .r0 => q
  | .r90 => (h - 1 - q.2, q.1)
  | .r180 => (w - 1 - q.1, h - 1 - q.2)
  | .r270 => (q.2, w - 1 - q.1)

theorem scanSource_scanTarget (w h : Int) (r : Rotation) (q : Int × Int) :
    scanSource w h r (scanTarget w h r q).1 (scanTarget w h r q).2 = q := by
  cases r <;> simp [scanSource, scanTarget]

theorem scanSource_inGrid {w h : Int} {r : Rotation} {i j : Int} (hij : inGrid (scanSize w h r) (i, j)) :
    inGrid (w, h) (scanSource w h r i j) := by
  cases r <;> simp only [inGrid, scanSize, scanSource] at hij ⊢ <;> omega

theorem scanTarget_inGrid {w h : Int} {q : Int × Int} (hq : inGrid (w, h) q) (r : Rotation) :
    inGrid (scanSize w h r) (scanTarget w h r q) := by
  cases r <;> simp only [inGrid, scanSize, scanTarget] at hq ⊢ <;> omega

/-- The scan goes through all pixels of the plane, and through nothing else. -/
theorem exists_scanSource_iff (w h : Int) (r : Rotation) (P : Int × Int → Prop) :
    (∃ i j, inGrid (scanSize w h r) (i, j) ∧ P (scanSource w h r i j)) ↔ ∃ q, inGrid (w, h) q ∧ P q := by
  constructor
  · rintro ⟨i, j, hij, hP⟩
    exact ⟨_, scanSource_inGrid hij, hP⟩
  · rintro ⟨q, hq, hP⟩
    exact ⟨_, _, scanTarget_inGrid hq r, (scanSource_scanTarget w h r q).symm ▸ hP⟩

/-! ### A valid geometry (R78, R119, R120, R134) -/

theorem geometry_eq_channelConfig {prm : Params} {f : FrameFormat} {w : Window} {r : Rotation} {g : Cfg}
    (h : geometry prm f w r = some g) : g = channelConfig prm f r (windowWords prm f w r) := by
  unfold geometry at h
  split at h
  · exact (Option.some.inj h).symm
  · cases h

/-- The memory window is the output size of the whole frame (R119). -/
theorem rotatedSize_eq_scanSize (f : FrameFormat) (r : Rotation) : rotatedSize f r = scanSize f.w f.h r := by
  cases r <;> rfl

section
variable {prm : Params} {f : FrameFormat} {r : Rotation} (v : WindowWords) {p : Plane}

theorem channelConfig_xstride (hp : p.index < np prm f.tag) :
    (channelConfig prm f r v).get (xstrideField p)
      = u32 (scanParams (planeDim p f.w) (planeDim p f.h) (bytesPerPixel prm f.tag) r).xs := by
  have hfield : (channelConfig prm f r v).get (xstrideField p) = u32 (planeParams prm f r p).xs := by cases p <;> rfl
  rw [hfield, planeParams, if_pos hp]

theorem channelConfig_pstride (hp : p.index < np prm f.tag) :
    (channelConfig prm f r v).get (pstrideField p)
      = u32 (scanParams (planeDim p f.w) (planeDim p f.h) (bytesPerPixel prm f.tag) r).ps := by
  have hfield : (channelConfig prm f r v).get (pstrideField p) = u32 (planeParams prm f r p).ps := by cases p <;> rfl
  rw [hfield, planeParams, if_pos hp]

end

/-! ### The addresses of a plane's pixels (R118, R122) -/

/-- The address of the first byte of plane p's pixel q, a point (column, row), mod 2^32. -/
def Buffer.pixelWord (prm : Params) (b : Buffer) (p : Plane) (q : Int × Int) : Word :=
  u32 ((b.base.get p).toNat + pixelOffset (planeDim p b.fmt.w) (bytesPerPixel prm b.fmt.tag) q.1 q.2)

/-- A pixel of a plane that ends within the address space starts within it. -/
theorem pixel_lt_of_plane_le {base w h b x y limit : Nat} (hbase : base < limit) (hplane : base + w * h * b ≤ limit)
    (hx : x < w) (hy : y < h) : base + (y * w + x) * b < limit := by
  obtain rfl | hb := Nat.eq_zero_or_pos b
  · simpa using hbase
  · have hcount : y * w + x + 1 ≤ w * h :=
      calc y * w + x + 1 ≤ (y + 1) * w := by rw [Nat.succ_mul]; omega
        _ ≤ h * w := Nat.mul_le_mul_right w hy
        _ = w * h := Nat.mul_comm h w
    have hbytes := Nat.mul_le_mul_right b hcount
    rw [Nat.succ_mul] at hbytes
    omega

/-- In a plane that ends within the address space no pixel's address wraps. -/
theorem Buffer.pixelWord_eq_iff {prm : Params} {b : Buffer} {p : Plane}
    (hplane : (b.base.get p).toNat + pbytes prm b.fmt p ≤ 2 ^ 32) {x y : Nat} (hx : x < planeDim p b.fmt.w)
    (hy : y < planeDim p b.fmt.h) (a : Word) :
    b.pixelWord prm p (x, y) = a
      ↔ a.toNat = (b.base.get p).toNat + (y * planeDim p b.fmt.w + x) * bytesPerPixel prm b.fmt.tag := by
  rw [Buffer.pixelWord, pixelOffset]
  exact_mod_cast u32_natCast_eq_iff (pixel_lt_of_plane_le (b.base.get p).isLt hplane hx hy) a

/-! ### The walk of the engine (R122, R178) -/

theorem ceil2_natCast (n : Nat) : ceil2 n = ((n + 1) / 2 : Nat) := by
  rw [ceil2]
  omega

theorem Engine.fetchSize_eq_planeDim {e : Engine} {m n : Nat} (hx : s32 e.active.xmemsize = m)
    (hy : s32 e.active.ymemsize = n) (p : Plane) : (e.fetchW p, e.fetchH p) = ((planeDim p m : Int), (planeDim p n : Int)) := by
  cases p with
  | y => exact Prod.ext hx hy
  | u | v => exact Prod.ext ((congrArg ceil2 hx).trans (ceil2_natCast m)) ((congrArg ceil2 hy).trans (ceil2_natCast n))

section
variable {prm : Params} {e : Engine} {f : FrameFormat} {r : Rotation} {v : WindowWords}

/-- The engine's line length and line count of a plane are those of the plane's scan. -/
theorem fetchSize_eq_scanSize (hactive : e.active = channelConfig prm f r v) (hw : f.w < 2 ^ 31) (hh : f.h < 2 ^ 31)
    (p : Plane) : (e.fetchW p, e.fetchH p) = scanSize (planeDim p f.w) (planeDim p f.h) r := by
  have hx : e.active.xmemsize = u32 (scanSize f.w f.h r).1 := by rw [hactive, ← rotatedSize_eq_scanSize]; rfl
  have hy : e.active.ymemsize = u32 (scanSize f.w f.h r).2 := by rw [hactive, ← rotatedSize_eq_scanSize]; rfl
  cases r with
  | r0 | r180 =>
    exact Engine.fetchSize_eq_planeDim ((congrArg s32 hx).trans (s32_u32_natCast hw))
      ((congrArg s32 hy).trans (s32_u32_natCast hh)) p
  | r90 | r270 =>
    exact Engine.fetchSize_eq_planeDim ((congrArg s32 hx).trans (s32_u32_natCast hh))
      ((congrArg s32 hy).trans (s32_u32_natCast hw)) p

/-- R122: the engine reads the strides back as words, and its address is the source pixel's mod 2^32 all the same. -/
theorem fetchAddr_eq_pixelWord {b : Buffer} {p : Plane} (hactive : e.active = channelConfig prm b.fmt r v)
    (hw : b.fmt.w < 2 ^ 31) (hh : b.fmt.h < 2 ^ 31) (hp : p.index < np prm b.fmt.tag)
    (haddr : e.addr0.get p = b.addrWord prm r p) (i j : Int) :
    e.fetchAddr prm p i j
      = b.pixelWord prm p (scanSource (planeDim p b.fmt.w) (planeDim p b.fmt.h) r i j) := by
  have hwidth : e.fetchW p = (scanSize (planeDim p b.fmt.w) (planeDim p b.fmt.h) r).1 :=
    congrArg Prod.fst (fetchSize_eq_scanSize hactive hw hh p)
  have hmode : e.active.mode = b.fmt.tag := congrArg Cfg.mode hactive
  have hps : e.active.get (pstrideField p) = _ := hactive ▸ channelConfig_pstride v hp
  have hxs : e.active.get (xstrideField p) = _ := hactive ▸ channelConfig_xstride v hp
  have hstart : e.addr0.get p = u32 _ := haddr.trans (addrWord_of_active hp r)
  rw [Buffer.pixelWord, ← scanOffset, ← scanParams_walk]
  simp only [Engine.fetchAddr, Engine.lineStep, Engine.pixelStep, hwidth, hmode, hps, hxs, hstart, u32_add,
    u32_mul, u32_s32, u32_toNat, BitVec.add_assoc]

/-- The fetch set is that of the plane's own pixels, whether or not the plane wraps. -/
theorem inFetchSet_iff_pixelWord {b : Buffer} {p : Plane} (hactive : e.active = channelConfig prm b.fmt r v)
    (hw : b.fmt.w < 2 ^ 31) (hh : b.fmt.h < 2 ^ 31) (hp : p.index < np prm b.fmt.tag)
    (haddr : e.addr0.get p = b.addrWord prm r p) (a : Word) :
    e.inFetchSet prm p a ↔ ∃ q, inGrid (planeDim p b.fmt.w, planeDim p b.fmt.h) q ∧ b.pixelWord prm p q = a := by
  rw [← exists_scanSource_iff _ _ r (fun q => b.pixelWord prm p q = a), ← fetchSize_eq_scanSize hactive hw hh p]
  simp only [Engine.inFetchSet, fetchAddr_eq_pixelWord hactive hw hh hp haddr, inGrid, and_assoc]

end

/-- Settles O37: the walk makes the scan's offsets, the scan is onto the plane's pixels, and no pixel's address wraps. -/
theorem fetchAddressesAreThePlanesPixels : Obligations.FetchAddressesAreThePlanesPixels := by
  intro prm e b w r g p hw hh hg hp hactive haddr hplane a
  rw [inFetchSet_iff_pixelWord (hactive.trans (geometry_eq_channelConfig hg)) hw hh hp haddr]
  constructor
  · rintro ⟨q, hq, ha⟩
    obtain ⟨x, y, hx, hy, rfl⟩ := (inGrid_natCast_iff _ _ q).mp hq
    exact ⟨x, y, hx, hy, (Buffer.pixelWord_eq_iff hplane hx hy a).mp ha⟩
  · rintro ⟨x, y, hx, hy, ha⟩
    exact ⟨(x, y), (inGrid_natCast_iff _ _ _).mpr ⟨x, y, hx, hy, rfl⟩, (Buffer.pixelWord_eq_iff hplane hx hy a).mpr ha⟩

end Sys2Proof.Machine

/-! ## The geometry calculator (42_geometry.md R124 to R134): where Geometry is Invalid, and the words where it is not -/

namespace Sys2Proof.Machine

/-! ### The four checks (R124 to R126) -/

theorem rotatedSize_fst (f : FrameFormat) (r : Rotation) :
    (rotatedSize f r).1 = if r = .r90 ∨ r = .r270 then (f.h : Int) else f.w := by
  cases r <;> rfl

theorem rotatedSize_snd (f : FrameFormat) (r : Rotation) :
    (rotatedSize f r).2 = if r = .r90 ∨ r = .r270 then (f.w : Int) else f.h := by
  cases r <;> rfl

theorem windowValid_iff {prm : Params} {f : FrameFormat} {w : Window} {r : Rotation} :
    windowValid prm f w r = true
      ↔ 0 < (rotatedSize f r).1 ∧ 0 < (rotatedSize f r).2 ∧ 0 < (clampWindow prm w).hwX ∧ 0 < (clampWindow prm w).hwY := by
  simp only [windowValid, Bool.and_eq_true, decide_eq_true_eq, and_assoc]

theorem geometry_eq_none_iff {prm : Params} {f : FrameFormat} {w : Window} {r : Rotation} :
    geometry prm f w r = none ↔ ¬ windowValid prm f w r = true := by
  simp only [geometry, ite_eq_right_iff, reduceCtorEq, imp_false]

theorem windowValid_of_geometry {prm : Params} {f : FrameFormat} {w : Window} {r : Rotation} {g : Cfg}
    (h : geometry prm f w r = some g) : windowValid prm f w r = true := by
  by_contra hinvalid
  rw [geometry_eq_none_iff.mpr hinvalid] at h
  cases h

/-- Settles O35: the four checks of `windowValid`, on the rotated sizes written out. -/
theorem geometryIsInvalidExactlyAtTheFourChecks : Obligations.GeometryIsInvalidExactlyAtTheFourChecks := by
  intro prm f w r
  rw [geometry_eq_none_iff, windowValid_iff, rotatedSize_fst, rotatedSize_snd]
  rfl

/-! ### The scale factors (R129 to R131) -/

/-- Over a clamped extent of at least 1 the two divisions floor, whatever the sign of what they divide. -/
theorem factor_of_stated {prm : Params} (hstated : prm.overshoot = .stated) {hw : Int} (hpos : 0 < hw) (mem phase : Int) :
    factor prm mem hw phase
      = let x := (8 * 256 * mem - 256 * phase).fdiv hw + 1
        if (x * (hw - 1) + 256 * phase).fdiv 2048 > mem - 1 then x - 1 else x := by
  simp only [factor, overshoot, hstated, decide_eq_true_eq, Int.fdiv_eq_ediv_of_nonneg _ hpos.le,
    Int.fdiv_eq_ediv_of_nonneg _ (show (0 : Int) ≤ 2048 by decide)]

/-! ### The strides (R120, R134) -/

/-- R134: a plane the format does not have gets strides 0. -/
theorem channelConfig_strides_of_inactive {prm : Params} {f : FrameFormat} {p : Plane} (hp : ¬ p.index < np prm f.tag)
    (r : Rotation) (v : WindowWords) :
    (channelConfig prm f r v).get (xstrideField p) = 0#32 ∧ (channelConfig prm f r v).get (pstrideField p) = 0#32 := by
  obtain ⟨hxs, hps⟩ : (channelConfig prm f r v).get (xstrideField p) = u32 (planeParams prm f r p).xs
      ∧ (channelConfig prm f r v).get (pstrideField p) = u32 (planeParams prm f r p).ps := by cases p <;> exact ⟨rfl, rfl⟩
  rw [hxs, hps, planeParams, if_neg hp]
  exact ⟨rfl, rfl⟩

/-- Settles O36: the words are `channelConfig`'s. The factor formula holds beyond the bound on the phase too, since the model
floors there as well (log 17). -/
theorem geometryWords : Obligations.GeometryWords := by
  intro prm f w r g hstated hg
  obtain ⟨-, -, hposX, hposY⟩ := windowValid_iff.mp (windowValid_of_geometry hg)
  rw [geometry_eq_channelConfig hg, ← rotatedSize_fst, ← rotatedSize_snd]
  exact ⟨rfl, rfl, rfl, rfl, rfl, rfl, rfl,
    fun _ => congrArg u32 (factor_of_stated hstated hposX _ _),
    fun _ => congrArg u32 (factor_of_stated hstated hposY _ _),
    rfl,
    fun _ => ⟨fun hp => ⟨channelConfig_xstride _ hp, channelConfig_pstride _ hp⟩,
      fun hp => channelConfig_strides_of_inactive hp _ _⟩⟩

end Sys2Proof.Machine

/-! ## The configuration operations (43_config_state_machine.md R143 to R148): SFMT and SROT, and how SWIN starts -/

namespace Sys2Proof.Machine

theorem exec_sfmt_error {s : State} {tag : Word} {w h : Int} (hready : s.ready)
    (hbad : formatOf s.prm tag = none ∨ w ≤ 0 ∨ h ≤ 0) :
    exec (.sfmt tag w h) s = .next (s.report .configurationError) := by
  have htest : ((formatOf s.prm tag).isNone || decide (w ≤ 0) || decide (h ≤ 0)) = true := by
    simpa [or_assoc] using hbad
  rw [exec, execSfmt, controllerStep_ready hready, if_pos htest]

theorem exec_sfmt_ok {s : State} {tag : Word} {w h : Int} (hready : s.ready) (htag : formatOf s.prm tag ≠ none)
    (hw : 0 < w) (hh : 0 < h) :
    exec (.sfmt tag w h) s
      = .next ((s.setC { s.c with fmt := some { tag := tag, w := w.toNat, h := h.toNat }, dirty := true }).report .ok) := by
  have htest : ¬ ((formatOf s.prm tag).isNone || decide (w ≤ 0) || decide (h ≤ 0)) = true := by
    simp [htag, hw, hh]
  rw [exec, execSfmt, controllerStep_ready hready, if_neg htest]

/-- Settles O38: the two branches of the test R143 makes. -/
theorem formatNegotiation : Obligations.FormatNegotiation :=
  ⟨fun _ _ _ => rfl, fun _ _ _ _ hready => ⟨exec_sfmt_error hready, exec_sfmt_ok hready⟩⟩

theorem Rotation.ofDegrees_degrees (r : Rotation) : Rotation.ofDegrees r.degrees = some r := by
  cases r <;> rfl

/-- R148: degrees outside the four name no rotation. -/
theorem Rotation.ofDegrees_eq_none {deg : Int} (h : deg ∉ [0, 90, 180, 270]) : Rotation.ofDegrees deg = none := by
  simp only [List.mem_cons, List.not_mem_nil, or_false, not_or] at h
  obtain ⟨h0, h90, h180, h270⟩ := h
  rw [Rotation.ofDegrees, if_neg h0, if_neg h90, if_neg h180, if_neg h270]

/-- Settles O39: SROT asks which rotation the degrees name, and then whether it is the one in force. -/
theorem rotationControl : Obligations.RotationControl := by
  refine ⟨fun _ => rfl, fun s deg hready => ⟨fun hdeg => ?_, ?_, ?_⟩⟩
  · rw [exec, execSrot, controllerStep_ready hready, Rotation.ofDegrees_eq_none hdeg]
    rfl
  · rintro rfl
    rw [exec, execSrot, controllerStep_ready hready, Rotation.ofDegrees_degrees]
    exact congrArg _ (if_pos rfl)
  · rintro r rfl hne
    rw [exec, execSrot, controllerStep_ready hready, Rotation.ofDegrees_degrees]
    exact congrArg _ (if_neg hne)

/-! ### SWIN (R145, R146) -/

theorem exec_swin_unchanged {s : State} {l t ww wh : Int} (hready : s.ready)
    (hwin : s.c.win = { left := l, top := t, width := ww, height := wh }) (hclean : s.c.dirty = false) :
    exec (.swin l t ww wh) s = .next (s.report .ok) := by
  rw [exec, execSwin, controllerStep_ready hready]
  exact congrArg _ (if_pos ⟨hwin, hclean⟩)

theorem exec_swin_noFormat {s : State} {l t ww wh : Int} (hready : s.ready)
    (hchange : ¬ (s.c.win = { left := l, top := t, width := ww, height := wh } ∧ s.c.dirty = false))
    (hfmt : s.c.fmt = none) :
    exec (.swin l t ww wh) s
      = .next ((s.setC { s.c with win := { left := l, top := t, width := ww, height := wh }, dirty := true }).report .ok) := by
  rw [exec, execSwin, controllerStep_ready hready]
  exact congrArg _ ((if_neg hchange).trans (if_pos (by rw [hfmt]; rfl)))

/-- The state at which a SWIN recomputes: the window stored. -/
def State.withWin (s : State) (win : Window) : State := s.setC { s.c with win := win }

/-- A SWIN that is no no-op stores the window and, with a format in force, runs Recompute and reports (R138, R145). -/
theorem exec_swin_recompute {s : State} {l t ww wh : Int} {f : FrameFormat} (hready : s.ready)
    (hchange : ¬ (s.c.win = { left := l, top := t, width := ww, height := wh } ∧ s.c.dirty = false))
    (hfmt : s.c.fmt = some f) :
    exec (.swin l t ww wh) s
      = let v := s.withWin { left := l, top := t, width := ww, height := wh }
        .next (v.recompute.1.runOp .swin (v.recompute.2 ++ [.finish .ok])) := by
  rw [exec, execSwin, controllerStep_ready hready]
  exact congrArg _ ((if_neg hchange).trans (if_neg (by rw [hfmt]; exact nofun)))

/-- Settles O40: the two branches of SWIN that come before Recompute. -/
theorem windowSetWithoutRecompute : Obligations.WindowSetWithoutRecompute := by
  refine ⟨fun _ _ _ _ => rfl, fun s l t ww wh hready => ⟨fun hwin hclean => ?_, fun hchange hfmt => ?_⟩⟩
  · exact exec_swin_unchanged hready hwin.symm hclean
  · exact exec_swin_noFormat hready (fun h => hchange ⟨h.1.symm, h.2⟩) hfmt

end Sys2Proof.Machine

/-! ## Recompute (R138 to R141): the state after each of its paths, and a whole SWIN -/

namespace Sys2Proof.Machine

/-! ### The states Recompute leads to -/

/-- After the Bad path (R139). -/
def State.toBad (s : State) : State :=
  { s with
    c := { s.c with dirty := false, cfg := .bad }
    e := { s.e with dispend := s.e.dispend || s.e.chen }
    trace := s.trace ++ .rd .chsr s.e.chsr :: (if s.e.chen then [.wr .chdr 1#32] else []) }

/-- After configuration g is written and waits for a latch; `reads` is the recovery test, where one was made (R138, R140). -/
def State.toNeedsLatch (s : State) (g : Cfg) (reads : List MicroEvent) : State :=
  { s with
    c := { s.c with dirty := false, cfg := .goodNeedsLatch }
    e := { s.e with shadow := g }
    trace := s.trace ++ cfgEvents g ++ reads }

/-- After the recovery path has shown the current buffer b again with configuration g (R141). -/
def State.toRecovered (s : State) (g : Cfg) (b : Buffer) : State :=
  { s with
    c := { s.c with dirty := false, cfg := .good, cur := some (b.withDesc s.prm) }
    e :=
      { s.e with
        shadow := g
        head := headsOf s.prm (b.withDesc s.prm) s.e.head
        chen := true
        updpend := true
        imr := s.e.imr ||| irqOn }
    mem := storeDescriptors s.prm s.c.rot b s.mem
    unpub := []
    trace :=
      s.trace ++ cfgEvents g ++ [.rd .chsr s.e.chsr] ++ buildEvents s.prm s.c.rot b ++ [.barrier]
        ++ headEvents s.prm (b.withDesc s.prm) ++ [.wr .cher 3#32, .wr .ier irqOn] }

/-- The current buffer, where the recovery test is made for it (R141). -/
def Controller.recovering (c : Controller) : Option Buffer := if c.mayRecover then c.cur else none

/-- After Recompute; `Runs.recompute` says that this is where its actions lead. -/
def State.recomputed (s : State) : State :=
  match s.geometry with
  | none => s.toBad
  | some g =>
    match s.c.recovering with
    | none => s.toNeedsLatch g []
    | some b => if s.e.chen then s.toNeedsLatch g [.rd .chsr s.e.chsr] else s.toRecovered g b

/-- If the recovery path is taken, HEAD accepts every descriptor address of the buffer it shows (R90). -/
def State.recoverable (s : State) : Prop :=
  ∀ g b, s.geometry = some g → s.c.recovering = some b → s.e.chen = false →
    ∀ p ∈ b.planes s.prm, wordAligned (b.descAddr s.prm p) = true

theorem Controller.mayRecover_iff (c : Controller) :
    c.mayRecover = true ↔ ∃ b, c.cfg = .bad ∧ c.cur = some b ∧ c.fmt = some b.fmt := by
  unfold Controller.mayRecover
  split
  case h_1 b hcfg hcur => simp [hcfg, hcur]
  case h_2 hnot => exact ⟨nofun, fun ⟨b, hcfg, hcur, _⟩ => absurd hcur (hnot b hcfg)⟩

theorem Controller.recovering_eq_some_iff {c : Controller} {b : Buffer} :
    c.recovering = some b ↔ c.cfg = .bad ∧ c.cur = some b ∧ c.fmt = some b.fmt := by
  unfold Controller.recovering
  by_cases hmay : c.mayRecover = true
  · obtain ⟨x, hcfg, hcur, hfmt⟩ := c.mayRecover_iff.mp hmay
    rw [if_pos hmay]
    refine ⟨fun hb => ?_, fun h => h.2.1⟩
    obtain rfl : x = b := Option.some.inj (hcur.symm.trans hb)
    exact ⟨hcfg, hcur, hfmt⟩
  · rw [if_neg hmay]
    exact ⟨nofun, fun h => absurd (c.mayRecover_iff.mpr ⟨b, h⟩) hmay⟩

theorem Controller.cur_of_recovering {c : Controller} {b : Buffer} (h : c.recovering = some b) : c.cur = some b :=
  (Controller.recovering_eq_some_iff.mp h).2.1

theorem Controller.mayRecover_eq_isSome (c : Controller) : c.mayRecover = c.recovering.isSome := by
  rw [Bool.eq_iff_iff, c.mayRecover_iff, Option.isSome_iff_exists]
  exact exists_congr fun _ => Controller.recovering_eq_some_iff.symm

/-! ### The actions of Recompute -/

theorem State.recompute_invalid {s : State} (h : s.geometry = none) : s.recompute.2 = [.badChsr] := by
  rw [State.recompute, h]

theorem State.recompute_valid {s : State} {g : Cfg} (h : s.geometry = some g) :
    s.recompute.2
      = cfgWrites s.prm g ++ (if s.c.recovering.isSome then [.recoverChsr] else [.setCfg .goodNeedsLatch]) := by
  rw [State.recompute, h, Controller.mayRecover_eq_isSome]

/-- The first action of Recompute is an event that waits for nothing. -/
theorem State.recompute_starts {s : State} (hr : s.prm.syncRegs = []) :
    ∃ a rest, s.recompute.2 = a :: rest ∧ a.isEvent = true ∧ a.isWait = false := by
  cases hg : s.geometry with
  | none => exact ⟨_, _, State.recompute_invalid hg, rfl, rfl⟩
  | some g =>
    have hfirst : ∀ f, wrAct s.prm (.cfg f) (g.get f) = .wr (.cfg f) (g.get f) := fun _ => wrAct_plain hr _ _
    rw [State.recompute_valid hg, cfgWrites]
    simp only [hfirst]
    exact ⟨_, _, rfl, rfl, rfl⟩

/-! ### The reads of CHSR that decide (R139, R141) -/

theorem perform_badChsr (s : State) (op : OpName) (rest : List Act) :
    perform .badChsr (s.startOp op rest)
      = (s.readEvent .chsr).startOp op
          ((if s.e.chen then [wrAct s.prm .chdr 1#32, .setCfg .bad] else [.setCfg .bad]) ++ rest) := by
  rw [perform, State.badChsr, State.startOp_e, chsrEnabled_chsr]
  cases s.e.chen <;> rfl

theorem perform_recoverChsr_enabled {s : State} {b : Buffer} (hcur : s.c.cur = some b) (hon : s.e.chen = true)
    (op : OpName) (rest : List Act) :
    perform .recoverChsr (s.startOp op rest) = (s.readEvent .chsr).startOp op ([.setCfg .goodNeedsLatch] ++ rest) := by
  have hstarted : (s.startOp op rest).c.cur = some b := hcur
  rw [perform, State.recoverChsr, hstarted, State.startOp_e, chsrEnabled_chsr]
  exact if_pos hon

/-- What the recovery path issues once CHSR read 0 (R141). -/
def recoveryActs (prm : Params) (rot : Rotation) (b : Buffer) : List Act :=
  buildDescriptors prm rot b ++ [.barrier] ++ writeHeads prm (b.withDesc prm)
    ++ [wrAct prm .cher 3#32, wrAct prm .ier irqOn, .setCfg .good]

theorem perform_recoverChsr_disabled {s : State} {b : Buffer} (hcur : s.c.cur = some b) (hoff : s.e.chen = false)
    (op : OpName) (rest : List Act) :
    perform .recoverChsr (s.startOp op rest)
      = ((s.readEvent .chsr).setC { s.c with cur := some (b.withDesc s.prm) }).startOp op
          (recoveryActs s.prm s.c.rot b ++ rest) := by
  have hstarted : (s.startOp op rest).c.cur = some b := hcur
  rw [perform, State.recoverChsr, hstarted, State.startOp_e, chsrEnabled_chsr]
  exact if_neg (by rw [hoff]; exact nofun)

/-! ### The paths of Recompute as runs -/

/-- The Bad path, to its end. -/
theorem Runs.badPath {op : OpName} {s : State} (hplain : s.plain) :
    ∃ k ≤ 3, Runs op k [.badChsr] [] (s.setC { s.c with dirty := false }) s.toBad := by
  obtain ⟨hr, hs⟩ := hplain
  have hread := Runs.event (op := op) (s := s.setC { s.c with dirty := false }) hs rfl rfl (perform_badChsr _ op)
  rw [State.setC_e] at hread
  cases hchen : s.e.chen with
  | true =>
    have hbad : s.toBad = ((((s.setC { s.c with dirty := false }).readEvent .chsr).setE
        { s.e with dispend := s.e.dispend || s.e.chen }).record (.wr .chdr 1#32)).setC
          { s.c with dirty := false, cfg := .bad } := by
      simp only [State.toBad, hchen, if_true, State.record, State.readEvent_trace, State.setE, List.append_assoc]
      rfl
    rw [hchen] at hread
    have hdisable := Runs.wr (op := op) (s := (s.setC { s.c with dirty := false }).readEvent .chsr) hs hr
      (Engine.write_chdr1 s.e)
    rw [hbad]
    exact ⟨1 + 2, le_refl _, hread.trans (hdisable.cons (Runs.setCfg op .bad _))⟩
  | false =>
    have hsame : { s.e with dispend := s.e.dispend || s.e.chen } = s.e := by rw [hchen, Bool.or_false]
    have hbad : s.toBad
        = ((s.setC { s.c with dirty := false }).readEvent .chsr).setC { s.c with dirty := false, cfg := .bad } := by
      unfold State.toBad
      rw [hsame, hchen]
      rfl
    rw [hchen] at hread
    rw [hbad]
    exact ⟨1 + 1, by decide, hread.trans (Runs.setCfg op .bad _)⟩

/-- The sixteen writes of Recompute, to their end (R138). -/
def State.configured (s : State) (g : Cfg) : State :=
  { s with c := { s.c with dirty := false }, e := { s.e with shadow := g }, trace := s.trace ++ cfgEvents g }

theorem Runs.configure {op : OpName} {s : State} (hplain : s.plain) (g : Cfg) :
    Runs op 16 (Machine.cfgWrites s.prm g) [] (s.setC { s.c with dirty := false }) (s.configured g) :=
  Runs.cfgWrites g (s.setC { s.c with dirty := false }) hplain.2 hplain.1

/-- Configuration g written, and the change waits for a latch. -/
theorem Runs.latchPath {op : OpName} {s : State} (hplain : s.plain) (g : Cfg) :
    Runs op 17 (Machine.cfgWrites s.prm g ++ [.setCfg .goodNeedsLatch]) [] (s.setC { s.c with dirty := false })
      (s.toNeedsLatch g []) := by
  rw [State.toNeedsLatch, List.append_nil]
  exact (Runs.configure hplain g).seq (Runs.setCfg op .goodNeedsLatch (s.configured g))

/-- Configuration g written; the recovery test finds the channel enabled, and the change waits for a latch. -/
theorem Runs.recoverEnabled {op : OpName} {s : State} {b : Buffer} (hplain : s.plain) (g : Cfg) (hcur : s.c.cur = some b)
    (hon : s.e.chen = true) :
    Runs op 18 (Machine.cfgWrites s.prm g ++ [.recoverChsr]) [] (s.setC { s.c with dirty := false })
      (s.toNeedsLatch g [.rd .chsr s.e.chsr]) := by
  have htest := Runs.event (op := op) (s := s.configured g) hplain.2 rfl rfl
    (perform_recoverChsr_enabled (s := s.configured g) (b := b) hcur hon op)
  exact (Runs.configure hplain g).seq (htest.trans (Runs.setCfg op .goodNeedsLatch _))

/-- After the recovery test read CHSR as 0: configuration g stands in SHADOW, and b with its descriptor words in the current
slot (R141). -/
def State.atRecovery (s : State) (g : Cfg) (b : Buffer) : State :=
  { s with
    c := { s.c with dirty := false, cur := some (b.withDesc s.prm) }
    e := { s.e with shadow := g }
    trace := s.trace ++ cfgEvents g ++ [.rd .chsr s.e.chsr] }

/-- Configuration g written, and the recovery test on a disabled channel. -/
theorem Runs.recoveryTest {op : OpName} {s : State} {b : Buffer} (hplain : s.plain) (g : Cfg) (hcur : s.c.cur = some b)
    (hoff : s.e.chen = false) :
    Runs op 17 (Machine.cfgWrites s.prm g ++ [.recoverChsr]) (recoveryActs s.prm s.c.rot b)
      (s.setC { s.c with dirty := false }) (s.atRecovery g b) := by
  have htest := Runs.event (op := op) (s := s.configured g) hplain.2 rfl rfl
    (perform_recoverChsr_disabled (s := s.configured g) (b := b) hcur hoff op)
  exact ((Runs.configure hplain g).frame [.recoverChsr]).trans htest

/-- The end of the recovery path: the enable, the interrupt mask and ConfigState. -/
theorem Runs.recoveryEnable {op : OpName} {s : State} (hplain : s.plain) (hoff : s.e.chen = false) :
    Runs op 3 [wrAct s.prm .cher 3#32, wrAct s.prm .ier irqOn, .setCfg .good] [] s
      { s with
        c := { s.c with cfg := .good }
        e := { s.e with chen := true, updpend := true, imr := s.e.imr ||| irqOn }
        trace := s.trace ++ [.wr .cher 3#32] ++ [.wr .ier irqOn] } := by
  obtain ⟨hr, hs⟩ := hplain
  exact Runs.cons (Runs.wr (op := op) hs hr (Engine.write_cher3 hoff))
    (Runs.cons (Runs.wr (s := (s.setE _).record _) hs hr (Engine.write_ierOn _)) (Runs.setCfg op .good _))

/-- What the recovery path issues, where HEAD accepts the descriptor addresses. -/
theorem Runs.recoveryActs {op : OpName} {s : State} {g : Cfg} {b : Buffer} (hplain : s.plain) (hoff : s.e.chen = false)
    (haligned : ∀ p ∈ b.planes s.prm, wordAligned (b.descAddr s.prm p) = true) :
    ∃ k ≤ 16, Runs op k (recoveryActs s.prm s.c.rot b) [] (s.atRecovery g b) (s.toRecovered g b) := by
  obtain ⟨hr, hs⟩ := hplain
  have hplanes := b.planes_length s.prm
  have hdesc : ∀ p ∈ b.planes s.prm, wordAligned ((b.withDesc s.prm).desc.get p) = true :=
    fun p hp => Buffer.withDesc_get hp ▸ haligned p hp
  have hbuild := Runs.buildBarrier (op := op) s.c.rot b (s.atRecovery g b) hs
  have hheads := hbuild.seq (Runs.writeHeads (b.withDesc s.prm) _ hs hr hdesc)
  have h := hheads.seq (Runs.recoveryEnable ⟨hr, hs⟩ hoff)
  simp only [List.append_assoc _ [MicroEvent.wr .cher 3#32]] at h
  exact ⟨3 * (b.planes s.prm).length + 1 + (b.planes s.prm).length + 3, by omega, h⟩

/-! ### Recompute as a whole -/

theorem State.recompute_valid_none {s : State} {g : Cfg} (hg : s.geometry = some g) (hrec : s.c.recovering = none) :
    s.recompute.2 = cfgWrites s.prm g ++ [.setCfg .goodNeedsLatch] := by
  rw [State.recompute_valid hg, hrec]
  rfl

theorem State.recompute_valid_some {s : State} {g : Cfg} {b : Buffer} (hg : s.geometry = some g)
    (hrec : s.c.recovering = some b) : s.recompute.2 = cfgWrites s.prm g ++ [.recoverChsr] := by
  rw [State.recompute_valid hg, hrec]
  rfl

theorem State.recomputed_invalid {s : State} (h : s.geometry = none) : s.recomputed = s.toBad := by
  rw [State.recomputed, h]

theorem State.recomputed_needsLatch {s : State} {g : Cfg} (hg : s.geometry = some g) (hrec : s.c.recovering = none) :
    s.recomputed = s.toNeedsLatch g [] := by
  rw [State.recomputed, hg]
  simp only [hrec]

theorem State.recomputed_enabled {s : State} {g : Cfg} {b : Buffer} (hg : s.geometry = some g)
    (hrec : s.c.recovering = some b) (hon : s.e.chen = true) :
    s.recomputed = s.toNeedsLatch g [.rd .chsr s.e.chsr] := by
  rw [State.recomputed, hg]
  simp only [hrec, if_pos hon]

theorem State.recomputed_disabled {s : State} {g : Cfg} {b : Buffer} (hg : s.geometry = some g)
    (hrec : s.c.recovering = some b) (hoff : s.e.chen = false) : s.recomputed = s.toRecovered g b := by
  rw [State.recomputed, hg]
  simp only [hrec, hoff, Bool.false_eq_true, if_false]

/-- Recompute runs to its end where HEAD accepts what the recovery path writes. -/
theorem Runs.recompute {op : OpName} {s : State} (hplain : s.plain) (hrec : s.recoverable) :
    ∃ k ≤ 33, Runs op k s.recompute.2 [] s.recompute.1 s.recomputed := by
  rw [State.recompute_state]
  cases hg : s.geometry with
  | none =>
    obtain ⟨k, hk, h⟩ := Runs.badPath (op := op) hplain
    rw [State.recompute_invalid hg, State.recomputed_invalid hg]
    exact ⟨k, by omega, h⟩
  | some g =>
    cases hb : s.c.recovering with
    | none =>
      rw [State.recompute_valid_none hg hb, State.recomputed_needsLatch hg hb]
      exact ⟨17, by decide, Runs.latchPath hplain g⟩
    | some b =>
      have hcur : s.c.cur = some b := Controller.cur_of_recovering hb
      rw [State.recompute_valid_some hg hb]
      cases hchen : s.e.chen with
      | true =>
        rw [State.recomputed_enabled hg hb hchen]
        exact ⟨18, by decide, Runs.recoverEnabled hplain g hcur hchen⟩
      | false =>
        rw [State.recomputed_disabled hg hb hchen]
        obtain ⟨k, hk, h⟩ := Runs.recoveryActs (op := op) (g := g) hplain hchen (hrec g b hg hb hchen)
        exact ⟨17 + k, by omega, (Runs.recoveryTest hplain g hcur hchen).trans h⟩

/-- An operation at s with `acts` before the rest is refused. -/
def Refuses (op : OpName) (k : Nat) (acts : List Act) (s : State) : Prop :=
  ∀ (n : Nat) (rest : List Act), k ≤ n → (burst n false (s.startOp op (acts ++ rest))).refused ≠ none

theorem Runs.refuses {op : OpName} {j k : Nat} {a b : List Act} {s t : State} (h : Runs op j a b s t)
    (h' : Refuses op k b t) : Refuses op (j + k) a s := by
  intro n rest hn
  rw [h n rest (by omega)]
  exact h' (n - j) rest (by omega)

theorem Refuses.append {op : OpName} {k : Nat} {a : List Act} {s : State} (h : Refuses op k a s) (x : List Act) :
    Refuses op k (a ++ x) s := by
  intro n rest hn
  rw [List.append_assoc]
  exact h n (x ++ rest) hn

/-- HEAD writes of a list of planes, one of whose descriptor words is no multiple of 4 (R90). -/
theorem Refuses.headsOfPlanes {op : OpName} {d : Planes Word} {ps : List Plane} {s : State} (hplain : s.plain)
    (h : ∃ p ∈ ps, wordAligned (d.get p) = false) :
    Refuses op ps.length (ps.map (fun p => wrAct s.prm (.head p) (d.get p))) s := by
  induction ps generalizing s with
  | nil => simp at h
  | cons p rest ih =>
    obtain ⟨hr, hs⟩ := hplain
    rw [List.map_cons, List.length_cons, Nat.add_comm]
    cases hp : wordAligned (d.get p) with
    | false =>
      intro n more hn
      obtain ⟨m, rfl⟩ : ∃ m, n = m + 1 := ⟨n - 1, by omega⟩
      rw [wrAct_plain hr, List.cons_append, burst_event m hs op rfl rfl,
        perform_wr_refused (Engine.write_head_misaligned hp s.e p), burst_free m false rfl]
      exact nofun
    | true =>
      have hwrite := Runs.wr (op := op) hs hr (Engine.write_head_ok hp s.e p)
      have hrest : ∃ q ∈ rest, wordAligned (d.get q) = false := by simpa [hp] using h
      exact (hwrite.frame _).refuses (ih (s := (s.setE _).record _) ⟨hr, hs⟩ hrest)

/-- Where HEAD does not accept what the recovery path writes, Recompute is refused. -/
theorem Refuses.recompute {op : OpName} {s : State} (hplain : s.plain) (hrec : ¬ s.recoverable) :
    Refuses op 30 s.recompute.2 s.recompute.1 := by
  obtain ⟨g, b, hg, hb, hoff, p, hp, hmis⟩ : ∃ g b, s.geometry = some g ∧ s.c.recovering = some b ∧ s.e.chen = false
      ∧ ∃ p ∈ b.planes s.prm, wordAligned (b.descAddr s.prm p) = false := by
    simpa [State.recoverable] using hrec
  have hplanes := b.planes_length s.prm
  have hdesc : wordAligned ((b.withDesc s.prm).desc.get p) = false := Buffer.withDesc_get hp ▸ hmis
  have htest := Runs.recoveryTest (op := op) hplain g (Controller.cur_of_recovering hb) hoff
  have hbuild := Runs.buildBarrier (op := op) s.c.rot b (s.atRecovery g b) hplain.2
  have hheads := Refuses.headsOfPlanes (op := op) (d := (b.withDesc s.prm).desc) (ps := b.planes s.prm)
    (s := { s.atRecovery g b with
      mem := storeDescriptors s.prm s.c.rot b s.mem
      unpub := []
      trace := (s.atRecovery g b).trace ++ buildEvents s.prm s.c.rot b ++ [.barrier] }) hplain ⟨p, hp, hdesc⟩
  rw [State.recompute_state, State.recompute_valid_some hg hb]
  have h : Refuses op (17 + (3 * (b.planes s.prm).length + 1 + (b.planes s.prm).length)) _ _ :=
    htest.refuses (((hbuild.frame _).refuses hheads).append [wrAct s.prm .cher 3#32, wrAct s.prm .ier irqOn, .setCfg .good])
  exact fun n rest hn => h n rest (by omega)

/-- What Recompute leaves alone; the current buffer stays, at most with its descriptor words set. -/
theorem State.recomputed_eq (s : State) :
    ∃ cfg cur e mem trace unpub,
      s.recomputed
          = { s with
              c := { s.c with dirty := false, cfg := cfg, cur := cur }
              e := e
              mem := mem
              trace := trace
              unpub := unpub }
        ∧ (cur = s.c.cur ∨ ∃ b, s.c.cur = some b ∧ cur = some (b.withDesc s.prm)) := by
  cases hg : s.geometry with
  | none => exact ⟨_, _, _, _, _, _, State.recomputed_invalid hg, .inl rfl⟩
  | some g =>
    cases hb : s.c.recovering with
    | none => exact ⟨_, _, _, _, _, _, State.recomputed_needsLatch hg hb, .inl rfl⟩
    | some b =>
      cases hchen : s.e.chen with
      | true => exact ⟨_, _, _, _, _, _, State.recomputed_enabled hg hb hchen, .inl rfl⟩
      | false =>
        exact ⟨_, _, _, _, _, _, State.recomputed_disabled hg hb hchen,
          .inr ⟨b, Controller.cur_of_recovering hb, rfl⟩⟩

/-- An operation that starts with Recompute: the grant of the first event makes no difference. -/
theorem State.runOp_recompute {s : State} (hplain : s.plain) (op : OpName) (acts : List Act) :
    s.recompute.1.runOp op (s.recompute.2 ++ acts)
      = burst burstFuel false (s.recompute.1.startOp op (s.recompute.2 ++ acts)) := by
  obtain ⟨a, rest, hacts, hevent, hwait⟩ := State.recompute_starts hplain.1
  have hunsplit : s.recompute.1.unsplit := by
    rw [State.recompute_state]
    exact hplain.2
  rw [hacts, State.runOp]
  exact burst_grant hunsplit op _ hevent hwait _

/-! ### A whole SWIN with Recompute (R138, R145) -/

section
variable {s : State} {l t ww wh : Int} {f : FrameFormat} (hready : s.ready) (hplain : s.plain)
  (hchange : ¬ (({ left := l, top := t, width := ww, height := wh } : Window) = s.c.win ∧ s.c.dirty = false))
  (hfmt : s.c.fmt = some f)
include hready hplain hchange hfmt

/-- Such a SWIN as one burst of the actions of Recompute and the result. -/
theorem exec_swin_burst :
    exec (.swin l t ww wh) s
      = let v := s.withWin { left := l, top := t, width := ww, height := wh }
        .next (burst burstFuel false (v.recompute.1.startOp .swin (v.recompute.2 ++ [.finish .ok]))) :=
  (exec_swin_recompute hready (fun h => hchange ⟨h.1.symm, h.2⟩) hfmt).trans
    (congrArg _ (State.runOp_recompute (s := s.withWin { left := l, top := t, width := ww, height := wh }) hplain .swin _))

/-- Where Recompute is not refused, SWIN reports OK at the state after it. -/
theorem exec_swin_recomputed (hrec : (s.withWin { left := l, top := t, width := ww, height := wh }).recoverable) :
    exec (.swin l t ww wh) s
      = .next ((s.withWin { left := l, top := t, width := ww, height := wh }).recomputed.report .ok) := by
  rw [exec_swin_burst hready hplain hchange hfmt]
  generalize hv : s.withWin _ = v at hrec
  have hvplain : v.plain := hv ▸ hplain
  obtain ⟨k, hk, hrun⟩ := Runs.recompute (op := .swin) hvplain hrec
  have hfree : (v.recomputed.report .ok).c.busy = none := by
    obtain ⟨cfg, cur, e, mem, trace, unpub, h, -⟩ := v.recomputed_eq
    rw [h, ← hv]
    exact hready.2
  have hfinish := hrun.seq (Runs.finish .swin .ok v.recomputed)
  exact congrArg _ ((hfinish.fin (by unfold burstFuel; omega)).trans (State.endOp_of_free hfree))

theorem exec_swin_refused (hrec : ¬ (s.withWin { left := l, top := t, width := ww, height := wh }).recoverable) :
    ∃ u, exec (.swin l t ww wh) s = .next u ∧ u.refused ≠ none :=
  ⟨_, exec_swin_burst hready hplain hchange hfmt,
    Refuses.recompute (s := s.withWin { left := l, top := t, width := ww, height := wh }) hplain hrec
      burstFuel _ (by decide)⟩

end

theorem State.withWin_geometry {s : State} {f : FrameFormat} (hfmt : s.c.fmt = some f) (win : Window) :
    (s.withWin win).geometry = Machine.geometry s.prm f win s.c.rot := by
  have hstored : (s.withWin win).c.fmt = some f := hfmt
  rw [State.geometry, hstored]
  rfl

theorem State.recoverable_of_recovering_none {s : State} (h : s.c.recovering = none) : s.recoverable := by
  intro g b _ hb
  cases h.symm.trans hb

/-- Settles O41: no recovery test is made, so the run is the sixteen writes and the change of ConfigState. -/
theorem windowSetNeedsLatch : Obligations.WindowSetNeedsLatch := by
  intro s l t ww wh f g hready hplain win hchange hfmt hg hcase
  have hgeometry : (s.withWin win).geometry = some g := (State.withWin_geometry hfmt win).trans hg
  have hrec : (s.withWin win).c.recovering = none := by
    rw [Option.eq_none_iff_forall_ne_some]
    intro b hb
    obtain ⟨hcfg, hcur, hbfmt⟩ := Controller.recovering_eq_some_iff.mp hb
    refine hcase.elim (absurd hcfg) (absurd ?_)
    rw [show s.c.cur = some b from hcur, ← hfmt, show s.c.fmt = some b.fmt from hbfmt]
    rfl
  rw [exec_swin_recomputed hready hplain hchange hfmt (State.recoverable_of_recovering_none hrec),
    State.recomputed_needsLatch hgeometry hrec, State.toNeedsLatch, List.append_nil]
  rfl

/-- Settles O42: with no valid geometry Recompute takes its Bad path. -/
theorem windowSetInvalid : Obligations.WindowSetInvalid := by
  intro s l t ww wh f hready hplain win hchange hfmt hg
  have hgeometry : (s.withWin win).geometry = none := (State.withWin_geometry hfmt win).trans hg
  have hrec : (s.withWin win).recoverable := fun g b hsome => nomatch hgeometry.symm.trans hsome
  rw [exec_swin_recomputed hready hplain hchange hfmt hrec, State.recomputed_invalid hgeometry]
  rfl

/-- A descriptor follows a plane of whole words, so it stands at a multiple of 4 where its plane does (R111). -/
theorem descAddr_aligned_of_base {prm : Params} {b : Buffer} {p : Plane} (h : (b.base.get p).toNat % 4 = 0) :
    wordAligned (b.descAddr prm p) = true := by
  rw [wordAligned_iff, Buffer.descAddr, BitVec.toNat_add, BitVec.toNat_ofNat, align4]
  omega

/-- Settles O43: the recovery test is made for b, and CHEN decides between the latch and the recovery path. -/
theorem windowSetRecovers : Obligations.WindowSetRecovers := by
  intro s l t ww wh f g b hready hplain win b' hchange hfmt hg hbad hcur hbfmt hbase
  have hgeometry : (s.withWin win).geometry = some g := (State.withWin_geometry hfmt win).trans hg
  have hrecovering : (s.withWin win).c.recovering = some b :=
    Controller.recovering_eq_some_iff.mpr ⟨hbad, hcur, hbfmt ▸ hfmt⟩
  have hrec : (s.withWin win).recoverable := by
    intro _ x _ hx _ p hp
    cases hrecovering.symm.trans hx
    exact descAddr_aligned_of_base (hbase p (hbfmt ▸ mem_planes.mp hp))
  rw [exec_swin_recomputed hready hplain hchange hfmt hrec]
  refine ⟨fun hon => ?_, fun hoff => ?_⟩
  · rw [State.recomputed_enabled hgeometry hrecovering hon]
    rfl
  · rw [State.recomputed_disabled hgeometry hrecovering hoff]
    rfl

end Sys2Proof.Machine

/-! ## A QBUF with a change pending (R137, R138, R152)

It differs from a SWIN and a QBUF after it in the fuel of its burst, of which Recompute has used some, and in the grant, which
Recompute's first event has used. Neither matters: a QBUF takes fewer actions than either leaves (log 2). -/

namespace Sys2Proof.Machine

/-! ### How many actions a QBUF takes -/

/-- A bound on the actions a QBUF performs from this one until it comes to those that stand after it; 0 for the actions it
does not issue after its Recompute where no register waits for synchronisation. -/
def Act.submitSteps (a : Act) : Nat :=
  match a with
  | .wr _ _ => 1
  | .memWrite _ _ => 1
  | .barrier => 1
  | .setCfg _ => 1
  | .setChan _ => 1
  | .advance _ _ => 1
  | .finish _ => 1
  | .qbufAddr _ _ => 30
  | .qbufChsr _ => 40
  | .qbufGo _ => 60
  | _ => 0

/-- The bound for a list of actions. -/
def submitSteps (acts : List Act) : Nat := (acts.map Act.submitSteps).sum

/-- One event or one decision of the controller's own, which brings no actions. -/
def Act.isSingle (a : Act) : Prop := a.submitSteps = 1

theorem submitSteps_append (as bs : List Act) : submitSteps (as ++ bs) = submitSteps as + submitSteps bs := by
  simp [submitSteps]

theorem submitSteps_nil : submitSteps [] = 0 := rfl

theorem submitSteps_cons (a : Act) (as : List Act) : submitSteps (a :: as) = a.submitSteps + submitSteps as := rfl

theorem submitSteps_of_single {acts : List Act} (h : ∀ a ∈ acts, a.isSingle) : submitSteps acts = acts.length := by
  induction acts with
  | nil => rfl
  | cons a rest ih =>
    obtain ⟨ha, hrest⟩ := List.forall_mem_cons.mp h
    rw [submitSteps_cons, ha, ih hrest, List.length_cons, Nat.add_comm]

theorem Act.submitSteps_pos_of_single {acts : List Act} (h : ∀ a ∈ acts, a.isSingle) :
    ∀ a ∈ acts, 0 < a.submitSteps :=
  fun a ha => Nat.lt_of_lt_of_eq Nat.one_pos (h a ha).symm

theorem Act.isWait_of_submitSteps {a : Act} (h : 0 < a.submitSteps) : a.isWait = false := by
  cases a with
  | poll r x n => cases h
  | offPoll => cases h
  | _ => rfl

theorem wrAct_isSingle {prm : Params} (hr : prm.syncRegs = []) (r : WReg) (x : Word) : (wrAct prm r x).isSingle := by
  rw [wrAct_plain hr]
  rfl

theorem cfgWrites_isSingle {prm : Params} (hr : prm.syncRegs = []) (g : Cfg) : ∀ a ∈ cfgWrites prm g, a.isSingle :=
  List.forall_mem_map.mpr fun _ _ => wrAct_isSingle hr _ _

theorem writeHeads_isSingle {prm : Params} (hr : prm.syncRegs = []) (b : Buffer) : ∀ a ∈ writeHeads prm b, a.isSingle :=
  List.forall_mem_map.mpr fun _ _ => wrAct_isSingle hr _ _

theorem buildDescriptors_isSingle (prm : Params) (rot : Rotation) (b : Buffer) :
    ∀ a ∈ buildDescriptors prm rot b, a.isSingle := by
  intro a ha
  obtain ⟨d, x, rfl, -⟩ := buildDescriptors_stores ha
  rfl

theorem buildDescriptors_length (prm : Params) (rot : Rotation) (b : Buffer) :
    (buildDescriptors prm rot b).length = 3 * (b.planes prm).length := by
  unfold buildDescriptors
  induction b.planes prm with
  | nil => rfl
  | cons p rest ih =>
    rw [List.flatMap_cons, List.length_append, ih, List.length_cons]
    simp only [descriptorWrites, List.length_cons, List.length_nil]
    omega

theorem State.writeShadowAll_single {s : State} (hr : s.prm.syncRegs = []) :
    (∀ a ∈ s.writeShadowAll.2, a.isSingle) ∧ s.writeShadowAll.2.length ≤ 16 := by
  rcases s.writeShadowAll_spec.2 with h | ⟨g, h⟩ <;> rw [h]
  · exact ⟨nofun, by decide⟩
  · exact ⟨cfgWrites_isSingle hr g, le_refl 16⟩

/-- A show issues single actions: the shadow configuration, HEAD, and at most four more (R153). -/
theorem State.showActs_single {s : State} (hr : s.prm.syncRegs = []) (b : Buffer) (v : Word) :
    (∀ a ∈ (s.showActs b v).2, a.isSingle) ∧ (s.showActs b v).2.length ≤ 23 := by
  obtain ⟨hshadow, hlength⟩ := State.writeShadowAll_single hr
  have hheads := writeHeads_isSingle hr b
  have hplanes : (writeHeads s.prm b).length ≤ 3 := by simpa [writeHeads] using b.planes_length s.prm
  have hwr := wrAct_isSingle hr
  unfold State.showActs
  split
  · simp only [List.forall_mem_append, List.forall_mem_cons, List.length_append, List.length_cons, List.length_nil]
    exact ⟨⟨⟨hshadow, hheads⟩, hwr _ _, hwr _ _, rfl, rfl, nofun⟩, by omega⟩
  · split
    · simp only [List.forall_mem_append, List.forall_mem_cons, List.length_append, List.length_cons, List.length_nil]
      exact ⟨⟨⟨hshadow, hheads⟩, hwr _ _, rfl, nofun⟩, by omega⟩
    · simp only [List.forall_mem_append, List.forall_mem_cons, List.length_append, List.length_cons, List.length_nil]
      exact ⟨⟨hheads, hwr _ _, rfl, nofun⟩, by omega⟩

/-! ### One action of a QBUF -/

/-- The operation is over at u, or goes on from a plain state with new actions of the QBUF that take fewer than k steps. -/
def SubmitGoesOn (op : OpName) (rest : List Act) (k : Nat) (u : State) : Prop :=
  u.c.busy = none
    ∨ ∃ (t : State) (new : List Act), u = t.startOp op (new ++ rest) ∧ t.plain ∧ (∀ a ∈ new, 0 < a.submitSteps)
        ∧ submitSteps new < k

section
variable {s : State} (hplain : s.plain) (op : OpName) (rest : List Act)

theorem SubmitGoesOn.single {u t : State} (hu : u = t.startOp op rest) (ht : t.plain) : SubmitGoesOn op rest 1 u :=
  .inr ⟨t, [], hu, ht, nofun, by decide⟩

include hplain

/-- Show, then Advance (R152). -/
theorem SubmitGoesOn.showThenAdvance (b : Buffer) (v w : Word) :
    SubmitGoesOn op rest 30 ((s.startOp op rest).showThenAdvance b v w) := by
  obtain ⟨n, hn⟩ := (s.startOp op rest).showActs_state b v
  obtain ⟨hsingle, hlength⟩ := State.showActs_single (s := s.startOp op rest) hplain.1 b v
  rw [State.showThenAdvance_eq, hn]
  refine .inr ⟨{ s with fresh := n }, _, rfl, hplain, ?_, ?_⟩
  · simp only [List.forall_mem_append, List.forall_mem_cons]
    exact ⟨Act.submitSteps_pos_of_single hsingle, Nat.one_pos, Nat.one_pos, nofun⟩
  · rw [submitSteps_append, submitSteps_of_single hsingle, submitSteps_cons, submitSteps_cons, submitSteps_nil]
    change _ + (1 + (1 + 0)) < 30
    omega

/-- QBUF after its lazy Recompute: a completion, or a build and the RD(CHSR) (R152, R157). -/
theorem SubmitGoesOn.qbufGo (b : Buffer) : SubmitGoesOn op rest 60 (perform (.qbufGo b) (s.startOp op rest)) := by
  by_cases hcfg : s.c.cfg = .bad
  · have hstarted : (s.startOp op rest).c.cfg = .bad := hcfg
    rw [perform, State.qbufGo, if_pos hstarted]
    exact .inr ⟨s.setC (s.c.complete b.id .done), [.finish .ok], rfl, hplain,
      List.forall_mem_singleton.mpr Nat.one_pos, by decide⟩
  · have hplanes := b.planes_length s.prm
    have hbuild := buildDescriptors_isSingle s.prm s.c.rot b
    rw [perform_qbufGo hcfg]
    refine .inr ⟨s, _, rfl, hplain, ?_, ?_⟩
    · simp only [List.forall_mem_append, List.forall_mem_cons]
      exact ⟨Act.submitSteps_pos_of_single hbuild, Nat.one_pos, Nat.succ_pos 39, nofun⟩
    · rw [submitSteps_append, submitSteps_of_single hbuild, buildDescriptors_length, submitSteps_cons, submitSteps_cons,
        submitSteps_nil]
      change _ + (1 + (40 + 0)) < 60
      omega

/-- QBUF's RD(CHSR): the read of ADDR_0, or the show (R152). -/
theorem SubmitGoesOn.qbufChsr (b : Buffer) : SubmitGoesOn op rest 40 (perform (.qbufChsr b) (s.startOp op rest)) := by
  rw [perform, State.qbufChsr]
  split
  · exact .inr ⟨s.readEvent .chsr, [.qbufAddr b _], rfl, hplain, List.forall_mem_singleton.mpr (Nat.succ_pos 29),
      (by decide : 30 < 40)⟩
  · refine (SubmitGoesOn.showThenAdvance (s := s.readEvent .chsr) hplain op rest b _ _).imp_right ?_
    rintro ⟨t, new, hu, ht, hpos, hsteps⟩
    exact ⟨t, new, hu, ht, hpos, by omega⟩

/-- What one action of a QBUF leads to: the end of the operation, or actions that take fewer steps than it. -/
theorem perform_submit {a : Act} (ha : 0 < a.submitSteps) :
    SubmitGoesOn op rest a.submitSteps (perform a (s.startOp op rest)) := by
  cases a with
  | wr r x =>
    cases hw : s.e.write r x with
    | error reason => exact .inl (perform_wr_refused hw op rest ▸ rfl)
    | ok e => exact SubmitGoesOn.single op rest (perform_wr hw op rest) hplain
  | memWrite d x => exact SubmitGoesOn.single op rest (perform_memWrite s d x op rest) hplain
  | barrier => exact SubmitGoesOn.single op rest (perform_barrier s op rest) hplain
  | setCfg x => exact SubmitGoesOn.single op rest (perform_setCfg s x op rest) hplain
  | setChan x => exact SubmitGoesOn.single op rest (perform_setChan s x op rest) hplain
  | advance b u => exact SubmitGoesOn.single op rest (perform_advance s b u op rest) hplain
  | finish r => exact SubmitGoesOn.single op rest (perform_finish s r op rest) hplain
  | qbufGo b => exact SubmitGoesOn.qbufGo hplain op rest b
  | qbufChsr b => exact SubmitGoesOn.qbufChsr hplain op rest b
  | qbufAddr b v => exact SubmitGoesOn.showThenAdvance (s := s.readEvent (.addr .y)) hplain op rest b _ _
  | _ => cases ha

end

/-! ### The burst of a QBUF -/

/-- An action that is no wait point is taken, whatever the grant, where operations are not split. -/
theorem burst_cons {s : State} (hs : s.unsplit) (n : Nat) (g : Bool) (op : OpName) {a : Act} (hw : a.isWait = false)
    (rest : List Act) :
    burst (n + 1) g (s.startOp op (a :: rest)) = burst n (g && !a.isEvent) (perform a (s.startOp op rest)) := by
  cases ha : a.isEvent with
  | false => rw [burst_local n g s op ha rest, Bool.not_false, Bool.and_true]
  | true =>
    rw [Bool.not_true, Bool.and_false]
    cases g with
    | false => exact burst_event n hs op ha hw rest
    | true => exact burst_granted n s op ha rest

/-- Neither the fuel of a QBUF nor its grant matters, as long as the fuel covers its actions. -/
theorem burst_submit_eq {op : OpName} {n m : Nat} {g g' : Bool} {s : State} {acts : List Act} (hplain : s.plain)
    (hacts : ∀ a ∈ acts, 0 < a.submitSteps) (hn : submitSteps acts < n) (hm : submitSteps acts < m) :
    burst n g (s.startOp op acts) = burst m g' (s.startOp op acts) := by
  induction n generalizing m g g' s acts with
  | zero => omega
  | succ n ih =>
    obtain ⟨m, rfl⟩ : ∃ m', m = m' + 1 := ⟨m - 1, by omega⟩
    cases acts with
    | nil => rfl
    | cons a rest =>
      obtain ⟨ha, hrest⟩ := List.forall_mem_cons.mp hacts
      have hwait := Act.isWait_of_submitSteps ha
      rw [submitSteps_cons] at hn hm
      rw [burst_cons hplain.2 n g op hwait, burst_cons hplain.2 m g' op hwait]
      obtain hover | ⟨t, new, hu, ht, hnew, hsteps⟩ := perform_submit hplain op rest ha
      · rw [burst_free n _ hover, burst_free m _ hover]
      · rw [hu]
        have hsum := submitSteps_append new rest
        exact ih ht (List.forall_mem_append.mpr ⟨hnew, hrest⟩) (by omega) (by omega)

/-! ### The two QBUFs -/

/-- An admitted QBUF with a change pending starts with Recompute (R152). -/
theorem exec_qbuf_dirty {s : State} {id base0 base1 base2 : Word} {f : FrameFormat} (hready : s.ready)
    (hstreaming : s.c.streaming = true) (hfmt : s.c.fmt = some f) (hdirty : s.c.dirty = true)
    (hadm : admissionProblem s.prm s.c (newBuffer s.prm f id base0 base1 base2) = none) :
    exec (.qbuf id base0 base1 base2) s
      = .next (s.recompute.1.runOp .qbuf (s.recompute.2 ++ [.qbufGo (newBuffer s.prm f id base0 base1 base2)])) := by
  rw [exec, execQbuf, controllerStep_ready hready]
  simp [hstreaming, hfmt, hdirty, hadm]

/-- What Recompute does to the slots matters to no admission: a descriptor word is in no check (R151). -/
theorem admissionProblem_recomputed (s : State) (b : Buffer) :
    admissionProblem s.prm s.recomputed.c b = admissionProblem s.prm s.c b := by
  obtain ⟨cfg, cur, e, mem, trace, unpub, h, rfl | ⟨x, hcur, rfl⟩⟩ := s.recomputed_eq
  · rw [h]
    rfl
  · rw [h]
    unfold admissionProblem
    rw [hcur]
    rfl

theorem State.recomputed_keeps (s : State) :
    s.recomputed.prm = s.prm ∧ s.recomputed.c.streaming = s.c.streaming ∧ s.recomputed.c.fmt = s.c.fmt
      ∧ s.recomputed.c.dirty = false ∧ (s.ready → s.recomputed.ready) ∧ (s.plain → s.recomputed.plain)
      ∧ { s.recomputed.report .ok with results := s.results } = s.recomputed := by
  obtain ⟨cfg, cur, e, mem, trace, unpub, h, -⟩ := s.recomputed_eq
  rw [h]
  exact ⟨rfl, rfl, rfl, rfl, id, id, rfl⟩

/-- A QBUF with a change pending, where Recompute is not refused, is a QBUF at the state after Recompute. -/
theorem exec_qbuf_recomputed {s : State} {id base0 base1 base2 : Word} {f : FrameFormat} (hready : s.ready)
    (hplain : s.plain) (hstreaming : s.c.streaming = true) (hfmt : s.c.fmt = some f) (hdirty : s.c.dirty = true)
    (hadm : admissionProblem s.prm s.c (newBuffer s.prm f id base0 base1 base2) = none) (hrec : s.recoverable) :
    exec (.qbuf id base0 base1 base2) s = exec (.qbuf id base0 base1 base2) s.recomputed := by
  obtain ⟨k, hk, hrun⟩ := Runs.recompute (op := .qbuf) hplain hrec
  obtain ⟨hprm, hstreaming', hfmt', hclean, hready', hplain', -⟩ := s.recomputed_keeps
  have hadm' := (admissionProblem_recomputed s _).trans hadm
  have hfuel : k + 60 < burstFuel := by unfold burstFuel; omega
  rw [← hprm] at hadm'
  rw [exec_qbuf_dirty hready hstreaming hfmt hdirty hadm, State.runOp_recompute hplain, hrun _ _ (by omega), ← hprm,
    exec_qbuf_admitted (hready' hready) (hstreaming'.trans hstreaming) (hfmt'.trans hfmt) hclean hadm']
  refine congrArg _ (burst_submit_eq (hplain' hplain) (List.forall_mem_singleton.mpr (Nat.succ_pos 59)) ?_ ?_)
  · exact (by omega : 60 < burstFuel - k)
  · exact (by omega : 60 < burstFuel)

/-- Settles O46: where the SWIN is not refused, both sides are the QBUF at the state after Recompute. -/
theorem dirtyQbufRecomputesFirst : Obligations.DirtyQbufRecomputesFirst := by
  intro s u id base0 base1 base2 f hready hplain hstreaming hfmt hadm hdirty hswin hu
  have hchange : ¬ (s.c.win = s.c.win ∧ s.c.dirty = false) := by simp [hdirty]
  have hrec : s.recoverable := by
    by_contra hnot
    obtain ⟨v, hv, hrefused⟩ := exec_swin_refused hready hplain hchange hfmt hnot
    cases hswin.symm.trans hv
    exact hrefused hu
  have hexec : exec (.swin s.c.win.left s.c.win.top s.c.win.width s.c.win.height) s = .next (s.recomputed.report .ok) :=
    exec_swin_recomputed hready hplain hchange hfmt hrec
  cases hswin.symm.trans hexec
  obtain ⟨-, -, -, hclean, -, -, hresults⟩ := s.recomputed_keeps
  rw [hresults]
  exact ⟨hclean, exec_qbuf_recomputed hready hplain hstreaming hfmt hdirty hadm hrec⟩

end Sys2Proof.Machine

/-! ## Controller operations run whole and resumed, and the test of the luma plane (R46, R155) -/

namespace Sys2Proof.Machine

/-- An operation that starts with an event that is no wait point, and whose actions lead to t, ends at t. -/
theorem State.runOp_of_runs {op : OpName} {k : Nat} {a : Act} {rest : List Act} {s t : State}
    (h : Runs op k (a :: rest) [] s t) (hs : s.unsplit) (hevent : a.isEvent = true) (hwait : a.isWait = false)
    (hk : k < burstFuel) (hfree : t.c.busy = none) : s.runOp op (a :: rest) = t := by
  rw [State.runOp, burst_grant hs op rest hevent hwait, h.fin hk, State.endOp_of_free hfree]

/-- An operation in progress goes on with its next event, whatever the turns. -/
theorem State.resume_event {s : State} {b : Busy} {a : Act} {acts : List Act} (hb : s.c.busy = some b)
    (hacts : b.acts = a :: acts) (ha : a.isEvent = true) :
    s.resume = burst 255 false (perform a (s.startOp b.op acts)) := by
  have htaken : s.setActs acts = s.startOp b.op acts := by rw [State.setActs, hb]; rfl
  rw [State.resume, burstFuel, burst, hb]
  simp only [hacts, htaken, ha, Bool.true_eq_false, if_false, if_true]

/-- `PlaneHit(B, a)` as its bounds (R155). -/
theorem planeHit_iff (prm : Params) (b : Buffer) (a : Word) :
    planeHit prm b a = true
      ↔ (b.base.get .y).toNat ≤ a.toNat ∧ a.toNat < (b.base.get .y).toNat + pbytes prm b.fmt .y := by
  rw [planeHit, Bool.and_eq_true, decide_eq_true_iff, decide_eq_true_iff]

end Sys2Proof.Machine

/-! ## Admission of a buffer (44_buffer_queue_irq.md R151; 60_exceptions.md R200 (d)) -/

namespace Sys2Proof.Machine

/-! ### The four checks that need a format -/

/-- The base word of an active plane is the packet's operand. -/
theorem newBuffer_base_get {prm : Params} {f : FrameFormat} {p : Plane} (hp : p.index < np prm f.tag)
    (id base0 base1 base2 : Word) :
    (newBuffer prm f id base0 base1 base2).base.get p
      = ({ y := base0, u := base1, v := base2 } : Planes Word).get p := by
  cases p with
  | y => rfl
  | u => exact if_neg (Nat.not_le.mpr hp)
  | v => exact if_neg (Nat.not_le.mpr hp)

theorem anyMisaligned_iff (prm : Params) (b : Buffer) :
    (b.planes prm).any (fun p => !wordAligned (b.base.get p)) = true
      ↔ ∃ p : Plane, p.index < np prm b.fmt.tag ∧ (b.base.get p).toNat % 4 ≠ 0 := by
  simp only [List.any_eq_true, mem_planes, Bool.not_eq_true', ← Bool.not_eq_true, wordAligned_iff, ne_eq]

theorem anyWrap_iff (prm : Params) (b : Buffer) :
    (b.planes prm).any (fun p => decide ((b.region prm p).hi > 2 ^ 32)) = true
      ↔ ∃ p : Plane, p.index < np prm b.fmt.tag
          ∧ (b.base.get p).toNat + align4 (pbytes prm b.fmt p) + 12 > 2 ^ 32 := by
  simp only [List.any_eq_true, mem_planes, decide_eq_true_eq]
  rfl

/-- A plane region holds at least its trailer, so it is not empty. -/
theorem Buffer.region_nonempty {prm : Params} {b : Buffer} {r : Region} (h : r ∈ b.regions prm) : r.lo < r.hi := by
  obtain ⟨p, -, rfl⟩ := List.mem_map.mp h
  exact Nat.lt_of_le_of_lt (Nat.le_add_right _ _) (Nat.lt_add_of_pos_right (by decide : 0 < 12))

theorem slotRegions_nonempty {prm : Params} {slot : Option Buffer} {r : Region} (h : r ∈ slotRegions prm slot) :
    r.lo < r.hi := by
  cases slot with
  | none => cases h
  | some b => exact Buffer.region_nonempty h

/-- Regions that are not empty overlap when some address lies in both. -/
theorem Region.overlaps_eq_false_iff_apart {x y : Region} (hx : x.lo < x.hi) (hy : y.lo < y.hi) :
    x.overlaps y = false ↔ ¬ ∃ a : Nat, x.lo ≤ a ∧ a < x.hi ∧ y.lo ≤ a ∧ a < y.hi := by
  rw [Region.overlaps_eq_false_iff]
  constructor
  · rintro h ⟨a, hxlo, hxhi, hylo, hyhi⟩
    omega
  · intro h
    by_contra hmeet
    exact h ⟨max x.lo y.lo, by omega⟩

/-- The overlap check covers every two regions among the new buffer's and the two slots' (log 25). -/
theorem anyOverlap_eq_true_iff (prm : Params) (c : Controller) (b : Buffer) :
    anyOverlap (b.regions prm ++ slotRegions prm c.cur ++ slotRegions prm c.nxt) = true
      ↔ ¬ (b.regions prm ++ slotRegions prm c.cur ++ slotRegions prm c.nxt).Pairwise
          (fun x y => ¬ ∃ a : Nat, x.lo ≤ a ∧ a < x.hi ∧ y.lo ≤ a ∧ a < y.hi) := by
  have hnonempty : ∀ r ∈ b.regions prm ++ slotRegions prm c.cur ++ slotRegions prm c.nxt, r.lo < r.hi := by
    simp only [List.forall_mem_append]
    exact ⟨⟨fun _ => Buffer.region_nonempty, fun _ => slotRegions_nonempty⟩, fun _ => slotRegions_nonempty⟩
  rw [← Bool.not_eq_false, anyOverlap_eq_false_iff, not_iff_not]
  exact List.Pairwise.iff_of_mem fun hx hy => Region.overlaps_eq_false_iff_apart (hnonempty _ hx) (hnonempty _ hy)

theorem slotHas_eq_true_iff (slot : Option Buffer) (id : Word) :
    slotHas slot id = true ↔ slot.map Buffer.id = some id := by
  cases slot <;> simp [slotHas]

/-! ### The answer of QBUF (R151) -/

section
variable {s : State} (hready : s.ready) (id base0 base1 base2 : Word)
include hready

theorem exec_qbuf_notStreaming (h : s.c.streaming = false) :
    exec (.qbuf id base0 base1 base2) s = .next { s with refused := some .qbufNotStreaming } := by
  rw [exec, execQbuf, controllerStep_ready hready, if_pos h, State.refuse_of_free hready.2]

theorem exec_qbuf_noFormat (hstreaming : s.c.streaming = true) (hfmt : s.c.fmt = none) :
    exec (.qbuf id base0 base1 base2) s = .next { s with refused := some .qbufNoFormat } := by
  rw [exec, execQbuf, controllerStep_ready hready, if_neg (by rw [hstreaming]; exact nofun), hfmt]
  exact congrArg _ (State.refuse_of_free hready.2 _)

theorem exec_qbuf_refused {f : FrameFormat} {reason : RefuseReason} (hstreaming : s.c.streaming = true)
    (hfmt : s.c.fmt = some f)
    (h : admissionProblem s.prm s.c (newBuffer s.prm f id base0 base1 base2) = some reason) :
    exec (.qbuf id base0 base1 base2) s = .next { s with refused := some reason } := by
  rw [exec, execQbuf, controllerStep_ready hready, if_neg (by rw [hstreaming]; exact nofun), hfmt]
  simp only [h]
  exact congrArg _ (State.refuse_of_free hready.2 _)

end

/-- Settles O44: the checks of `admissionProblem` are the four conditions of the statement, in their order. -/
theorem qbufAdmission : Obligations.QbufAdmission := by
  intro s id base0 base1 base2 hready
  refine ⟨exec_qbuf_notStreaming hready id base0 base1 base2, exec_qbuf_noFormat hready id base0 base1 base2, ?_⟩
  intro f hstreaming hfmt b base misaligned wraps apart held
  have hrefused : ∀ reason, admissionProblem s.prm s.c b = some reason →
      exec (.qbuf id base0 base1 base2) s = .next { s with refused := some reason } :=
    fun _ => exec_qbuf_refused hready id base0 base1 base2 hstreaming hfmt
  have hbase : ∀ p : Plane, p.index < np s.prm f.tag → (b.base.get p).toNat = base p :=
    fun p hp => congrArg BitVec.toNat (newBuffer_base_get hp id base0 base1 base2)
  have hmisaligned : (b.planes s.prm).any (fun p => !wordAligned (b.base.get p)) = true ↔ misaligned :=
    (anyMisaligned_iff s.prm b).trans
      (exists_congr fun p => and_congr_right fun (hp : p.index < np s.prm f.tag) => by rw [hbase p hp])
  have hwraps : (b.planes s.prm).any (fun p => decide ((b.region s.prm p).hi > 2 ^ 32)) = true ↔ wraps :=
    (anyWrap_iff s.prm b).trans
      (exists_congr fun p => and_congr_right fun (hp : p.index < np s.prm f.tag) => by rw [hbase p hp]; rfl)
  have hoverlap := anyOverlap_eq_true_iff s.prm s.c b
  have hheld : (slotHas s.c.cur b.id || slotHas s.c.nxt b.id) = true ↔ held := by
    rw [Bool.or_eq_true, slotHas_eq_true_iff, slotHas_eq_true_iff]
    rfl
  refine ⟨fun hm => hrefused _ ?_, fun hm hw => hrefused _ ?_, fun hm hw ho => hrefused _ ?_,
    fun hm hw ho hh => hrefused _ ?_, fun hm hw ho hh => ?_⟩
  · rw [admissionProblem, if_pos (hmisaligned.mpr hm)]
  · rw [admissionProblem, if_neg (mt hmisaligned.mp hm), if_pos (hwraps.mpr hw)]
  · rw [admissionProblem, if_neg (mt hmisaligned.mp hm), if_neg (mt hwraps.mp hw), if_pos (hoverlap.mpr ho)]
  · rw [admissionProblem, if_neg (mt hmisaligned.mp hm), if_neg (mt hwraps.mp hw),
      if_neg (mt hoverlap.mp (not_not_intro ho)), if_pos (hheld.mpr hh)]
  · rw [admissionProblem, if_neg (mt hmisaligned.mp hm), if_neg (mt hwraps.mp hw),
      if_neg (mt hoverlap.mp (not_not_intro ho)), if_neg (mt hheld.mp hh)]

end Sys2Proof.Machine

/-! ## Buffer submit: Bad, a disabled channel, an enabled channel (44_buffer_queue_irq.md R152 to R158) -/

namespace Sys2Proof.Machine

/-! ### The configuration is Bad (R157) -/

theorem perform_qbufGo_bad {s : State} (hcfg : s.c.cfg = .bad) (b : Buffer) (op : OpName) (rest : List Act) :
    perform (.qbufGo b) (s.startOp op rest) = (s.setC (s.c.complete b.id .done)).startOp op (.finish .ok :: rest) := by
  have hstarted : (s.startOp op rest).c.cfg = .bad := hcfg
  rw [perform, State.qbufGo, if_pos hstarted]
  rfl

/-- Settles O45: at Bad the operation has no event, so it ends at once, whatever the turns and SYNC_REGS. -/
theorem qbufWhileBad : Obligations.QbufWhileBad := by
  intro s id base0 base1 base2 f hready hstreaming hfmt hadm hclean hbad
  rw [exec_qbuf_admitted hready hstreaming hfmt hclean hadm, State.runOp, burstFuel, burst_local 255 true s .qbuf rfl,
    perform_qbufGo_bad hbad, burst_local 254 true _ .qbuf rfl, perform_finish, burst_nil]
  exact congrArg _ (State.endOp_of_free hready.2)

/-! ### The channel is disabled (R153, R158) -/

/-- Settles O47: `State.enabledFor` is the state the statement spells out. -/
theorem qbufEnablesTheChannel : Obligations.QbufEnablesTheChannel := by
  intro s id base0 base1 base2 f g hready hplain hstreaming hfmt hclean hcfg hg hadm hoff b
  rw [exec_qbuf_enables hready hplain hstreaming hfmt hclean hcfg hg hadm hoff, State.enabledFor,
    List.append_assoc _ [MicroEvent.barrier]]
  rfl

/-! ### The channel is enabled: the actions after the build (R152, R153) -/

/-- The in-use test on an enabled channel (R156). -/
theorem inUse_enabled_iff {e : Engine} (hon : e.chen = true) (prm : Params) (cur : Option Buffer) (a : Word) :
    inUse prm cur e.chsr a = true
      ↔ ∃ b, cur = some b ∧ (b.base.get .y).toNat ≤ a.toNat
          ∧ a.toNat < (b.base.get .y).toNat + pbytes prm b.fmt .y := by
  cases cur with
  | none => simp [inUse]
  | some b => simp [inUse, chsrEnabled_chsr, hon, planeHit_iff]

/-- What a show on an enabled channel issues, with Advance and the result after it: the shadow configuration g only where one
waits for a latch (R153, R158). -/
def State.updateActs (s : State) (g : Cfg) (b : Buffer) (inuse : Bool) : List Act :=
  (if s.c.cfg = .goodNeedsLatch then cfgWrites s.prm g else []) ++ writeHeads s.prm b
    ++ [wrAct s.prm .cher 2#32, .setCfg .good, .advance b inuse, .finish .ok]

/-- The controller's reads before a show on an enabled channel: ADDR_Y only where there is a current buffer (R152). -/
def State.submitReads (s : State) : List MicroEvent :=
  .rd .chsr s.e.chsr :: (if s.c.cur.isSome then [.rd (.addr .y) (s.e.addr.get .y)] else [])

section
variable {s : State} {g : Cfg} (hg : s.c.cfg = .goodNeedsLatch → s.geometry = some g) (b : Buffer) (op : OpName)
include hg

theorem State.showThenAdvance_enabled {v : Word} (hv : chsrEnabled v = true) (a : Word) (rest : List Act) :
    (s.startOp op rest).showThenAdvance b v a
      = s.startOp op (s.updateActs g b (inUse s.prm s.c.cur v a) ++ rest) := by
  have hacts : (s.startOp op rest).showActs b v
      = (s.startOp op rest, (if s.c.cfg = .goodNeedsLatch then cfgWrites s.prm g else []) ++ writeHeads s.prm b
          ++ [wrAct s.prm .cher 2#32, .setCfg .good]) := by
    rw [State.showActs, if_neg (by rw [hv]; exact nofun), State.startOp_c]
    by_cases hlatch : s.c.cfg = .goodNeedsLatch
    · have hshadow : (s.startOp op rest).writeShadowAll = (s.startOp op rest, cfgWrites s.prm g) :=
        State.writeShadowAll_valid (hg hlatch)
      rw [if_pos hlatch, if_pos hlatch, hshadow]
      rfl
    · rw [if_neg hlatch, if_neg hlatch]
      rfl
  rw [State.showThenAdvance_eq, hacts, State.startOp_push, State.updateActs, List.append_assoc _ _ [Act.advance _ _, _]]
  rfl

/-- Without a current buffer, QBUF's RD(CHSR) leads to the show; no buffer is in use then (R152, R156). -/
theorem perform_qbufChsr_show (hon : s.e.chen = true) (hcur : s.c.cur = none) (rest : List Act) :
    perform (.qbufChsr b) (s.startOp op rest) = (s.readEvent .chsr).startOp op (s.updateActs g b false ++ rest) := by
  have hshow := State.showThenAdvance_enabled (s := s.readEvent .chsr) hg b op ((chsrEnabled_chsr s.e).trans hon) 0#32 rest
  rw [State.readEvent_c, hcur] at hshow
  rw [perform, State.qbufChsr, State.startOp_c, hcur]
  exact hshow

/-- QBUF's RD(ADDR_Y) leads to the show, with the in-use test on the word read (R152, R156). -/
theorem perform_qbufAddr (hon : s.e.chen = true) (rest : List Act) :
    perform (.qbufAddr b s.e.chsr) (s.startOp op rest)
      = (s.readEvent (.addr .y)).startOp op
          (s.updateActs g b (inUse s.prm s.c.cur s.e.chsr (s.e.addr.get .y)) ++ rest) :=
  State.showThenAdvance_enabled (s := s.readEvent (.addr .y)) hg b op ((chsrEnabled_chsr s.e).trans hon) _ rest

omit hg in
/-- With a current buffer on an enabled channel, QBUF reads ADDR_Y next (R152). -/
theorem perform_qbufChsr_addr {b0 : Buffer} (hon : s.e.chen = true) (hcur : s.c.cur = some b0) (rest : List Act) :
    perform (.qbufChsr b) (s.startOp op rest) = (s.readEvent .chsr).startOp op (.qbufAddr b s.e.chsr :: rest) := by
  rw [perform, State.qbufChsr, State.startOp_c, State.startOp_e, hcur, chsrEnabled_chsr, hon]
  rfl

/-- From QBUF's RD(CHSR) to the show on an enabled channel. -/
theorem Runs.submitReads (hs : s.unsplit) (hon : s.e.chen = true) :
    ∃ k ≤ 2, Runs op k [.qbufChsr b] (s.updateActs g b (inUse s.prm s.c.cur s.e.chsr (s.e.addr.get .y))) s
      { s with trace := s.trace ++ s.submitReads } := by
  obtain hcur | ⟨b0, hcur⟩ := Option.eq_none_or_eq_some s.c.cur
  · rw [State.submitReads, hcur]
    exact ⟨1, by decide, Runs.event hs rfl rfl (perform_qbufChsr_show hg b op hon hcur)⟩
  · have hchsr := Runs.event (more := [.qbufAddr b s.e.chsr]) hs rfl rfl (perform_qbufChsr_addr b op hon hcur)
    have haddr := Runs.event (s := s.readEvent .chsr) hs rfl rfl (perform_qbufAddr (s := s.readEvent .chsr) hg b op hon)
    have htrace : s.trace ++ s.submitReads = s.trace ++ [.rd .chsr s.e.chsr] ++ [.rd (.addr .y) (s.e.addr.get .y)] := by
      rw [State.submitReads, hcur, List.append_assoc]
      rfl
    rw [htrace]
    exact ⟨2, le_refl 2, hchsr.trans haddr⟩

end

/-! ### The channel is enabled: the state after the show (R153, R158) -/

/-- The engine after a show on an enabled channel (R153). -/
def State.updatedEngine (s : State) (g : Cfg) (b : Buffer) : Engine :=
  { s.e with
    shadow := if s.c.cfg = .goodNeedsLatch then g else s.e.shadow
    head := headsOf s.prm b s.e.head
    updpend := true }

/-- The events of a show on an enabled channel (R153). -/
def State.updateEvents (s : State) (g : Cfg) (b : Buffer) : List MicroEvent :=
  (if s.c.cfg = .goodNeedsLatch then cfgEvents g else []) ++ headEvents s.prm b ++ [.wr .cher 2#32]

/-- The shadow configuration, written only where it waits for a latch (R153). -/
theorem Runs.latchingShadow {op : OpName} {s : State} (hplain : s.plain) (g : Cfg) :
    ∃ k ≤ 16, Runs op k (if s.c.cfg = .goodNeedsLatch then Machine.cfgWrites s.prm g else []) [] s
      { s with
        e := { s.e with shadow := if s.c.cfg = .goodNeedsLatch then g else s.e.shadow }
        trace := s.trace ++ (if s.c.cfg = .goodNeedsLatch then cfgEvents g else []) } := by
  by_cases hlatch : s.c.cfg = .goodNeedsLatch
  · simp only [if_pos hlatch]
    exact ⟨16, le_refl 16, Runs.cfgWrites g s hplain.2 hplain.1⟩
  · simp only [if_neg hlatch, List.append_nil]
    exact ⟨0, Nat.zero_le 16, Runs.refl op [] s⟩

/-- The end of a show on an enabled channel: CHER = 2, ConfigState, Advance and the result. -/
theorem Runs.updateEnd {op : OpName} {s : State} (b : Buffer) (inuse : Bool) (hs : s.unsplit) (hr : s.prm.syncRegs = []) :
    Runs op 4 [wrAct s.prm .cher 2#32, .setCfg .good, .advance b inuse, .finish .ok] [] s
      { s with
        c := { s.c with cfg := .good }.advance b inuse
        e := { s.e with updpend := true }
        results := s.results ++ [.ok]
        trace := s.trace ++ [.wr .cher 2#32] } :=
  Runs.cons (Runs.wr hs hr (Engine.write_cher2 s.e))
    (Runs.cons (Runs.setCfg op .good _) (Runs.cons (Runs.advance op b inuse _) (Runs.finish op .ok _)))

/-- A show on an enabled channel, to the result. -/
theorem Runs.update {op : OpName} {s : State} {b : Buffer} (hplain : s.plain) (g : Cfg) (inuse : Bool)
    (haligned : ∀ p ∈ b.planes s.prm, wordAligned (b.desc.get p) = true) :
    ∃ k ≤ 23, Runs op k (s.updateActs g b inuse) [] s
      { s with
        c := { s.c with cfg := .good }.advance b inuse
        e := s.updatedEngine g b
        results := s.results ++ [.ok]
        trace := s.trace ++ s.updateEvents g b } := by
  obtain ⟨hr, hs⟩ := hplain
  have hplanes := b.planes_length s.prm
  obtain ⟨k, hk, hshadow⟩ := Runs.latchingShadow (op := op) (s := s) ⟨hr, hs⟩ g
  have hheads := hshadow.seq (Runs.writeHeads b _ hs hr haligned)
  have hend := hheads.seq (Runs.updateEnd b inuse hs hr)
  simp only [List.append_assoc] at hend
  rw [State.updateEvents, State.updateActs]
  simp only [List.append_assoc]
  exact ⟨k + (b.planes s.prm).length + 4, by omega, hend⟩

/-- The machine after a QBUF of buffer b on an enabled channel (R152, R153, R158). -/
def State.updatedFor (s : State) (b : Buffer) (g : Cfg) (inuse : Bool) : State :=
  { s with
    c := { s.c with cfg := .good }.advance (b.withDesc s.prm) inuse
    e := s.updatedEngine g (b.withDesc s.prm)
    mem := storeDescriptors s.prm s.c.rot b s.mem
    unpub := []
    results := s.results ++ [.ok]
    trace :=
      s.trace ++ buildEvents s.prm s.c.rot b ++ [.barrier] ++ s.submitReads ++ s.updateEvents g (b.withDesc s.prm) }

/-- After the descriptors of buffer b are built and published (R113, R116). -/
def State.built (s : State) (b : Buffer) : State :=
  { s with
    mem := storeDescriptors s.prm s.c.rot b s.mem
    unpub := []
    trace := s.trace ++ buildEvents s.prm s.c.rot b ++ [.barrier] }

/-- The build, the barrier, the reads and the show, one after another. -/
theorem Runs.buildAndUpdate {s : State} {g : Cfg} {b : Buffer} (hplain : s.plain) (hcfg : s.c.cfg ≠ .bad)
    (hg : s.c.cfg = .goodNeedsLatch → s.geometry = some g) (hon : s.e.chen = true)
    (haligned : ∀ p ∈ b.planes s.prm, wordAligned ((b.withDesc s.prm).desc.get p) = true) :
    ∃ k ≤ 36, Runs .qbuf k [.qbufGo b] [] s
      (s.updatedFor b g (inUse s.prm s.c.cur s.e.chsr (s.e.addr.get .y))) := by
  have hplanes := b.planes_length s.prm
  have hgo := Runs.own (more := _) rfl (perform_qbufGo hcfg b .qbuf)
  have hbuild : Runs .qbuf _ _ [] s (s.built b) := Runs.buildBarrier s.c.rot b s hplain.2
  obtain ⟨j, hj, hreads⟩ := Runs.submitReads (s := s.built b) hg (b.withDesc s.prm) .qbuf hplain.2 hon
  obtain ⟨k, hk, hshow⟩ := Runs.update (op := .qbuf)
    (s := { s.built b with trace := (s.built b).trace ++ s.submitReads }) (b := b.withDesc s.prm) hplain g
    (inUse s.prm s.c.cur s.e.chsr (s.e.addr.get .y)) haligned
  have hrest := hbuild.seq (hreads.trans hshow)
  rw [List.append_assoc] at hrest
  exact ⟨1 + (3 * (b.planes s.prm).length + 1 + (j + k)), by omega, hgo.trans hrest⟩

/-- QBUF starts with a decision of its own; the grant of the first event after it makes no difference, so the operation ends
where its actions lead. -/
theorem State.runOp_submit {s t : State} {b : Buffer} {k : Nat} (hplain : s.plain)
    (h : Runs .qbuf k [.qbufGo b] [] s t) (hk : k < burstFuel) (hfree : t.c.busy = none) :
    s.runOp .qbuf [.qbufGo b] = t := by
  have hgrant : burst burstFuel true (s.startOp .qbuf [.qbufGo b]) = burst burstFuel false (s.startOp .qbuf [.qbufGo b]) :=
    burst_submit_eq hplain (List.forall_mem_singleton.mpr (Nat.succ_pos 59)) (by decide : 60 < burstFuel)
      (by decide : 60 < burstFuel)
  rw [State.runOp, hgrant, h.fin hk, State.endOp_of_free hfree]

/-- An admitted QBUF that finds the channel enabled, its configuration not Bad, and no change pending (R152, R153, R158). -/
theorem exec_qbuf_updates {s : State} {id base0 base1 base2 : Word} {f : FrameFormat} {g : Cfg} (hready : s.ready)
    (hplain : s.plain) (hstreaming : s.c.streaming = true) (hfmt : s.c.fmt = some f) (hclean : s.c.dirty = false)
    (hcfg : s.c.cfg ≠ .bad) (hg : s.c.cfg = .goodNeedsLatch → geometry s.prm f s.c.win s.c.rot = some g)
    (hadm : admissionProblem s.prm s.c (newBuffer s.prm f id base0 base1 base2) = none) (hon : s.e.chen = true) :
    exec (.qbuf id base0 base1 base2) s
      = .next (s.updatedFor (newBuffer s.prm f id base0 base1 base2) g
          (inUse s.prm s.c.cur s.e.chsr (s.e.addr.get .y))) := by
  have hgeometry : s.c.cfg = .goodNeedsLatch → s.geometry = some g := by
    rw [State.geometry, hfmt]
    exact hg
  have haligned : ∀ p ∈ (newBuffer s.prm f id base0 base1 base2).planes s.prm,
      wordAligned (((newBuffer s.prm f id base0 base1 base2).withDesc s.prm).desc.get p) = true := by
    intro p hp
    rw [Buffer.withDesc_get hp]
    exact admitted_descAddr_aligned hadm hp
  obtain ⟨k, hk, hruns⟩ := Runs.buildAndUpdate hplain hcfg hgeometry hon haligned
  have hfree : ∀ u, (s.updatedFor (newBuffer s.prm f id base0 base1 base2) g u).c.busy = none := by
    intro u
    rw [State.updatedFor, Controller.advance_eq]
    split <;> exact hready.2
  rw [exec_qbuf_admitted hready hstreaming hfmt hclean hadm,
    State.runOp_submit hplain hruns (Nat.lt_of_le_of_lt hk (by decide)) (hfree _)]

/-- Settles O48: `State.updatedFor`, by the in-use test. -/
theorem qbufOnAnEnabledChannel : Obligations.QbufOnAnEnabledChannel := by
  intro s id base0 base1 base2 f g hready hplain hstreaming hfmt hclean hcfg hg hadm hon b inUse shown
  have hexec := exec_qbuf_updates hready hplain hstreaming hfmt hclean hcfg hg hadm hon
  have hinUse := inUse_enabled_iff hon s.prm s.c.cur (s.e.addr.get .y)
  have hshown : ∀ u, s.updatedFor (newBuffer s.prm f id base0 base1 base2) g u
      = shown ({ s.c with cfg := .good }.advance b u) := by
    intro u
    simp only [State.updatedFor, State.submitReads, State.updateEvents, shown, List.append_assoc, List.cons_append,
      List.nil_append]
    rfl
  rw [hshown, Controller.advance_eq] at hexec
  refine ⟨fun huse => ?_, fun hfree => ?_⟩
  · rw [if_pos (hinUse.mpr huse)] at hexec
    exact hexec
  · rw [if_neg (mt hinUse.mp hfree)] at hexec
    exact hexec

end Sys2Proof.Machine

/-! ## Stream on and stream off (44_buffer_queue_irq.md R162 to R164) -/

namespace Sys2Proof.Machine

/-! ### The actions of STREAMOFF (R163, R164) -/

theorem perform_offChsr (s : State) (op : OpName) (rest : List Act) :
    perform .offChsr (s.startOp op rest)
      = (s.readEvent .chsr).startOp op
          ((if s.e.chen then wrAct s.prm .chdr 1#32 :: .offPoll :: offTail s.prm else offTail s.prm) ++ rest) := by
  rw [perform, State.offChsr, State.startOp_e, chsrEnabled_chsr]
  cases s.e.chen <;> rfl

/-- A quiesce poll that finds the channel disabled is the last (R164). -/
theorem perform_offPoll_disabled {s : State} (hoff : s.e.chen = false) (op : OpName) (rest : List Act) :
    perform .offPoll (s.startOp op rest) = (s.readEvent .chsr).startOp op rest := by
  rw [perform, State.offPoll, State.startOp_e, chsrEnabled_chsr]
  exact if_neg (by rw [hoff]; exact nofun)

theorem perform_offFlush (s : State) (op : OpName) (rest : List Act) :
    perform .offFlush (s.startOp op rest) = (s.setC s.c.flush).startOp op rest := by
  rw [perform, Controller.flush_eq, Controller.flush_eq]
  rfl

/-- After the write of IDR that masks the Y DMA, DSCR, ADD and DONE interrupts (R163, R167). -/
def State.dmaMasked (s : State) : State :=
  (s.setE { s.e with imr := s.e.imr &&& ~~~irqDma }).record (.wr .idr irqDma)

theorem Runs.maskDma {op : OpName} {s : State} (hs : s.unsplit) (hr : s.prm.syncRegs = []) :
    Runs op 1 [wrAct s.prm .idr irqDma] [] s s.dmaMasked :=
  Runs.wr hs hr (Engine.write_idrDma s.e)

/-- The controller after STREAMOFF: both slots retired Done, Idle, not streaming (R163). -/
def Controller.streamedOff (c : Controller) : Controller :=
  { c with
    log := c.log ++ slotEntry c.cur .done ++ slotEntry c.nxt .done
    cur := none
    nxt := none
    chan := .idle
    streaming := false }

/-- The machine after what follows the quiesce of STREAMOFF (R163). -/
def State.streamedOff (s : State) : State :=
  { s with
    c := s.c.streamedOff
    e := { s.e with imr := s.e.imr &&& ~~~irqDma, isr := 0#32 }
    results := s.results ++ [.ok]
    trace := s.trace ++ [.wr .idr irqDma] ++ [.rd .isr s.e.isr] }

/-- Both slots retired, the DMA interrupts masked, the stale status discarded, Idle, and the result. -/
theorem Runs.offTail {op : OpName} {s : State} (hs : s.unsplit) (hr : s.prm.syncRegs = []) :
    Runs op 5 (offTail s.prm) [] s s.streamedOff := by
  have hflush : Runs op 1 [.offFlush] [] s (s.setC s.c.flush) := Runs.own rfl (perform_offFlush s op)
  have hmask : Runs op 1 [wrAct s.prm .idr irqDma] [] (s.setC s.c.flush) (s.setC s.c.flush).dmaMasked :=
    Runs.maskDma hs hr
  have hread := Runs.rd (op := op) (s := (s.setC s.c.flush).dmaMasked) .isr hs
  have hidle : ∀ u : State, Runs op 1 [.offEnd] [] u (u.setC { u.c with chan := .idle, streaming := false }) :=
    fun u => Runs.own rfl fun rest => rfl
  have h := hflush.cons (hmask.cons (hread.cons ((hidle _).cons (Runs.finish op .ok _))))
  rw [Controller.flush_eq] at h
  exact h

/-- STREAMOFF while streaming starts with its RD(CHSR) (R163). -/
theorem exec_streamoff_streaming {s : State} (hready : s.ready) (hstreaming : s.c.streaming = true) :
    exec .streamoff s = .next (s.runOp .streamoff [.offChsr]) := by
  rw [exec, execStreamoff, controllerStep_ready hready, if_neg (by rw [hstreaming]; exact nofun)]

/-! ### The channel is disabled -/

theorem Runs.offDisabled {op : OpName} {s : State} (hplain : s.plain) (hoff : s.e.chen = false) :
    Runs op 6 [.offChsr] [] s (s.readEvent .chsr).streamedOff := by
  have hchsr := Runs.event (op := op) hplain.2 rfl rfl (perform_offChsr s op)
  rw [hoff] at hchsr
  exact hchsr.trans (Runs.offTail (s := s.readEvent .chsr) hplain.2 hplain.1)

/-- Settles O51: STREAMON, and the two STREAMOFFs that do not wait. -/
theorem streamOnAndOffOnAStoppedChannel : Obligations.StreamOnAndOffOnAStoppedChannel := by
  refine ⟨by decide, by decide, fun s hready => ⟨?_, fun hidle => ?_, fun hplain hstreaming hoff => ?_⟩⟩
  · rw [exec, execStreamon, controllerStep_ready hready]
    rfl
  · rw [exec, execStreamoff, controllerStep_ready hready, if_pos hidle]
    rfl
  · rw [exec_streamoff_streaming hready hstreaming,
      State.runOp_of_runs (Runs.offDisabled hplain hoff) hplain.2 rfl rfl (by decide) hready.2, State.streamedOff,
      State.readEvent_trace, List.append_assoc s.trace, List.append_assoc s.trace]
    rfl

/-! ### The channel is enabled: the wait, the engine's frame step, the last poll (R164, R176, R181, R190) -/

/-- STREAMOFF on an enabled channel, at its wait for the quiesce; `yielded` says that the engine has had its turn since the
last poll (R163, R164; log 3). -/
def State.quiescing (s : State) (yielded : Bool) : State :=
  { s with
    c := { s.c with busy := some { op := .streamoff, acts := .offPoll :: offTail s.prm, yielded := yielded } }
    e := { s.e with dispend := true }
    trace := s.trace ++ [.rd .chsr s.e.chsr] ++ [.wr .chdr 1#32] }

theorem exec_streamoff_waits {s : State} (hready : s.ready) (hplain : s.plain) (hstreaming : s.c.streaming = true)
    (hon : s.e.chen = true) : exec .streamoff s = .next (s.quiescing false) := by
  obtain ⟨hr, hs⟩ := hplain
  have hchsr := Runs.event (op := .streamoff) hs rfl rfl (perform_offChsr s .streamoff)
  have hpending : (s.e.dispend || s.e.chen) = true := by rw [hon, Bool.or_true]
  have hdisable := Runs.wr (op := .streamoff) (s := s.readEvent .chsr) hs hr (Engine.write_chdr1 s.e)
  rw [hon] at hchsr
  rw [hpending] at hdisable
  have hwait := (hchsr.trans (hdisable.frame (.offPoll :: offTail s.prm))) burstFuel [] (by decide)
  rw [List.append_nil, List.append_nil] at hwait
  rw [exec_streamoff_streaming hready hstreaming, State.runOp, burst_grant hs .streamoff [] rfl rfl, hwait]
  exact congrArg _ (burst_wait 253 _ .streamoff rfl rfl _)

/-- Engine e stopped: the channel disabled, the shadow configuration and the fault record kept (R176). -/
structure Engine.StopsAt (e e' : Engine) : Prop where
  chen : e'.chen = false
  fault : e'.fault = e.fault
  shadow : e'.shadow = e.shadow

/-- With a disable pending, the frame step that fairness obliges the engine to take completes it: E_FSTART between frames,
E_FEND during one (R176, R181, R189). -/
theorem exec_frameStep_stops {s : State} {i : Instr} (hready : s.engineReady) (hdisp : s.e.dispend = true)
    (hi : s.frameStep = some i) : ∃ e, exec i s = .next (s.setE e) ∧ s.e.StopsAt e := by
  rw [State.frameStep, hready.2] at hi
  cases hphase : s.e.phase with
  | between =>
    cases hchen : s.e.chen with
    | false => simp [hphase, hchen] at hi
    | true =>
      obtain rfl : Instr.eFstart = i := by simpa [hphase, hchen] using hi
      refine ⟨s.e.stopChannel s.prm, ?_, rfl, rfl, rfl⟩
      rw [exec, execEFstart, engineStep_ready hready (by rw [hchen, hphase]; rfl), if_pos hdisp]
  | fetching =>
    obtain rfl : Instr.eFend = i := by simpa [hphase] using hi
    obtain ⟨addr, isr, hend, -⟩ := s.e.endFrame_spec s.prm
    refine ⟨s.e.endFrame s.prm, ?_, ?_⟩
    · rw [exec, execEFend, engineStep_ready hready (by rw [hphase]; rfl)]
    · rw [hend, hdisp]
      exact ⟨Bool.and_false _, rfl, rfl⟩

theorem frameStep_of_enabled {s : State} (hfault : s.e.fault = none) (hon : s.e.chen = true) :
    ∃ i, s.frameStep = some i := by
  rw [State.frameStep, hfault, hon]
  cases s.e.phase with
  | between => exact ⟨_, rfl⟩
  | fetching => exact ⟨_, rfl⟩

/-- At its wait, with no packet and no turn, the engine takes its frame step (log 3). -/
theorem step_quiescing {s : State} {i : Instr} (hready : s.ready) (hturns : s.turns = []) (hstream : s.stream = [])
    (hi : (s.quiescing false).frameStep = some i) : step (s.quiescing false) = exec i (s.quiescing true) := by
  have hoffer : (s.quiescing false).engineOffer = some (i, s.quiescing false) := by
    have hempty : decode (s.quiescing false).stream = .bad .invalidEncoding := congrArg decode hstream
    rw [State.engineOffer, hempty]
    simp only [hi]
    rfl
  have hmove : nextMove (s.quiescing false) = (s.quiescing false).busyMove
      { op := .streamoff, acts := .offPoll :: offTail s.prm, yielded := false } := by
    have hrefused : (s.quiescing false).refused = none := hready.1
    rw [nextMove, hrefused]
    rfl
  have hbusy : (s.quiescing false).turns = [] := hturns
  refine step_of_nextMove_run (hmove.trans ?_)
  rw [State.busyMove, hbusy]
  simp only [hoffer]
  rfl

/-- Once the engine has stopped, the poll that follows is the last, and STREAMOFF ends (R164). -/
theorem step_quiesced {s : State} {e : Engine} (hready : s.ready) (hplain : s.plain) (hturns : s.turns = [])
    (hoff : e.chen = false) :
    step ((s.quiescing true).setE e) = .next (((s.quiescing true).setE e).readEvent .chsr).streamedOff.endOp := by
  obtain ⟨hr, hs⟩ := hplain
  have hpoll := perform_offPoll_disabled (s := (s.quiescing true).setE e) hoff .streamoff (offTail s.prm)
  have htail := Runs.offTail (op := .streamoff) (s := ((s.quiescing true).setE e).readEvent .chsr) hs hr
  rw [step_of_yielded (s := (s.quiescing true).setE e) hready.1 rfl rfl hturns, State.resume_event rfl rfl rfl, hpoll]
  exact congrArg _ (htail.fin (by decide : 5 < 255))

/-- After STREAMOFF no interrupt is pending: ISR was read (R96, R163). -/
theorem State.streamedOff_line (s : State) : s.streamedOff.e.line = false := by
  simp [State.streamedOff, Engine.line]

theorem run_two {s t u : State} (hfirst : step s = .next t) (hsecond : step t = .next u) :
    Sys2Proof.core.run 2 s = .next u := by
  have hstep : Sys2Proof.core.step = step := rfl
  simp only [Host.Core.run, hstep, hfirst, hsecond]

/-- Settles O52: the wait, the frame step that completes the disable, and the poll that finds the channel disabled. What the
end state holds is `State.streamedOff` and, of the engine, `Engine.StopsAt`. -/
theorem streamOffQuiesces : Obligations.StreamOffQuiesces := by
  refine ⟨fun s hready hplain hstreaming hon => ⟨offTail s.prm, ?_⟩,
    fun s hready hplain hturns hstream hfault hstreaming hon => ?_⟩
  · rw [exec_streamoff_waits hready hplain hstreaming hon, State.quiescing, List.append_assoc]
    rfl
  · obtain ⟨i, hi⟩ := frameStep_of_enabled (s := s.quiescing true) hfault hon
    obtain ⟨e, hexec, hstops⟩ := exec_frameStep_stops (s := s.quiescing true) ⟨hready.1, hfault⟩ rfl hi
    have hfirst := (step_quiescing hready hturns hstream hi).trans hexec
    have hlast := step_quiesced hready hplain hturns hstops.chen
    refine ⟨_, _, exec_streamoff_waits hready hplain hstreaming hon, run_two hfirst hlast,
      ⟨hstream, ⟨rfl, State.streamedOff_line _, hstops.chen⟩, hready.1, hstops.fault.trans hfault⟩,
      rfl, rfl, rfl, rfl, rfl, rfl, rfl, rfl, rfl, rfl, hstops.shadow, rfl⟩

end Sys2Proof.Machine

/-! ## The interrupt service (44_buffer_queue_irq.md R166 to R169) -/

namespace Sys2Proof.Machine

/-! ### The actions of IRQ (R166 to R168) -/

theorem Controller.promote_of_cur {c : Controller} {b : Buffer} (hcur : c.cur = some b) : c.promote = c := by
  rw [Controller.promote, hcur]

theorem Controller.promote_of_empty {c : Controller} (hcur : c.cur = none) :
    c.promote = { c with cur := c.nxt, nxt := none } := by
  rw [Controller.promote, hcur]

/-- A promotion before a flush makes no difference: the buffers are retired in the same order (R166, R167). -/
theorem Controller.flush_promote (c : Controller) : c.promote.flush = c.flush := by
  obtain hcur | ⟨b, hcur⟩ := Option.eq_none_or_eq_some c.cur
  · rw [Controller.promote_of_empty hcur, Controller.flush_eq, Controller.flush_eq, hcur]
    simp only [slotEntry, List.append_nil]
  · rw [Controller.promote_of_cur hcur]

/-- The operation in progress is no part of a promotion. -/
theorem State.startOp_promote (s : State) (op : OpName) (acts : List Act) :
    (s.startOp op acts).c.promote = ((s.setC s.c.promote).startOp op acts).c := by
  obtain hcur | ⟨b, hcur⟩ := Option.eq_none_or_eq_some s.c.cur
  · have hstarted : (s.startOp op acts).c.cur = none := hcur
    rw [Controller.promote_of_empty hstarted, Controller.promote_of_empty hcur]
    rfl
  · have hstarted : (s.startOp op acts).c.cur = some b := hcur
    rw [Controller.promote_of_cur hstarted, Controller.promote_of_cur hcur]
    rfl

section
variable {s : State} (op : OpName) (rest : List Act)

/-- IRQ's RD(CHSR) on a disabled channel: both slots retired, and the DMA interrupts still to be masked (R167). -/
theorem perform_irqChsr_disabled (hoff : s.e.chen = false) :
    perform .irqChsr (s.startOp op rest)
      = ((s.readEvent .chsr).setC s.c.flush).startOp op (wrAct s.prm .idr irqDma :: rest) := by
  have hchsr : chsrEnabled (s.startOp op rest).e.chsr = false := (chsrEnabled_chsr s.e).trans hoff
  rw [perform, State.irqChsr, if_pos hchsr, State.readEvent_c, Controller.flush_promote, Controller.flush_eq,
    Controller.flush_eq]
  rfl

/-- IRQ's RD(CHSR) on an enabled channel: a lone next buffer is promoted; with both slots full ADDR_Y is read next (R166,
R168). -/
theorem perform_irqChsr_enabled (hon : s.e.chen = true) :
    perform .irqChsr (s.startOp op rest)
      = ((s.readEvent .chsr).setC s.c.promote).startOp op
          ((if s.c.promote.cur.isSome && s.c.promote.nxt.isSome then [.irqAddr] else []) ++ rest) := by
  have hchsr : ¬ chsrEnabled (s.startOp op rest).e.chsr = false := by
    rw [State.startOp_e, chsrEnabled_chsr, hon]
    exact nofun
  rw [perform, State.irqChsr, if_neg hchsr, State.readEvent_c, State.startOp_promote]
  cases hboth : s.c.promote.cur.isSome && s.c.promote.nxt.isSome with
  | true => exact if_pos hboth
  | false => exact if_neg (by rw [State.startOp_c, State.setC_c, hboth]; exact nofun)

/-- IRQ's RD(ADDR_Y): in the current buffer's luma plane it is the last action (R168). -/
theorem perform_irqAddr_hit {b : Buffer} (hcur : s.c.cur = some b) (hhit : planeHit s.prm b (s.e.addr.get .y) = true) :
    perform .irqAddr (s.startOp op rest) = (s.readEvent (.addr .y)).startOp op rest := by
  have hstarted : ((s.startOp op rest).readEvent (.addr .y)).c.cur = some b := hcur
  rw [perform, State.irqAddr]
  simp only [hstarted]
  exact if_pos hhit

/-- IRQ's RD(ADDR_Y): outside the current buffer's luma plane the pipeline advances (R168). -/
theorem perform_irqAddr_left {b : Buffer} (hcur : s.c.cur = some b) (hhit : planeHit s.prm b (s.e.addr.get .y) = false) :
    perform .irqAddr (s.startOp op rest)
      = ((s.readEvent (.addr .y)).setC { s.c with log := s.c.log ++ [(b.id, .done)], cur := s.c.nxt, nxt := none }).startOp
          op rest := by
  have hstarted : ((s.startOp op rest).readEvent (.addr .y)).c.cur = some b := hcur
  rw [perform, State.irqAddr]
  simp only [hstarted]
  exact if_neg (ne_true_of_eq_false hhit)

end

/-! ### The whole service (R166, R199) -/

/-- With the line asserted, IRQ starts with its RD(ISR) (R166, R199). -/
theorem exec_irq_asserted {s : State} (hready : s.ready) (hline : s.e.isr &&& s.e.imr ≠ 0#32) :
    exec .irq s = .next (s.runOp .irq [.rd .isr, .irqChsr]) := by
  have hasserted : s.e.line = true := bne_iff_ne.mpr hline
  rw [exec, execIrq, if_neg (by rw [hasserted]; exact fun ⟨_, _, hlow⟩ => nomatch hlow), controllerStep_ready hready]

/-- A whole IRQ, from what its actions after the RD(ISR) lead to. -/
theorem exec_irq_of_runs {s t : State} {k : Nat} (hready : s.ready) (hs : s.unsplit) (hline : s.e.isr &&& s.e.imr ≠ 0#32)
    (h : Runs .irq k [.irqChsr] [] (s.readEvent .isr) t) (hk : k ≤ 2) (hfree : t.c.busy = none) :
    exec .irq s = .next t := by
  have hruns := (Runs.rd (op := .irq) .isr hs).cons h
  rw [exec_irq_asserted hready hline,
    State.runOp_of_runs hruns hs rfl rfl (Nat.lt_of_le_of_lt (Nat.succ_le_succ hk) (by decide : 3 < burstFuel)) hfree]

/-- After IRQ's reads of ISR and CHSR: the status acknowledged (R166). -/
def State.acknowledged (s : State) : State :=
  { s with
    e := { s.e with isr := 0#32 }
    trace := s.trace ++ [.rd .isr s.e.isr, .rd .chsr s.e.chsr] }

theorem State.readEvent_isr_chsr (s : State) : (s.readEvent .isr).readEvent .chsr = s.acknowledged := by
  rw [State.acknowledged, List.append_cons]
  rfl

/-- On a disabled channel IRQ retires both slots and masks the DMA interrupts (R167). -/
theorem Runs.irqDisabled {op : OpName} {s : State} (hplain : s.plain) (hoff : s.e.chen = false) :
    Runs op 2 [.irqChsr] [] (s.readEvent .isr) (s.acknowledged.setC s.c.flush).dmaMasked := by
  have hchsr := Runs.event (op := op) (more := [_]) (s := s.readEvent .isr) hplain.2 rfl rfl
    (fun rest => perform_irqChsr_disabled op rest hoff)
  rw [State.readEvent_isr_chsr] at hchsr
  exact hchsr.trans (Runs.maskDma (s := s.acknowledged.setC s.c.flush) hplain.2 hplain.1)

/-- On an enabled channel IRQ promotes a lone next buffer, and goes on only with both slots full (R166, R168). -/
theorem Runs.irqEnabled {op : OpName} {s : State} (hs : s.unsplit) (hon : s.e.chen = true) :
    Runs op 1 [.irqChsr] (if s.c.promote.cur.isSome && s.c.promote.nxt.isSome then [.irqAddr] else [])
      (s.readEvent .isr) (s.acknowledged.setC s.c.promote) := by
  rw [← State.readEvent_isr_chsr]
  exact Runs.event hs rfl rfl (fun rest => perform_irqChsr_enabled op rest hon)

/-- Settles O53: the flush, and the mask after it. -/
theorem interruptServiceOnAStoppedChannel : Obligations.InterruptServiceOnAStoppedChannel := by
  refine ⟨by decide, fun s hready hplain hline hoff => ?_⟩
  have hfree : s.c.flush.busy = none := by
    rw [Controller.flush_eq]
    exact hready.2
  rw [exec_irq_of_runs hready hplain.2 hline (Runs.irqDisabled hplain hoff) (le_refl 2) hfree, Controller.flush_eq,
    State.dmaMasked, State.record, State.setE_trace, State.setC_trace, State.acknowledged, List.append_assoc s.trace]
  rfl

/-- Settles O54: the branches of IRQ on an enabled channel, by what the slots hold and where ADDR_Y is. -/
theorem interruptServiceOnARunningChannel : Obligations.InterruptServiceOnARunningChannel := by
  intro s hready hplain hline hon e' reads
  have hchsr := Runs.irqEnabled (op := .irq) hplain.2 hon
  refine ⟨fun hcur => ?_, fun hcur hnxt => ?_, ?_⟩
  · rw [Controller.promote_of_empty hcur] at hchsr
    simp only [Option.isSome_none, Bool.and_false, Bool.false_eq_true, if_false] at hchsr
    exact exec_irq_of_runs hready hplain.2 hline hchsr (by decide) hready.2
  · obtain ⟨b, hcur⟩ := Option.ne_none_iff_exists'.mp hcur
    rw [Controller.promote_of_cur hcur, hnxt] at hchsr
    simp only [Option.isSome_none, Bool.and_false, Bool.false_eq_true, if_false] at hchsr
    exact exec_irq_of_runs hready hplain.2 hline hchsr (by decide) hready.2
  · intro b n hcur hnxt a hit
    have hhit := planeHit_iff s.prm b a
    have haddr : ∀ {t}, (∀ rest, perform .irqAddr (s.acknowledged.startOp .irq rest) = t.startOp .irq rest) →
        Runs .irq 1 [.irqAddr] [] s.acknowledged t := fun h => Runs.event hplain.2 rfl rfl h
    rw [Controller.promote_of_cur hcur, hcur, hnxt] at hchsr
    refine ⟨fun hin => ?_, fun hout => ?_⟩
    · have hruns := hchsr.trans (haddr fun rest => perform_irqAddr_hit .irq rest hcur (hhit.mpr hin))
      exact exec_irq_of_runs hready hplain.2 hline hruns (le_refl 2) hready.2
    · have hleft := haddr fun rest =>
        perform_irqAddr_left .irq rest hcur (eq_false_of_ne_true (mt hhit.mp hout))
      have hruns := hchsr.trans hleft
      rw [exec_irq_of_runs hready hplain.2 hline hruns (le_refl 2) hready.2, ← hnxt]
      rfl

end Sys2Proof.Machine

/-! ## Engine events: when they are enabled, and what they leave as it was (45_engine.md R173, R183 to R187; 60_exceptions.md
R199) -/

namespace Sys2Proof.Machine

/-! ### The enabling conditions (R173) -/

theorem engineStep_notEnabled {s : State} (hready : s.engineReady) {enabled : Bool} (h : enabled = false) (t : State) :
    engineStep s enabled t = .refused .notEnabled := by
  rw [engineStep, hready.1, hready.2, h]
  rfl

/-- A ready engine takes an event exactly where its enabling condition holds. -/
theorem engineStep_answers {s : State} (hready : s.engineReady) {enabled : Bool} {P : Prop} (hP : enabled = true ↔ P)
    (t : State) :
    (P → ∃ u, engineStep s enabled t = .next u) ∧ (¬ P → engineStep s enabled t = .refused .notEnabled) :=
  ⟨fun h => ⟨t, engineStep_ready hready (hP.mpr h) t⟩,
    fun h => engineStep_notEnabled hready (eq_false_of_ne_true (mt hP.mp h)) t⟩

theorem startEnabled_iff (e : Engine) : (e.chen && e.phase == .between) = true ↔ e.chen = true ∧ e.phase = .between := by
  rw [Bool.and_eq_true, beq_iff_eq]

theorem State.fetchEnabled_iff (s : State) (p : Plane) (a : Word) :
    s.fetchEnabled p a = true
      ↔ s.e.phase = .fetching ∧ p.index < np s.prm s.e.active.mode ∧ (s.e.ctrl.get p).getLsbD 0 = true
        ∧ s.e.inFetchSet s.prm p a := by
  simp only [State.fetchEnabled, ctrlDfetch, Bool.and_eq_true, beq_iff_eq, decide_eq_true_eq, Engine.fetchable_iff,
    and_assoc]

theorem State.ovrEnabled_iff (s : State) (p : Plane) :
    s.ovrEnabled p = true ↔ s.e.phase = .fetching ∧ p.index < np s.prm s.e.active.mode := by
  rw [State.ovrEnabled, Bool.and_eq_true, beq_iff_eq, decide_eq_true_eq]

/-- With the line low no interrupt service starts (R199). -/
theorem exec_irq_low {s : State} (hready : s.ready) (hline : s.e.isr &&& s.e.imr = 0#32) :
    exec .irq s = .refused .notEnabled := by
  have hlow : s.e.line = false := bne_eq_false_iff_eq.mpr hline
  rw [exec, execIrq, if_pos ⟨hready.1, hready.2, hlow⟩]

/-- Settles O12: each engine event goes through `engineStep` with a condition of its own, and IRQ asks for the line. -/
theorem eventsAreEnabledExactly : Obligations.EventsAreEnabledExactly := by
  refine ⟨fun s hready => ⟨exec_irq_low hready, fun hline => ⟨_, exec_irq_asserted hready hline⟩⟩,
    fun s hready => ⟨?_, fun p a => ?_, ?_, fun p => ?_, ?_⟩⟩
  · exact ite_prop_iff_and.mpr (engineStep_answers hready (startEnabled_iff s.e) _)
  · rw [exec_ofFetch]
    exact engineStep_answers hready (s.fetchEnabled_iff p a) _
  · exact ite_prop_iff_and.mpr (engineStep_answers hready beq_iff_eq _)
  · rw [exec_ofOvr]
    exact ite_prop_iff_and.mpr (engineStep_answers hready (s.ovrEnabled_iff p) _)
  · exact ite_prop_iff_and.mpr (engineStep_answers hready Iff.rfl _)

/-! ### The fields of other agents (R183, R186, R187) -/

/-- A frame start, faulting or not, leaves the registers the controller writes (R90, R91, R175). -/
theorem State.startFrame_head_shadow (s : State) :
    s.startFrame.e.head = s.e.head ∧ s.startFrame.e.shadow = s.e.shadow := by
  rw [State.startFrame_eq]
  split
  · exact ⟨rfl, rfl⟩
  · rename_i n _ _
    obtain ⟨_, _, _, _, _, _, _, _, _, _, hload, -⟩ := State.loadPlanes_frame s.e.updpend
      (if s.e.updpend then s.e.head else s.e.next) (planesBelow n)
      (s.setE { s.e with active := if s.e.updpend then s.e.shadow else s.e.active })
    rw [hload]
    exact ⟨rfl, rfl⟩

/-- What of the engine's own registers no engine event changes, and that status bits only come (R183, R186). -/
theorem engineEvent_keeps {i : Instr} {s t : State} (hi : isEngineEvent i = true) (h : exec i s = .next t) :
    t.e.head = s.e.head ∧ t.e.shadow = s.e.shadow ∧ t.e.imr = s.e.imr ∧ grows s.e.isr t.e.isr := by
  obtain ⟨-, ⟨-, -, -, rfl⟩ | ⟨p, a, -, -, -, -, rfl⟩ | ⟨-, -, rfl⟩ | ⟨p, -, rfl⟩ | ⟨-, rfl⟩⟩ :=
    engineEvent_cases hi h
  · split
    · exact ⟨rfl, rfl, rfl, grows_doneEvents s.prm s.e⟩
    · obtain ⟨hhead, hshadow⟩ := s.startFrame_head_shadow
      obtain ⟨himr, -, hgrows⟩ := s.startFrame_engine
      exact ⟨hhead, hshadow, himr, hgrows⟩
  · exact ⟨rfl, rfl, rfl, grows_refl _⟩
  · obtain ⟨addr, isr, hend, -, hgrows⟩ := s.e.endFrame_spec s.prm
    rw [hend]
    exact ⟨rfl, rfl, rfl, hgrows⟩
  · exact ⟨rfl, rfl, rfl, grows_setEvent _ _ _ _⟩
  · exact ⟨rfl, rfl, rfl, grows_refl _⟩

/-- Settles O20: an event touches the engine alone, and of the engine only what is its own. -/
theorem engineEventsKeepWhatIsNotTheirs : Obligations.EngineEventsKeepWhatIsNotTheirs := by
  intro s t i hi h
  obtain ⟨hhead, hshadow, himr, hgrows⟩ := engineEvent_keeps hi h
  obtain ⟨e, fresh, rfl⟩ := engineEvent_touches hi h
  exact ⟨rfl, rfl, rfl, rfl, rfl, rfl, rfl, rfl, rfl, hhead, hshadow, himr, grows_and hgrows⟩

/-! ### An engine turn inside an operation (R190, R224) -/

/-- The engine takes the event that stands at the head of the stream before the frame step it is obliged to take (log 3). -/
theorem State.engineOffer_of_decode {s : State} {i : Instr} {rest : List Word} (h : decode s.stream = .ok i rest)
    (hi : isEngineEvent i = true) : s.engineOffer = some (i, { s with stream := rest }) := by
  simp only [State.engineOffer, h, hi, if_true]

/-- Settles O8: the turn gives the move to the engine, and the stream says which event it takes. -/
theorem stepRunsAnEngineEventInsideAnOperation : Obligations.StepRunsAnEngineEventInsideAnOperation := by
  intro s b i rest ts hrefused hb hturns hdecode hi hsplit
  have hoffer : ({ s with turns := ts } : State).engineOffer = some (i, { s with stream := rest, turns := ts }) :=
    State.engineOffer_of_decode hdecode hi
  have hcounts : (s.prm.atomicOps && !b.atWait) = false := by
    rcases hsplit with hsplit | hwait
    · rw [hsplit, Bool.false_and]
    · rw [hwait, Bool.not_true, Bool.and_false]
  have hbusy : nextMove s = s.busyMove b := by rw [nextMove, hrefused, hb]
  have hmove : s.busyMove b = .run i ({ s with stream := rest, turns := ts } : State).markYielded := by
    simp only [State.busyMove, hturns, hcounts, hoffer, Bool.false_eq_true, if_false]
  have hmark : ({ s with stream := rest, turns := ts } : State).markYielded
      = { s with stream := rest, turns := ts, c := { s.c with busy := some { b with yielded := true } } } := by
    simp only [State.markYielded, hb]
    rfl
  exact step_of_nextMove_run (hbusy.trans (hmove.trans (congrArg _ hmark)))

end Sys2Proof.Machine

/-! ## Frame start (45_engine.md R174 to R177) -/

namespace Sys2Proof.Machine

/-! ### The two effects of E_FSTART -/

section
variable {s : State} (hready : s.engineReady) (hchen : s.e.chen = true) (hphase : s.e.phase = .between)
include hready hchen hphase

theorem exec_eFstart_stops (hdisp : s.e.dispend = true) :
    exec .eFstart s = .next (s.setE (s.e.stopChannel s.prm)) := by
  rw [exec, execEFstart, engineStep_ready hready ((startEnabled_iff s.e).mpr ⟨hchen, hphase⟩), if_pos hdisp]

theorem exec_eFstart_starts (hdisp : s.e.dispend = false) : exec .eFstart s = .next s.startFrame := by
  rw [exec, execEFstart, engineStep_ready hready ((startEnabled_iff s.e).mpr ⟨hchen, hphase⟩),
    if_neg (ne_true_of_eq_false hdisp)]

end

/-- Between frames a stop leaves the phase. -/
theorem Engine.stopChannel_between {e : Engine} (hphase : e.phase = .between) (prm : Params) :
    e.stopChannel prm = { e with chen := false, dispend := false, updpend := false, isr := e.doneEvents prm } := by
  rw [Engine.stopChannel, ← hphase]

/-- Settles O55: the effect is StopChannel, whose ISR is `Engine.doneEvents`. -/
theorem frameStartCompletesADisable : Obligations.FrameStartCompletesADisable := by
  refine ⟨rfl, fun s hready hchen hphase hdisp => ⟨s.e.doneEvents s.prm, ?_, s.e.doneEvents_getLsbD s.prm⟩⟩
  rw [exec_eFstart_stops hready hchen hphase hdisp, Engine.stopChannel_between hphase]
  rfl

/-! ### What a frame starts with, and its faults -/

/-- The configuration a frame start works with: ACTIVE after the optional latch (R175). -/
def Engine.frameConfig (e : Engine) : Cfg := if e.updpend then e.shadow else e.active

/-- The pointers a frame start loads from: HEAD at a latched update, NEXT otherwise (R175). -/
def Engine.frameSource (e : Engine) : Planes Word := if e.updpend then e.head else e.next

theorem State.startFrame_badMode {s : State} (h : formatOf s.prm s.e.frameConfig.mode = none) :
    s.startFrame = (s.setE { s.e with active := s.e.frameConfig }).engineFault .badMode := by
  unfold Engine.frameConfig at h
  rw [State.startFrame_eq, h]
  rfl

/-- With a supported MODE a frame start is the load of the active planes. -/
theorem State.startFrame_supported {s : State} (h : formatOf s.prm s.e.frameConfig.mode ≠ none) :
    s.startFrame
      = (s.setE { s.e with active := s.e.frameConfig }).loadPlanes s.e.updpend s.e.frameSource
          (planesBelow (np s.prm s.e.frameConfig.mode)) := by
  obtain ⟨⟨n, bytes⟩, hf⟩ := Option.ne_none_iff_exists'.mp h
  rw [np_of_formatOf hf]
  unfold Engine.frameConfig at hf
  rw [State.startFrame_eq, hf]
  rfl

/-- A pointer that is no multiple of 4 ends the frame start before the frame is entered (R177). -/
theorem State.startFrame_misaligned {s : State} (hfmt : formatOf s.prm s.e.frameConfig.mode ≠ none)
    (h : ∃ p : Plane, p.index < np s.prm s.e.frameConfig.mode ∧ (s.e.frameSource.get p).toNat % 4 ≠ 0) :
    s.startFrame.e.fault = some .misaligned ∧ s.startFrame.e.phase = s.e.phase
      ∧ s.startFrame.e.active = s.e.frameConfig ∧ s.startFrame.e.chen = s.e.chen := by
  obtain ⟨p, hp, hpointer⟩ := h
  have hmem : p ∈ planesBelow (np s.prm s.e.frameConfig.mode) := (mem_planesBelow _ p).mpr hp
  have hodd : wordAligned (s.e.frameSource.get p) = false := eq_false_of_ne_true (mt (wordAligned_iff _).mp hpointer)
  obtain ⟨_, _, _, _, _, _, _, hload, -⟩ := State.loadPlanes_misaligned s.e.updpend s.e.frameSource
    (planesBelow (np s.prm s.e.frameConfig.mode)) (s.setE { s.e with active := s.e.frameConfig }) ⟨p, hmem, hodd⟩
  rw [State.startFrame_supported hfmt, hload]
  exact ⟨rfl, rfl, rfl, rfl⟩

/-- Settles O56: with a supported MODE and aligned pointers, the load of the planes below np. -/
theorem frameStartLoadsDescriptors : Obligations.FrameStartLoadsDescriptors := by
  intro s hready hchen hphase hdisp active src hfmt haligned
  obtain ⟨addr, ctrl, next, addr0, dload, isr, fresh, hload, hin, hout, hisr⟩ :=
    State.loadPlanes_aligned s.e.updpend src (planesBelow (np s.prm active.mode)) (planesBelow_nodup _)
      (s.setE { s.e with active := active })
      (fun p hp => (wordAligned_iff _).mpr (haligned p ((mem_planesBelow _ p).mp hp)))
  simp only [mem_planesBelow] at hin hout hisr
  refine ⟨addr, ctrl, next, addr0, dload, isr, fresh, ?_, hin, hout, hisr⟩
  rw [exec_eFstart_starts hready hchen hphase hdisp, State.startFrame_supported hfmt]
  exact congrArg _ hload

/-- Settles O57: an unsupported MODE, a misaligned pointer, or neither; the last enters the frame as O56 says. -/
theorem frameStartFaults : Obligations.FrameStartFaults := by
  intro s hready hchen hphase hdisp active src
  by_cases hfmt : formatOf s.prm active.mode = none
  · have hexec := (exec_eFstart_starts hready hchen hphase hdisp).trans (congrArg _ (State.startFrame_badMode hfmt))
    exact ⟨_, hexec, ⟨fun _ => hfmt, fun _ => rfl⟩, ⟨fun h => (nomatch h), fun h => absurd hfmt h.1⟩,
      fun _ => ⟨hphase, rfl, hchen⟩⟩
  · by_cases hodd : ∃ p : Plane, p.index < np s.prm active.mode ∧ (src.get p).toNat % 4 ≠ 0
    · obtain ⟨hfault, hstill, hlatched, hon⟩ := State.startFrame_misaligned hfmt hodd
      exact ⟨_, exec_eFstart_starts hready hchen hphase hdisp,
        ⟨fun h => (nomatch hfault.symm.trans h), fun h => absurd h hfmt⟩, ⟨fun _ => ⟨hfmt, hodd⟩, fun _ => hfault⟩,
        fun _ => ⟨hstill.trans hphase, hlatched, hon.trans hchen⟩⟩
    · have haligned : ∀ p : Plane, p.index < np s.prm active.mode → (src.get p).toNat % 4 = 0 :=
        fun p hp => of_not_not fun hne => hodd ⟨p, hp, hne⟩
      have hclear := hready.2
      obtain ⟨_, _, _, _, _, _, _, hexec, -⟩ := frameStartLoadsDescriptors s hready hchen hphase hdisp hfmt haligned
      exact ⟨_, hexec, ⟨fun h => (nomatch hclear.symm.trans h), fun h => absurd h hfmt⟩,
        ⟨fun h => (nomatch hclear.symm.trans h), fun h => absurd h.2 hodd⟩, fun hfault => absurd hclear hfault⟩

end Sys2Proof.Machine

/-! ## Frame fetch, frame end and status events (45_engine.md R178 to R185) -/

namespace Sys2Proof.Machine

/-- Settles O58: the event is enabled, and its effect is the one register. -/
theorem fetchMovesTheAddress : Obligations.FetchMovesTheAddress := by
  refine ⟨fun a => ⟨rfl, rfl, rfl⟩, fun s p a hready hphase hp hdfetch ha => ?_⟩
  rw [exec_ofFetch, engineStep_ready hready ((s.fetchEnabled_iff p a).mpr ⟨hphase, hp, hdfetch, ha⟩)]
  rfl

/-- Settles O60: each event is enabled, and its effect is the one bit. -/
theorem statusEvents : Obligations.StatusEvents := by
  refine ⟨⟨rfl, rfl, rfl, rfl⟩, fun s hready => ⟨fun p hphase hp => ?_, fun hsync => ?_⟩⟩
  · rw [exec_ofOvr, engineStep_ready hready ((s.ovrEnabled_iff p).mpr ⟨hphase, hp⟩)]
    rfl
  · rw [exec, execESync, engineStep_ready hready hsync]
    rfl

/-- The status bits of a frame end: DMA, and DONE where a pending disable completes (R176, R181). -/
theorem Engine.endFrame_isr (prm : Params) (e : Engine) (n : Nat) :
    (e.endFrame prm).isr.getLsbD n = true
      ↔ e.isr.getLsbD n = true
        ∨ ∃ p : Plane, p.index < np prm e.active.mode
            ∧ ((n = 2 + 8 * p.index ∧ (e.ctrl.get p).getLsbD 2 = true)
              ∨ (n = 5 + 8 * p.index ∧ (e.ctrl.get p).getLsbD 5 = true ∧ e.dispend = true)) := by
  obtain ⟨addr, isr, hplanes, -, hdma⟩ := e.endPlanes_spec prm
  have hdone := Engine.doneEvents_getLsbD prm { e with addr := addr, isr := isr, phase := .between } n
  simp only [Engine.endFrame, hplanes]
  by_cases hdisp : e.dispend = true
  · rw [if_pos hdisp]
    refine hdone.trans ?_
    simp only [hdma n, hdisp, and_true, and_or_left, exists_or, or_assoc, and_comm (a := n = 5 + _)]
  · rw [if_neg hdisp]
    simpa [hdisp] using hdma n

/-- Settles O59: the effect is `Engine.endFrame`, Last_p written out. -/
theorem frameEnd : Obligations.FrameEnd := by
  refine ⟨rfl, fun s hready hphase => ?_⟩
  obtain ⟨addr, isr, hend, haddr, -⟩ := s.e.endFrame_spec s.prm
  have hisr : isr = (s.e.endFrame s.prm).isr := by rw [hend]
  refine ⟨addr, isr, ?_, haddr, fun n => hisr ▸ s.e.endFrame_isr s.prm n⟩
  rw [exec, execEFend, engineStep_ready hready (beq_iff_eq.mpr hphase), hend]
  rfl

end Sys2Proof.Machine

/-! ## ADDR stays in the last frame (45_engine.md R178, R180) -/

namespace Sys2Proof.Machine

/-! ### The addresses a plane's DMA register may hold -/

/-- Address a belongs to plane p's last frame: it is in the fetch set, or the frame's start where that set is empty (R180). -/
def Engine.inFrame (prm : Params) (e : Engine) (p : Plane) (a : Word) : Prop :=
  e.inFetchSet prm p a ∨ ((∀ x, ¬ e.inFetchSet prm p x) ∧ a = e.addr0.get p)

theorem State.addrsInFrame_iff (s : State) :
    s.addrsInFrame ↔ ∀ p : Plane, p.index < np s.prm s.e.active.mode → s.e.inFrame s.prm p (s.e.addr.get p) := Iff.rfl

/-- The frame is given by ACTIVE and ADDR0. -/
theorem Engine.inFrame_congr {e e' : Engine} (hactive : e'.active = e.active) (haddr0 : e'.addr0 = e.addr0) (prm : Params)
    (p : Plane) (a : Word) : e'.inFrame prm p a ↔ e.inFrame prm p a := by
  cases e
  cases e'
  cases hactive
  cases haddr0
  rfl

/-- Without a line, or with empty lines, a frame has no address (R178). -/
theorem Engine.not_inFetchSet_of_empty {prm : Params} {e : Engine} {p : Plane} (h : ¬ (1 ≤ e.fetchW p ∧ 1 ≤ e.fetchH p))
    (a : Word) : ¬ e.inFetchSet prm p a := by
  rintro ⟨i, j, hi0, hi, hj0, hj, -⟩
  omega

/-- The last address of a walk belongs to the frame. -/
theorem Engine.lastAddr_inFrame (prm : Params) (e : Engine) (p : Plane) : e.inFrame prm p (e.lastAddr prm p) := by
  unfold Engine.lastAddr
  split
  next h => exact .inl ⟨_, _, by omega, by omega, by omega, by omega, rfl⟩
  next h => exact .inr ⟨Engine.not_inFetchSet_of_empty h, rfl⟩

/-- The address a walk starts from belongs to the frame. -/
theorem Engine.inFrame_of_eq_addr0 {e : Engine} {p : Plane} {a : Word} (ha : a = e.addr0.get p) (prm : Params) :
    e.inFrame prm p a := by
  by_cases h : 1 ≤ e.fetchW p ∧ 1 ≤ e.fetchH p
  · have hfirst : e.fetchAddr prm p 0 0 = a := by simp [Engine.fetchAddr, ha]
    exact .inl ⟨0, 0, le_refl 0, by omega, le_refl 0, by omega, hfirst⟩
  · exact .inr ⟨Engine.not_inFetchSet_of_empty h, ha⟩

/-! ### A step that leaves ACTIVE and ADDR0 -/

/-- Where the frame stays the same, it is enough that each address that moves, moves inside it. -/
theorem State.addrsInFrame.of_sameFrame {s t : State} (hs : s.addrsInFrame) (hprm : t.prm = s.prm)
    (hactive : t.e.active = s.e.active) (haddr0 : t.e.addr0 = s.e.addr0)
    (haddr : ∀ p, t.e.addr.get p = s.e.addr.get p ∨ s.e.inFrame s.prm p (t.e.addr.get p)) : t.addrsInFrame := by
  rw [State.addrsInFrame_iff, hprm, hactive]
  intro p hp
  rw [Engine.inFrame_congr hactive haddr0]
  rcases haddr p with hsame | hmoved
  · rw [hsame]
    exact hs p hp
  · exact hmoved

theorem State.addrsInFrame.of_reaches {s t : State} (hs : s.addrsInFrame) (hprm : t.prm = s.prm)
    (h : s.e.controllerReaches t.e) : t.addrsInFrame := by
  obtain ⟨hactive, haddr, -, -, haddr0, -⟩ := h
  exact hs.of_sameFrame hprm hactive haddr0 fun p => .inl (by rw [haddr])

/-! ### Frame start -/

theorem exec_eFstart_next {s t : State} (h : exec .eFstart s = .next t) :
    s.engineReady ∧ s.e.chen = true ∧ s.e.phase = .between := by
  obtain ⟨hready, henabled, -⟩ := engineStep_next h
  exact ⟨hready, (startEnabled_iff s.e).mp henabled⟩

/-- A frame start without fault puts ADDR of each active plane at the frame's first address, whatever it was before (R175). -/
theorem addrsInFrame_of_start {s t : State} (h : exec .eFstart s = .next t) (hdisp : s.e.dispend = false)
    (hfault : t.e.fault = none) : t.addrsInFrame := by
  obtain ⟨hready, hchen, hphase⟩ := exec_eFstart_next h
  obtain ⟨u, hexec, hbad, hodd, -⟩ := frameStartFaults s hready hchen hphase hdisp
  cases hexec.symm.trans h
  have hfmt : formatOf s.prm s.e.frameConfig.mode ≠ none := fun hnone => nomatch hfault.symm.trans (hbad.mpr hnone)
  have haligned : ∀ p : Plane, p.index < np s.prm s.e.frameConfig.mode → (s.e.frameSource.get p).toNat % 4 = 0 :=
    fun p hp => of_not_not fun hne => nomatch hfault.symm.trans (hodd.mpr ⟨hfmt, p, hp, hne⟩)
  obtain ⟨addr, ctrl, next, addr0, dload, isr, fresh, hload, hin, -⟩ :=
    frameStartLoadsDescriptors s hready hchen hphase hdisp hfmt haligned
  cases hexec.symm.trans hload
  intro p hp
  obtain ⟨hstart, -⟩ := hin p hp
  exact Engine.inFrame_of_eq_addr0 hstart.symm s.prm

/-- E_FSTART enters a frame only with no disable pending and without fault (R176, R177). -/
theorem eFstart_enters {s t : State} (h : exec .eFstart s = .next t) (henters : t.e.phase = .fetching) :
    s.e.dispend = false ∧ t.e.fault = none := by
  obtain ⟨hready, hchen, hphase⟩ := exec_eFstart_next h
  cases hdisp : s.e.dispend with
  | true =>
    cases h.symm.trans (exec_eFstart_stops hready hchen hphase hdisp)
    cases henters
  | false =>
    obtain ⟨u, hexec, -, -, hstays⟩ := frameStartFaults s hready hchen hphase hdisp
    cases hexec.symm.trans h
    exact ⟨rfl, of_not_not fun hfault => nomatch henters.symm.trans (hstays hfault).1⟩

/-! ### Every engine event, and every step -/

/-- An engine event without fault starts a frame at its first address, fetches inside the frame, ends it at its last address,
or leaves ADDR. -/
theorem engineEvent_addrsInFrame {i : Instr} {s t : State} (hs : s.addrsInFrame) (hi : isEngineEvent i = true)
    (h : exec i s = .next t) (hfault : t.e.fault = none) : t.addrsInFrame := by
  obtain ⟨-, ⟨rfl, -, -, ht⟩ | ⟨p, a, -, -, -, hfetch, rfl⟩ | ⟨-, -, rfl⟩ | ⟨p, -, rfl⟩ | ⟨-, rfl⟩⟩ :=
    engineEvent_cases hi h
  · cases hdisp : s.e.dispend with
    | false => exact addrsInFrame_of_start h hdisp hfault
    | true =>
      rw [hdisp, if_pos rfl] at ht
      cases ht
      exact hs.of_sameFrame rfl rfl rfl fun _ => .inl rfl
  · refine hs.of_sameFrame rfl rfl rfl fun q => ?_
    by_cases hq : q = p
    · subst hq
      have hmoved : (s.e.addr.set q a).get q = a := Planes.get_set_same _ _ _
      exact .inr (.inl (hmoved.symm ▸ (Engine.fetchable_iff _ _ _ _).mp hfetch))
    · exact .inl (Planes.get_set_other _ _ _ _ hq)
  · obtain ⟨addr, isr, hend, haddr, -⟩ := s.e.endFrame_spec s.prm
    rw [hend]
    refine hs.of_sameFrame rfl rfl rfl fun p => ?_
    by_cases hp : p.index < np s.prm s.e.active.mode ∧ (s.e.ctrl.get p).getLsbD 0 = true
    · have hlast : addr.get p = s.e.lastAddr s.prm p := (haddr p).1 hp.1 hp.2
      exact .inr (hlast.symm ▸ s.e.lastAddr_inFrame s.prm p)
    · exact .inl ((haddr p).2 hp)
  · exact hs.of_sameFrame rfl rfl rfl fun _ => .inl rfl
  · exact hs.of_sameFrame rfl rfl rfl fun _ => .inl rfl

/-- Settles O17: no controller event reaches ADDR, ADDR0 or ACTIVE, and every engine event keeps ADDR in the frame. -/
theorem addressesStayInTheFrame : Obligations.AddressesStayInTheFrame := by
  refine ⟨fun s t hs h hfault => ?_, fun s t h henters => ?_⟩
  · have hsame : ∀ {u}, SameBut s u → u.addrsInFrame := fun hu =>
      hs.of_reaches hu.prm (hu.e ▸ Engine.controllerReaches_refl _)
    rcases step_kinds h with ⟨i, u, -, hi, hx, hu, -⟩ | ⟨i, u, v, -, hi, hx, hu, -⟩ | ⟨u, b, -, rfl, -, hu, -⟩ |
      ⟨-, -, rfl | ⟨r, rfl⟩⟩
    · exact engineEvent_addrsInFrame (hsame hu) hi hx hfault
    · obtain ⟨hprm, hreaches⟩ := exec_reaches hi hx
      exact (hsame hu).of_reaches hprm hreaches
    · have hkeeps := burst_keeps burstFuel true u
      exact (hsame hu).of_reaches hkeeps.prm hkeeps.e
    · exact hs
    · exact hs
  · obtain ⟨hdisp, hfault⟩ := eFstart_enters h henters
    exact addrsInFrame_of_start h hdisp hfault

end Sys2Proof.Machine

/-! ## A faulted engine (60_exceptions.md R195) -/

namespace Sys2Proof.Machine

theorem engineStep_stuck {s : State} {f : EngineFault} (hr : s.refused = none) (hf : s.e.fault = some f) (enabled : Bool)
    (t : State) : engineStep s enabled t = .fault (.engineStuck f) := by
  rw [engineStep, hr, hf]

/-- No event gets past the fault record, enabled or not: each kind goes through `engineStep` (R195). -/
theorem exec_stuck {s : State} {f : EngineFault} {i : Instr} (hr : s.refused = none) (hf : s.e.fault = some f)
    (hi : isEngineEvent i = true) : exec i s = .fault (.engineStuck f) := by
  cases engineKind_of hi with
  | fetch p a => rw [exec_ofFetch]; exact engineStep_stuck hr hf _ _
  | ovr p => rw [exec_ofOvr]; exact engineStep_stuck hr hf _ _
  | _ => exact engineStep_stuck hr hf _ _

theorem Engine.fault_of_reaches {e e' : Engine} (h : e.controllerReaches e') : e'.fault = e.fault := by
  obtain ⟨-, -, -, -, -, -, -, hfault, -⟩ := h
  exact hfault

/-- Once recorded, a fault stays: a step that answers a next state is then no engine event, and no other reaches the record
(R187, R195). -/
theorem step_keeps_fault {s t : State} {f : EngineFault} (hf : s.e.fault = some f) (h : step s = .next t) :
    t.e.fault = some f := by
  rcases step_kinds h with ⟨i, u, -, hi, hx, hu, -⟩ | ⟨i, u, v, -, hi, hx, hu, -⟩ | ⟨u, b, -, rfl, -, hu, -⟩ |
    ⟨-, -, rfl | ⟨r, rfl⟩⟩
  · obtain ⟨-, hnone⟩ := engineReady_of_event hi hx
    rw [hu.e, hf] at hnone
    cases hnone
  · obtain ⟨-, hreaches⟩ := exec_reaches hi hx
    rw [Engine.fault_of_reaches hreaches, hu.e, hf]
  · rw [State.resume, Engine.fault_of_reaches (burst_keeps _ _ u).e, hu.e, hf]
  · exact hf
  · exact hf

/-- Settles O11: `engineStep` asks for the fault record before the enabling condition, and no controller event writes it. -/
theorem faultedEngineIsStuck : Obligations.FaultedEngineIsStuck :=
  ⟨fun _ _ _ hr hf hi => exec_stuck hr hf hi, fun _ _ _ hf h => step_keeps_fault hf h⟩

end Sys2Proof.Machine

/-! ## Reset: nothing is in progress and nothing is enabled (70_reset_and_hazards.md R217; 45_engine.md R173) -/

namespace Sys2Proof.Machine

/-- Between frames, the channel disabled and no synchronisation in progress, the engine has no enabled step (R173). -/
theorem exec_engineEvent_idle {s : State} {i : Instr} (hready : s.engineReady) (hchen : s.e.chen = false)
    (hphase : s.e.phase = .between) (hsipsts : s.e.sipsts = false) (hi : isEngineEvent i = true) :
    exec i s = .refused .notEnabled := by
  have hnoStart : ¬ (s.e.chen = true ∧ s.e.phase = .between) := fun h => ne_true_of_eq_false hchen h.1
  have hnoFrame : s.e.phase ≠ .fetching := by rw [hphase]; nofun
  obtain ⟨hstart, hfetch, hend, hovr, hsync⟩ := eventsAreEnabledExactly.2 s hready
  cases engineKind_of hi with
  | fstart => rwa [if_neg hnoStart] at hstart
  | fetch p a => exact (hfetch p a).2 (fun h => hnoFrame h.1)
  | fend => rwa [if_neg hnoFrame] at hend
  | ovr p => exact (if_neg (fun h => hnoFrame h.1)).mp (hovr p)
  | sync => rwa [if_neg (ne_true_of_eq_false hsipsts)] at hsync

/-- Settles O6: reset leaves the engine idle, and ISR and IMR zero. -/
theorem nothingIsEnabledAfterReset : Obligations.NothingIsEnabledAfterReset := by
  intro prm d i hi
  have hpending : (State.afterReset prm d).e.isr &&& (State.afterReset prm d).e.imr = 0#32 := BitVec.and_zero
  refine ⟨rfl, bne_eq_false_iff_eq.mpr hpending, ?_⟩
  rcases hi with hi | rfl
  · exact exec_engineEvent_idle ⟨rfl, rfl⟩ rfl rfl rfl hi
  · exact exec_irq_low ⟨rfl, rfl⟩ hpending

end Sys2Proof.Machine

/-! ## The synchronisation hang (70_reset_and_hazards.md R226; 40_register_access.md R102)

With the engine off, its only enabled step is E_SYNC, which fairness does not oblige it to take. So every step is a poll, and
a poll that reads 1 without a bound leaves the operation at its next poll. -/

namespace Sys2Proof.Machine

/-- Off between frames, the engine is obliged to no frame step (R189 (a)). -/
theorem frameStep_of_disabled {s : State} (hchen : s.e.chen = false) (hphase : s.e.phase = .between) :
    s.frameStep = none := by
  simp [State.frameStep, hchen, hphase]

/-- With no packet, no turn and no frame step of the engine, the operation in progress goes on (log 3). -/
theorem step_of_noFrameStep {s : State} {b : Busy} (hrefused : s.refused = none) (hb : s.c.busy = some b)
    (hstream : s.stream = []) (hturns : s.turns = []) (hframe : s.frameStep = none) : step s = .next s.resume := by
  have hempty : decode s.stream = .bad .invalidEncoding := congrArg decode hstream
  have hoffer : s.engineOffer = none := by rw [State.engineOffer, hempty, hframe]; rfl
  have hmove : nextMove s = .goOn s := by
    simp only [nextMove, hrefused, hb, State.busyMove, hturns, hoffer, ite_self]
  rw [step, hmove]

/-- A state at a poll that nothing ends: SYNC_WAIT has no bound, and neither a packet nor a turn nor a frame step gives the
engine a move. -/
structure State.HangsAtPoll (s : State) : Prop where
  refused : s.refused = none
  polling : ∃ (b : Busy) (r : WReg) (x : Word) (n : Nat) (acts : List Act),
    s.c.busy = some b ∧ b.acts = .poll r x n :: acts
  unbounded : s.prm.syncWait = .unbounded
  sipsts : s.e.sipsts = true
  chen : s.e.chen = false
  phase : s.e.phase = .between
  stream : s.stream = []
  turns : s.turns = []

/-- A step of a hanging state is its poll, which reads 1 and leaves the state hanging at the next one. -/
theorem step_keeps_hangsAtPoll {s : State} (h : s.HangsAtPoll) : ∃ t, step s = .next t ∧ t.HangsAtPoll := by
  obtain ⟨b, r, x, n, acts, hb, hacts⟩ := h.polling
  have hagain : SyncWait.expired s.prm.syncWait (n + 1) = false := SyncWait.expired_eq_false_iff.mpr (.inl h.unbounded)
  have hstep : step s = .next ((s.record (.rd .syncsr 1#32)).startOp b.op (.poll r x (n + 1) :: acts)) := by
    rw [step_of_noFrameStep h.refused hb h.stream h.turns (frameStep_of_disabled h.chen h.phase),
      State.resume_poll hb hacts, State.afterPoll_again h.sipsts hagain]
  exact ⟨_, hstep, h.refused, ⟨_, r, x, n + 1, acts, rfl, rfl⟩, h.unbounded, h.sipsts, h.chen, h.phase, h.stream, h.turns⟩

/-- What every step goes on from and keeps, every run goes on from and keeps. -/
theorem run_keeps {P : State → Prop} (hstep : ∀ s, P s → ∃ t, step s = .next t ∧ P t) (n : Nat) {s : State} (h : P s) :
    ∃ t, Sys2Proof.core.run n s = .next t ∧ P t := by
  have hcore : Sys2Proof.core.step = step := rfl
  induction n generalizing s with
  | zero => exact ⟨s, rfl, h⟩
  | succ n ih =>
    obtain ⟨t, hfirst, ht⟩ := hstep s h
    obtain ⟨u, hrun, hu⟩ := ih ht
    exact ⟨u, by simp only [Host.Core.run, hcore, hfirst, hrun], hu⟩

/-- Settles O29, by induction on the steps: each keeps `State.HangsAtPoll`. -/
theorem synchronisationHangIsAdmitted : Obligations.SynchronisationHangIsAdmitted := by
  intro s b r x m acts n hrefused hb hacts hwait hsipsts hchen hphase hstream hturns
  have hhangs : s.HangsAtPoll :=
    ⟨hrefused, ⟨b, r, x, m, acts, hb, hacts⟩, hwait, hsipsts, hchen, hphase, hstream, hturns⟩
  obtain ⟨t, hrun, ht⟩ := run_keeps (fun _ => step_keeps_hangsAtPoll) n hhangs
  obtain ⟨_, _, _, _, _, hbusy, _⟩ := ht.polling
  exact ⟨t, hrun, by rw [hbusy]; nofun, ht.sipsts⟩

end Sys2Proof.Machine
